-- ==== Sys2Proof/Word.lean ====
section
/-! DEFINITION. The words of the FQ-1608: what its rules treat as bits. -/

namespace Sys2Proof

/-- One byte of a frame (R155). -/
abbrev Byte := BitVec 8

/-- A reading of the Stamp Clock, a 32-bit counter of microseconds (R1). -/
abbrev Stamp := BitVec 32

/-- A cycle number, 0 to 65,535 with wrap (R6). -/
abbrev Cycle := BitVec 16

/-- A line set: OUTn belongs to it when bit n is set (R172). -/
abbrev LineSet := BitVec 16

end Sys2Proof
end

