-- ==== Sys2Proof/Config.lean ====
section
/-! DEFINITION. What the FQ-1608 fixes (sizes and times its rules give) and the free values its rules leave open. -/

namespace Sys2Proof.Config

/-- The longest body a frame can carry (R155). -/
abbrev maxBody : Nat := 248

/-- The start byte of a frame (R155). -/
abbrev startByte : Byte := 0x7E#8

/-- Room of the inbound queue (R157). -/
abbrev inboundRoom : Nat := 4

/-- Room of the reply queue (R158). -/
abbrev replyRoom : Nat := 4

/-- Room of the outcome log (R67). -/
abbrev outcomeRoom : Nat := 32

/-- Room of a capture log (R82). -/
abbrev captureRoom : Nat := 8

/-- Room of a group queue (R83). -/
abbrev queueRoom : Nat := 8

/-- The gap that drops a partial frame, in microseconds (R156). -/
abbrev gapTime : Nat := 4000

/-- The interval of the speed sample, in microseconds (R17). -/
abbrev sampleTime : Nat := 1000

/-- The shortest and the longest store operation, in microseconds (R166). -/
abbrev storeMin : Nat := 5000
@[inherit_doc storeMin] abbrev storeMax : Nat := 15000

/-- The longest autoload, in microseconds (R169). -/
abbrev autoloadMax : Nat := 3000

/-- FREE VALUE (notes/assumptions/7): how long the start-up numbered by the argument takes until its autoload ends.
The spec gives only the bound (R169), which the model keeps by reducing the value into 0 to 3,000. -/
opaque autoloadTime : Nat → Nat

/-- FREE VALUE (notes/assumptions/8): when the store operation numbered by the argument ends by itself.
The spec gives only the range (R166), into which the model reduces the value. -/
opaque storeTime : Nat → Nat

end Sys2Proof.Config
end

