-- ==== Sys2Proof/Syntax.lean ====
section
/-! DEFINITION. The commands of the FQ-1608: one constructor of `Instr` a row of spec/opcode_table.json, and the types of
their operands. -/

namespace Sys2Proof

/-- A frame without its start byte, length and check: tag, kind and body (R155). -/
structure Frame where
  tag  : Byte
  kind : Byte
  body : List Byte
deriving DecidableEq, Repr

/-- A condition the Fault Monitor keeps apart from every other: six kinds, LINE_MISMATCH one a line (R128, R129). -/
inductive Condition where
  | supplyLow
  | axisSignal
  | overspeed
  | reverseLimit
  | lineMismatch (line : Fin 16)
  | linkSilent
deriving DecidableEq, Repr

/-- The commands.  A request carries its frame's tag and body bytes, so that a body of any length and any field value has
its meaning (R158, R172, R173). -/
inductive Instr where
  /-- AXIS_SETUP (R12), kind 0x01. -/
  | axisSetup (tag : Byte) (body : List Byte)
  /-- AXIS_RUN (R5), kind 0x02. -/
  | axisRun (tag : Byte) (body : List Byte)
  /-- AXIS_HALT (R5), kind 0x03. -/
  | axisHalt (tag : Byte) (body : List Byte)
  /-- AXIS_ZERO (R13), kind 0x04. -/
  | axisZero (tag : Byte) (body : List Byte)
  /-- AXIS_HOME (R14), kind 0x05. -/
  | axisHome (tag : Byte) (body : List Byte)
  /-- MODULUS_STAGE (R11), kind 0x06. -/
  | modulusStage (tag : Byte) (body : List Byte)
  /-- AXIS_READ (R20), kind 0x07. -/
  | axisRead (tag : Byte) (body : List Byte)
  /-- CUE_PUT (R30), kind 0x10. -/
  | cuePut (tag : Byte) (body : List Byte)
  /-- GROUP_PUT (R84), kind 0x11. -/
  | groupPut (tag : Byte) (body : List Byte)
  /-- CUE_CANCEL (R37), kind 0x12. -/
  | cueCancel (tag : Byte) (body : List Byte)
  /-- GROUP_CANCEL (R86), kind 0x13. -/
  | groupCancel (tag : Byte) (body : List Byte)
  /-- CUE_READ (R40), kind 0x14. -/
  | cueRead (tag : Byte) (body : List Byte)
  /-- LIST_READ (R41), kind 0x15. -/
  | listRead (tag : Byte) (body : List Byte)
  /-- MARKS_SET (R42), kind 0x16. -/
  | marksSet (tag : Byte) (body : List Byte)
  /-- ARM (R50), kind 0x20. -/
  | arm (tag : Byte) (body : List Byte)
  /-- DISARM (R51), kind 0x21. -/
  | disarm (tag : Byte) (body : List Byte)
  /-- HOLD (R52), kind 0x22. -/
  | hold (tag : Byte) (body : List Byte)
  /-- RELEASE (R53), kind 0x23. -/
  | release (tag : Byte) (body : List Byte)
  /-- SEQ_READ (R71), kind 0x24. -/
  | seqRead (tag : Byte) (body : List Byte)
  /-- OUTCOMES_READ (R70), kind 0x25. -/
  | outcomesRead (tag : Byte) (body : List Byte)
  /-- CAPTURE_SETUP (R74), kind 0x30. -/
  | captureSetup (tag : Byte) (body : List Byte)
  /-- CAPTURES_READ (R95), kind 0x31. -/
  | capturesRead (tag : Byte) (body : List Byte)
  /-- CAM_LOAD (R102), kind 0x38. -/
  | camLoad (tag : Byte) (body : List Byte)
  /-- CAM_READ (R108), kind 0x39. -/
  | camRead (tag : Byte) (body : List Byte)
  /-- LINE_SETUP (R117), kind 0x40. -/
  | lineSetup (tag : Byte) (body : List Byte)
  /-- LINES_ENABLE (R118), kind 0x41. -/
  | linesEnable (tag : Byte) (body : List Byte)
  /-- LINES_SET (R119), kind 0x42. -/
  | linesSet (tag : Byte) (body : List Byte)
  /-- LINES_READ (R120), kind 0x43. -/
  | linesRead (tag : Byte) (body : List Byte)
  /-- INPUT_SETUP (R125), kind 0x44. -/
  | inputSetup (tag : Byte) (body : List Byte)
  /-- LIMITS_SET (R140), kind 0x50. -/
  | limitsSet (tag : Byte) (body : List Byte)
  /-- FAULT_READ (R141), kind 0x51. -/
  | faultRead (tag : Byte) (body : List Byte)
  /-- RESUME (R137), kind 0x52. -/
  | resume (tag : Byte) (body : List Byte)
  /-- EVENT_ENABLE (R145), kind 0x60. -/
  | eventEnable (tag : Byte) (body : List Byte)
  /-- EVENT_READ (R150), kind 0x61. -/
  | eventRead (tag : Byte) (body : List Byte)
  /-- EVENT_CLEAR (R149), kind 0x62. -/
  | eventClear (tag : Byte) (body : List Byte)
  /-- NOTICE_ORDER (R151), kind 0x63. -/
  | noticeOrder (tag : Byte) (body : List Byte)
  /-- STORE_SAVE (R166), kind 0x70. -/
  | storeSave (tag : Byte) (body : List Byte)
  /-- STORE_ERASE (R166), kind 0x71. -/
  | storeErase (tag : Byte) (body : List Byte)
  /-- STORE_READ (R168), kind 0x72. -/
  | storeRead (tag : Byte) (body : List Byte)
  /-- RESTART (R171), kind 0x7F. -/
  | restart (tag : Byte) (body : List Byte)
  /-- UNKNOWN_KIND_REQUEST (R158): a request whose kind names none. -/
  | unknownKindRequest (tag : Byte) (kind : Byte) (body : List Byte)
  /-- RECEIVE_CHARACTER (R156): a character at RXD; `stopHigh` is false for a framing error (R153). -/
  | receiveCharacter (byte : Byte) (stopHigh : Bool)
  /-- GAP_TIMER_EXPIRY (R156): 4 ms without a character during a frame. -/
  | gapTimerExpiry
  /-- FRAME_SENT (R160): the end of a frame on TXD. -/
  | frameSent
  /-- RESTART_BEGIN (R171): the restart, once the RESTART reply has left. -/
  | restartBegin
  /-- FULL_RESET (R161): power-on, or RST# low. -/
  | fullReset
  /-- START_UP (R169): RST# rises; the operands are the levels of the straps. -/
  | startUp (cfg0 : Bool) (cfg1 : Bool) (cfg2 : Bool)
  /-- STORE_OPERATION_END (R167): the end of a store write or erase. -/
  | storeOperationEnd
  /-- INPUT_RAW_CHANGE (R123): the pin level of an input changes. -/
  | inputRawChange (input : Fin 8) (high : Bool)
  /-- INPUT_EDGE_ACCEPTED (R123): an input's pending change is accepted. -/
  | inputEdgeAccepted (input : Fin 8)
  /-- TIMEBASE_COUNT (R4): the timebase's count of a stamp. -/
  | timebaseCount
  /-- SPEED_SAMPLE (R17): the 1 ms speed sample. -/
  | speedSample
  /-- LEAD_ARRIVAL (R58): the Cue Table takes its next arrival of the lead point. -/
  | leadArrival
  /-- WINDOW_ARRIVAL (R76): the Capture Unit takes its next arrival. -/
  | windowArrival
  /-- TRAIL_ARRIVAL (R115): the Line Unit takes its next arrival. -/
  | trailArrival
  /-- TRAIL_EXPIRY (R115): the end of a TIME trail. -/
  | trailExpiry (line : Fin 16)
  /-- PROFILE_SWAP (R106): the Cam Unit takes its next cycle boundary. -/
  | profileSwap
  /-- PIN_SAMPLE_CHANGE (R121): the sampled level of an output pin changes. -/
  | pinSampleChange (line : Fin 16) (high : Bool)
  /-- MISMATCH_TIMEOUT (R121): a PENDING mismatch has lasted its time. -/
  | mismatchTimeout (line : Fin 16)
  /-- SUPPLY_CROSSING (R130): the supply is found at a voltage. -/
  | supplyCrossing (millivolts : BitVec 16)
  /-- SILENCE_EXPIRY (R162): the silence timer expires. -/
  | silenceExpiry
  /-- CONDITION_BEGIN (R128): the Fault Monitor takes the beginning of a condition. -/
  | conditionBegin (cond : Condition)
  /-- CONDITION_END (R129): the Fault Monitor takes the ending of a condition. -/
  | conditionEnd (cond : Condition)
deriving DecidableEq, Repr

end Sys2Proof
end

