-- ==== Sys2Proof/WellFormed.lean ====
section
/-! DEFINITION. Which commands are well formed: a request's frame exists, and an unknown kind is unknown. -/

namespace Sys2Proof

/-- The kinds that name a request (section 11.3). -/
def knownKinds : List Byte :=
  [0x01#8, 0x02#8, 0x03#8, 0x04#8, 0x05#8, 0x06#8, 0x07#8, 0x10#8, 0x11#8, 0x12#8,
   0x13#8, 0x14#8, 0x15#8, 0x16#8, 0x20#8, 0x21#8, 0x22#8, 0x23#8, 0x24#8, 0x25#8,
   0x30#8, 0x31#8, 0x38#8, 0x39#8, 0x40#8, 0x41#8, 0x42#8, 0x43#8, 0x44#8, 0x50#8,
   0x51#8, 0x52#8, 0x60#8, 0x61#8, 0x62#8, 0x63#8, 0x70#8, 0x71#8, 0x72#8, 0x7F#8]

/-- A body that a frame can carry, 0 to 248 bytes (R155). -/
def bodyFits (body : List Byte) : Bool := decide (body.length ≤ Config.maxBody)

/-- The well-formed commands.  Every other operand is bounded by its type. -/
def Instr.wf : Instr → Bool
  | .axisSetup _ body => bodyFits body
  | .axisRun _ body => bodyFits body
  | .axisHalt _ body => bodyFits body
  | .axisZero _ body => bodyFits body
  | .axisHome _ body => bodyFits body
  | .modulusStage _ body => bodyFits body
  | .axisRead _ body => bodyFits body
  | .cuePut _ body => bodyFits body
  | .groupPut _ body => bodyFits body
  | .cueCancel _ body => bodyFits body
  | .groupCancel _ body => bodyFits body
  | .cueRead _ body => bodyFits body
  | .listRead _ body => bodyFits body
  | .marksSet _ body => bodyFits body
  | .arm _ body => bodyFits body
  | .disarm _ body => bodyFits body
  | .hold _ body => bodyFits body
  | .release _ body => bodyFits body
  | .seqRead _ body => bodyFits body
  | .outcomesRead _ body => bodyFits body
  | .captureSetup _ body => bodyFits body
  | .capturesRead _ body => bodyFits body
  | .camLoad _ body => bodyFits body
  | .camRead _ body => bodyFits body
  | .lineSetup _ body => bodyFits body
  | .linesEnable _ body => bodyFits body
  | .linesSet _ body => bodyFits body
  | .linesRead _ body => bodyFits body
  | .inputSetup _ body => bodyFits body
  | .limitsSet _ body => bodyFits body
  | .faultRead _ body => bodyFits body
  | .resume _ body => bodyFits body
  | .eventEnable _ body => bodyFits body
  | .eventRead _ body => bodyFits body
  | .eventClear _ body => bodyFits body
  | .noticeOrder _ body => bodyFits body
  | .storeSave _ body => bodyFits body
  | .storeErase _ body => bodyFits body
  | .storeRead _ body => bodyFits body
  | .restart _ body => bodyFits body
  | .unknownKindRequest _ kind body => bodyFits body && !knownKinds.contains kind
  | .receiveCharacter _ _ => true
  | .gapTimerExpiry => true
  | .frameSent => true
  | .restartBegin => true
  | .fullReset => true
  | .startUp _ _ _ => true
  | .storeOperationEnd => true
  | .inputRawChange _ _ => true
  | .inputEdgeAccepted _ => true
  | .timebaseCount => true
  | .speedSample => true
  | .leadArrival => true
  | .windowArrival => true
  | .trailArrival => true
  | .trailExpiry _ => true
  | .profileSwap => true
  | .pinSampleChange _ _ => true
  | .mismatchTimeout _ => true
  | .supplyCrossing _ => true
  | .silenceExpiry => true
  | .conditionBegin _ => true
  | .conditionEnd _ => true

end Sys2Proof
end

