-- ==== Sys2Proof/Decode.lean ====
section
/-! DEFINITION. From frames to commands and back (R155, R172 section 11.3), the check of a frame, and the host's
`decodeTableWord`. -/

namespace Sys2Proof

/-- The request kinds of section 11.3, each with the command it names.  A kind the section does not list names no request
(R158). -/
def Frame.command (f : Frame) : Instr :=
  match f.kind.toNat with
  | 0x01 => .axisSetup f.tag f.body
  | 0x02 => .axisRun f.tag f.body
  | 0x03 => .axisHalt f.tag f.body
  | 0x04 => .axisZero f.tag f.body
  | 0x05 => .axisHome f.tag f.body
  | 0x06 => .modulusStage f.tag f.body
  | 0x07 => .axisRead f.tag f.body
  | 0x10 => .cuePut f.tag f.body
  | 0x11 => .groupPut f.tag f.body
  | 0x12 => .cueCancel f.tag f.body
  | 0x13 => .groupCancel f.tag f.body
  | 0x14 => .cueRead f.tag f.body
  | 0x15 => .listRead f.tag f.body
  | 0x16 => .marksSet f.tag f.body
  | 0x20 => .arm f.tag f.body
  | 0x21 => .disarm f.tag f.body
  | 0x22 => .hold f.tag f.body
  | 0x23 => .release f.tag f.body
  | 0x24 => .seqRead f.tag f.body
  | 0x25 => .outcomesRead f.tag f.body
  | 0x30 => .captureSetup f.tag f.body
  | 0x31 => .capturesRead f.tag f.body
  | 0x38 => .camLoad f.tag f.body
  | 0x39 => .camRead f.tag f.body
  | 0x40 => .lineSetup f.tag f.body
  | 0x41 => .linesEnable f.tag f.body
  | 0x42 => .linesSet f.tag f.body
  | 0x43 => .linesRead f.tag f.body
  | 0x44 => .inputSetup f.tag f.body
  | 0x50 => .limitsSet f.tag f.body
  | 0x51 => .faultRead f.tag f.body
  | 0x52 => .resume f.tag f.body
  | 0x60 => .eventEnable f.tag f.body
  | 0x61 => .eventRead f.tag f.body
  | 0x62 => .eventClear f.tag f.body
  | 0x63 => .noticeOrder f.tag f.body
  | 0x70 => .storeSave f.tag f.body
  | 0x71 => .storeErase f.tag f.body
  | 0x72 => .storeRead f.tag f.body
  | 0x7F => .restart f.tag f.body
  | _ => .unknownKindRequest f.tag f.kind f.body

/-- The frame that carries a request; none for a command that is no request (R155). -/
def Instr.frame : Instr → Option Frame
  | .axisSetup tag body => some ⟨tag, 0x01#8, body⟩
  | .axisRun tag body => some ⟨tag, 0x02#8, body⟩
  | .axisHalt tag body => some ⟨tag, 0x03#8, body⟩
  | .axisZero tag body => some ⟨tag, 0x04#8, body⟩
  | .axisHome tag body => some ⟨tag, 0x05#8, body⟩
  | .modulusStage tag body => some ⟨tag, 0x06#8, body⟩
  | .axisRead tag body => some ⟨tag, 0x07#8, body⟩
  | .cuePut tag body => some ⟨tag, 0x10#8, body⟩
  | .groupPut tag body => some ⟨tag, 0x11#8, body⟩
  | .cueCancel tag body => some ⟨tag, 0x12#8, body⟩
  | .groupCancel tag body => some ⟨tag, 0x13#8, body⟩
  | .cueRead tag body => some ⟨tag, 0x14#8, body⟩
  | .listRead tag body => some ⟨tag, 0x15#8, body⟩
  | .marksSet tag body => some ⟨tag, 0x16#8, body⟩
  | .arm tag body => some ⟨tag, 0x20#8, body⟩
  | .disarm tag body => some ⟨tag, 0x21#8, body⟩
  | .hold tag body => some ⟨tag, 0x22#8, body⟩
  | .release tag body => some ⟨tag, 0x23#8, body⟩
  | .seqRead tag body => some ⟨tag, 0x24#8, body⟩
  | .outcomesRead tag body => some ⟨tag, 0x25#8, body⟩
  | .captureSetup tag body => some ⟨tag, 0x30#8, body⟩
  | .capturesRead tag body => some ⟨tag, 0x31#8, body⟩
  | .camLoad tag body => some ⟨tag, 0x38#8, body⟩
  | .camRead tag body => some ⟨tag, 0x39#8, body⟩
  | .lineSetup tag body => some ⟨tag, 0x40#8, body⟩
  | .linesEnable tag body => some ⟨tag, 0x41#8, body⟩
  | .linesSet tag body => some ⟨tag, 0x42#8, body⟩
  | .linesRead tag body => some ⟨tag, 0x43#8, body⟩
  | .inputSetup tag body => some ⟨tag, 0x44#8, body⟩
  | .limitsSet tag body => some ⟨tag, 0x50#8, body⟩
  | .faultRead tag body => some ⟨tag, 0x51#8, body⟩
  | .resume tag body => some ⟨tag, 0x52#8, body⟩
  | .eventEnable tag body => some ⟨tag, 0x60#8, body⟩
  | .eventRead tag body => some ⟨tag, 0x61#8, body⟩
  | .eventClear tag body => some ⟨tag, 0x62#8, body⟩
  | .noticeOrder tag body => some ⟨tag, 0x63#8, body⟩
  | .storeSave tag body => some ⟨tag, 0x70#8, body⟩
  | .storeErase tag body => some ⟨tag, 0x71#8, body⟩
  | .storeRead tag body => some ⟨tag, 0x72#8, body⟩
  | .restart tag body => some ⟨tag, 0x7F#8, body⟩
  | .unknownKindRequest tag kind body => some ⟨tag, kind, body⟩
  | .receiveCharacter _ _ => none
  | .gapTimerExpiry => none
  | .frameSent => none
  | .restartBegin => none
  | .fullReset => none
  | .startUp _ _ _ => none
  | .storeOperationEnd => none
  | .inputRawChange _ _ => none
  | .inputEdgeAccepted _ => none
  | .timebaseCount => none
  | .speedSample => none
  | .leadArrival => none
  | .windowArrival => none
  | .trailArrival => none
  | .trailExpiry _ => none
  | .profileSwap => none
  | .pinSampleChange _ _ => none
  | .mismatchTimeout _ => none
  | .supplyCrossing _ => none
  | .silenceExpiry => none
  | .conditionBegin _ => none
  | .conditionEnd _ => none

/-- One bit shifted into the CRC-16 register, most significant bit first, generator polynomial 0x1021 (R155). -/
def crcBit (crc : BitVec 16) : BitVec 16 :=
  if crc.msb then (crc <<< 1) ^^^ 0x1021#16 else crc <<< 1

/-- One byte shifted into the CRC-16 register (R155). -/
def crcByte (crc : BitVec 16) (b : Byte) : BitVec 16 :=
  crcBit (crcBit (crcBit (crcBit (crcBit (crcBit (crcBit (crcBit (crc ^^^ (b.setWidth 16 <<< 8)))))))))

/-- The check of a frame over its length byte, tag, kind and body: the register starts at 0xFFFF and is not inverted
(R155). -/
def crc16 (bytes : List Byte) : BitVec 16 :=
  bytes.foldl crcByte 0xFFFF#16

/-- The high byte of a 16-bit number. -/
def highByte (w : BitVec 16) : Byte := (w >>> 8).setWidth 8

/-- The low byte of a 16-bit number. -/
def lowByte (w : BitVec 16) : Byte := w.setWidth 8

/-- The bytes a frame counts and checks: tag, kind and body (R155). -/
def Frame.counted (f : Frame) : List Byte := f.tag :: f.kind :: f.body

/-- The length byte of a frame (R155). -/
def Frame.length (f : Frame) : Byte := BitVec.ofNat 8 f.counted.length

/-- The check of a frame (R155). -/
def Frame.check (f : Frame) : BitVec 16 := crc16 (f.length :: f.counted)

/-- A frame as its bytes on the link: start byte, length, tag, kind, body and check, high byte first (R155). -/
def Frame.bytes (f : Frame) : List Byte :=
  Config.startByte :: f.length :: f.counted ++ [highByte f.check, lowByte f.check]

/-- The command that a word spells by the table's bits: the table gives no row any bits (98_reader.md), so none
(notes/assumptions/24). -/
def decodeTableWord (_nbits _w : Nat) : Option Instr := none

end Sys2Proof
end

