-- ==== Sys2Proof/Machine/Records.lean ====
section
/-! DEFINITION. The records of the FQ-1608's blocks, each as its chapter tabulates it, with its reset value. -/

namespace Sys2Proof.Machine

/-! ## The machine axis (chapter 1) -/

/-- A key: a point of the axis (00_scope, Conventions). -/
structure Key where
  cycle : Cycle
  pos   : Nat
deriving DecidableEq, Repr

/-- The key (0, 0). -/
def Key.zero : Key := ⟨0#16, 0⟩

/-- The source of counts (R12). -/
inductive AxisSource where
  | quad | step | timebase
deriving DecidableEq, Repr

/-- What the AXIS block stores (R164). -/
structure AxisSettings where
  source  : AxisSource
  k       : Nat
  modulus : Nat
  home    : Nat
deriving DecidableEq, Repr

/-- The Axis Unit.  The reverse excursion is computed from it (`excursion`).  `takenA`, `takenB` and `timebaseTaken` say
what the present stamp has seen already; `overspeed` and `reversed` say which conditions stand reported. -/
structure Axis where
  cfg           : AxisSettings
  running       : Bool
  staged        : Option Nat
  current       : Key
  lead          : Key
  netCount      : Int
  speed         : Int
  nextSample    : Stamp
  pairA         : Bool
  pairB         : Bool
  takenA        : Bool
  takenB        : Bool
  timebaseTaken : Bool
  homing        : Bool
  reverseLimit  : Nat
  speedLimit    : Nat
  overspeed     : Bool
  reversed      : Bool
deriving DecidableEq, Repr

/-- The axis settings after reset (R21). -/
def AxisSettings.reset : AxisSettings := ⟨.timebase, 0, 3600, 0⟩

/-- The Axis Unit after reset (R21).  The stored pair before QUAD is selected is DESIGN CHOICE
(notes/assumptions/20). -/
def Axis.reset : Axis where
  cfg := AxisSettings.reset
  running := false
  staged := none
  current := Key.zero
  lead := Key.zero
  netCount := 0
  speed := 0
  nextSample := 1000#32
  pairA := false
  pairB := false
  takenA := false
  takenB := false
  timebaseTaken := false
  homing := false
  reverseLimit := 0
  speedLimit := 0
  overspeed := false
  reversed := false

/-! ## Cues (chapter 2) and anchored groups (chapter 4) -/

/-- What a cue does to its lines (R113). -/
inductive Action where
  | activate | clear | toggle | pulse
deriving DecidableEq, Repr

/-- The unit of a pulse width (R23). -/
inductive WidthUnit where
  | counts | microseconds
deriving DecidableEq, Repr

/-- A pulse width (R23). -/
structure Width where
  value : Nat
  unit  : WidthUnit
deriving DecidableEq, Repr

/-- The remaining count of a repeating cue (R23): how many firings follow the next one. -/
inductive Remaining where
  | times (n : Nat)
  | unending
deriving DecidableEq, Repr

/-- The repeat field (R23). -/
structure Repetition where
  remaining : Remaining
  period    : Nat
deriving DecidableEq, Repr

/-- The catch-up choice (R23). -/
inductive CatchUp where
  | fire | skip
deriving DecidableEq, Repr

/-- The fields a cue keeps in every place it stands in (R23).  The key, the group and the place in group are where the
record stands: in the cue list, or in a group's list. -/
structure Cue where
  slot    : Fin 256
  lines   : LineSet
  action  : Action
  width   : Option Width
  rep     : Option Repetition
  catchUp : CatchUp
  report  : Bool
  offset  : Option Nat
deriving DecidableEq, Repr

/-- A LISTED cue: the cue and its key (R25). -/
structure Listed where
  cue : Cue
  key : Key
deriving DecidableEq, Repr

/-- The miss policy of a group (R83). -/
inductive MissPolicy where
  | drop | nominal
deriving DecidableEq, Repr

/-- A QUEUED group with its WAITING cues in group order (R83).  Its channel is the queue it stands in. -/
structure Group where
  number : Fin 32
  policy : MissPolicy
  cues   : List Cue
deriving DecidableEq, Repr

/-- An arrival of the lead point as it is handed over (R7): its key, and whether it is a cycle boundary (R9). -/
structure Arrival where
  key      : Key
  boundary : Bool
deriving DecidableEq, Repr

/-- The Cue Table: the cue list, the four group queues, its own lead point (R27), the marks, and the arrivals handed to it
and not yet taken. -/
structure CueTable where
  list     : List Listed
  queues   : Vector (List Group) 4
  lead     : Key
  lowMark  : Nat
  highMark : Nat
  arrivals : List Arrival
deriving DecidableEq, Repr

/-- The Cue Table after reset (R47, R96).  Its own lead point at (0, 0) is DESIGN CHOICE: R47 gives none, and R21 gives the Axis
Unit's (notes/assumptions/27). -/
def CueTable.reset : CueTable where
  list := []
  queues := Vector.replicate 4 []
  lead := Key.zero
  lowMark := 0
  highMark := 256
  arrivals := []

/-! ## The Sequencer (chapter 3) -/

/-- The sequencer state (R48). -/
inductive SeqState where
  | idle | armed | hold | safe
deriving DecidableEq, Repr

/-- The cause of an outcome (R68). -/
inductive Cause where
  | key | catchUp | skipped | expired
deriving DecidableEq, Repr

/-- An outcome record (R68).  `sets` holds the applied and the masked line set. -/
structure OutcomeRecord where
  slot      : Fin 256
  cause     : Cause
  action    : Action
  sets      : Option (LineSet × LineSet)
  key       : Key
  lead      : Key
  stamp     : Stamp
  remaining : Option Remaining
  skipped   : Option Nat
deriving DecidableEq, Repr

/-- The Sequencer: its state, the hold reasons, the freeze level and the outcome log, oldest record first (R48, R49,
R67). -/
structure Sequencer where
  state       : SeqState
  holdRequest : Bool
  holdPin     : Bool
  freeze      : Bool
  log         : List OutcomeRecord
deriving DecidableEq, Repr

/-- The Sequencer after reset (R72). -/
def Sequencer.reset : Sequencer := ⟨.idle, false, false, false, []⟩

/-! ## Capture channels (chapter 4) -/

/-- The direction of an accepted edge (R123). -/
inductive Edge where
  | rising | falling
deriving DecidableEq, Repr

/-- The edges a channel selects (R73). -/
inductive EdgeChoice where
  | rising | falling | both
deriving DecidableEq, Repr

/-- The gate of a channel (R73). -/
inductive Gate where
  | always
  | window (start stop nominal : Nat)
deriving DecidableEq, Repr

/-- The episode of a channel, with the episode cycle while OPEN or TAKEN (R73). -/
inductive Episode where
  | closed
  | opened (cycle : Cycle)
  | taken (cycle : Cycle)
deriving DecidableEq, Repr

/-- A capture record (R81). -/
structure CaptureRecord where
  channel : Fin 4
  point   : Key
  edge    : Edge
  stamp   : Stamp
  group   : Option (Fin 32)
deriving DecidableEq, Repr

/-- The result of a miss (R91). -/
inductive MissResult where
  | dropped | nominal | empty | suspended
deriving DecidableEq, Repr

/-- The last miss of a channel (R73). -/
structure Miss where
  result : MissResult
  group  : Option (Fin 32)
  cycle  : Cycle
deriving DecidableEq, Repr

/-- The settings of a channel, as the CAPTURE block stores them (R164). -/
structure ChannelSettings where
  enabled : Bool
  input   : Option (Fin 8)
  edge    : EdgeChoice
  gate    : Gate
deriving DecidableEq, Repr

/-- The channel record (R73). -/
structure Channel where
  cfg      : ChannelSettings
  episode  : Episode
  strays   : Nat
  log      : List CaptureRecord
  latest   : Option CaptureRecord
  lastMiss : Option Miss
deriving DecidableEq, Repr

/-- A channel's settings after reset (R96). -/
def ChannelSettings.reset : ChannelSettings := ⟨false, none, .rising, .always⟩

/-- A channel after reset (R96). -/
def Channel.reset : Channel := ⟨ChannelSettings.reset, .closed, 0, [], none, none⟩

/-- The Capture Unit: four channels, and the arrivals handed to it and not yet taken. -/
structure CaptureUnit where
  channels : Vector Channel 4
  arrivals : List Key
deriving DecidableEq, Repr

/-- The Capture Unit after reset (R96). -/
def CaptureUnit.reset : CaptureUnit := ⟨Vector.replicate 4 Channel.reset, []⟩

/-! ## Cam tracks (chapter 5) -/

/-- A window of a profile (R97). -/
structure Window where
  on  : Nat
  off : Nat
deriving DecidableEq, Repr

/-- A profile (R97). -/
inductive Profile where
  | empty
  | full
  | windows (ws : List Window)
deriving DecidableEq, Repr

/-- The two profile slots (R97). -/
inductive ProfileSlot where
  | a | b
deriving DecidableEq, Repr

/-- A cam track (R97), with the advance and the advanced position of the last recomputation (R108). -/
structure Track where
  slotA    : Profile
  slotB    : Profile
  active   : ProfileSlot
  staged   : Bool
  leadTime : Nat
  level    : Bool
  advance  : Int
  advPos   : Nat
deriving DecidableEq, Repr

/-- A track after reset (R109). -/
def Track.reset : Track := ⟨.empty, .empty, .a, false, 0, false, 0, 0⟩

/-- What the CAMS block stores of a track (R164). -/
structure TrackSettings where
  profile  : Profile
  leadTime : Nat
deriving DecidableEq, Repr

/-- The Cam Unit: eight tracks, and how many cycle boundaries were handed to it and not yet taken. -/
structure CamUnit where
  tracks     : Vector Track 8
  boundaries : Nat
deriving DecidableEq, Repr

/-- The Cam Unit after reset (R109). -/
def CamUnit.reset : CamUnit := ⟨Vector.replicate 8 Track.reset, 0⟩

/-! ## Output and input lines (chapter 6) -/

/-- The owner of an output line (R110). -/
inductive Owner where
  | nobody
  | direct
  | cue
  | cam (track : Fin 8)
deriving DecidableEq, Repr

/-- The polarity of an output line (R110). -/
inductive Polarity where
  | activeHigh | activeLow
deriving DecidableEq, Repr

/-- The driver of an output line (R110). -/
inductive Driver where
  | off | pushPull | openDrain
deriving DecidableEq, Repr

/-- The safe level of an output line (R110). -/
inductive SafeLevel where
  | inactive | active | float
deriving DecidableEq, Repr

/-- The trail of an output line (R110). -/
inductive Trail where
  | counts (key : Key)
  | time (expiry : Stamp)
deriving DecidableEq, Repr

/-- The mismatch state of an output line (R110). -/
inductive MismatchState where
  | agree
  | pending (since : Stamp)
  | present
deriving DecidableEq, Repr

/-- The drive of an output pin (R111). -/
inductive PinDrive where
  | low | high | released
deriving DecidableEq, Repr

/-- The settings of an output line, as LINE_SETUP carries them and the LINES block stores them (R117, R164). -/
structure LineSettings where
  owner        : Owner
  polarity     : Polarity
  driver       : Driver
  safeLevel    : SafeLevel
  mismatchTime : Nat
deriving DecidableEq, Repr

/-- An output line's settings after reset (R127). -/
def LineSettings.reset : LineSettings := ⟨.nobody, .activeHigh, .off, .inactive, 0⟩

/-- An output line record (R110), with the level sampled at its pin (R111). -/
structure OutLine where
  cfg      : LineSettings
  enable   : Bool
  direct   : Bool
  cue      : Bool
  trail    : Option Trail
  mismatch : MismatchState
  sampled  : Bool
deriving DecidableEq, Repr

/-- An output line after reset (R127).  The sampled level is the pin's. -/
def OutLine.reset (sampled : Bool) : OutLine :=
  ⟨LineSettings.reset, false, false, false, none, .agree, sampled⟩

/-- The output side of the Line Unit, with the arrivals handed to it and not yet taken. -/
structure OutputLines where
  lines    : Vector OutLine 16
  arrivals : List Key
deriving DecidableEq, Repr

/-- The function of an input (R124). -/
inductive InputFn where
  | general
  | freeze
  | axisA
  | axisB
  | index
  | capture (channel : Fin 4)
deriving DecidableEq, Repr

/-- The edge mode of an input (R125). -/
inductive EdgeMode where
  | never | rising | falling | both
deriving DecidableEq, Repr

/-- What the INPUTS block stores of an input (R164): the function is GENERAL or FREEZE. -/
structure InputSettings where
  freeze   : Bool
  edgeMode : EdgeMode
  filter   : Nat
deriving DecidableEq, Repr

/-- An input line (R123, R124): its function, edge mode, filter time, accepted level, raw pin level, and the stamp of a
pending change. -/
structure InLine where
  fn           : InputFn
  edgeMode     : EdgeMode
  filter       : Nat
  accepted     : Bool
  raw          : Bool
  pendingSince : Option Stamp
deriving DecidableEq, Repr

/-- An input line after reset: the accepted level is the raw pin level (R127). -/
def InLine.reset (raw : Bool) : InLine := ⟨.general, .never, 0, raw, raw, none⟩

/-! ## Faults (chapter 7) -/

/-- The kinds of fault (R128). -/
inductive FaultKind where
  | supplyLow | axisSignal | overspeed | reverseLimit | lineMismatch | linkSilent
deriving DecidableEq, Repr

/-- The primary record (R132). -/
structure FaultRecord where
  kind    : FaultKind
  stamp   : Stamp
  current : Key
  lead    : Key
  left    : SeqState
  line    : Option (Fin 16)
  speed   : Option Int
deriving DecidableEq, Repr

/-- A condition report handed to the Fault Monitor: a beginning or an ending, with what the kind's record needs (R128): the
current and the lead point for AXIS_SIGNAL, the speed sample for OVERSPEED. -/
structure Report where
  cond   : Condition
  begins : Bool
  points : Option (Key × Key)
  speed  : Option Int
deriving DecidableEq, Repr

/-- The present set (R129). -/
structure PresentSet where
  supplyLow    : Bool
  overspeed    : Bool
  reverseLimit : Bool
  linkSilent   : Bool
  lines        : LineSet
deriving DecidableEq, Repr

/-- The empty present set. -/
def PresentSet.none : PresentSet := ⟨false, false, false, false, 0#16⟩

/-- The Fault Monitor.  The secondary set has bit r − 1 for the kind of rank r (section 11.4); `flt` is FLT# asserted
(R134). -/
structure FaultMonitor where
  count     : BitVec 16
  primary   : Option FaultRecord
  secondary : BitVec 8
  present   : PresentSet
  flt       : Bool
  inbox     : List Report
deriving DecidableEq, Repr

/-- The Fault Monitor after reset (R142). -/
def FaultMonitor.reset : FaultMonitor := ⟨0#16, none, 0#8, PresentSet.none, false, []⟩

/-- The supply comparator (R130): the supply level, the voltage at the pin in millivolts, and whether SUPPLY_LOW stands
reported. -/
structure Supply where
  level      : Fin 4
  millivolts : Nat
  low        : Bool
deriving DecidableEq, Repr

/-! ## Events (chapter 8) -/

/-- The record of an event source (R143). -/
structure EventRec where
  pending : Bool
  enabled : Bool
  count   : Byte
  noticed : Byte
deriving DecidableEq, Repr

/-- The notice groups (section 8.1). -/
inductive NoticeGroup where
  | capture | schedule | general
deriving DecidableEq, Repr

/-- The notice order (R151). -/
structure NoticeOrder where
  first  : NoticeGroup
  second : NoticeGroup
  third  : NoticeGroup
deriving DecidableEq, Repr

/-- The Event Unit (R143, R151). -/
structure EventUnit where
  recs  : Vector EventRec 28
  order : NoticeOrder
deriving DecidableEq, Repr

/-- The notice order after reset (R152). -/
def NoticeOrder.reset : NoticeOrder := ⟨.capture, .schedule, .general⟩

/-- The Event Unit after reset (R152). -/
def EventUnit.reset : EventUnit := ⟨Vector.replicate 28 ⟨false, false, 0#8, 0#8⟩, NoticeOrder.reset⟩

/-- What the EVENTS block stores (R164). -/
structure EventSettings where
  enables : Vector Bool 28
  order   : NoticeOrder
deriving DecidableEq, Repr

/-! ## The serial link (chapter 9) -/

/-- The link rates (R154). -/
inductive LinkRate where
  | b115200 | b230400 | b460800 | b921600
deriving DecidableEq, Repr

/-- The receiver (R156): what it expects next, with the counted bytes it has stored. -/
inductive Receiver where
  | hunt
  | length
  | body (expected : Nat) (got : List Byte)
  | check (counted : List Byte) (first : Option Byte)
deriving DecidableEq, Repr

/-- A frame being sent, and the stamp at which it was begun (R160). -/
structure Sending where
  frame : Frame
  since : Stamp
deriving DecidableEq, Repr

/-- The Serial Link (R163).  `silent` says that LINK_SILENT stands reported; `restarting` that RESTART has been taken and the
restart has not begun (R161). -/
structure Link where
  rate           : LinkRate
  rx             : Receiver
  lastChar       : Stamp
  inbound        : List Frame
  replies        : List Frame
  tx             : Option Sending
  errors         : Nat
  silenceStamp   : Stamp
  silenceExpired : Bool
  silenceLimit   : Nat
  silent         : Bool
  restarting     : Bool
deriving DecidableEq, Repr

/-- The Serial Link when the autoload has ended without settings (R163), at a rate and at the stamp of that moment.  The
stamp of the last character before any came is DESIGN CHOICE (notes/assumptions/9). -/
def Link.reset (rate : LinkRate) (now : Stamp) : Link where
  rate := rate
  rx := .hunt
  lastChar := 0#32
  inbound := []
  replies := []
  tx := none
  errors := 0
  silenceStamp := now
  silenceExpired := false
  silenceLimit := 0
  silent := false
  restarting := false

/-! ## The setting store (chapter 10) -/

/-- What the LIMITS block stores (R164). -/
structure LimitSettings where
  reverse : Nat
  speed   : Nat
  silence : Nat
  supply  : Fin 4
deriving DecidableEq, Repr

/-- What the HEADER block stores (R164): whether the signature is the part's own, and the protected limit. -/
structure HeaderContent where
  signed : Bool
  limit  : Nat
deriving DecidableEq, Repr

/-- A block of the store: EMPTY, BAD, or VALID with its content (R165). -/
inductive Block (α : Type) where
  | empty
  | bad
  | valid (content : α)
deriving DecidableEq, Repr

/-- A snapshot of one block's settings (R166). -/
inductive Snapshot where
  | header (c : HeaderContent)
  | link (c : LinkRate)
  | axis (c : AxisSettings)
  | limits (c : LimitSettings)
  | lines (c : Vector LineSettings 16)
  | inputs (c : Vector InputSettings 8)
  | capture (c : Vector ChannelSettings 4)
  | cams (c : Vector TrackSettings 8)
  | events (c : EventSettings)
deriving DecidableEq, Repr

/-- What the store is doing when it is not IDLE (R166). -/
inductive StoreWork where
  | writing (content : Snapshot)
  | erasing (block : Fin 9)
deriving DecidableEq, Repr

/-- A store operation in flight: its work, the stamp of the request that began it, and the number of its free value
(notes/assumptions/8). -/
structure StoreOp where
  work   : StoreWork
  since  : Stamp
  ticket : Nat
deriving DecidableEq, Repr

/-- The result of a store operation (section 10.2). -/
inductive StoreResult where
  | done | failed
deriving DecidableEq, Repr

/-- The last-operation record (section 10.2). -/
structure LastOp where
  block  : Fin 9
  result : StoreResult
deriving DecidableEq, Repr

/-- The load result of a setting block (R169). -/
inductive LoadResult where
  | loaded | partly | empty | bad | skipped
deriving DecidableEq, Repr

/-- The nine blocks of the nonvolatile store (R164). -/
structure Blocks where
  header  : Block HeaderContent
  link    : Block LinkRate
  axis    : Block AxisSettings
  limits  : Block LimitSettings
  lines   : Block (Vector LineSettings 16)
  inputs  : Block (Vector InputSettings 8)
  capture : Block (Vector ChannelSettings 4)
  cams    : Block (Vector TrackSettings 8)
  events  : Block EventSettings
deriving DecidableEq, Repr

/-- The store as the part ships: every block EMPTY (R165). -/
def Blocks.shipped : Blocks :=
  ⟨.empty, .empty, .empty, .empty, .empty, .empty, .empty, .empty, .empty⟩

/-- The Setting Store: the nonvolatile blocks, and what every reset sets anew (R165 to R169). -/
structure SettingStore where
  blocks  : Blocks
  op      : Option StoreOp
  lastOp  : Option LastOp
  limit   : Nat
  results : Vector LoadResult 8
  skipped : Bool
deriving DecidableEq, Repr

/-- The Setting Store after a reset that has applied no block (R169): the blocks stay. -/
def SettingStore.reset (blocks : Blocks) : SettingStore :=
  ⟨blocks, none, none, 0, Vector.replicate 8 .skipped, true⟩

/-! ## What the decoder's edges of a stamp have changed -/

/-- What an edge of the decoder can change, as it stood before the first of them at the present stamp, so that a change of the
other line with the same acceptance stamp can still be taken with it as one (R2, R3, notes/assumptions/6). -/
structure Checkpoint where
  axis            : Axis
  cams            : CamUnit
  cueArrivals     : List Arrival
  captureArrivals : List Key
  lineArrivals    : List Key
  mismatches      : Vector MismatchState 16
  ins             : Vector InLine 8
  reports         : List Report
  events          : EventUnit
  tx              : Option Sending
deriving DecidableEq, Repr

end Sys2Proof.Machine
end

