-- ==== Sys2Proof/Machine/State.lean ====
section
/-! DEFINITION. The state of the FQ-1608 as plain data, its reset value, the named update of each component, and the reasons
to stop. -/

namespace Sys2Proof.Machine

/-- Whether RST# holds the part in reset (R169). -/
inductive Phase where
  | held | running
deriving DecidableEq, Repr

/-- The whole part.  `pending` is the queue of commands not yet taken, first in, first out.  `freeIndex` is the model's own
counter that numbers the free values (notes/assumptions/7 and 8).  `checkpoint` is the model's own: it stands after the first
edge of the decoder at a stamp until the next command (notes/assumptions/6). -/
structure State where
  pending    : List Instr
  phase      : Phase
  stamp      : Stamp
  axis       : Axis
  cues       : CueTable
  seq        : Sequencer
  capture    : CaptureUnit
  cams       : CamUnit
  outs       : OutputLines
  ins        : Vector InLine 8
  faults     : FaultMonitor
  supply     : Supply
  events     : EventUnit
  link       : Link
  store      : SettingStore
  freeIndex  : Nat
  checkpoint : Option Checkpoint
deriving DecidableEq, Repr

/-- The part right after its first full reset has ended: every block at its reset values, the store as shipped, every strap,
input and sampled pin low, and the supply at its nominal 3.3 V (notes/assumptions/9, 10). -/
def State.reset : State where
  pending := []
  phase := .running
  stamp := 0#32
  axis := Axis.reset
  cues := CueTable.reset
  seq := Sequencer.reset
  capture := CaptureUnit.reset
  cams := CamUnit.reset
  outs := ⟨Vector.replicate 16 (OutLine.reset false), []⟩
  ins := Vector.replicate 8 (InLine.reset false)
  faults := FaultMonitor.reset
  supply := ⟨0, 3300, false⟩
  events := EventUnit.reset
  link := Link.reset .b115200 0#32
  store := SettingStore.reset Blocks.shipped
  freeIndex := 0
  checkpoint := none

/-- Why the part would stop: never.  The spec gives every command of every row an effect and no command stops the part
(what chapter 7 calls a fault is state), so no meaning raises a fault, which is safe. -/
inductive Fault where
deriving DecidableEq, Repr

/-- Why the model would refuse a command. -/
inductive Refusal where
  /-- Raised by an arm of `exec` whose command has no meaning yet, and by nothing else; safe. -/
  | notModelled (mnemonic : String)
deriving DecidableEq, Repr

/-- The outcome of a command. -/
abbrev Result := Host.Outcome State Fault Refusal

/-- Update of `axis` alone. -/
def State.onAxis (s : State) (f : Axis → Axis) : State := { s with axis := f s.axis }

/-- Update of `cues` alone. -/
def State.onCues (s : State) (f : CueTable → CueTable) : State := { s with cues := f s.cues }

/-- Update of `seq` alone. -/
def State.onSeq (s : State) (f : Sequencer → Sequencer) : State := { s with seq := f s.seq }

/-- Update of `capture` alone. -/
def State.onCapture (s : State) (f : CaptureUnit → CaptureUnit) : State := { s with capture := f s.capture }

/-- Update of `cams` alone. -/
def State.onCams (s : State) (f : CamUnit → CamUnit) : State := { s with cams := f s.cams }

/-- Update of `outs` alone. -/
def State.onOuts (s : State) (f : OutputLines → OutputLines) : State := { s with outs := f s.outs }

/-- Update of `ins` alone. -/
def State.onIns (s : State) (f : Vector InLine 8 → Vector InLine 8) : State := { s with ins := f s.ins }

/-- Update of `faults` alone. -/
def State.onFaults (s : State) (f : FaultMonitor → FaultMonitor) : State := { s with faults := f s.faults }

/-- Update of `supply` alone. -/
def State.onSupply (s : State) (f : Supply → Supply) : State := { s with supply := f s.supply }

/-- Update of `events` alone. -/
def State.onEvents (s : State) (f : EventUnit → EventUnit) : State := { s with events := f s.events }

/-- Update of `link` alone. -/
def State.onLink (s : State) (f : Link → Link) : State := { s with link := f s.link }

/-- Update of `store` alone. -/
def State.onStore (s : State) (f : SettingStore → SettingStore) : State := { s with store := f s.store }

/-- The checkpoint is forgotten: what the decoder has made of the present stamp stands. -/
def State.forget (s : State) : State := { s with checkpoint := none }

end Sys2Proof.Machine
end

