-- ==== Sys2Proof/Machine/Ops.lean ====
section
/-! DEFINITION. The shared operations: stamps, keys, occurrences of event sources, condition reports, outcome records, the
counts and marks of the Cue Table. -/

namespace Sys2Proof.Machine

/-- Change one entry of a bank. -/
def updAt {α : Type} {n : Nat} (v : Vector α n) (i : Fin n) (f : α → α) : Vector α n := v.set i (f v[i])

/-! ## Stamps (R1) -/

/-- A stamp reaches the time `t` when (stamp − t) mod 2^32 is less than 2^31 (R1). -/
def reached (now t : Stamp) : Bool := decide ((now - t).toNat < 2147483648)

/-- The time some microseconds after a stamp, modulo 2^32. -/
def after (t : Stamp) (us : Nat) : Stamp := t + BitVec.ofNat 32 us

/-! ## Keys (R8, R28, R88) -/

/-- D of R8: the cycle distance from the lead point to a key, modulo 65,536. -/
def cycleDistance (lead key : Key) : Cycle := key.cycle - lead.cycle

/-- A key is reached, and ahead otherwise (R8). -/
def keyReached (lead key : Key) : Bool :=
  let d := (cycleDistance lead key).toNat
  (decide (d = 0) && decide (key.pos ≤ lead.pos)) || decide (32768 ≤ d)

/-- Key order: D taken as a signed distance, then the position (R8). -/
def keyBefore (lead a b : Key) : Bool :=
  let da := (cycleDistance lead a).toInt
  let db := (cycleDistance lead b).toInt
  decide (da < db) || (decide (da = db) && decide (a.pos < b.pos))

/-- A key lies beyond the horizon (R28). -/
def beyondHorizon (lead key : Key) : Bool :=
  let d := (cycleDistance lead key).toNat
  decide (d = 32768) || decide (d = 32769)

/-- The key some counts after a key under a modulus (R88, R114). -/
def keyAfter (modulus : Nat) (k : Key) (counts : Nat) : Key :=
  let total := k.pos + counts
  ⟨k.cycle + BitVec.ofNat 16 (total / modulus), total % modulus⟩

/-- The key some cycles after a key (R61). -/
def cyclesAfter (k : Key) (cycles : Nat) : Key := { k with cycle := k.cycle + BitVec.ofNat 16 cycles }

/-- The reverse excursion (R7): the number of forward counts from the current point to the lead point under the modulus in
force, the cycle difference taken modulo 65,536.  DEDUCED where the difference is 0 and the lead position is the lower:
counted once round all cycles.  DEDUCED where AXIS_SETUP or a boundary changes the modulus between the two points: the
excursion follows the new modulus, as R7 reckons it, though R12 says that AXIS_SETUP leaves it as it stands
(notes/assumptions/14). -/
def excursion (a : Axis) : Nat :=
  let d := (a.lead.cycle - a.current.cycle).toNat * a.cfg.modulus + a.lead.pos
  if a.current.pos ≤ d then d - a.current.pos else 65536 * a.cfg.modulus + d - a.current.pos

/-! ## Event sources (chapter 8) -/

/-- The 28 event sources by name (section 8.1). -/
inductive EventSource where
  | captured (channel : Fin 4)
  | missed (channel : Fin 4)
  | stray
  | capLogFull
  | outcome
  | outLogFull
  | listLow
  | slotsHigh
  | skipped
  | cycle
  | camSwapped
  | homed
  | input (line : Fin 8)
  | fault
  | storeDone
deriving DecidableEq, Repr

/-- The number of a source (section 8.1). -/
def sourceNumber : EventSource → Fin 28
  | .captured c => ⟨c.val, by omega⟩
  | .missed c => ⟨4 + c.val, by omega⟩
  | .stray => 8
  | .capLogFull => 9
  | .outcome => 10
  | .outLogFull => 11
  | .listLow => 12
  | .slotsHigh => 13
  | .skipped => 14
  | .cycle => 15
  | .camSwapped => 16
  | .homed => 17
  | .input n => ⟨18 + n.val, by omega⟩
  | .fault => 26
  | .storeDone => 27

/-- One occurrence at a source's record: the pending flag is set and the count rises, wrapping (R143). -/
def occur (r : EventRec) : EventRec := { r with pending := true, count := r.count + 1#8 }

/-- Raise a source (R143). -/
def raise (src : EventSource) (s : State) : State :=
  s.onEvents fun e => { e with recs := updAt e.recs (sourceNumber src) occur }

/-- ATN# is asserted: some source is both enabled and pending (R144). -/
def atnAsserted (s : State) : Bool := s.events.recs.toList.any fun r => r.enabled && r.pending

/-! ## Condition reports (R128) -/

/-- A report with no data beyond its condition. -/
def plainReport (c : Condition) (begins : Bool) : Report := ⟨c, begins, none, none⟩

/-- Hand a report to the Fault Monitor, which takes it as an event of its own (notes/assumptions/4). -/
def report (r : Report) (s : State) : State := s.onFaults fun f => { f with inbox := f.inbox ++ [r] }

/-! ## Outcome records (R67, R69) -/

/-- An outcome record finds room and is appended with OUTCOME, or is discarded with OUTLOG_FULL (R69). -/
def writeOutcome (r : OutcomeRecord) (s : State) : State :=
  if s.seq.log.length < Config.outcomeRoom then
    raise .outcome (s.onSeq fun q => { q with log := q.log ++ [r] })
  else raise .outLogFull s

/-! ## Slots, counts and marks of the Cue Table (R22, R42 to R44) -/

/-- The LISTED count (R22). -/
def listedCount (c : CueTable) : Nat := c.list.length

/-- Every QUEUED group, channel by channel, oldest first. -/
def queuedGroups (c : CueTable) : List Group := c.queues.toList.flatten

/-- The WAITING cues, group by group. -/
def waitingCues (c : CueTable) : List Cue := (queuedGroups c).flatMap (·.cues)

/-- The WAITING count (R22). -/
def waitingCount (c : CueTable) : Nat := (waitingCues c).length

/-- The occupied count (R22). -/
def occupiedCount (c : CueTable) : Nat := waitingCount c + listedCount c

/-- The FREE count (R22). -/
def freeCount (c : CueTable) : Nat := 256 - occupiedCount c

/-- A slot is FREE: no LISTED and no WAITING cue holds it (R22, notes/assumptions/18). -/
def slotFree (c : CueTable) (slot : Fin 256) : Bool :=
  !(c.list.any fun x => decide (x.cue.slot = slot)) && !((waitingCues c).any fun x => decide (x.slot = slot))

/-- One event the Cue Table takes whole, judged against the marks before and after it (R43, R44). -/
def withMarks (f : State → State) (s : State) : State :=
  let t := f s
  let t := if s.cues.lowMark ≤ listedCount s.cues ∧ listedCount t.cues < s.cues.lowMark then raise .listLow t else t
  if occupiedCount s.cues < s.cues.highMark ∧ s.cues.highMark ≤ occupiedCount t.cues then raise .slotsHigh t else t

/-! ## Inputs and lines -/

/-- An input is released to GENERAL with edge mode NONE, keeping its filter time (R124). -/
def releaseInput (n : Fin 8) (s : State) : State :=
  s.onIns fun v => updAt v n fun i => { i with fn := .general, edgeMode := .never }

/-- An input is claimed by a function. -/
def claimInput (n : Fin 8) (fn : InputFn) (s : State) : State :=
  s.onIns fun v => updAt v n fun i => { i with fn := fn }

/-- The line set of the lines a test holds for. -/
def lineSetOf (f : Fin 16 → Bool) : LineSet := BitVec.ofFnLE f

/-- OUTn belongs to a line set (R172). -/
def inSet (ls : LineSet) (n : Fin 16) : Bool := ls.getLsbD n.val

/-- The output lines that CUE owns (R113). -/
def cueOwned (s : State) : LineSet := lineSetOf fun n => decide (s.outs.lines[n].cfg.owner = .cue)

end Sys2Proof.Machine
end

