-- ==== Sys2Proof/Machine/Operands.lean ====
section
/-! DEFINITION. The operand forms: how fields are carried in request and reply bodies (R172, sections 11.2 to 11.8). -/

namespace Sys2Proof.Machine

/-! ## Numbers, most significant byte first (R172) -/

/-- A number of 2 bytes. -/
def num16 (a b : Byte) : Nat := a.toNat * 256 + b.toNat

/-- A number of 4 bytes. -/
def num32 (a b c d : Byte) : Nat := ((a.toNat * 256 + b.toNat) * 256 + c.toNat) * 256 + d.toNat

/-- A number as 1 byte. -/
def byteOf (n : Nat) : Byte := BitVec.ofNat 8 n

/-- A number as 2 bytes. -/
def be16 (n : Nat) : List Byte := [byteOf (n / 256), byteOf n]

/-- A number as 4 bytes. -/
def be32 (n : Nat) : List Byte := [byteOf (n / 16777216), byteOf (n / 65536), byteOf (n / 256), byteOf n]

/-- A signed number as 4 bytes in two's complement. -/
def beInt (i : Int) : List Byte := be32 (BitVec.ofInt 32 i).toNat

/-- A line set or a cycle number from 2 bytes. -/
def word16 (a b : Byte) : BitVec 16 := BitVec.ofNat 16 (num16 a b)

/-- A flag or level of 1 byte. -/
def flagByte (b : Bool) : Byte := if b then 1#8 else 0#8

/-- A set of up to eight members, bit 0 first. -/
def bitsByte : List Bool → Nat
  | [] => 0
  | b :: bs => (if b then 1 else 0) + 2 * bitsByte bs

/-- A key of 6 bytes: the cycle, then the position. -/
def keyBytes (k : Key) : List Byte := be16 k.cycle.toNat ++ be32 k.pos

/-- An absent field is sent as zeros of its size. -/
def optBytes {α : Type} (size : Nat) (f : α → List Byte) : Option α → List Byte
  | some a => f a
  | none => List.replicate size 0#8

/-- A number of a bounded field, when it lies in the bound. -/
def finOf (n : Nat) (b : Byte) : Option (Fin n) := if h : b.toNat < n then some ⟨b.toNat, h⟩ else none

/-! ## Codes of section 11.4 -/

/-- The result codes (R159). -/
inductive Code where
  | ok | unknownKind | badLength | badValue | wrongState | slotBusy | groupBusy | queueFull | notFound
  | wrongOwner | late | conflict | inUse | stale | stillPresent | busy | protected_
deriving DecidableEq, Repr

/-- A result code as it is sent. -/
def resultByte : Code → Byte
  | .ok => 0x00#8
  | .unknownKind => 0x01#8
  | .badLength => 0x02#8
  | .badValue => 0x03#8
  | .wrongState => 0x04#8
  | .slotBusy => 0x05#8
  | .groupBusy => 0x06#8
  | .queueFull => 0x07#8
  | .notFound => 0x08#8
  | .wrongOwner => 0x09#8
  | .late => 0x0A#8
  | .conflict => 0x0B#8
  | .inUse => 0x0C#8
  | .stale => 0x0D#8
  | .stillPresent => 0x0E#8
  | .busy => 0x0F#8
  | .protected_ => 0x10#8

/-- action -/
def actionOf (b : Byte) : Option Action :=
  match b.toNat with
  | 0 => some .activate
  | 1 => some .clear
  | 2 => some .toggle
  | 3 => some .pulse
  | _ => none

@[inherit_doc actionOf] def actionByte : Action → Byte
  | .activate => 0#8
  | .clear => 1#8
  | .toggle => 2#8
  | .pulse => 3#8

/-- late policy (R31 to R34) -/
inductive LatePolicy where
  | refuse | now | next
deriving DecidableEq, Repr

/-- late policy -/
def latePolicyOf (b : Byte) : Option LatePolicy :=
  match b.toNat with
  | 0 => some .refuse
  | 1 => some .now
  | 2 => some .next
  | _ => none

/-- miss policy -/
def missPolicyOf (b : Byte) : Option MissPolicy :=
  match b.toNat with
  | 0 => some .drop
  | 1 => some .nominal
  | _ => none

@[inherit_doc missPolicyOf] def missPolicyByte : MissPolicy → Byte
  | .drop => 0#8
  | .nominal => 1#8

/-- outcome cause -/
def causeByte : Cause → Byte
  | .key => 0#8
  | .catchUp => 1#8
  | .skipped => 2#8
  | .expired => 3#8

/-- capture edge -/
def edgeByte : Edge → Byte
  | .rising => 0#8
  | .falling => 1#8

/-- miss result -/
def missResultByte : MissResult → Byte
  | .dropped => 0#8
  | .nominal => 1#8
  | .empty => 2#8
  | .suspended => 3#8

/-- fault kind: the rank, 1 the most serious (R128) -/
def faultRank : FaultKind → Nat
  | .supplyLow => 1
  | .axisSignal => 2
  | .overspeed => 3
  | .reverseLimit => 4
  | .lineMismatch => 5
  | .linkSilent => 6

/-- store result -/
def storeResultByte : StoreResult → Byte
  | .done => 0#8
  | .failed => 1#8

/-- axis source -/
def axisSourceOf (b : Byte) : Option AxisSource :=
  match b.toNat with
  | 0 => some .quad
  | 1 => some .step
  | 2 => some .timebase
  | _ => none

@[inherit_doc axisSourceOf] def axisSourceByte : AxisSource → Byte
  | .quad => 0#8
  | .step => 1#8
  | .timebase => 2#8

/-- sequencer state, state left -/
def seqStateByte : SeqState → Byte
  | .idle => 0#8
  | .armed => 1#8
  | .hold => 2#8
  | .safe => 3#8

/-- owner: 0 NONE, 1 DIRECT, 2 CUE, 3 to 10 CAM with track 0 to 7 -/
def ownerOf (b : Byte) : Option Owner :=
  match b.toNat with
  | 0 => some .nobody
  | 1 => some .direct
  | 2 => some .cue
  | n => if h : n - 3 < 8 then some (.cam ⟨n - 3, h⟩) else none

@[inherit_doc ownerOf] def ownerByte : Owner → Byte
  | .nobody => 0#8
  | .direct => 1#8
  | .cue => 2#8
  | .cam t => byteOf (3 + t.val)

/-- polarity -/
def polarityOf (b : Byte) : Option Polarity :=
  match b.toNat with
  | 0 => some .activeHigh
  | 1 => some .activeLow
  | _ => none

/-- driver -/
def driverOf (b : Byte) : Option Driver :=
  match b.toNat with
  | 0 => some .off
  | 1 => some .pushPull
  | 2 => some .openDrain
  | _ => none

@[inherit_doc driverOf] def driverCode : Driver → Nat
  | .off => 0
  | .pushPull => 1
  | .openDrain => 2

/-- safe level -/
def safeLevelOf (b : Byte) : Option SafeLevel :=
  match b.toNat with
  | 0 => some .inactive
  | 1 => some .active
  | 2 => some .float
  | _ => none

@[inherit_doc safeLevelOf] def safeLevelCode : SafeLevel → Nat
  | .inactive => 0
  | .active => 1
  | .float => 2

/-- mismatch state -/
def mismatchByte : MismatchState → Byte
  | .agree => 0#8
  | .pending _ => 1#8
  | .present => 2#8

/-- pin drive -/
def driveByte : PinDrive → Byte
  | .low => 0#8
  | .high => 1#8
  | .released => 2#8

/-- input function; INPUT_SETUP carries 0 or 1 -/
def inputFnByte : InputFn → Byte
  | .general => 0#8
  | .freeze => 1#8
  | .axisA => 2#8
  | .axisB => 3#8
  | .index => 4#8
  | .capture _ => 5#8

/-- edge mode -/
def edgeModeOf (b : Byte) : Option EdgeMode :=
  match b.toNat with
  | 0 => some .never
  | 1 => some .rising
  | 2 => some .falling
  | 3 => some .both
  | _ => none

@[inherit_doc edgeModeOf] def edgeModeByte : EdgeMode → Byte
  | .never => 0#8
  | .rising => 1#8
  | .falling => 2#8
  | .both => 3#8

/-- A flag or level of a request: 0 or 1, any other value out of range. -/
def flagOf (b : Byte) : Option Bool :=
  match b.toNat with
  | 0 => some false
  | 1 => some true
  | _ => none

/-- channel input: 0 to 7 for IN0 to IN7, 8 for NONE -/
def channelInputOf (b : Byte) : Option (Option (Fin 8)) :=
  if h : b.toNat < 8 then some (some ⟨b.toNat, h⟩) else if b.toNat = 8 then some none else none

@[inherit_doc channelInputOf] def channelInputByte : Option (Fin 8) → Byte
  | some n => byteOf n.val
  | none => 8#8

/-- channel edge -/
def channelEdgeOf (b : Byte) : Option EdgeChoice :=
  match b.toNat with
  | 0 => some .rising
  | 1 => some .falling
  | 2 => some .both
  | _ => none

@[inherit_doc channelEdgeOf] def channelEdgeByte : EdgeChoice → Byte
  | .rising => 0#8
  | .falling => 1#8
  | .both => 2#8

/-- gate, with its three positions, which are read only for WINDOW -/
def gateOf (b : Byte) (start stop nominal : Nat) : Option Gate :=
  match b.toNat with
  | 0 => some .always
  | 1 => some (.window start stop nominal)
  | _ => none

/-- gate, then its positions, absent for OPEN -/
def gateBytes : Gate → List Byte
  | .always => 0#8 :: List.replicate 12 0#8
  | .window a b c => 1#8 :: (be32 a ++ be32 b ++ be32 c)

/-- episode, then its cycle, absent for CLOSED -/
def episodeBytes : Episode → List Byte
  | .closed => [0#8, 0#8, 0#8]
  | .opened c => 1#8 :: be16 c.toNat
  | .taken c => 2#8 :: be16 c.toNat

/-- profile slot -/
def profileSlotByte : ProfileSlot → Byte
  | .a => 0#8
  | .b => 1#8

/-- notice group -/
def noticeGroupOf (b : Byte) : Option NoticeGroup :=
  match b.toNat with
  | 0 => some .capture
  | 1 => some .schedule
  | 2 => some .general
  | _ => none

@[inherit_doc noticeGroupOf] def noticeGroupByte : NoticeGroup → Byte
  | .capture => 0#8
  | .schedule => 1#8
  | .general => 2#8

/-- block condition: 0 EMPTY, 1 VALID, 2 BAD -/
def blockByte {α : Type} : Block α → Byte
  | .empty => 0#8
  | .valid _ => 1#8
  | .bad => 2#8

/-- load result -/
def loadResultByte : LoadResult → Byte
  | .loaded => 0#8
  | .partly => 1#8
  | .empty => 2#8
  | .bad => 3#8
  | .skipped => 4#8

/-- The remaining field: 255 for UNENDING (R172). -/
def remainingByte : Remaining → Byte
  | .times n => byteOf n
  | .unending => 255#8

/-- The repeat count of a request: 255 gives UNENDING, 0 is out of range (R172). -/
def remainingOf (count : Byte) : Option Remaining :=
  if count.toNat = 0 then none
  else if count.toNat = 255 then some .unending
  else some (.times count.toNat)

/-! ## Cues in requests (sections 2.3, 11.5) -/

/-- The width field of a cue: present when option bit 0 is set, and then nonzero, of the unit of option bit 1 (R30, R172).
None is out of range. -/
def widthOf (options : Byte) (value : Nat) : Option (Option Width) :=
  if options.getLsbD 0 then
    if value = 0 then none
    else some (some ⟨value, if options.getLsbD 1 then .microseconds else .counts⟩)
  else some none

/-- The repeat field of a cue: present when option bit 2 is set, and then with a nonzero count and period (R30, R172). -/
def repetitionOf (options count period : Byte) : Option (Option Repetition) :=
  if options.getLsbD 2 then
    match remainingOf count with
    | none => none
    | some r => if period.toNat = 0 then none else some (some ⟨r, period.toNat⟩)
  else some none

/-- The cue that the fields of a CUE_PUT or of a specification describe, or none where a value is out of range: an empty
line set, an action not listed, option bits 5 to 7, a PULSE with no width, a width with no PULSE, or a field above
(R30, R84, section 11.5). -/
def cueOf (slot : Byte) (lines : LineSet) (action options : Byte) (width : Nat) (count period : Byte)
    (offset : Option Nat) : Option Cue :=
  match actionOf action, widthOf options width, repetitionOf options count period with
  | some act, some w, some r =>
    if lines = 0#16 ∨ 32 ≤ options.toNat ∨ (act = .pulse ∧ w = none) ∨ (act ≠ .pulse ∧ w ≠ none) then none
    else some
      { slot := slot.toFin, lines := lines, action := act, width := w, rep := r
        catchUp := if options.getLsbD 3 then .skip else .fire
        report := options.getLsbD 4, offset := offset }
  | _, _, _ => none

/-- The cue option byte as it is sent (section 11.5). -/
def cueOptions (c : Cue) : Byte :=
  byteOf (bitsByte [c.width.isSome, decide (c.width.map (·.unit) = some .microseconds), c.rep.isSome,
    decide (c.catchUp = .skip), c.report])

/-- A cue specification of GROUP_PUT as its 13 bytes lie (section 11.5). -/
structure Specification where
  slot    : Byte
  lines   : LineSet
  action  : Byte
  offset  : Nat
  options : Byte
  width   : Nat
  count   : Byte
  period  : Byte
deriving DecidableEq, Repr

/-- The specifications of a GROUP_PUT body after its first four bytes. -/
def specificationsOf : List Byte → List Specification
  | slot :: l1 :: l0 :: action :: o3 :: o2 :: o1 :: o0 :: options :: w1 :: w0 :: count :: period :: rest =>
    ⟨slot, word16 l1 l0, action, num32 o3 o2 o1 o0, options, num16 w1 w0, count, period⟩ :: specificationsOf rest
  | _ => []

/-- The cue of a specification, or none where a value is out of range: a field of the cue, or the offset (R84). -/
def specificationCue (modulus : Nat) (x : Specification) : Option Cue :=
  if 4000000 < x.offset ∨ 32767 * modulus ≤ x.offset then none
  else cueOf x.slot x.lines x.action x.options x.width x.count x.period (some x.offset)

/-! ## Cam profiles in requests and replies (sections 11.5, 11.8) -/

/-- The windows of a CAM_LOAD body after its first six bytes. -/
def windowsOf : List Byte → List Window
  | a :: b :: c :: d :: e :: f :: g :: h :: rest => ⟨num32 a b c d, num32 e f g h⟩ :: windowsOf rest
  | _ => []

/-- The profile that a kind and its windows describe, or none where the kind is not listed or the window count does not fit
it (R102). -/
def profileOf (kind : Byte) (ws : List Window) : Option Profile :=
  match kind.toNat with
  | 0 => if ws = [] then some .empty else none
  | 1 => if ws = [] then some .full else none
  | 2 => if 1 ≤ ws.length ∧ ws.length ≤ 4 then some (.windows ws) else none
  | _ => none

/-- The bytes of a window. -/
def windowBytes (w : Window) : List Byte := be32 w.on ++ be32 w.off

/-- A profile in CAM_READ: kind, window count, four windows, the windows beyond the count absent. -/
def profileBytes : Profile → List Byte
  | .empty => List.replicate 34 0#8
  | .full => 1#8 :: List.replicate 33 0#8
  | .windows ws => 2#8 :: byteOf ws.length :: (ws.flatMap windowBytes ++ List.replicate (32 - 8 * ws.length) 0#8)

/-! ## Records carried whole (section 11.7) -/

/-- The capture record, 14 bytes. -/
def captureBytes (r : CaptureRecord) : List Byte :=
  [byteOf r.channel.val, flagByte r.group.isSome] ++ keyBytes r.point ++ [edgeByte r.edge] ++ be32 r.stamp.toNat ++
    optBytes 1 (fun g => [byteOf g.val]) r.group

/-- The outcome record, 26 bytes. -/
def outcomeBytes (r : OutcomeRecord) : List Byte :=
  [byteOf r.slot.val, causeByte r.cause, actionByte r.action,
    byteOf (bitsByte [r.sets.isSome, r.remaining.isSome, r.skipped.isSome])] ++
    optBytes 4 (fun p => be16 p.1.toNat ++ be16 p.2.toNat) r.sets ++ keyBytes r.key ++ keyBytes r.lead ++
    be32 r.stamp.toNat ++ optBytes 1 (fun x => [remainingByte x]) r.remaining ++
    optBytes 1 (fun n => [byteOf n]) r.skipped

/-- Every result of a list of optional values, or none. -/
def allSome {α : Type} : List (Option α) → Option (List α)
  | [] => some []
  | none :: _ => none
  | some a :: rest => match allSome rest with
    | some as => some (a :: as)
    | none => none

end Sys2Proof.Machine
end

