-- ==== Sys2Proof/Machine/Flags.lean ====
section
/-! DEFINITION. What follows from the state at the end of a command: pin drives, the mismatch monitor, the conditions of the
axis, the link and the supply, the notices, and the transmitter's choice. -/

namespace Sys2Proof.Machine

/-! ## Pins (R101, R110, R111) -/

/-- The output of a cam track: its level while ARMED, inactive otherwise (R101). -/
def trackOutput (s : State) (t : Fin 8) : Bool := decide (s.seq.state = .armed) && s.cams.tracks[t].level

/-- The owner's level of an output line (R110). -/
def ownerLevel (s : State) (l : OutLine) : Bool :=
  match l.cfg.owner with
  | .nobody => false
  | .direct => l.direct
  | .cue => l.cue
  | .cam t => trackOutput s t

/-- A logical level mapped by polarity and driver to a pin drive (R111). -/
def mapLevel (c : LineSettings) (active : Bool) : PinDrive :=
  let high := match c.polarity with
    | .activeHigh => active
    | .activeLow => !active
  match c.driver with
  | .off => .released
  | .pushPull => if high then .high else .low
  | .openDrain => if high then .released else .low

/-- The pin drive of an output line: the first case of R111 that applies. -/
def drive (s : State) (l : OutLine) : PinDrive :=
  if l.cfg.driver = .off then .released
  else if s.seq.state = .safe then
    match l.cfg.safeLevel with
    | .float => .released
    | .inactive => mapLevel l.cfg false
    | .active => mapLevel l.cfg true
  else if l.enable then mapLevel l.cfg (ownerLevel s l)
  else mapLevel l.cfg false

/-! ## The mismatch monitor (R121, R122) -/

/-- A monitored line whose sampled level differs from its drive (R121). -/
def inMismatch (s : State) (l : OutLine) : Bool :=
  decide (l.cfg.mismatchTime ≠ 0) &&
    match drive s l with
    | .high => !l.sampled
    | .low => l.sampled
    | .released => false

/-- The mismatch state of a line as the monitor judges it (R121); the timeout is a command of its own. -/
def judgedMismatch (s : State) (l : OutLine) : MismatchState :=
  if inMismatch s l then
    match l.mismatch with
    | .agree => .pending s.stamp
    | m => m
  else .agree

/-- The monitor judges every line, and reports the ending of each LINE_MISMATCH that leaves PRESENT (R121, R122). -/
def judgeLines (s : State) : State :=
  let ended := (List.finRange 16).filter fun n =>
    decide (s.outs.lines[n].mismatch = .present) && !inMismatch s s.outs.lines[n]
  (s.onOuts fun o => { o with lines := o.lines.map fun l => { l with mismatch := judgedMismatch s l } }).onFaults
    fun f => { f with inbox := f.inbox ++ ended.map fun n => plainReport (.lineMismatch n) false }

/-! ## The conditions of the axis (R19) -/

/-- OVERSPEED as a measure: a speed magnitude above a nonzero limit (R19, R137). -/
def tooFast (a : Axis) : Bool := decide (a.speedLimit ≠ 0) && decide (a.speedLimit < a.speed.natAbs)

/-- REVERSE_LIMIT as a measure: an excursion above a nonzero limit (R19, R137). -/
def tooFarBack (a : Axis) : Bool := decide (a.reverseLimit ≠ 0) && decide (a.reverseLimit < excursion a)

/-- The sequencer is ARMED, HOLD or SAFE. -/
def outsideIdle (s : State) : Bool := decide (s.seq.state ≠ .idle)

/-- OVERSPEED begins when its conjunction becomes true and ends when it becomes false (R19). -/
def judgeOverspeed (s : State) : State :=
  let holds := tooFast s.axis && outsideIdle s
  if holds = s.axis.overspeed then s
  else report ⟨.overspeed, holds, none, if holds then some s.axis.speed else none⟩
    (s.onAxis fun a => { a with overspeed := holds })

/-- REVERSE_LIMIT begins when its conjunction becomes true and ends when it becomes false (R19). -/
def judgeReverse (s : State) : State :=
  let holds := tooFarBack s.axis && outsideIdle s
  if holds = s.axis.reversed then s
  else report (plainReport .reverseLimit holds) (s.onAxis fun a => { a with reversed := holds })

/-! ## The silence condition (R162) -/

/-- LINK_SILENT begins while the expired flag is set and the sequencer is not IDLE; no change of state ends it (R162). -/
def judgeSilence (s : State) : State :=
  if s.link.silenceExpired && outsideIdle s && !s.link.silent then
    report (plainReport .linkSilent true) (s.onLink fun l => { l with silent := true })
  else s

/-! ## The supply comparator (R130) -/

/-- The threshold of a supply level in millivolts (R130). -/
def supplyThreshold (level : Fin 4) : Nat := 2850 + 100 * level.val

/-- SUPPLY_LOW begins below the threshold and ends 50 mV above it; between the two it keeps its value (R130). -/
def judgeSupply (s : State) : State :=
  let low :=
    if s.supply.millivolts < supplyThreshold s.supply.level then true
    else if supplyThreshold s.supply.level + 50 ≤ s.supply.millivolts then false
    else s.supply.low
  if low = s.supply.low then s
  else report (plainReport .supplyLow low) (s.onSupply fun p => { p with low := low })

/-! ## Notices (R146 to R148) -/

/-- A notice is due for a source (R146). -/
def due (r : EventRec) : Bool := r.enabled && r.pending && decide (r.count ≠ r.noticed)

/-- The group of a source (section 8.1). -/
def groupOf (n : Fin 28) : NoticeGroup :=
  if n.val < 10 then .capture else if n.val < 18 then .schedule else .general

/-- The source whose notice goes first: the groups in the notice order, in a group the lowest number (R146). -/
def chooseSource (e : EventUnit) : Option (Fin 28) :=
  [e.order.first, e.order.second, e.order.third].findSome? fun g =>
    (List.finRange 28).find? fun n => decide (groupOf n = g) && due e.recs[n]

/-- The summary of a notice, 14 bytes, the unused ones 0 (R148, section 11.6). -/
def noticeSummary (s : State) (n : Fin 28) : List Byte :=
  let used : List Byte :=
    if h : n.val < 4 then optBytes 14 captureBytes s.capture.channels[n.val].latest
    else if h : n.val - 4 < 4 then
      optBytes 5 (fun m : Miss => [missResultByte m.result, flagByte m.group.isSome] ++
        optBytes 1 (fun g : Fin 32 => [byteOf g.val]) m.group ++ be16 m.cycle.toNat)
        s.capture.channels[n.val - 4].lastMiss
    else if n.val = 26 then optBytes 1 (fun r : FaultRecord => [byteOf (faultRank r.kind)]) s.faults.primary
    else if n.val = 27 then
      optBytes 2 (fun o : LastOp => [byteOf o.block.val, storeResultByte o.result]) s.store.lastOp
    else []
  used ++ List.replicate (14 - used.length) 0#8

/-- The frame of a notice: tag 0, kind 0xEE, source number, occurrence count and summary (R147, R155, section 11.6). -/
def noticeFrame (s : State) (n : Fin 28) : Frame :=
  ⟨0x00#8, 0xEE#8, byteOf n.val :: s.events.recs[n].count :: noticeSummary s n⟩

/-! ## The transmitter (R160) -/

/-- A frame begins to leave TXD. -/
def beginSending (f : Frame) (s : State) : State :=
  s.onLink fun l => { l with tx := some ⟨f, s.stamp⟩ }

/-- The transmitter's choice when it is free: the oldest reply, otherwise a notice, otherwise nothing; no notice once RESTART
has been taken (R160, R161). -/
def chooseFrame (s : State) : State :=
  if s.link.tx.isSome then s
  else
    match s.link.replies with
    | f :: rest => beginSending f (s.onLink fun l => { l with replies := rest })
    | [] =>
      if s.link.restarting then s
      else
        match chooseSource s.events with
        | some n =>
          beginSending (noticeFrame s n)
            (s.onEvents fun e => { e with recs := updAt e.recs n fun r => { r with noticed := r.count } })
        | none => s

/-! ## The end of a command -/

/-- Everything the blocks judge again when a command has changed the state: the lines, the axis conditions, the silence
timer and the supply, each of which reports what begins and ends, and last the transmitter (notes/assumptions/13).  What the
decoder has made of the present stamp stands after any command but its own (notes/assumptions/6).  A part held in reset judges
nothing (R130, R169). -/
def settle (s : State) : State :=
  match s.phase with
  | .held => s
  | .running => (chooseFrame (judgeSupply (judgeSilence (judgeReverse (judgeOverspeed (judgeLines s)))))).forget

end Sys2Proof.Machine
end

