-- ==== Sys2Proof/Machine/Requests.lean ====
section
/-! DEFINITION. How a request reaches the part, is taken and is answered (R157 to R159). -/

namespace Sys2Proof.Machine

/-- What a request's rule answers: its result, whether REPLACED marks it, and its data (R158). -/
structure Reply where
  code     : Code
  replaced : Bool
  data     : List Byte
deriving DecidableEq, Repr

/-- An OK reply with data. -/
def okay (data : List Byte) : Reply := ⟨.ok, false, data⟩

/-- An OK reply, with REPLACED where the rule gives it. -/
def okayReplaced (replaced : Bool) (data : List Byte) : Reply := ⟨.ok, replaced, data⟩

/-- A reply without data: a request that fails a check. -/
def refuse (c : Code) : Reply := ⟨c, false, []⟩

/-- The reply kind: the request kind plus 0x80, or 0xFF for a request kind of 0x80 or above (R158). -/
def replyKind (k : Byte) : Byte := if k.toNat < 128 then k + 0x80#8 else 0xFF#8

/-- The reply frame: the tag of the request, the reply kind, the header of four bytes and the data (R158, section 11.1).  The
error count is that of the moment the reply is built (notes/assumptions/26). -/
def replyFrame (f : Frame) (r : Reply) (errors : Nat) : Frame :=
  ⟨f.tag, replyKind f.kind, resultByte r.code :: flagByte r.replaced :: (be16 errors ++ r.data)⟩

/-- The link error count rises by one and stays at 65,535 (R156). -/
def countError (s : State) : State := s.onLink fun l => { l with errors := min (l.errors + 1) 65535 }

/-- A report about a condition waits at the Fault Monitor. -/
def reportWaits (s : State) (c : Condition) : Bool := s.faults.inbox.any fun r => decide (r.cond = c)

/-- The Serial Link hands over the ending of LINK_SILENT (R157).  It is taken at once, or behind a beginning that still waits
(notes/assumptions/19). -/
def endSilence (s : State) : State :=
  let t := s.onLink fun l => { l with silent := false }
  if reportWaits s .linkSilent then report (plainReport .linkSilent false) t
  else t.onFaults fun f => { f with present := { f.present with linkSilent := false } }

/-- A good frame restarts the silence timer, ends LINK_SILENT, and is offered to the inbound queue (R157). -/
def goodFrame (f : Frame) (s : State) : State :=
  let s := s.onLink fun l => { l with silenceStamp := s.stamp, silenceExpired := false }
  let s := if s.link.silent then endSilence s else s
  if s.link.inbound.length < Config.inboundRoom then s.onLink fun l => { l with inbound := l.inbound ++ [f] }
  else countError s

/-- The Serial Link takes requests: the part runs, the reply queue has room (R158), no RESTART has been taken (R161), and the
Fault Monitor has taken the ending of LINK_SILENT (R157). -/
def canTake (s : State) : Bool :=
  decide (s.phase = .running) && decide (s.link.replies.length < Config.replyRoom) && !s.link.restarting &&
    !(s.faults.inbox.any fun r => decide (r.cond = .linkSilent) && !r.begins)

/-- Taking a request removes its frame from the inbound queue (R158). -/
def popInbound (s : State) : State := s.onLink fun l => { l with inbound := l.inbound.tail }

/-- The request is taken by the rule of its block, and the reply is built from the state as the request left it and appended
to the reply queue (R158). -/
def answer (f : Frame) (rule : State → State × Reply) (s : State) : State :=
  let p := rule s
  p.1.onLink fun l => { l with replies := l.replies ++ [replyFrame f p.2 l.errors] }

/-- A request command (notes/assumptions/1).  A frame that waits at the head of the inbound queue is taken.  Any other frame
arrives whole (R157), and is taken in the same step when nothing stands before it and the link can take it; otherwise it waits
in the inbound queue, or is discarded by a full one.  A part held in reset receives nothing (R163). -/
def serve (f : Frame) (rule : State → State × Reply) (s : State) : State :=
  if s.phase = .held then s
  else if s.link.inbound.head? = some f ∧ canTake s then settle (answer f rule (popInbound s))
  else
    let t := goodFrame f s
    if s.link.inbound = [] ∧ canTake t then settle (answer f rule (popInbound t)) else settle t

/-- A body whose length is not the one its kind calls for: taken by no block (R158). -/
def badLength (s : State) : State × Reply := (s, refuse .badLength)

/-- A command that is no request, with the condition under which it takes place: without it, and while the part is held in
reset, nothing happens (notes/assumptions/3, 11). -/
def event (enabled : Bool) (effect : State → State) (s : State) : Result :=
  .next (if s.phase = .running ∧ enabled = true then settle (effect s) else s)

/-- A request with an empty body. -/
def noBody (rule : State → State × Reply) (body : List Byte) (s : State) : State × Reply :=
  match body with
  | [] => rule s
  | _ => badLength s

/-- A request with a body of one byte. -/
def oneByte (rule : Byte → State → State × Reply) (body : List Byte) (s : State) : State × Reply :=
  match body with
  | [b] => rule b s
  | _ => badLength s

end Sys2Proof.Machine
end

