-- ==== Sys2Proof/Machine/Events.lean ====
section
/-! DEFINITION. The requests on the Event Unit (chapter 8). -/

namespace Sys2Proof.Machine

/-- A set of source numbers as 4 bytes: bit n for source n, bits 28 to 31 sent as 0 (R172). -/
def sourceSet (f : Fin 28 → Bool) : List Byte := be32 (BitVec.ofFnLE f).toNat

/-- Change the record of one source. -/
def onSource (n : Fin 28) (f : EventRec → EventRec) (s : State) : State :=
  s.onEvents fun e => { e with recs := updAt e.recs n f }

/-- EVENT_ENABLE (R145), 4 bytes. -/
def eventEnableRule (body : List Byte) (s : State) : State × Reply :=
  match body with
  | [b3, b2, b1, b0] =>
    let set := num32 b3 b2 b1 b0
    if 2 ^ 28 ≤ set then (s, refuse .badValue)
    else
      let t := s.onEvents fun e => { e with recs := e.recs.mapIdx fun n r => { r with enabled := set.testBit n } }
      (t, okay (sourceSet fun n => t.events.recs[n].enabled))
  | _ => badLength s

/-- EVENT_ENABLE (R145): sets the enable set. -/
def execEventEnable (tag : Byte) (body : List Byte) (s : State) : Result :=
  .next (serve ⟨tag, 0x60#8, body⟩ (eventEnableRule body) s)

/-- The notice order as three bytes. -/
def orderBytes (o : NoticeOrder) : List Byte :=
  [noticeGroupByte o.first, noticeGroupByte o.second, noticeGroupByte o.third]

/-- The data of EVENT_READ, 68 bytes (R150). -/
def eventReadData (s : State) : List Byte :=
  sourceSet (fun n => s.events.recs[n].pending) ++ sourceSet (fun n => s.events.recs[n].enabled) ++
    orderBytes s.events.order ++ [flagByte (atnAsserted s)] ++
    s.events.recs.toList.flatMap fun r => [r.count, r.noticed]

/-- EVENT_READ (R150): the event records, the enables, the order and ATN#. -/
def execEventRead (tag : Byte) (body : List Byte) (s : State) : Result :=
  .next (serve ⟨tag, 0x61#8, body⟩ (noBody (fun s => (s, okay (eventReadData s))) body) s)

/-- The data of EVENT_CLEAR: source, occurrence count and pending flag after the request (R149). -/
def clearData (n : Fin 28) (r : EventRec) : List Byte := [byteOf n.val, r.count, flagByte r.pending]

/-- EVENT_CLEAR (R149), 2 bytes. -/
def eventClearRule (body : List Byte) (s : State) : State × Reply :=
  match body with
  | [source, count] =>
    match finOf 28 source with
    | none => (s, refuse .badValue)
    | some n =>
      let r := s.events.recs[n]
      if r.pending then
        if count = r.count then
          (onSource n (fun r => { r with pending := false }) s, okay (clearData n { r with pending := false }))
        else (s, ⟨.stale, false, clearData n r⟩)
      else (s, okay (clearData n r))
  | _ => badLength s

/-- EVENT_CLEAR (R149): clears a pending flag when its count matches. -/
def execEventClear (tag : Byte) (body : List Byte) (s : State) : Result :=
  .next (serve ⟨tag, 0x62#8, body⟩ (eventClearRule body) s)

/-- The order that three group codes name, each group once (R151). -/
def orderOf (a b c : Byte) : Option NoticeOrder :=
  match noticeGroupOf a, noticeGroupOf b, noticeGroupOf c with
  | some x, some y, some z => if x ≠ y ∧ x ≠ z ∧ y ≠ z then some ⟨x, y, z⟩ else none
  | _, _, _ => none

/-- NOTICE_ORDER (R151), 3 bytes. -/
def noticeOrderRule (body : List Byte) (s : State) : State × Reply :=
  match body with
  | [a, b, c] =>
    match orderOf a b c with
    | none => (s, refuse .badValue)
    | some o => (s.onEvents fun e => { e with order := o }, okay (orderBytes o))
  | _ => badLength s

/-- NOTICE_ORDER (R151): sets the notice order. -/
def execNoticeOrder (tag : Byte) (body : List Byte) (s : State) : Result :=
  .next (serve ⟨tag, 0x63#8, body⟩ (noticeOrderRule body) s)

end Sys2Proof.Machine
end

