-- ==== Sys2Proof/Machine/Cues.lean ====
section
/-! DEFINITION. What the Cue Table, the Sequencer and the Line Unit do with cues: the list and its order, cue actions, firing,
the repeat rule, catch-up, expiry, resolution of groups. -/

namespace Sys2Proof.Machine

/-! ## The cue list (R25, R26, R29) -/

/-- A cue enters behind every listed cue whose key stands before its own or equals it, and before every other (R25). -/
def insertCue (lead : Key) (x : Listed) : List Listed → List Listed
  | [] => [x]
  | y :: ys => if keyBefore lead x.key y.key then x :: y :: ys else y :: insertCue lead x ys

/-- A cue enters the cue list (R25). -/
def enterCue (x : Listed) (s : State) : State :=
  s.onCues fun c => { c with list := insertCue c.lead x c.list }

/-- A listed cue leaves the list; the others keep their order (R26). -/
def leaveList (slot : Fin 256) (s : State) : State :=
  s.onCues fun c => { c with list := c.list.filter fun x => decide (x.cue.slot ≠ slot) }

/-- The list put in key order against a lead point, equal keys keeping their order (R29). -/
def reorder (lead : Key) (l : List Listed) : List Listed := l.foldl (fun acc x => insertCue lead x acc) []

/-- The run of reached cues at the head of the list (R27). -/
def reachedRun (c : CueTable) : List Listed := c.list.takeWhile fun x => keyReached c.lead x.key

/-- The list index of a slot (R25). -/
def listIndex (c : CueTable) (slot : Fin 256) : Nat := c.list.findIdx fun x => decide (x.cue.slot = slot)

/-! ## Cue actions (R113, R114) -/

/-- The trail a PULSE sets: a key the width after the base key, or the firing's stamp plus the width (R114). -/
def pulseTrail (modulus : Nat) (now : Stamp) (base : Key) (w : Width) : Trail :=
  match w.unit with
  | .counts => .counts (keyAfter modulus base w.value)
  | .microseconds => .time (after now w.value)

/-- A cue action on one line (R113). -/
def actOn (action : Action) (trail : Option Trail) (l : OutLine) : OutLine :=
  match action with
  | .activate => { l with cue := true, trail := none }
  | .clear => { l with cue := false, trail := none }
  | .toggle => { l with cue := !l.cue, trail := none }
  | .pulse => { l with cue := true, trail := trail }

/-- The lines of a set an action applies to: those CUE owns, and none while the Line Unit is in SAFE (R113). -/
def appliedLines (s : State) (lines : LineSet) : LineSet :=
  if s.seq.state = .safe then 0#16 else lines &&& cueOwned s

/-- The other lines of the set, masked (R113). -/
def maskedLines (s : State) (lines : LineSet) : LineSet := lines &&& ~~~ appliedLines s lines

/-- The Line Unit takes a cue's action (R113, R114). -/
def applyAction (c : Cue) (base : Key) (s : State) : State :=
  let trail := c.width.map (pulseTrail s.axis.cfg.modulus s.stamp base)
  let applied := appliedLines s c.lines
  s.onOuts fun o =>
    { o with lines := o.lines.mapIdx fun n l => if applied.getLsbD n then actOn c.action trail l else l }

/-! ## The repeat rule (R61, R62) -/

/-- Skipping: while the key is reached and firings are still to come, one period on and one firing less.  The last component
counts the repetitions skipped. -/
def skipReached (lead : Key) (period : Nat) : Nat → Key → Remaining → Nat → Key × Remaining × Nat
  | 0, key, t, n => (key, t, n)
  | fuel + 1, key, t, n =>
    if keyReached lead key then
      match t with
      | .times 0 => (key, t, n)
      | .times (m + 1) => skipReached lead period fuel (cyclesAfter key period) (.times m) (n + 1)
      | .unending => skipReached lead period fuel (cyclesAfter key period) .unending (n + 1)
    else (key, t, n)

/-- Enough steps of skipping for every key: a reached key lies at most 32,768 cycles behind the lead point (R8). -/
abbrev skipFuel : Nat := 32769

/-- The cue is handed back to the Cue Table with its next key and the firings still to come (R61): freed, made one-shot, or
reinserted with the count lowered. -/
def handBack (x : Listed) (r : Repetition) (key : Key) (t : Remaining) (s : State) : State :=
  let s := leaveList x.cue.slot s
  match t with
  | .times 0 => s
  | .times 1 => enterCue ⟨{ x.cue with rep := none }, key⟩ s
  | .times (n + 2) => enterCue ⟨{ x.cue with rep := some { r with remaining := .times (n + 1) } }, key⟩ s
  | .unending => enterCue ⟨x.cue, key⟩ s

/-- A SKIPPED record and its occurrence (R62, R65, R69). -/
def writeSkipped (recLead : Key) (c : Cue) (key : Key) (remaining : Option Remaining) (skipped : Option Nat) (s : State) :
    State :=
  raise .skipped (writeOutcome
    { slot := c.slot, cause := .skipped, action := c.action, sets := none, key := key, lead := recLead,
      stamp := s.stamp, remaining := remaining, skipped := skipped.map (min 254) } s)

/-- The repeat rule after a firing (R61, R62): skipped repetitions are gathered into one record. -/
def repeatRule (recLead : Key) (x : Listed) (r : Repetition) (s : State) : State :=
  let first := cyclesAfter x.key r.period
  let p := skipReached s.cues.lead r.period skipFuel first r.remaining 0
  let s := if p.2.2 = 0 then s else writeSkipped recLead x.cue first (some p.2.1) (some p.2.2) s
  handBack x r p.1 p.2.1 s

/-! ## Firing (R59), skipping in catch-up (R65), expiry (R45) -/

/-- A firing cause as the outcome record names it: on its key, or in catch-up (R59). -/
inductive FiringCause where
  | key | catchUp
deriving DecidableEq, Repr

/-- The Sequencer fires one cue (R59): the action, the record where the cue reports, then the slot or the repeat rule.  A
counted pulse is measured from the cue's key, in catch-up from the lead point (R114, R64).  `recLead` is the lead point
written in records. -/
def fireOne (cause : FiringCause) (recLead : Key) (s : State) (x : Listed) : State :=
  let base := match cause with
    | .key => x.key
    | .catchUp => s.cues.lead
  let applied := appliedLines s x.cue.lines
  let masked := maskedLines s x.cue.lines
  let s := applyAction x.cue base s
  let s :=
    if x.cue.report then
      writeOutcome
        { slot := x.cue.slot, cause := match cause with | .key => .key | .catchUp => .catchUp,
          action := x.cue.action, sets := some (applied, masked), key := x.key, lead := recLead, stamp := s.stamp,
          remaining := x.cue.rep.map (·.remaining), skipped := none } s
    else s
  match x.cue.rep with
  | none => leaveList x.cue.slot s
  | some r => repeatRule recLead x r s

/-- A SKIP cue in catch-up is not fired (R65): a one-shot cue is freed with a record, a repeating one goes through the repeat
rule with its own key as the first repetition skipped. -/
def skipOne (recLead : Key) (s : State) (x : Listed) : State :=
  match x.cue.rep with
  | none => leaveList x.cue.slot (writeSkipped recLead x.cue x.key none none s)
  | some r =>
    let p := skipReached s.cues.lead r.period skipFuel (cyclesAfter x.key r.period) r.remaining 1
    handBack x r p.1 p.2.1 (writeSkipped recLead x.cue x.key (some p.2.1) (some p.2.2) s)

/-- The run of reached cues fires in list order with cause KEY (R58, R60). -/
def fireRun (recLead : Key) (s : State) : State := (reachedRun s.cues).foldl (fireOne .key recLead) s

/-- The record and the occurrence of an expired cue (R45, R46). -/
def expire (recLead : Key) (s : State) (x : Listed) : State :=
  raise .skipped (writeOutcome
    { slot := x.cue.slot, cause := .expired, action := x.cue.action, sets := none, key := x.key, lead := recLead,
      stamp := s.stamp, remaining := x.cue.rep.map (·.remaining), skipped := none } s)

/-- Every listed cue beyond the horizon expires, in list order, and its slot is freed (R45). -/
def expiryRun (s : State) : State :=
  let gone := s.cues.list.filter fun x => beyondHorizon s.cues.lead x.key
  gone.foldl (expire s.cues.lead)
    (s.onCues fun c => { c with list := c.list.filter fun x => !beyondHorizon c.lead x.key })

/-- One reached cue of a catch-up run, by its catch-up choice (R63 to R65). -/
def catchUpOne (recLead : Key) (s : State) (x : Listed) : State :=
  match x.cue.catchUp with
  | .fire => fireOne .catchUp recLead s x
  | .skip => skipOne recLead s x

/-- The catch-up run over the reached cues as they stand at the entry (R63). -/
def catchUpRun (s : State) : State := (reachedRun s.cues).foldl (catchUpOne s.cues.lead) s

/-- The two catch-up counts of ARM and RELEASE, from the state before the entry: cues fired and cues handled as SKIP
(R50, R65). -/
def catchUpCounts (s : State) : Nat × Nat :=
  ((reachedRun s.cues).countP fun x => decide (x.cue.catchUp = .fire),
   (reachedRun s.cues).countP fun x => decide (x.cue.catchUp = .skip))

/-- The sequencer enters ARMED and catch-up runs, as one event (R63). -/
def enterArmed (s : State) : State :=
  withMarks catchUpRun (s.onSeq fun q => { q with state := .armed, holdRequest := false, holdPin := false })

/-! ## Arrivals at the Cue Table (R27, R45, R58) -/

/-- The Cue Table takes an arrival: its lead point takes the key, a cycle boundary runs expiry, and in ARMED the reached cues
fire. -/
def takeLeadArrival (s : State) (a : Arrival) : State :=
  let s := s.onCues fun c => { c with lead := a.key }
  let s := if a.boundary then withMarks expiryRun s else s
  if s.seq.state = .armed then withMarks (fireRun s.cues.lead) s else s

/-! ## Resolution of groups (R88, R89) and misses (R92, R93) -/

/-- A cue of a resolved group: keyed, and entered, or expired at once beyond the horizon (R28, R88, R89). -/
def resolveCue (point recLead : Key) (s : State) (c : Cue) : State :=
  let x : Listed := ⟨c, keyAfter s.axis.cfg.modulus point (c.offset.getD 0)⟩
  if beyondHorizon s.cues.lead x.key then expire recLead s x else enterCue x s

/-- Resolution of a group at a point: its cues enter in group order, and in ARMED the run of reached cues fires
(R60, R89). -/
def resolveGroup (g : Group) (point recLead : Key) (s : State) : State :=
  let s := g.cues.foldl (resolveCue point recLead) s
  if s.seq.state = .armed then fireRun recLead s else s

/-- The oldest group leaves a channel's queue (R87). -/
def popGroup (ch : Fin 4) (s : State) : State :=
  s.onCues fun c => { c with queues := updAt c.queues ch List.tail }

/-- A capture's claim: the oldest group of the channel is resolved at the capture point (R81).  The lead point written is the
Cue Table's (R89). -/
def claimCapture (ch : Fin 4) (point : Key) (s : State) : State × Option (Fin 32) :=
  match s.cues.queues[ch] with
  | [] => (s, none)
  | g :: _ => (withMarks (fun s => resolveGroup g point s.cues.lead (popGroup ch s)) s, some g.number)

/-- A miss's claim: the oldest group is dropped, or resolved at the nominal point, by its policy (R91 to R93).  The lead point
written is that of the arrival that closed the episode (R93). -/
def claimMiss (ch : Fin 4) (nominal arrival : Key) (s : State) : State × MissResult × Option (Fin 32) :=
  match s.cues.queues[ch] with
  | [] => (s, .empty, none)
  | g :: _ =>
    match g.policy with
    | .drop => (withMarks (popGroup ch) s, .dropped, some g.number)
    | .nominal =>
      (withMarks (fun s => resolveGroup g nominal arrival (popGroup ch s)) s, .nominal, some g.number)

/-! ## Requests on cues (sections 2.3 to 2.6) -/

/-- A position below the modulus in force and, while one is staged, below the staged modulus (R10). -/
def belowModuli (a : Axis) (p : Nat) : Bool :=
  decide (p < a.cfg.modulus) && a.staged.all fun m => decide (p < m)

/-- Standing in a reply (section 11.4). -/
def standingByte (lead key : Key) : Byte := if keyReached lead key then 1#8 else 0#8

/-- A cue is listed as one event, and the reply carries its key, its standing and its list index (R31, R33, R34). -/
def listCue (x : Listed) (s : State) : State × Reply :=
  let t := withMarks (enterCue x) s
  (t, okay (keyBytes x.key ++ [standingByte t.cues.lead x.key, byteOf (listIndex t.cues x.cue.slot)]))

/-- The reply LATE carries the lead point as the request found it (R32). -/
def lateReply (s : State) : Reply := ⟨.late, false, keyBytes s.cues.lead⟩

/-- The key of policy NEXT: the next time the lead point reaches the position (R34). -/
def nextKey (lead : Key) (pos : Nat) : Key :=
  if lead.pos < pos then ⟨lead.cycle, pos⟩ else ⟨lead.cycle + 1#16, pos⟩

/-- CUE_PUT of a cue with a key and a late policy, once its values are in range (R30 to R34). -/
def putCue (cue : Cue) (key : Key) (late : LatePolicy) (s : State) : State × Reply :=
  if !slotFree s.cues cue.slot then (s, refuse .slotBusy)
  else if cue.lines &&& ~~~ cueOwned s ≠ 0#16 then (s, refuse .wrongOwner)
  else if !keyReached s.cues.lead key then listCue ⟨cue, key⟩ s
  else
    match late with
    | .refuse => (s, lateReply s)
    | .now =>
      if beyondHorizon s.cues.lead key then (s, lateReply s)
      else if s.seq.state = .armed then
        (withMarks (fun s => fireRun s.cues.lead (enterCue ⟨cue, key⟩ s)) s, okay (keyBytes key ++ [2#8, 0#8]))
      else listCue ⟨cue, key⟩ s
    | .next => listCue ⟨cue, nextKey s.cues.lead key.pos⟩ s

/-- CUE_PUT (R30), 16 bytes. -/
def cuePutRule (body : List Byte) (s : State) : State × Reply :=
  match body with
  | [slot, l1, l0, action, c1, c0, p3, p2, p1, p0, options, w1, w0, count, period, late] =>
    let key : Key := ⟨word16 c1 c0, num32 p3 p2 p1 p0⟩
    if s.seq.state = .safe then (s, refuse .wrongState)
    else
      match cueOf slot (word16 l1 l0) action options (num16 w1 w0) count period none, latePolicyOf late with
      | some cue, some policy =>
        if belowModuli s.axis key.pos then putCue cue key policy s else (s, refuse .badValue)
      | _, _ => (s, refuse .badValue)
  | _ => badLength s

/-- CUE_PUT (R30): fills a FREE slot with a cue and lists it by its late policy. -/
def execCuePut (tag : Byte) (body : List Byte) (s : State) : Result :=
  .next (serve ⟨tag, 0x10#8, body⟩ (cuePutRule body) s)

/-- GROUP_PUT once its values are in range (R84, R85): the group joins the tail of its channel's queue. -/
def putGroup (g : Group) (ch : Fin 4) (s : State) : State × Reply :=
  if (queuedGroups s.cues).any fun h => decide (h.number = g.number) then (s, refuse .groupBusy)
  else if Config.queueRoom ≤ s.cues.queues[ch].length then (s, refuse .queueFull)
  else if (g.cues.any fun c => !slotFree s.cues c.slot) ∨ ¬ (g.cues.map (·.slot)).Nodup then (s, refuse .slotBusy)
  else if g.cues.any fun c => decide (c.lines &&& ~~~ cueOwned s ≠ 0#16) then (s, refuse .wrongOwner)
  else
    let t := withMarks (fun s => s.onCues fun c => { c with queues := updAt c.queues ch (· ++ [g]) }) s
    let n := t.cues.queues[ch].length
    (t, okay [byteOf g.number.val, byteOf ch.val, byteOf (n - 1), byteOf n])

/-- GROUP_PUT (R84), 4 + 13n bytes (R173). -/
def groupPutRule (body : List Byte) (s : State) : State × Reply :=
  match body with
  | number :: channel :: policy :: n :: rest =>
    if rest.length ≠ 13 * n.toNat ∨ Config.maxBody < body.length then badLength s
    else if s.seq.state = .safe ∨ s.axis.staged.isSome then (s, refuse .wrongState)
    else
      match finOf 32 number, finOf 4 channel, missPolicyOf policy,
          allSome ((specificationsOf rest).map (specificationCue s.axis.cfg.modulus)) with
      | some g, some ch, some pol, some cues =>
        if n.toNat = 0 ∨ 16 < n.toNat ∨ !s.capture.channels[ch].cfg.enabled then (s, refuse .badValue)
        else putGroup ⟨g, pol, cues⟩ ch s
      | _, _, _, _ => (s, refuse .badValue)
  | _ => badLength s

/-- GROUP_PUT (R84): queues an anchored group of WAITING cues, all or nothing. -/
def execGroupPut (tag : Byte) (body : List Byte) (s : State) : Result :=
  .next (serve ⟨tag, 0x11#8, body⟩ (groupPutRule body) s)

/-- A group without the cue of a slot, or no group when it held only that cue (R38). -/
def withoutCue (slot : Fin 256) (g : Group) : Option Group :=
  let left := g.cues.filter fun c => decide (c.slot ≠ slot)
  if left = g.cues then some g else if left = [] then none else some { g with cues := left }

/-- The group that holds the WAITING cue of a slot. -/
def groupOfSlot (c : CueTable) (slot : Fin 256) : Option Group :=
  (queuedGroups c).find? fun g => g.cues.any fun x => decide (x.slot = slot)

/-- CUE_CANCEL (R37 to R39). -/
def cueCancelRule (b : Byte) (s : State) : State × Reply :=
  let slot := b.toFin
  match s.cues.list.find? fun x => decide (x.cue.slot = slot) with
  | some x => (withMarks (leaveList slot) s, okay (2#8 :: keyBytes x.key ++ [0#8, 0#8]))
  | none =>
    match groupOfSlot s.cues slot with
    | some g =>
      (withMarks (fun s => s.onCues fun c => { c with queues := c.queues.map (List.filterMap (withoutCue slot)) }) s,
        okay (1#8 :: List.replicate 6 0#8 ++ [byteOf g.number.val, flagByte (withoutCue slot g).isNone]))
    | none => (s, refuse .notFound)

/-- CUE_CANCEL (R37): frees a LISTED or WAITING slot without an outcome record. -/
def execCueCancel (tag : Byte) (body : List Byte) (s : State) : Result :=
  .next (serve ⟨tag, 0x12#8, body⟩ (oneByte cueCancelRule body) s)

/-- The channel whose queue holds a group. -/
def channelOfGroup (c : CueTable) (g : Fin 32) : Option (Fin 4) :=
  (List.finRange 4).find? fun ch => c.queues[ch].any fun h => decide (h.number = g)

/-- GROUP_CANCEL (R86). -/
def groupCancelRule (b : Byte) (s : State) : State × Reply :=
  match finOf 32 b with
  | none => (s, refuse .badValue)
  | some n =>
    match channelOfGroup s.cues n with
    | none => (s, refuse .notFound)
    | some ch =>
      let freed := ((s.cues.queues[ch].filter fun g => decide (g.number = n)).flatMap (·.cues)).length
      (withMarks (fun s => s.onCues fun c =>
          { c with queues := updAt c.queues ch (List.filter fun g => decide (g.number ≠ n)) }) s,
        okay [byteOf ch.val, byteOf freed])

/-- GROUP_CANCEL (R86): frees a QUEUED group and its cues. -/
def execGroupCancel (tag : Byte) (body : List Byte) (s : State) : Result :=
  .next (serve ⟨tag, 0x13#8, body⟩ (oneByte groupCancelRule body) s)

/-- The cue fields of a CUE_READ reply (section 11.8): state, cue, and for a LISTED cue its key, list index and standing, for a
WAITING cue its group and place in group. -/
def cueReadBytes (state : Byte) (c : Cue) (listed : Option (Key × Nat × Byte)) (waiting : Option (Fin 32 × Nat)) :
    List Byte :=
  [state] ++ be16 c.lines.toNat ++ [actionByte c.action, cueOptions c,
    byteOf (bitsByte [listed.isSome, waiting.isSome, c.offset.isSome])] ++
    optBytes 6 (fun p => keyBytes p.1) listed ++
    optBytes 2 (fun p => [byteOf p.1.val, byteOf p.2]) waiting ++
    optBytes 4 be32 c.offset ++ optBytes 2 (fun w => be16 w.value) c.width ++
    optBytes 2 (fun r => [remainingByte r.remaining, byteOf r.period]) c.rep ++
    optBytes 2 (fun p => [byteOf p.2.1, p.2.2]) listed

/-- The data of CUE_READ (R40). -/
def cueReadData (c : CueTable) (slot : Fin 256) : List Byte :=
  match c.list.find? fun x => decide (x.cue.slot = slot) with
  | some x => cueReadBytes 2#8 x.cue (some (x.key, listIndex c slot, standingByte c.lead x.key)) none
  | none =>
    match groupOfSlot c slot with
    | none => List.replicate 24 0#8
    | some g =>
      match g.cues.find? fun x => decide (x.slot = slot) with
      | none => List.replicate 24 0#8
      | some x => cueReadBytes 1#8 x none (some (g.number, g.cues.findIdx fun x => decide (x.slot = slot)))

/-- CUE_READ (R40): the record, list index and standing of one slot. -/
def execCueRead (tag : Byte) (body : List Byte) (s : State) : Result :=
  .next (serve ⟨tag, 0x14#8, body⟩ (oneByte (fun b s => (s, okay (cueReadData s.cues b.toFin))) body) s)

/-- The data of LIST_READ from a starting index (R41). -/
def listReadData (c : CueTable) (start : Nat) : List Byte :=
  let entries := (c.list.drop start).take 16
  be16 c.list.length ++ [byteOf entries.length] ++
    entries.flatMap fun x => byteOf x.cue.slot.val :: keyBytes x.key ++ [standingByte c.lead x.key]

/-- LIST_READ (R41): up to 16 cue list entries from a starting index. -/
def execListRead (tag : Byte) (body : List Byte) (s : State) : Result :=
  .next (serve ⟨tag, 0x15#8, body⟩ (oneByte (fun b s => (s, okay (listReadData s.cues b.toNat))) body) s)

/-- MARKS_SET (R42), 4 bytes. -/
def marksSetRule (body : List Byte) (s : State) : State × Reply :=
  match body with
  | [a1, a0, b1, b0] =>
    if 256 < num16 a1 a0 ∨ 256 < num16 b1 b0 then (s, refuse .badValue)
    else (s.onCues fun c => { c with lowMark := num16 a1 a0, highMark := num16 b1 b0 }, okay [])
  | _ => badLength s

/-- MARKS_SET (R42): the low mark and the high mark. -/
def execMarksSet (tag : Byte) (body : List Byte) (s : State) : Result :=
  .next (serve ⟨tag, 0x16#8, body⟩ (marksSetRule body) s)

/-- LEAD_ARRIVAL (R27, R58): the Cue Table and the Sequencer take the oldest arrival handed to them; without one nothing
happens (notes/assumptions/3, 4). -/
def execLeadArrival (s : State) : Result :=
  match s.cues.arrivals with
  | [] => .next s
  | a :: rest => event true (fun s => takeLeadArrival (s.onCues fun c => { c with arrivals := rest }) a) s

end Sys2Proof.Machine
end

