-- ==== Sys2Proof/Machine/Lines.lean ====
section
/-! DEFINITION. The output lines (chapter 6): the requests on lines, the trails, the sampled pins and the mismatch timeout. -/

namespace Sys2Proof.Machine

/-- The trail in a reply: its code, then its value (section 11.8). -/
def trailBytes : Option Trail → List Byte
  | none => 0#8 :: List.replicate 6 0#8
  | some (.counts k) => 1#8 :: keyBytes k
  | some (.time e) => 2#8 :: (be16 0 ++ be32 e.toNat)

/-- An output entry, 13 bytes (section 11.8). -/
def outputEntry (s : State) (l : OutLine) : List Byte :=
  [ownerByte l.cfg.owner,
    byteOf ((if l.cfg.polarity = .activeLow then 1 else 0) + 2 * driverCode l.cfg.driver +
      8 * safeLevelCode l.cfg.safeLevel),
    byteOf (bitsByte [l.enable, l.direct, l.cue, l.sampled]),
    byteOf l.cfg.mismatchTime, mismatchByte l.mismatch, driveByte (drive s l)] ++ trailBytes l.trail

/-- An input entry, 4 bytes (section 11.8). -/
def inputEntry (i : InLine) : List Byte :=
  [inputFnByte i.fn, edgeModeByte i.edgeMode, byteOf i.filter, flagByte i.accepted]

/-- A line takes new settings (R117): a line that leaves CUE loses its trail and cue level, one that leaves DIRECT its direct
level, and one that comes to CUE starts inactive without a trail.  The mismatch state is restarted (R121). -/
def setupLine (cfg : LineSettings) (l : OutLine) : OutLine :=
  let changed := decide (cfg.owner ≠ l.cfg.owner)
  let cueChange := changed && (decide (l.cfg.owner = .cue) || decide (cfg.owner = .cue))
  { l with
    cfg := cfg
    direct := if changed && decide (l.cfg.owner = .direct) then false else l.direct
    cue := if cueChange then false else l.cue
    trail := if cueChange then none else l.trail
    mismatch := .agree }

/-- The settings a LINE_SETUP body describes, or none where a value is not listed (R117). -/
def lineSettingsOf (owner polarity driver safe time : Byte) : Option LineSettings :=
  match ownerOf owner, polarityOf polarity, driverOf driver, safeLevelOf safe with
  | some o, some p, some d, some l => some ⟨o, p, d, l, time.toNat⟩
  | _, _, _, _ => none

/-- LINE_SETUP on a line: a PRESENT condition ends with the restart, the line is judged anew, and the reply carries its entry
(R117, R121). -/
def setupLineAt (n : Fin 16) (cfg : LineSettings) (s : State) : State × Reply :=
  let t := s.onOuts fun o => { o with lines := updAt o.lines n (setupLine cfg) }
  let t := if s.outs.lines[n].mismatch = .present then report (plainReport (.lineMismatch n) false) t else t
  let t := judgeLines t
  (t, okay (outputEntry t t.outs.lines[n]))

/-- LINE_SETUP (R117), 6 bytes. -/
def lineSetupRule (body : List Byte) (s : State) : State × Reply :=
  match body with
  | [line, owner, polarity, driver, safe, time] =>
    match finOf 16 line, lineSettingsOf owner polarity driver safe time with
    | some n, some cfg => setupLineAt n cfg s
    | _, _ => (s, refuse .badValue)
  | _ => badLength s

/-- LINE_SETUP (R117): an output line's owner, polarity, driver, safe level and mismatch time. -/
def execLineSetup (tag : Byte) (body : List Byte) (s : State) : Result :=
  .next (serve ⟨tag, 0x40#8, body⟩ (lineSetupRule body) s)

/-- Change the lines of a mask. -/
def mapMasked (mask : LineSet) (f : Fin 16 → OutLine → OutLine) (s : State) : State :=
  s.onOuts fun o =>
    { o with lines := Vector.ofFn fun n : Fin 16 => if inSet mask n then f n o.lines[n] else o.lines[n] }

/-- A line set of the lines with a property, as 2 bytes. -/
def linesWhere (s : State) (p : OutLine → Bool) : List Byte :=
  be16 (lineSetOf fun n => p s.outs.lines[n]).toNat

/-- LINES_ENABLE (R118), 4 bytes. -/
def linesEnableRule (body : List Byte) (s : State) : State × Reply :=
  match body with
  | [m1, m0, l1, l0] =>
    let t := mapMasked (word16 m1 m0) (fun n l => { l with enable := inSet (word16 l1 l0) n }) s
    (t, okay (linesWhere t (·.enable)))
  | _ => badLength s

/-- LINES_ENABLE (R118): the enable latches of the masked lines. -/
def execLinesEnable (tag : Byte) (body : List Byte) (s : State) : Result :=
  .next (serve ⟨tag, 0x41#8, body⟩ (linesEnableRule body) s)

/-- LINES_SET (R119), 4 bytes. -/
def linesSetRule (body : List Byte) (s : State) : State × Reply :=
  match body with
  | [m1, m0, l1, l0] =>
    let direct := lineSetOf fun n => decide (s.outs.lines[n].cfg.owner = .direct)
    if word16 m1 m0 &&& ~~~ direct ≠ 0#16 then (s, refuse .wrongOwner)
    else
      let t := mapMasked (word16 m1 m0) (fun n l => { l with direct := inSet (word16 l1 l0) n }) s
      (t, okay (linesWhere t (·.direct)))
  | _ => badLength s

/-- LINES_SET (R119): the direct levels of masked DIRECT lines. -/
def execLinesSet (tag : Byte) (body : List Byte) (s : State) : Result :=
  .next (serve ⟨tag, 0x42#8, body⟩ (linesSetRule body) s)

/-- The data of LINES_READ, 240 bytes (R120). -/
def linesReadData (s : State) : List Byte :=
  s.outs.lines.toList.flatMap (outputEntry s) ++ s.ins.toList.flatMap inputEntry

/-- LINES_READ (R120): every output line record and every input line state. -/
def execLinesRead (tag : Byte) (body : List Byte) (s : State) : Result :=
  .next (serve ⟨tag, 0x43#8, body⟩ (noBody (fun s => (s, okay (linesReadData s))) body) s)

/-! ## Trails (R115) -/

/-- Ending a trail removes it and sets the cue level inactive (R115). -/
def endTrail (l : OutLine) : OutLine := { l with trail := none, cue := false }

/-- A COUNTS trail whose key is reached against the lead point ends (R115). -/
def trailAtArrival (lead : Key) (l : OutLine) : OutLine :=
  match l.trail with
  | some (.counts k) => if keyReached lead k then endTrail l else l
  | _ => l

/-- The Line Unit takes an arrival of the lead point (R115). -/
def takeTrailArrival (s : State) (lead : Key) : State :=
  s.onOuts fun o => { o with lines := o.lines.map (trailAtArrival lead) }

/-- At a position jump every COUNTS trail ends (R115). -/
def endCountTrails (s : State) : State :=
  s.onOuts fun o => { o with lines := o.lines.map fun l =>
    match l.trail with
    | some (.counts _) => endTrail l
    | _ => l }

/-- TRAIL_ARRIVAL (R115): the Line Unit takes the oldest arrival handed to it. -/
def execTrailArrival (s : State) : Result :=
  match s.outs.arrivals with
  | [] => .next s
  | k :: rest => event true (fun s => takeTrailArrival (s.onOuts fun o => { o with arrivals := rest }) k) s

/-- A TIME trail's expiry stamp is reached (R115). -/
def trailDue (s : State) (n : Fin 16) : Bool :=
  match s.outs.lines[n].trail with
  | some (.time e) => reached s.stamp e
  | _ => false

/-- TRAIL_EXPIRY (R115): a TIME trail whose expiry stamp is reached ends. -/
def execTrailExpiry (line : Fin 16) (s : State) : Result :=
  event (trailDue s line) (fun s => s.onOuts fun o => { o with lines := updAt o.lines line endTrail }) s

/-! ## Sampled pins and the mismatch timeout (R111, R121) -/

/-- PIN_SAMPLE_CHANGE (R111, R121): the level read back at an output pin changes, and the monitor judges it.  The pin changes
also while the part is held in reset. -/
def execPinSampleChange (line : Fin 16) (high : Bool) (s : State) : Result :=
  .next (settle (s.onOuts fun o => { o with lines := updAt o.lines line fun l => { l with sampled := high } }))

/-- A PENDING mismatch has lasted its mismatch time (R121). -/
def mismatchDue (s : State) (n : Fin 16) : Bool :=
  match s.outs.lines[n].mismatch with
  | .pending since => reached s.stamp (after since (1000 * s.outs.lines[n].cfg.mismatchTime))
  | _ => false

/-- MISMATCH_TIMEOUT (R121, R122): the mismatch becomes PRESENT and its condition begins. -/
def execMismatchTimeout (line : Fin 16) (s : State) : Result :=
  event (mismatchDue s line)
    (fun s => report (plainReport (.lineMismatch line) true)
      (s.onOuts fun o => { o with lines := updAt o.lines line fun l => { l with mismatch := .present } })) s

end Sys2Proof.Machine
end

