-- ==== Sys2Proof/Machine/Cams.lean ====
section
/-! DEFINITION. The Cam Unit (chapter 5): levels, loading and swapping of profiles. -/

namespace Sys2Proof.Machine

/-- A position lies in a window (R98). -/
def inWindow (w : Window) (p : Nat) : Bool :=
  if w.on < w.off then decide (w.on ≤ p) && decide (p < w.off) else decide (w.on ≤ p) || decide (p < w.off)

/-- A position lies in a profile (R98). -/
def inProfile (pr : Profile) (p : Nat) : Bool :=
  match pr with
  | .empty => false
  | .full => true
  | .windows ws => ws.any fun w => inWindow w p

/-- The profile of a slot. -/
def slotProfile (t : Track) (x : ProfileSlot) : Profile :=
  match x with
  | .a => t.slotA
  | .b => t.slotB

/-- The other slot. -/
def otherSlot : ProfileSlot → ProfileSlot
  | .a => .b
  | .b => .a

/-- The advance: the speed sample times the lead time over 1,000, truncated toward zero (R99). -/
def advanceOf (speed : Int) (leadTime : Nat) : Int := (speed * (leadTime : Int)).tdiv 1000

/-- The advanced position: the sum wrapped into the modulus (R99). -/
def advancedPos (modulus : Nat) (pos : Nat) (advance : Int) : Nat := (((pos : Int) + advance).emod (modulus : Int)).toNat

/-- The level of a track recomputed from the axis as it stands (R99). -/
def recomputeTrack (a : Axis) (t : Track) : Track :=
  let adv := advanceOf a.speed t.leadTime
  let p := advancedPos a.cfg.modulus a.current.pos adv
  { t with advance := adv, advPos := p, level := inProfile (slotProfile t t.active) p }

/-- Every track level is recomputed (R100). -/
def recomputeCams (s : State) : State :=
  s.onCams fun c => { c with tracks := c.tracks.map (recomputeTrack s.axis) }

/-- The window bounds of a profile (R10). -/
def profileBounds : Profile → List Nat
  | .empty => []
  | .full => []
  | .windows ws => ws.flatMap fun w => [w.on, w.off]

/-- A profile written over the inactive slot. -/
def writeInactive (p : Profile) (t : Track) : Track :=
  match t.active with
  | .a => { t with slotB := p }
  | .b => { t with slotA := p }

/-- A load stages the profile (R103), or makes it active at once (R104), and sets the lead time (R105). -/
def loadTrack (immediate : Bool) (p : Profile) (leadTime : Nat) (t : Track) : Track :=
  let t := { writeInactive p t with leadTime := leadTime }
  if immediate then { t with active := otherSlot t.active, staged := false } else { t with staged := true }

/-- CAM_LOAD once its values are in range (R103, R104): the track is loaded and its level recomputed. -/
def loadCam (n : Fin 8) (immediate : Bool) (p : Profile) (leadTime : Nat) (s : State) : State × Reply :=
  let t := s.onCams fun c =>
    { c with tracks := updAt c.tracks n fun t => recomputeTrack s.axis (loadTrack immediate p leadTime t) }
  let x := t.cams.tracks[n]
  (t, okayReplaced s.cams.tracks[n].staged
    [byteOf n.val, profileSlotByte x.active, flagByte x.staged, flagByte x.level])

/-- The windows of a profile may be loaded: on differs from off, and every bound lies below the moduli (R102). -/
def profileFits (a : Axis) (p : Profile) : Bool :=
  (profileBounds p).all (belowModuli a) &&
    match p with
    | .windows ws => ws.all fun w => decide (w.on ≠ w.off)
    | _ => true

/-- CAM_LOAD (R102), 6 + 8c bytes (R173). -/
def camLoadRule (body : List Byte) (s : State) : State × Reply :=
  match body with
  | track :: options :: t1 :: t0 :: kind :: c :: rest =>
    if rest.length ≠ 8 * c.toNat ∨ Config.maxBody < body.length then badLength s
    else if options.getLsbD 0 = true ∧ s.seq.state ≠ .idle then (s, refuse .wrongState)
    else
      match finOf 8 track, profileOf kind (windowsOf rest) with
      | some n, some p =>
        if 10000 < num16 t1 t0 ∨ 2 ≤ options.toNat ∨ profileFits s.axis p = false then (s, refuse .badValue)
        else loadCam n (options.getLsbD 0) p (num16 t1 t0) s
      | _, _ => (s, refuse .badValue)
  | _ => badLength s

/-- CAM_LOAD (R102): stages a profile, or loads it immediately in IDLE. -/
def execCamLoad (tag : Byte) (body : List Byte) (s : State) : Result :=
  .next (serve ⟨tag, 0x38#8, body⟩ (camLoadRule body) s)

/-- The data of CAM_READ, 82 bytes (R108). -/
def camReadData (s : State) (n : Fin 8) : List Byte :=
  let t := s.cams.tracks[n]
  profileBytes t.slotA ++ profileBytes t.slotB ++ [profileSlotByte t.active, flagByte t.staged] ++ be16 t.leadTime ++
    beInt t.advance ++ be32 t.advPos ++ [flagByte t.level, flagByte (trackOutput s n)]

/-- CAM_READ (R108). -/
def camReadRule (b : Byte) (s : State) : State × Reply :=
  match finOf 8 b with
  | none => (s, refuse .badValue)
  | some n => (s, okay (camReadData s n))

/-- CAM_READ (R108): a track's profiles, state and level. -/
def execCamRead (tag : Byte) (body : List Byte) (s : State) : Result :=
  .next (serve ⟨tag, 0x39#8, body⟩ (oneByte camReadRule body) s)

/-- A staged track swaps its slots at a cycle boundary (R106). -/
def swapTrack (t : Track) : Track :=
  if t.staged then { t with active := otherSlot t.active, staged := false } else t

/-- The axis at position 0 of the cycle it stands in: what a cycle boundary recomputes the levels from (R106). -/
def atCycleStart (a : Axis) : Axis := { a with current := { a.current with pos := 0 } }

/-- The Cam Unit takes a cycle boundary: every staged track swaps, each raising CAM_SWAPPED, and every level is recomputed
from position 0 of the new cycle, with the modulus in force after the boundary (R106). -/
def takeBoundary (s : State) : State :=
  let swaps := s.cams.tracks.toList.countP (·.staged)
  (Nat.repeat (raise .camSwapped) swaps s).onCams fun c =>
    { c with tracks := c.tracks.map fun t => recomputeTrack (atCycleStart s.axis) (swapTrack t) }

/-- The Cam Unit takes every cycle boundary that waits, before it takes what the axis hands it next
(notes/assumptions/17).  After the first nothing is staged, so the others change nothing. -/
def takeBoundaries (s : State) : State :=
  if s.cams.boundaries = 0 then s else takeBoundary (s.onCams fun c => { c with boundaries := 0 })

/-- PROFILE_SWAP (R106): the Cam Unit takes a cycle boundary handed to it. -/
def execProfileSwap (s : State) : Result :=
  match s.cams.boundaries with
  | 0 => .next s
  | n + 1 => event true (fun s => takeBoundary (s.onCams fun c => { c with boundaries := n })) s

end Sys2Proof.Machine
end

