-- ==== Sys2Proof/Machine/Store.lean ====
section
/-! DEFINITION. The Setting Store (chapter 10): saving, erasing and reading blocks, the end and the abort of an operation, and
the request RESTART. -/

namespace Sys2Proof.Machine

/-! ## Blocks (R164, R165) -/

/-- The header is prepared: VALID, with the part's signature (R165). -/
def headerPrepared (b : Blocks) : Bool :=
  match b.header with
  | .valid c => c.signed
  | _ => false

/-- A block in a condition without content. -/
def clearBlock (c : (α : Type) → Block α) (n : Fin 9) (b : Blocks) : Blocks :=
  match n with
  | 0 => { b with header := c _ }
  | 1 => { b with link := c _ }
  | 2 => { b with axis := c _ }
  | 3 => { b with limits := c _ }
  | 4 => { b with lines := c _ }
  | 5 => { b with inputs := c _ }
  | 6 => { b with capture := c _ }
  | 7 => { b with cams := c _ }
  | 8 => { b with events := c _ }

/-- A block erased (R167). -/
def eraseBlock (n : Fin 9) (b : Blocks) : Blocks := clearBlock (fun _ => .empty) n b

/-- A block cut short (R165). -/
def spoilBlock (n : Fin 9) (b : Blocks) : Blocks := clearBlock (fun _ => .bad) n b

/-- A block written with its snapshot (R167). -/
def writeBlock (x : Snapshot) (b : Blocks) : Blocks :=
  match x with
  | .header c => { b with header := .valid c }
  | .link c => { b with link := .valid c }
  | .axis c => { b with axis := .valid c }
  | .limits c => { b with limits := .valid c }
  | .lines c => { b with lines := .valid c }
  | .inputs c => { b with inputs := .valid c }
  | .capture c => { b with capture := .valid c }
  | .cams c => { b with cams := .valid c }
  | .events c => { b with events := .valid c }

/-- The number of a snapshot's block (R164). -/
def snapshotBlock : Snapshot → Fin 9
  | .header _ => 0
  | .link _ => 1
  | .axis _ => 2
  | .limits _ => 3
  | .lines _ => 4
  | .inputs _ => 5
  | .capture _ => 6
  | .cams _ => 7
  | .events _ => 8

/-- The block a write or erase in flight concerns. -/
def workBlock : StoreWork → Fin 9
  | .writing x => snapshotBlock x
  | .erasing n => n

/-- What the INPUTS block holds of an input: a claim of another function is stored as GENERAL (R164). -/
def inputSettings (i : InLine) : InputSettings := ⟨decide (i.fn = .freeze), i.edgeMode, i.filter⟩

/-- What the CAMS block holds of a track: the profile of the active slot and the lead time (R164). -/
def trackSettings (t : Track) : TrackSettings := ⟨slotProfile t t.active, t.leadTime⟩

/-- The live settings of a block (R164, R166). -/
def snapshot (n : Fin 9) (limit : Nat) (s : State) : Snapshot :=
  match n with
  | 0 => .header ⟨true, limit⟩
  | 1 => .link s.link.rate
  | 2 => .axis s.axis.cfg
  | 3 => .limits ⟨s.axis.reverseLimit, s.axis.speedLimit, s.link.silenceLimit, s.supply.level⟩
  | 4 => .lines (s.outs.lines.map (·.cfg))
  | 5 => .inputs (s.ins.map inputSettings)
  | 6 => .capture (s.capture.channels.map (·.cfg))
  | 7 => .cams (s.cams.tracks.map trackSettings)
  | 8 => .events ⟨s.events.recs.map (·.enabled), s.events.order⟩

/-! ## Requests on the store (R166, R168, R171) -/

/-- The checks BUSY, WRONG_STATE and PROTECTED of a save or erase, in this order; none when all pass (R166). -/
def storeRefusal (n : Fin 9) (s : State) : Option Code :=
  if s.store.op.isSome then some .busy
  else if s.faults.present.supplyLow then some .wrongState
  else if n.val < s.store.limit then some .protected_
  else none

/-- An operation begins; its end is a free value of its own (R166, notes/assumptions/8). -/
def beginOperation (w : StoreWork) (s : State) : State :=
  { s.onStore fun x => { x with op := some ⟨w, s.stamp, s.freeIndex⟩ } with freeIndex := s.freeIndex + 1 }

/-- STORE_SAVE (R166), 2 bytes; the limit is read for block 0 only. -/
def storeSaveRule (body : List Byte) (s : State) : State × Reply :=
  match body with
  | [block, limit] =>
    match finOf 9 block with
    | none => (s, refuse .badValue)
    | some n =>
      if n = 0 ∧ 9 < limit.toNat then (s, refuse .badValue)
      else
        match storeRefusal n s with
        | some c => (s, refuse c)
        | none => (beginOperation (.writing (snapshot n limit.toNat s)) s, okay [byteOf n.val])
  | _ => badLength s

/-- STORE_SAVE (R166): begins writing a snapshot of one settings block. -/
def execStoreSave (tag : Byte) (body : List Byte) (s : State) : Result :=
  .next (serve ⟨tag, 0x70#8, body⟩ (storeSaveRule body) s)

/-- STORE_ERASE (R166). -/
def storeEraseRule (b : Byte) (s : State) : State × Reply :=
  match finOf 9 b with
  | none => (s, refuse .badValue)
  | some n =>
    match storeRefusal n s with
    | some c => (s, refuse c)
    | none => (beginOperation (.erasing n) s, okay [])

/-- STORE_ERASE (R166): begins erasing one settings block. -/
def execStoreErase (tag : Byte) (body : List Byte) (s : State) : Result :=
  .next (serve ⟨tag, 0x71#8, body⟩ (oneByte storeEraseRule body) s)

/-- The condition of each of the nine blocks, block 0 first (R168). -/
def blockConditions (b : Blocks) : List Byte :=
  [blockByte b.header, blockByte b.link, blockByte b.axis, blockByte b.limits, blockByte b.lines, blockByte b.inputs,
    blockByte b.capture, blockByte b.cams, blockByte b.events]

/-- The data of STORE_READ, 24 bytes; the store state is IDLE in every such reply (R168). -/
def storeReadData (x : SettingStore) : List Byte :=
  blockConditions x.blocks ++ [flagByte (headerPrepared x.blocks), byteOf x.limit, 0#8, flagByte x.lastOp.isSome] ++
    optBytes 2 (fun o => [byteOf o.block.val, storeResultByte o.result]) x.lastOp ++
    flagByte x.skipped :: x.results.toList.map loadResultByte

/-- STORE_READ (R168). -/
def storeReadRule (s : State) : State × Reply :=
  if s.store.op.isSome then (s, refuse .busy) else (s, okay (storeReadData s.store))

/-- STORE_READ (R168): the state of the setting store. -/
def execStoreRead (tag : Byte) (body : List Byte) (s : State) : Result :=
  .next (serve ⟨tag, 0x72#8, body⟩ (noBody storeReadRule body) s)

/-- RESTART (R161, R171): refused BUSY during a write or erase; otherwise the link begins to finish its work. -/
def restartRule (s : State) : State × Reply :=
  if s.store.op.isSome then (s, refuse .busy)
  else (s.onLink fun l => { l with restarting := true }, okay [])

/-- RESTART (R171). -/
def execRestart (tag : Byte) (body : List Byte) (s : State) : Result :=
  .next (serve ⟨tag, 0x7F#8, body⟩ (noBody restartRule body) s)

/-! ## The end and the abort of an operation (R167) -/

/-- What the end of an operation leaves in the store (R167). -/
def finishWork (w : StoreWork) (x : SettingStore) : SettingStore :=
  let done := { x with op := none, lastOp := some ⟨workBlock w, .done⟩ }
  match w with
  | .writing (.header c) => { done with blocks := writeBlock (.header c) x.blocks, limit := c.limit }
  | .writing c => { done with blocks := writeBlock c x.blocks }
  | .erasing n => { done with blocks := eraseBlock n x.blocks }

/-- The end of the operation in flight (R167). -/
def endOperation (s : State) : State :=
  match s.store.op with
  | none => s
  | some o => raise .storeDone (s.onStore (finishWork o.work))

/-- The abort of the operation in flight (R167). -/
def abortOperation (s : State) : State :=
  match s.store.op with
  | none => s
  | some o =>
    raise .storeDone (s.onStore fun x =>
      { x with op := none, lastOp := some ⟨workBlock o.work, .failed⟩, blocks := spoilBlock (workBlock o.work) x.blocks })

/-- An operation has lasted at least the shortest time (R166). -/
def storeEndDue (s : State) : Bool :=
  match s.store.op with
  | none => false
  | some o => reached s.stamp (after o.since Config.storeMin)

/-- STORE_OPERATION_END (R167): the operation in flight ends. -/
def execStoreOperationEnd (s : State) : Result := event (storeEndDue s) endOperation s

end Sys2Proof.Machine
end

