-- ==== Sys2Proof/Machine/Faults.lean ====
section
/-! DEFINITION. The Fault Monitor (chapter 7): taking conditions and faults, entry into SAFE, RESUME, the limits. -/

namespace Sys2Proof.Machine

/-! ## Conditions and the present set (R128, R129) -/

/-- The kind of a condition (R128). -/
def condKind : Condition → FaultKind
  | .supplyLow => .supplyLow
  | .axisSignal => .axisSignal
  | .overspeed => .overspeed
  | .reverseLimit => .reverseLimit
  | .lineMismatch _ => .lineMismatch
  | .linkSilent => .linkSilent

/-- The entry of a condition in the present set; AXIS_SIGNAL never stands in it (R129). -/
def setPresent (c : Condition) (b : Bool) (p : PresentSet) : PresentSet :=
  match c with
  | .supplyLow => { p with supplyLow := b }
  | .axisSignal => p
  | .overspeed => { p with overspeed := b }
  | .reverseLimit => { p with reverseLimit := b }
  | .lineMismatch n => { p with lines := lineSetOf fun m => if m = n then b else inSet p.lines m }
  | .linkSilent => { p with linkSilent := b }

/-- The entry of a condition in the Fault Monitor's present set. -/
def markPresent (c : Condition) (b : Bool) (s : State) : State :=
  s.onFaults fun f => { f with present := setPresent c b f.present }

/-- A beginning of a kind is a fault in a sequencer state (R128). -/
def takenIn (k : FaultKind) (q : SeqState) : Bool :=
  match k with
  | .supplyLow | .axisSignal | .lineMismatch => true
  | .overspeed | .reverseLimit | .linkSilent => decide (q ≠ .idle)

/-! ## Taking a fault (R131 to R135) -/

/-- The primary record of a fault as it is taken (R132). -/
def faultRecord (r : Report) (s : State) : FaultRecord where
  kind := condKind r.cond
  stamp := s.stamp
  current := match r.points with
    | some p => p.1
    | none => s.axis.current
  lead := match r.points with
    | some p => p.2
    | none => s.axis.lead
  left := s.seq.state
  line := match r.cond with
    | .lineMismatch n => some n
    | _ => none
  speed := r.speed

/-- A kind joins the secondary set (R135). -/
def joinSecondary (k : FaultKind) (b : BitVec 8) : BitVec 8 := b ||| (1#8 <<< (faultRank k - 1))

/-- The fault count rises and FAULT is raised (R131). -/
def countFault (s : State) : State := raise .fault (s.onFaults fun f => { f with count := f.count + 1#16 })

/-- Entry into SAFE at the blocks (R133): the Sequencer, the Line Unit and the Axis Unit. -/
def enterSafe (s : State) : State :=
  let s := s.onSeq fun q => { q with state := .safe, holdRequest := false, holdPin := false }
  let s := s.onOuts fun o => { o with lines := o.lines.map endTrail }
  match s.axis.cfg.source with
  | .timebase => s.onAxis fun a => { a with running := false }
  | .quad | .step => s

/-- A fault taken in IDLE, ARMED or HOLD (R132). -/
def faultOutsideSafe (r : Report) (s : State) : State :=
  enterSafe ((countFault s).onFaults fun f => { f with primary := some (faultRecord r s), secondary := 0#8, flt := true })

/-- The records of a fault taken in SAFE, by rank (R135). -/
def recordByRank (new : FaultRecord) (f : FaultMonitor) : FaultMonitor :=
  match f.primary with
  | none => { f with primary := some new }
  | some p =>
    if faultRank new.kind < faultRank p.kind then
      { f with primary := some new, secondary := joinSecondary p.kind f.secondary }
    else { f with secondary := joinSecondary new.kind f.secondary }

/-- A fault taken in SAFE (R135). -/
def faultInSafe (r : Report) (s : State) : State := (countFault s).onFaults (recordByRank (faultRecord r s))

/-- A fault: its records, and for SUPPLY_LOW the abort of a store operation in flight (R130, R132, R135). -/
def takeFault (r : Report) (s : State) : State :=
  let t := if s.seq.state = .safe then faultInSafe r s else faultOutsideSafe r s
  if condKind r.cond = .supplyLow then abortOperation t else t

/-- The Fault Monitor takes the beginning of a condition (R128). -/
def takeBeginning (r : Report) (s : State) : State :=
  let t := markPresent r.cond true s
  if takenIn (condKind r.cond) s.seq.state then takeFault r t else t

/-- The oldest report about a condition that waits at the Fault Monitor. -/
def nextReport (s : State) (c : Condition) : Option Report := s.faults.inbox.find? fun r => decide (r.cond = c)

/-- The oldest report about a condition leaves the inbox. -/
def dropReport (c : Condition) (s : State) : State :=
  s.onFaults fun f => { f with inbox := f.inbox.eraseP fun r => decide (r.cond = c) }

/-- CONDITION_BEGIN (R128): the oldest report about the condition, when it is a beginning, is taken
(notes/assumptions/3, 4). -/
def execConditionBegin (cond : Condition) (s : State) : Result :=
  match nextReport s cond with
  | some r => event r.begins (fun s => takeBeginning r (dropReport cond s)) s
  | none => .next s

/-- The Fault Monitor takes the oldest report about a condition, when it is an ending (R129). -/
def takeEnding (cond : Condition) (s : State) : State :=
  match nextReport s cond with
  | some r => if r.begins then s else markPresent cond false (dropReport cond s)
  | none => s

/-- CONDITION_END (R129): the oldest report about the condition, when it is an ending, is taken. -/
def execConditionEnd (cond : Condition) (s : State) : Result :=
  match nextReport s cond with
  | some r => event (!r.begins) (takeEnding cond) s
  | none => .next s

/-- SUPPLY_CROSSING (R130): the supply is found at a voltage, and the comparator judges it.  In reset only the pin changes. -/
def execSupplyCrossing (millivolts : BitVec 16) (s : State) : Result :=
  .next (settle (s.onSupply fun p => { p with millivolts := millivolts.toNat }))

/-! ## Requests on the Fault Monitor (R137, R138, R140, R141) -/

/-- The four limits as LIMITS_SET carries them. -/
def limitBytes (reverse speed silence supply : Nat) : List Byte :=
  be16 reverse ++ be16 speed ++ be16 silence ++ [byteOf supply]

/-- The limits as LIMITS_SET has written them are judged at once (R19, R130).  The Fault Monitor takes the endings with the
request, so that the next RESUME no longer finds the condition present (R140); a beginning waits for its own event
(notes/assumptions/4). -/
def judgeLimits (s : State) : State :=
  takeEnding .supplyLow (takeEnding .reverseLimit (takeEnding .overspeed
    (judgeSupply (judgeReverse (judgeOverspeed s)))))

/-- LIMITS_SET (R140), 7 bytes. -/
def limitsSetRule (body : List Byte) (s : State) : State × Reply :=
  match body with
  | [r1, r0, v1, v0, q1, q0, level] =>
    match finOf 4 level with
    | none => (s, refuse .badValue)
    | some lv =>
      if 60000 < num16 q1 q0 then (s, refuse .badValue)
      else
        (judgeLimits (((s.onAxis fun a => { a with reverseLimit := num16 r1 r0, speedLimit := num16 v1 v0 }).onSupply
            fun p => { p with level := lv }).onLink fun l => { l with silenceLimit := num16 q1 q0 }),
          okay (limitBytes (num16 r1 r0) (num16 v1 v0) (num16 q1 q0) lv.val))
  | _ => badLength s

/-- LIMITS_SET (R140): the reverse, speed and silence limits and the supply level. -/
def execLimitsSet (tag : Byte) (body : List Byte) (s : State) : Result :=
  .next (serve ⟨tag, 0x50#8, body⟩ (limitsSetRule body) s)

/-- The primary record in FAULT_READ: presence, kind, stamp, points, state left, line, speed (section 11.8). -/
def faultRecordBytes : Option FaultRecord → List Byte
  | none => List.replicate 24 0#8
  | some r =>
    [byteOf (bitsByte [true, r.line.isSome, r.speed.isSome]), byteOf (faultRank r.kind)] ++ be32 r.stamp.toNat ++
      keyBytes r.current ++ keyBytes r.lead ++ [seqStateByte r.left] ++
      optBytes 1 (fun n : Fin 16 => [byteOf n.val]) r.line ++ optBytes 4 beInt r.speed

/-- A set of conditions as its byte, and the mismatch lines as 2 bytes (section 11.4). -/
def conditionBytes (p : PresentSet) : List Byte :=
  byteOf (bitsByte [p.supplyLow, p.overspeed, p.reverseLimit, p.linkSilent, decide (p.lines ≠ 0#16)]) :: be16 p.lines.toNat

/-- The data of FAULT_READ, 38 bytes (R141). -/
def faultReadData (s : State) : List Byte :=
  be16 s.faults.count.toNat ++ faultRecordBytes s.faults.primary ++ [s.faults.secondary] ++
    conditionBytes s.faults.present ++
    limitBytes s.axis.reverseLimit s.axis.speedLimit s.link.silenceLimit s.supply.level.val ++ [flagByte s.faults.flt]

/-- FAULT_READ (R141): the fault records, the present set and the limits. -/
def execFaultRead (tag : Byte) (body : List Byte) (s : State) : Result :=
  .next (serve ⟨tag, 0x51#8, body⟩ (noBody (fun s => (s, okay (faultReadData s))) body) s)

/-- The blocking conditions present: the present set, which is what RESUME tests (R129), but for LINK_SILENT (R137).  A
condition whose ending still waits blocks, and one whose beginning still waits does not (R139). -/
def blockingSet (s : State) : PresentSet := { s.faults.present with linkSilent := false }

/-- RESUME (R137, R138), 2 bytes. -/
def resumeRule (body : List Byte) (s : State) : State × Reply :=
  match body with
  | [t1, t0] =>
    let count := be16 s.faults.count.toNat
    if s.seq.state ≠ .safe then (s, refuse .wrongState)
    else if word16 t1 t0 ≠ s.faults.count then
      (s, ⟨.stale, false, count ++ optBytes 1 (fun r : FaultRecord => [byteOf (faultRank r.kind)]) s.faults.primary⟩)
    else if blockingSet s ≠ PresentSet.none then
      (s, ⟨.stillPresent, false, count ++ conditionBytes (blockingSet s)⟩)
    else
      ((s.onSeq fun q => { q with state := .idle, holdRequest := false, holdPin := false }).onFaults
          fun f => { f with flt := false },
        okay (count ++ [seqStateByte .idle]))
  | _ => badLength s

/-- RESUME (R137): leaves SAFE for IDLE when its token is the fault count and no blocking condition is present. -/
def execResume (tag : Byte) (body : List Byte) (s : State) : Result :=
  .next (serve ⟨tag, 0x52#8, body⟩ (resumeRule body) s)

end Sys2Proof.Machine
end

