-- ==== Sys2Proof/Machine/Capture.lean ====
section
/-! DEFINITION. The Capture Unit (chapter 4): channel setup, episodes, captures, strays and misses. -/

namespace Sys2Proof.Machine

/-- Change one channel. -/
def onChannel (ch : Fin 4) (f : Channel → Channel) (s : State) : State :=
  s.onCapture fun c => { c with channels := updAt c.channels ch f }

/-- The positions of a WINDOW gate (R10). -/
def gatePositions : Gate → List Nat
  | .always => []
  | .window a b n => [a, b, n]

/-- A gate's values are in range: start differs from end, and every position lies below the moduli (R74). -/
def gateFits (a : Axis) (g : Gate) : Bool :=
  (gatePositions g).all (belowModuli a) &&
    match g with
    | .always => true
    | .window start stop _ => decide (start ≠ stop)

/-- The settings a CAPTURE_SETUP body describes, or none where a value is not listed or an enabled channel names no input
(R74). -/
def channelSettingsOf (enable input edge gate : Byte) (start stop nominal : Nat) : Option ChannelSettings :=
  match flagOf enable, channelInputOf input, channelEdgeOf edge, gateOf gate start stop nominal with
  | some en, some inp, some e, some g => if en ∧ inp = none then none else some ⟨en, inp, e, g⟩
  | _, _, _, _ => none

/-- An input is free for a channel: GENERAL, or CAPTURE for this channel already (R74). -/
def inputFreeFor (s : State) (ch : Fin 4) : Option (Fin 8) → Bool
  | none => true
  | some n => decide (s.ins[n].fn = .general) || decide (s.ins[n].fn = .capture ch)

/-- The inputs after a channel is bound to an input: a different one it held is released, the named one claimed (R74). -/
def bindInput (ch : Fin 4) (old new : Option (Fin 8)) (s : State) : State :=
  let s := match old with
    | some m => if new = some m then s else releaseInput m s
    | none => s
  match new with
  | some n => claimInput n (.capture ch) s
  | none => s

/-- CAPTURE_SETUP once its values are in range (R74). -/
def setupChannel (ch : Fin 4) (cfg : ChannelSettings) (s : State) : State × Reply :=
  if s.cues.queues[ch] ≠ [] then (s, refuse .inUse)
  else if !inputFreeFor s ch cfg.input then (s, refuse .inUse)
  else
    (onChannel ch (fun c => { c with cfg := cfg, episode := .closed })
      (bindInput ch s.capture.channels[ch].cfg.input cfg.input s), okay [])

/-- CAPTURE_SETUP (R74), 17 bytes. -/
def captureSetupRule (body : List Byte) (s : State) : State × Reply :=
  match body with
  | [channel, enable, input, edge, gate, a3, a2, a1, a0, b3, b2, b1, b0, n3, n2, n1, n0] =>
    match finOf 4 channel,
        channelSettingsOf enable input edge gate (num32 a3 a2 a1 a0) (num32 b3 b2 b1 b0) (num32 n3 n2 n1 n0) with
    | some ch, some cfg => if gateFits s.axis cfg.gate then setupChannel ch cfg s else (s, refuse .badValue)
    | _, _ => (s, refuse .badValue)
  | _ => badLength s

/-- CAPTURE_SETUP (R74): a channel's enable, input, edge and gate. -/
def execCaptureSetup (tag : Byte) (body : List Byte) (s : State) : Result :=
  .next (serve ⟨tag, 0x30#8, body⟩ (captureSetupRule body) s)

/-! ## Edges at a channel (R79 to R82) -/

/-- A channel selects an edge (R79). -/
def edgeSelected (choice : EdgeChoice) (e : Edge) : Bool :=
  match choice with
  | .both => true
  | .rising => decide (e = .rising)
  | .falling => decide (e = .falling)

/-- A capture record finds room in the channel's log, or is discarded with CAPLOG_FULL (R82). -/
def logCapture (r : CaptureRecord) (s : State) : State :=
  if s.capture.channels[r.channel].log.length < Config.captureRoom then
    onChannel r.channel (fun c => { c with log := c.log ++ [r] }) s
  else raise .capLogFull s

/-- A capture (R81): unless the sequencer is SAFE the oldest group is resolved at the current point; the record is made, is the
latest capture, goes into the log, and raises CAPTUREDn. -/
def takeCapture (ch : Fin 4) (e : Edge) (s : State) : State :=
  let point := s.axis.current
  let p := if s.seq.state = .safe then (s, none) else claimCapture ch point s
  let r : CaptureRecord := ⟨ch, point, e, p.1.stamp, p.2⟩
  raise (.captured ch) (logCapture r (onChannel ch (fun c => { c with latest := some r }) p.1))

/-- A stray (R80). -/
def takeStray (ch : Fin 4) (s : State) : State :=
  raise .stray (onChannel ch (fun c => { c with strays := min (c.strays + 1) 65535 }) s)

/-- An accepted edge at its channel (R79). -/
def captureEdge (ch : Fin 4) (e : Edge) (s : State) : State :=
  let c := s.capture.channels[ch]
  if c.cfg.enabled && edgeSelected c.cfg.edge e then
    match c.cfg.gate with
    | .always => takeCapture ch e s
    | .window _ _ _ =>
      match c.episode with
      | .opened cyc => takeCapture ch e (onChannel ch (fun c => { c with episode := .taken cyc }) s)
      | .closed | .taken _ => takeStray ch s
  else s

/-! ## Arrivals at the Capture Unit (R76, R77, R91, R94) -/

/-- A miss (R91): unless the sequencer is SAFE the oldest group is taken by its policy; the last miss is set and MISSEDn
raised. -/
def takeMiss (ch : Fin 4) (cycle : Cycle) (nominal : Nat) (arrival : Key) (s : State) : State :=
  let p := if s.seq.state = .safe then (s, MissResult.suspended, none) else claimMiss ch ⟨cycle, nominal⟩ arrival s
  raise (.missed ch) (onChannel ch (fun c => { c with lastMiss := some ⟨p.2.1, p.2.2, cycle⟩ }) p.1)

/-- An arrival of the lead point at one channel (R76, R77). -/
def windowAtArrival (arrival : Key) (s : State) (ch : Fin 4) : State :=
  let c := s.capture.channels[ch]
  match c.cfg.enabled, c.cfg.gate with
  | true, .window start stop nominal =>
    match c.episode with
    | .closed =>
      if arrival.pos = start then onChannel ch (fun c => { c with episode := .opened arrival.cycle }) s else s
    | .opened cyc =>
      if arrival.pos = stop then
        takeMiss ch cyc nominal arrival (onChannel ch (fun c => { c with episode := .closed }) s)
      else s
    | .taken _ => if arrival.pos = stop then onChannel ch (fun c => { c with episode := .closed }) s else s
  | _, _ => s

/-- The Capture Unit takes an arrival, channel by channel (notes/assumptions/15). -/
def takeWindowArrival (s : State) (arrival : Key) : State := (List.finRange 4).foldl (windowAtArrival arrival) s

/-- WINDOW_ARRIVAL (R76, R77): the Capture Unit takes the oldest arrival handed to it. -/
def execWindowArrival (s : State) : Result :=
  match s.capture.arrivals with
  | [] => .next s
  | k :: rest => event true (fun s => takeWindowArrival (s.onCapture fun c => { c with arrivals := rest }) k) s

/-- A position jump closes every episode without a miss (R78). -/
def closeEpisodes (s : State) : State :=
  s.onCapture fun c => { c with channels := c.channels.map fun x => { x with episode := .closed } }

/-! ## Reading a channel (R95) -/

/-- The last miss in CAPTURES_READ: presence, result, group, cycle (section 11.8). -/
def missBytes : Option Miss → List Byte
  | none => List.replicate 5 0#8
  | some m => [byteOf (bitsByte [true, m.group.isSome]), missResultByte m.result] ++
      optBytes 1 (fun g => [byteOf g.val]) m.group ++ be16 m.cycle.toNat

/-- The data of CAPTURES_READ (R95, section 11.8). -/
def capturesReadData (c : Channel) (queue : List Group) : List Byte :=
  [byteOf c.log.length] ++ be16 c.strays ++ episodeBytes c.episode ++ missBytes c.lastMiss ++
    [flagByte c.cfg.enabled, channelInputByte c.cfg.input, channelEdgeByte c.cfg.edge] ++ gateBytes c.cfg.gate ++
    [byteOf queue.length] ++
    queue.flatMap (fun g => [byteOf g.number.val, missPolicyByte g.policy, byteOf g.cues.length]) ++
    c.log.flatMap captureBytes

/-- CAPTURES_READ (R95): drains the log, clears the stray count. -/
def capturesReadRule (b : Byte) (s : State) : State × Reply :=
  match finOf 4 b with
  | none => (s, refuse .badValue)
  | some ch =>
    (onChannel ch (fun c => { c with log := [], strays := 0 }) s,
      okay (capturesReadData s.capture.channels[ch] s.cues.queues[ch]))

/-- CAPTURES_READ (R95). -/
def execCapturesRead (tag : Byte) (body : List Byte) (s : State) : Result :=
  .next (serve ⟨tag, 0x31#8, body⟩ (oneByte capturesReadRule body) s)

end Sys2Proof.Machine
end

