-- ==== Sys2Proof/Machine/AxisUnit.lean ====
section
/-! DEFINITION. The Axis Unit (chapter 1): counts, the lead point, cycle boundaries, position jumps, the speed sample, and the
requests on the axis. -/

namespace Sys2Proof.Machine

/-! ## Counts (R6, R7, R9) -/

/-- The key one forward count on (R6). -/
def forwardKey (modulus : Nat) (k : Key) : Key :=
  if k.pos + 1 < modulus then ⟨k.cycle, k.pos + 1⟩ else ⟨k.cycle + 1#16, 0⟩

/-- The key one backward count back (R6). -/
def backwardKey (modulus : Nat) (k : Key) : Key :=
  if k.pos = 0 then ⟨k.cycle - 1#16, modulus - 1⟩ else ⟨k.cycle, k.pos - 1⟩

/-- An arrival of the lead point is handed to the Cue Table, the Capture Unit and the Line Unit (R7). -/
def handArrival (a : Arrival) (s : State) : State :=
  ((s.onCues fun c => { c with arrivals := c.arrivals ++ [a] }).onCapture fun c =>
    { c with arrivals := c.arrivals ++ [a.key] }).onOuts fun o => { o with arrivals := o.arrivals ++ [a.key] }

/-- A cycle boundary at the axis (R9): a staged modulus comes into force, CYCLE is raised, and the Cam Unit is handed the
boundary. -/
def cycleBoundary (s : State) : State :=
  raise .cycle ((s.onAxis fun a =>
      { a with cfg := { a.cfg with modulus := a.staged.getD a.cfg.modulus }, staged := none }).onCams
    fun c => { c with boundaries := c.boundaries + 1 })

/-- The lead point arrives at a key (R7, R9). -/
def arriveLead (key : Key) (boundary : Bool) (s : State) : State :=
  let s := s.onAxis fun a => { a with lead := key }
  let s := if boundary then cycleBoundary s else s
  handArrival ⟨key, boundary⟩ s

/-- A forward count (R6, R7, R9, R17): the current point moves; the lead point moves with it when the two were equal.  The
count is reckoned in the modulus it finds.  A boundary that still waits at the Cam Unit is taken before the count's own
recomputation (notes/assumptions/17). -/
def countForward (s : State) : State :=
  let a := s.axis
  let key := forwardKey a.cfg.modulus a.current
  let t := (takeBoundaries s).onAxis fun a => { a with current := key, netCount := a.netCount + 1 }
  let t := if a.current = a.lead then arriveLead key (decide (a.cfg.modulus ≤ a.current.pos + 1)) t else t
  recomputeCams t

/-- A backward count (R6, R7, R17), behind the boundaries that wait at the Cam Unit (notes/assumptions/17). -/
def countBackward (s : State) : State :=
  recomputeCams ((takeBoundaries s).onAxis fun a =>
    { a with current := backwardKey a.cfg.modulus a.current, netCount := a.netCount - 1 })

/-- A count of a decoder is taken while the axis is RUNNING and discarded while it is HALTED (R5). -/
def decoderCount (forward : Bool) (s : State) : State :=
  if s.axis.running then if forward then countForward s else countBackward s else s

/-! ## Position jumps (R16) -/

/-- The blocks take every arrival and cycle boundary handed to them before, each block its own in the order they were
handed, and the blocks one after another: the Cam Unit, the Line Unit, the Cue Table, the Capture Unit.  That order
between the blocks is the model's choice, where R91 leaves the Cue Table and the Capture Unit in either order
(notes/assumptions/5). -/
def takeArrivals (s : State) : State :=
  let s := takeBoundaries s
  let ks := s.outs.arrivals
  let s := ks.foldl takeTrailArrival (s.onOuts fun o => { o with arrivals := [] })
  let as := s.cues.arrivals
  let s := as.foldl takeLeadArrival (s.onCues fun c => { c with arrivals := [] })
  let ws := s.capture.arrivals
  ws.foldl takeWindowArrival (s.onCapture fun c => { c with arrivals := [] })

/-- The Cue Table takes a jump (R29): the list is put in key order against the new lead point, and cues beyond the horizon
expire. -/
def jumpCues (key : Key) (s : State) : State :=
  withMarks (fun s => expiryRun (s.onCues fun c => { c with lead := key, list := reorder key c.list })) s

/-- A position jump (R16): both points are set to a key, and every block takes the jump. -/
def positionJump (key : Key) (s : State) : State :=
  let s := takeArrivals s
  let s := s.onAxis fun a => { a with current := key, lead := key }
  endCountTrails (jumpCues key (recomputeCams (closeEpisodes s)))

/-- A homing wait in force is cancelled, and IN2 released (R13). -/
def cancelHoming (s : State) : State :=
  if s.axis.homing then releaseInput 2 (s.onAxis fun a => { a with homing := false }) else s

/-! ## The bound set (R10) -/

/-- The bound set (R10): the key positions of the LISTED cues, the home position, the window bounds of active and staged
profiles, and the positions of WINDOW gates. -/
def boundSet (s : State) : List Nat :=
  s.cues.list.map (·.key.pos) ++ [s.axis.cfg.home] ++
    s.cams.tracks.toList.flatMap (fun t => profileBounds (slotProfile t t.active) ++
      if t.staged then profileBounds (slotProfile t (otherSlot t.active)) else []) ++
    s.capture.channels.toList.flatMap fun c => gatePositions c.cfg.gate

/-- A proposed modulus conflicts: it is at or below a member of the bound set, or a group is QUEUED (R10). -/
def modulusConflicts (m : Nat) (s : State) : Bool :=
  (boundSet s).any (fun b => decide (m ≤ b)) || !(queuedGroups s.cues).isEmpty

/-- A modulus is 16 to 4,000,000 (R10). -/
def modulusInRange (m : Nat) : Bool := decide (16 ≤ m) && decide (m ≤ 4000000)

/-! ## Requests on the axis -/

/-- IN0 or IN1 may be claimed by the axis (R12). -/
def axisInputFree (i : InLine) : Bool := decide (i.fn = .general) || decide (i.fn = .axisA) || decide (i.fn = .axisB)

/-- IN0 and IN1 claimed as AXIS_A and AXIS_B, and the stored pair loaded from their accepted levels (R2, R12). -/
def claimAxisInputs (s : State) : State :=
  claimInput 1 .axisB (claimInput 0 .axisA
    (s.onAxis fun a => { a with pairA := s.ins[0].accepted, pairB := s.ins[1].accepted }))

/-- IN0 and IN1 returned to GENERAL when they held AXIS_A and AXIS_B (R12). -/
def releaseAxisInputs (s : State) : State :=
  let t := if s.ins[0].fn = .axisA then releaseInput 0 s else s
  if s.ins[1].fn = .axisB then releaseInput 1 t else t

/-- What an AXIS_SETUP that passes does (R12).  The decoder it selects has seen no edge of the present stamp. -/
def setupAxis (source : AxisSource) (k modulus : Nat) (s : State) : State :=
  let s := cancelHoming s
  let s := s.onAxis fun a =>
    { a with cfg := { a.cfg with source := source, k := k, modulus := modulus }, staged := none, running := false
             takenA := false, takenB := false }
  let s := match source with
    | .timebase => releaseAxisInputs s
    | .quad | .step => claimAxisInputs s
  recomputeCams s

/-- AXIS_SETUP (R12), 6 bytes. -/
def axisSetupRule (body : List Byte) (s : State) : State × Reply :=
  match body with
  | [source, k, m3, m2, m1, m0] =>
    let m := num32 m3 m2 m1 m0
    if s.seq.state ≠ .idle then (s, refuse .wrongState)
    else
      match axisSourceOf source with
      | none => (s, refuse .badValue)
      | some src =>
        if 12 < k.toNat ∨ modulusInRange m = false then (s, refuse .badValue)
        else if src ≠ .timebase ∧ (axisInputFree s.ins[0] && axisInputFree s.ins[1]) = false then (s, refuse .inUse)
        else if modulusConflicts m s = true ∨ m ≤ s.axis.current.pos ∨ m ≤ s.axis.lead.pos then
          (s, refuse .conflict)
        else (setupAxis src k.toNat m s, okay [])
  | _ => badLength s

/-- AXIS_SETUP (R12): the axis source, timebase exponent and modulus, in IDLE. -/
def execAxisSetup (tag : Byte) (body : List Byte) (s : State) : Result :=
  .next (serve ⟨tag, 0x01#8, body⟩ (axisSetupRule body) s)

/-- The run state is set (R5). -/
def setRunning (b : Bool) (s : State) : State × Reply := (s.onAxis fun a => { a with running := b }, okay [])

/-- AXIS_RUN (R5). -/
def execAxisRun (tag : Byte) (body : List Byte) (s : State) : Result :=
  .next (serve ⟨tag, 0x02#8, body⟩ (noBody (setRunning true) body) s)

/-- AXIS_HALT (R5). -/
def execAxisHalt (tag : Byte) (body : List Byte) (s : State) : Result :=
  .next (serve ⟨tag, 0x03#8, body⟩ (noBody (setRunning false) body) s)

/-- AXIS_ZERO (R13): in IDLE, both points to (0, 0), and any homing wait cancelled. -/
def axisZeroRule (s : State) : State × Reply :=
  if s.seq.state ≠ .idle then (s, refuse .wrongState)
  else (positionJump Key.zero (cancelHoming s), okay [])

/-- AXIS_ZERO (R13). -/
def execAxisZero (tag : Byte) (body : List Byte) (s : State) : Result :=
  .next (serve ⟨tag, 0x04#8, body⟩ (noBody axisZeroRule body) s)

/-- AXIS_HOME (R14), 4 bytes. -/
def axisHomeRule (body : List Byte) (s : State) : State × Reply :=
  match body with
  | [p3, p2, p1, p0] =>
    let p := num32 p3 p2 p1 p0
    if s.seq.state ≠ .idle ∨ s.axis.cfg.source = .timebase then (s, refuse .wrongState)
    else if !belowModuli s.axis p then (s, refuse .badValue)
    else if ¬ (s.ins[2].fn = .general ∨ s.ins[2].fn = .index) then (s, refuse .inUse)
    else
      (claimInput 2 .index (s.onAxis fun a => { a with cfg := { a.cfg with home := p }, homing := true }),
        okayReplaced s.axis.homing [])
  | _ => badLength s

/-- AXIS_HOME (R14): sets the home position and enters or renews the homing wait. -/
def execAxisHome (tag : Byte) (body : List Byte) (s : State) : Result :=
  .next (serve ⟨tag, 0x05#8, body⟩ (axisHomeRule body) s)

/-- MODULUS_STAGE (R11), 4 bytes. -/
def modulusStageRule (body : List Byte) (s : State) : State × Reply :=
  match body with
  | [m3, m2, m1, m0] =>
    let m := num32 m3 m2 m1 m0
    if s.seq.state = .safe then (s, refuse .wrongState)
    else if !modulusInRange m then (s, refuse .badValue)
    else if modulusConflicts m s then (s, refuse .conflict)
    else (s.onAxis fun a => { a with staged := some m }, okayReplaced s.axis.staged.isSome [])
  | _ => badLength s

/-- MODULUS_STAGE (R11): stages a modulus for the next cycle boundary. -/
def execModulusStage (tag : Byte) (body : List Byte) (s : State) : Result :=
  .next (serve ⟨tag, 0x06#8, body⟩ (modulusStageRule body) s)

/-- The data of AXIS_READ, 41 bytes (R20). -/
def axisReadData (a : Axis) : List Byte :=
  [axisSourceByte a.cfg.source, byteOf a.cfg.k, flagByte a.running] ++ be32 a.cfg.modulus ++
    [flagByte a.staged.isSome] ++ optBytes 4 be32 a.staged ++ keyBytes a.current ++ keyBytes a.lead ++
    be32 (min (excursion a) 4294967295) ++ beInt a.speed ++ [flagByte a.homing] ++ be32 a.cfg.home ++
    be16 a.reverseLimit ++ be16 a.speedLimit

/-- AXIS_READ (R20). -/
def execAxisRead (tag : Byte) (body : List Byte) (s : State) : Result :=
  .next (serve ⟨tag, 0x07#8, body⟩ (noBody (fun s => (s, okay (axisReadData s.axis))) body) s)

/-! ## The timebase (R4) and the speed sample (R17) -/

/-- The divider advances: source TIMEBASE, RUNNING, and the sequencer IDLE or ARMED (R4). -/
def dividerRuns (s : State) : Bool :=
  decide (s.axis.cfg.source = .timebase) && s.axis.running &&
    (decide (s.seq.state = .idle) || decide (s.seq.state = .armed))

/-- The timebase's count of this stamp is to be made: the divider advances and the stamp is a multiple of 2^k (R4).  One count
a stamp (notes/assumptions/22). -/
def timebaseDue (s : State) : Bool :=
  dividerRuns s && decide (s.stamp.toNat % 2 ^ s.axis.cfg.k = 0) && !s.axis.timebaseTaken

/-- TIMEBASE_COUNT (R4): one forward count. -/
def execTimebaseCount (s : State) : Result :=
  event (timebaseDue s) (fun s => countForward (s.onAxis fun a => { a with timebaseTaken := true })) s

/-- The next speed sample's stamp is reached (R17). -/
def sampleDue (s : State) : Bool := reached s.stamp s.axis.nextSample

/-- SPEED_SAMPLE (R17): the net count becomes the speed sample and returns to 0, and the track levels are recomputed. -/
def execSpeedSample (s : State) : Result :=
  event (sampleDue s)
    (fun s => recomputeCams (s.onAxis fun a =>
      { a with speed := a.netCount, netCount := 0, nextSample := after a.nextSample Config.sampleTime })) s

end Sys2Proof.Machine
end

