-- ==== Sys2Proof/Machine/Schedule.lean ====
section
/-! DEFINITION. The Sequencer's requests and the freeze level (chapter 3). -/

namespace Sys2Proof.Machine

/-- The hold reasons as a byte: bit 0 REQUEST, bit 1 PIN (section 11.4). -/
def reasonsByte (q : Sequencer) : Byte := byteOf (bitsByte [q.holdRequest, q.holdPin])

/-- The reply of ARM, DISARM, HOLD and RELEASE: state and reasons after the request, and the two catch-up counts
(section 11.8). -/
def stateReply (s : State) (counts : Nat × Nat) : Reply :=
  okay ([seqStateByte s.seq.state, reasonsByte s.seq] ++ be16 counts.1 ++ be16 counts.2)

/-- A change of state and reasons that runs no catch-up. -/
def setSeq (state : SeqState) (request pin : Bool) (s : State) : State :=
  s.onSeq fun q => { q with state := state, holdRequest := request, holdPin := pin }

/-- ARM (R50): refused outside IDLE and during a homing wait; HOLD with PIN while the freeze level is active, otherwise ARMED
with catch-up. -/
def armRule (s : State) : State × Reply :=
  if s.seq.state ≠ .idle ∨ s.axis.homing = true then (s, refuse .wrongState)
  else if s.seq.freeze then
    let t := setSeq .hold false true s
    (t, stateReply t (0, 0))
  else
    let t := enterArmed s
    (t, stateReply t (catchUpCounts s))

/-- ARM (R50). -/
def execArm (tag : Byte) (body : List Byte) (s : State) : Result :=
  .next (serve ⟨tag, 0x20#8, body⟩ (noBody armRule body) s)

/-- DISARM (R51): to IDLE with no reasons and no catch-up; refused in IDLE and SAFE. -/
def disarmRule (s : State) : State × Reply :=
  match s.seq.state with
  | .armed | .hold =>
    let t := setSeq .idle false false s
    (t, stateReply t (0, 0))
  | .idle | .safe => (s, refuse .wrongState)

/-- DISARM (R51). -/
def execDisarm (tag : Byte) (body : List Byte) (s : State) : Result :=
  .next (serve ⟨tag, 0x21#8, body⟩ (noBody disarmRule body) s)

/-- HOLD (R52): adds REQUEST and holds; refused in IDLE and SAFE. -/
def holdRule (s : State) : State × Reply :=
  match s.seq.state with
  | .armed =>
    let t := setSeq .hold true false s
    (t, stateReply t (0, 0))
  | .hold =>
    let t := setSeq .hold true s.seq.holdPin s
    (t, stateReply t (0, 0))
  | .idle | .safe => (s, refuse .wrongState)

/-- HOLD (R52). -/
def execHold (tag : Byte) (body : List Byte) (s : State) : Result :=
  .next (serve ⟨tag, 0x22#8, body⟩ (noBody holdRule body) s)

/-- RELEASE (R53): removes REQUEST; ARMED with catch-up when no reason is left; refused in IDLE and SAFE. -/
def releaseRule (s : State) : State × Reply :=
  match s.seq.state with
  | .armed => (s, stateReply s (0, 0))
  | .hold =>
    if s.seq.holdPin then
      let t := setSeq .hold false true s
      (t, stateReply t (0, 0))
    else
      let t := enterArmed s
      (t, stateReply t (catchUpCounts s))
  | .idle | .safe => (s, refuse .wrongState)

/-- RELEASE (R53). -/
def execRelease (tag : Byte) (body : List Byte) (s : State) : Result :=
  .next (serve ⟨tag, 0x23#8, body⟩ (noBody releaseRule body) s)

/-- The freeze level as the inputs give it: some FREEZE input has an accepted level high (R49). -/
def freezeLevel (v : Vector InLine 8) : Bool := v.toList.any fun i => decide (i.fn = .freeze) && i.accepted

/-- A change of the freeze level at the Sequencer (R54). -/
def changeFreeze (level : Bool) (s : State) : State :=
  let t := s.onSeq fun q => { q with freeze := level }
  match s.seq.state, level with
  | .armed, true => setSeq .hold false true t
  | .hold, true => setSeq .hold s.seq.holdRequest true t
  | .hold, false => if s.seq.holdRequest then setSeq .hold true false t else enterArmed t
  | _, _ => t

/-- The Sequencer judges the freeze level again; only a change of it is an event (R49). -/
def judgeFreeze (s : State) : State :=
  if freezeLevel s.ins = s.seq.freeze then s else changeFreeze (freezeLevel s.ins) s

/-- The data of SEQ_READ, 16 bytes (R71). -/
def seqReadData (s : State) : List Byte :=
  [seqStateByte s.seq.state, reasonsByte s.seq, flagByte s.seq.freeze] ++ be16 (freeCount s.cues) ++
    be16 (waitingCount s.cues) ++ be16 (listedCount s.cues) ++ be16 (reachedRun s.cues).length ++
    be16 s.cues.lowMark ++ be16 s.cues.highMark ++ [byteOf s.seq.log.length]

/-- SEQ_READ (R71). -/
def execSeqRead (tag : Byte) (body : List Byte) (s : State) : Result :=
  .next (serve ⟨tag, 0x24#8, body⟩ (noBody (fun s => (s, okay (seqReadData s))) body) s)

/-- OUTCOMES_READ (R70): removes up to the number asked for from the head of the outcome log. -/
def outcomesReadRule (b : Byte) (s : State) : State × Reply :=
  if b.toNat < 1 ∨ 8 < b.toNat then (s, refuse .badValue)
  else
    let records := s.seq.log.take b.toNat
    let t := s.onSeq fun q => { q with log := q.log.drop b.toNat }
    (t, okay ([byteOf records.length, byteOf t.seq.log.length] ++ records.flatMap outcomeBytes))

/-- OUTCOMES_READ (R70). -/
def execOutcomesRead (tag : Byte) (body : List Byte) (s : State) : Result :=
  .next (serve ⟨tag, 0x25#8, body⟩ (oneByte outcomesReadRule body) s)

end Sys2Proof.Machine
end

