-- ==== Sys2Proof/Machine/Inputs.lean ====
section
/-! DEFINITION. The input lines (section 6.7): filters, functions, and where an accepted edge goes. -/

namespace Sys2Proof.Machine

/-- The direction of an accepted change to a level (R123). -/
def edgeTo (high : Bool) : Edge := if high then .rising else .falling

/-- An edge mode matches an edge (R126). -/
def modeMatches (m : EdgeMode) (e : Edge) : Bool :=
  match m with
  | .never => false
  | .rising => decide (e = .rising)
  | .falling => decide (e = .falling)
  | .both => true

/-- INPUTn is raised when the edge mode matches the edge (R126). -/
def inputEvent (n : Fin 8) (e : Edge) (s : State) : State :=
  if modeMatches s.ins[n].edgeMode e then raise (.input n) s else s

/-! ## The axis decoders (R2, R3) -/

/-- What the QUAD decoder makes of a new pair (R2). -/
inductive QuadChange where
  | same | forward | backward | double
deriving DecidableEq, Repr

/-- The table of R2: the stored pair (A B), then the new pair. -/
def quadChange (a b a' b' : Bool) : QuadChange :=
  match a, b, a', b' with
  | false, false, true, false => .forward
  | false, false, false, true => .backward
  | false, false, true, true => .double
  | true, false, true, true => .forward
  | true, false, false, false => .backward
  | true, false, false, true => .double
  | true, true, false, true => .forward
  | true, true, true, false => .backward
  | true, true, false, false => .double
  | false, true, false, false => .forward
  | false, true, true, true => .backward
  | false, true, true, false => .double
  | false, false, false, false => .same
  | true, false, true, false => .same
  | true, true, true, true => .same
  | false, true, false, true => .same

/-- The QUAD decoder takes new levels (R2): a count, or a double change, which reports AXIS_SIGNAL with the two points (R18);
the stored pair follows. -/
def quadDecode (a b : Bool) (s : State) : State :=
  let t := s.onAxis fun x => { x with pairA := a, pairB := b }
  match quadChange s.axis.pairA s.axis.pairB a b with
  | .same => t
  | .forward => decoderCount true t
  | .backward => decoderCount false t
  | .double => report ⟨.axisSignal, true, some (s.axis.current, s.axis.lead), none⟩ t

/-- The decoder takes accepted levels of IN0 and IN1, of which IN0 may have risen (R2, R3). -/
def decode (rising0 a b : Bool) (s : State) : State :=
  match s.axis.cfg.source with
  | .quad => quadDecode a b s
  | .step => if rising0 then decoderCount b s else s
  | .timebase => s

/-! ## Homing (R15) -/

/-- A homing jump (R15). -/
def homingJump (s : State) : State :=
  let key : Key := ⟨0#16, s.axis.cfg.home⟩
  raise .homed (releaseInput 2 ((positionJump key s).onAxis fun a => { a with homing := false }))

/-- An edge of IN2 as INDEX: a rising edge during the wait in IDLE is the homing jump; every other is discarded (R15). -/
def indexEdge (e : Edge) (s : State) : State :=
  if e = .rising ∧ s.axis.homing = true ∧ s.seq.state = .idle then homingJump s else s

/-! ## Acceptance (R123, R124) -/

/-- The accepted level takes the pending level, and the filter is at rest. -/
def acceptLevel (n : Fin 8) (s : State) : State :=
  s.onIns fun v => updAt v n fun i => { i with accepted := !i.accepted, pendingSince := none }

/-- The pending change of an input has lasted its filter time, and is to be accepted (R123). -/
def inputDue (s : State) (n : Fin 8) : Bool :=
  match s.ins[n].pendingSince with
  | some t => reached s.stamp (after t s.ins[n].filter)
  | none => false

/-- The decoder acts on a change of IN0: with STEP on a rising edge only (R2, R3). -/
def actsOnA (source : AxisSource) (rising : Bool) : Bool :=
  match source with
  | .quad => true
  | .step => rising
  | .timebase => false

/-- The decoder's two lines accept every change that is due at this stamp, together (R2, R3). -/
def acceptAxis (s : State) : State :=
  let dueA := inputDue s 0 && decide (s.ins[0].fn = .axisA)
  let dueB := inputDue s 1 && decide (s.ins[1].fn = .axisB)
  let actsA := dueA && actsOnA s.axis.cfg.source (!s.ins[0].accepted)
  let t := if dueA then acceptLevel 0 s else s
  let t := if dueB then acceptLevel 1 t else t
  let t := t.onAxis fun a => { a with takenA := a.takenA || actsA, takenB := a.takenB || dueB }
  decode (dueA && t.ins[0].accepted) t.ins[0].accepted t.ins[1].accepted t

/-- The accepted edge goes to the function that holds the input (R124). -/
def acceptInput (n : Fin 8) (s : State) : State :=
  let e := edgeTo (!s.ins[n].accepted)
  match s.ins[n].fn with
  | .general => inputEvent n e (acceptLevel n s)
  | .freeze => judgeFreeze (inputEvent n e (acceptLevel n s))
  | .axisA | .axisB => acceptAxis s
  | .index => indexEdge e (acceptLevel n s)
  | .capture ch => captureEdge ch e (acceptLevel n s)

/-! ## The edges of one stamp (R2, R3, notes/assumptions/6) -/

/-- The axis holds an input. -/
def axisHolds (i : InLine) : Bool := decide (i.fn = .axisA) || decide (i.fn = .axisB)

/-- What an edge of the decoder can change, as it stands. -/
def checkpointOf (s : State) : Checkpoint where
  axis := s.axis
  cams := s.cams
  cueArrivals := s.cues.arrivals
  captureArrivals := s.capture.arrivals
  lineArrivals := s.outs.arrivals
  mismatches := s.outs.lines.map (·.mismatch)
  ins := s.ins
  reports := s.faults.inbox
  events := s.events
  tx := s.link.tx

/-- What an edge of the decoder can change is again as it stood. -/
def backTo (c : Checkpoint) (s : State) : State :=
  { s with
    axis := c.axis
    cams := c.cams
    cues := { s.cues with arrivals := c.cueArrivals }
    capture := { s.capture with arrivals := c.captureArrivals }
    outs := ⟨Vector.ofFn fun n : Fin 16 => { s.outs.lines[n] with mismatch := c.mismatches[n] }, c.lineArrivals⟩
    ins := c.ins
    faults := { s.faults with inbox := c.reports }
    events := c.events
    link := { s.link with tx := c.tx }
    checkpoint := none }

/-- The part before the first edge of the decoder at the present stamp, while that can still be taken again; otherwise the part
as it stands. -/
def reopened (s : State) : State :=
  match s.checkpoint with
  | some c => backTo c s
  | none => s

/-- The first edge of the decoder at a stamp leaves the stamp open: `s` is the part before it, `t` after it. -/
def leaveOpen (n : Fin 8) (s t : State) : State :=
  if axisHolds s.ins[n] && !s.axis.takenA && !s.axis.takenB then { t with checkpoint := some (checkpointOf s) } else t

/-- A change of this line, accepted at this stamp, would share its acceptance stamp with an edge of the other line that the
decoder has acted on already, which R2 and R3 take as one. -/
def sharesStamp (s : State) (n : Fin 8) : Bool :=
  decide (s.ins[n].filter = 0) &&
    match s.axis.cfg.source, s.ins[n].fn with
    | .quad, .axisA => s.axis.takenB
    | .quad, .axisB => s.axis.takenA
    | .step, .axisB => s.axis.takenA
    | _, _ => false

/-- INPUT_EDGE_ACCEPTED (R123): a pending change that has lasted the filter time is accepted. -/
def execInputEdgeAccepted (input : Fin 8) (s : State) : Result :=
  .next (if s.phase = .running ∧ inputDue s input = true then leaveOpen input s (settle (acceptInput input s)) else s)

/-! ## Raw changes and INPUT_SETUP (R123, R125) -/

/-- A raw change of an input's pin (R123): a change to the other level starts a pending change, a change back drops it. -/
def rawChange (now : Stamp) (high : Bool) (i : InLine) : InLine :=
  { i with
    raw := high
    pendingSince :=
      if high = i.accepted then none
      else match i.pendingSince with
        | some t => some t
        | none => some now }

/-- The raw change starts a pending change: it leaves the accepted level, and none is pending. -/
def startsPending (high : Bool) (i : InLine) : Bool := decide (high ≠ i.accepted) && i.pendingSince.isNone

/-- The input held by another function than GENERAL and FREEZE (R125). -/
def inputClaimed (i : InLine) : Bool := !(decide (i.fn = .general) || decide (i.fn = .freeze))

/-- INPUT_SETUP (R125), 4 bytes. -/
def inputSetupRule (body : List Byte) (s : State) : State × Reply :=
  match body with
  | [input, fn, mode, filter] =>
    match finOf 8 input, flagOf fn, edgeModeOf mode with
    | some n, some freeze, some m =>
      if inputClaimed s.ins[n] then (s, refuse .inUse)
      else
        let t := judgeFreeze (s.onIns fun v => updAt v n fun i =>
          { i with fn := if freeze then .freeze else .general, edgeMode := m, filter := filter.toNat })
        (t, okay (inputEntry t.ins[n]))
    | _, _, _ => (s, refuse .badValue)
  | _ => badLength s

/-- INPUT_SETUP (R125): an input's function, edge mode and filter time. -/
def execInputSetup (tag : Byte) (body : List Byte) (s : State) : Result :=
  .next (serve ⟨tag, 0x44#8, body⟩ (inputSetupRule body) s)

end Sys2Proof.Machine
end

