-- ==== Sys2Proof/Machine/LinkLayer.lean ====
section
/-! DEFINITION. The link below the requests (chapter 9): the receiver, the gap timer, the end of a frame on TXD, the silence
timer, and requests of unknown kind. -/

namespace Sys2Proof.Machine

/-! ## The receiver (R153, R156) -/

/-- The receiver takes a state. -/
def setRx (r : Receiver) (s : State) : State := s.onLink fun l => { l with rx := r }

/-- A partial frame, or a character that begins none, is dropped with one rise of the error count (R156). -/
def dropFrame (s : State) : State := countError (setRx .hunt s)

/-- The second check byte (R156): a good frame is handed on, a frame whose check fails is discarded. -/
def checkFrame (counted : List Byte) (high low : Byte) (s : State) : State :=
  match counted with
  | tag :: kind :: body =>
    let f : Frame := ⟨tag, kind, body⟩
    if f.check = high ++ low then goodFrame f (setRx .hunt s) else dropFrame s
  | _ => dropFrame s

/-- A character whose stop bit is high (R156). -/
def receiveByte (b : Byte) (s : State) : State :=
  match s.link.rx with
  | .hunt => if b = Config.startByte then setRx .length s else s
  | .length => if 2 ≤ b.toNat ∧ b.toNat ≤ 250 then setRx (.body b.toNat []) s else dropFrame s
  | .body expected got =>
    let got := got ++ [b]
    if got.length < expected then setRx (.body expected got) s else setRx (.check got none) s
  | .check counted none => setRx (.check counted (some b)) s
  | .check counted (some high) => checkFrame counted high b s

/-- A character at the receiver: the gap timer restarts, and a framing error drops what is being received (R153, R156). -/
def receive (b : Byte) (stopHigh : Bool) (s : State) : State :=
  let s := s.onLink fun l => { l with lastChar := s.stamp }
  if stopHigh then receiveByte b s else dropFrame s

/-- RECEIVE_CHARACTER (R156): a character accepted at RXD. -/
def execReceiveCharacter (byte : Byte) (stopHigh : Bool) (s : State) : Result := event true (receive byte stopHigh) s

/-- The gap timer has run out: a frame is being received, and the last character came 4,000 microseconds ago (R156). -/
def gapDue (s : State) : Bool :=
  decide (s.link.rx ≠ .hunt) && reached s.stamp (after s.link.lastChar Config.gapTime)

/-- GAP_TIMER_EXPIRY (R156): the partial frame is dropped. -/
def execGapTimerExpiry (s : State) : Result := event (gapDue s) dropFrame s

/-! ## The end of a frame on TXD (R160) -/

/-- FRAME_SENT (R160): the transmitter is free, and chooses its next frame. -/
def execFrameSent (s : State) : Result :=
  event s.link.tx.isSome (fun s => s.onLink fun l => { l with tx := none }) s

/-- The rate in baud (R154). -/
def baud : LinkRate → Nat
  | .b115200 => 115200
  | .b230400 => 230400
  | .b460800 => 460800
  | .b921600 => 921600

/-- How long a frame takes to leave TXD: ten bits a byte, back to back, rounded up to a microsecond (R153, R155,
notes/assumptions/12). -/
def frameTime (rate : LinkRate) (f : Frame) : Nat := (f.bytes.length * 10000000 + baud rate - 1) / baud rate

/-! ## The silence timer (R162) -/

/-- The silence timer runs out (R162). -/
def silenceDue (s : State) : Bool :=
  decide (s.link.silenceLimit ≠ 0) && !s.link.silenceExpired &&
    reached s.stamp (after s.link.silenceStamp (1000 * s.link.silenceLimit))

/-- SILENCE_EXPIRY (R162): the expired flag is set, which begins LINK_SILENT outside IDLE. -/
def execSilenceExpiry (s : State) : Result :=
  event (silenceDue s) (fun s => s.onLink fun l => { l with silenceExpired := true }) s

/-! ## Requests of unknown kind (R158) -/

/-- UNKNOWN_KIND_REQUEST (R158): answered UNKNOWN_KIND and taken by no block.  With a kind that names a request the command
does not occur. -/
def execUnknownKindRequest (tag kind : Byte) (body : List Byte) (s : State) : Result :=
  .next (if knownKinds.contains kind then s else serve ⟨tag, kind, body⟩ (fun s => (s, refuse .unknownKind)) s)

end Sys2Proof.Machine
end

