-- ==== Sys2Proof/Machine/Resets.lean ====
section
/-! DEFINITION. Full reset, start-up with its autoload, and restart (chapter 10). -/

namespace Sys2Proof.Machine

/-! ## The reset values (R169 step 1) -/

/-- Every block takes its reset values at a link rate.  The pins, the supply and the nonvolatile blocks stay as they are; an
input's accepted level is its raw level (R21, R47, R72, R96, R109, R127, R142, R152, R163). -/
def resetBlocks (phase : Phase) (rate : LinkRate) (blocks : Blocks) (s : State) : State :=
  { s with
    phase := phase
    stamp := 0#32
    axis := Axis.reset
    cues := CueTable.reset
    seq := Sequencer.reset
    capture := CaptureUnit.reset
    cams := CamUnit.reset
    outs := ⟨s.outs.lines.map fun l => OutLine.reset l.sampled, []⟩
    ins := s.ins.map fun i => InLine.reset i.raw
    faults := FaultMonitor.reset
    supply := ⟨0, s.supply.millivolts, false⟩
    events := EventUnit.reset
    link := Link.reset rate 0#32
    store := SettingStore.reset blocks
    checkpoint := none }

/-! ## The setting blocks (R170) -/

/-- A block is applied when it is VALID, with what its loading does and whether that was partial (R169 step 4). -/
def applyBlock {α : Type} (b : Block α) (load : α → State → State × Bool) (s : State) : State × LoadResult :=
  match b with
  | .empty => (s, .empty)
  | .bad => (s, .bad)
  | .valid c =>
    let p := load c s
    (p.1, if p.2 then .partly else .loaded)

/-- LINK (R154, R170). -/
def loadLink (c : LinkRate) (s : State) : State × Bool := (s.onLink fun l => { l with rate := c }, false)

/-- AXIS (R170). -/
def loadAxis (c : AxisSettings) (s : State) : State × Bool :=
  let t := s.onAxis fun a => { a with cfg := c }
  (match c.source with
    | .timebase => t
    | .quad | .step => claimAxisInputs t, false)

/-- LIMITS (R170). -/
def loadLimits (c : LimitSettings) (s : State) : State × Bool :=
  (((s.onAxis fun a => { a with reverseLimit := c.reverse, speedLimit := c.speed }).onSupply
      fun p => { p with level := c.supply }).onLink fun l => { l with silenceLimit := c.silence }, false)

/-- LINES (R170). -/
def loadLines (w : Vector LineSettings 16) (s : State) : State × Bool :=
  (s.onOuts fun o => { o with lines := Vector.ofFn fun n : Fin 16 => { o.lines[n] with cfg := w[n] } }, false)

/-- An input takes its stored settings; one the axis holds keeps its function (R170). -/
def loadInput (c : InputSettings) (i : InLine) : InLine :=
  { i with
    fn := if axisHolds i then i.fn else if c.freeze then .freeze else .general
    edgeMode := c.edgeMode
    filter := c.filter }

/-- INPUTS (R170): partial when a stored FREEZE meets an axis claim.  The freeze level follows (R49). -/
def loadInputs (w : Vector InputSettings 8) (s : State) : State × Bool :=
  let met := (List.finRange 8).any fun n => axisHolds s.ins[n] && w[n].freeze
  (judgeFreeze (s.onIns fun v => Vector.ofFn fun n : Fin 8 => loadInput w[n] v[n]), met)

/-- A channel's stored settings can be applied: its input is GENERAL, and its positions lie below the modulus (R170). -/
def channelLoads (c : ChannelSettings) (s : State) : Bool :=
  (gatePositions c.gate).all (fun p => decide (p < s.axis.cfg.modulus)) &&
    match c.input with
    | some n => decide (s.ins[n].fn = .general)
    | none => true

/-- One channel of CAPTURE (R170). -/
def loadChannel (w : Vector ChannelSettings 4) (p : State × Bool) (ch : Fin 4) : State × Bool :=
  if channelLoads w[ch] p.1 then
    (onChannel ch (fun x => { x with cfg := w[ch] }) (bindInput ch none w[ch].input p.1), p.2)
  else (p.1, true)

/-- CAPTURE (R170): the channels in number order. -/
def loadCapture (w : Vector ChannelSettings 4) (s : State) : State × Bool :=
  (List.finRange 4).foldl (loadChannel w) (s, false)

/-- A track's stored profile can be applied (R109). -/
def trackLoads (m : Nat) (c : TrackSettings) : Bool := (profileBounds c.profile).all fun b => decide (b < m)

/-- CAMS (R109, R170). -/
def loadCams (c : Vector TrackSettings 8) (s : State) : State × Bool :=
  let m := s.axis.cfg.modulus
  (s.onCams fun u =>
      { u with tracks := c.map fun x =>
          if trackLoads m x then { Track.reset with slotA := x.profile, leadTime := x.leadTime } else Track.reset },
    !(c.toList.all (trackLoads m)))

/-- EVENTS (R170). -/
def loadEvents (c : EventSettings) (s : State) : State × Bool :=
  (s.onEvents fun e =>
    ⟨Vector.ofFn fun n : Fin 28 => { e.recs[n] with enabled := c.enables[n] }, c.order⟩, false)

/-- Blocks 1 to 8 are applied in number order (R169 step 4). -/
def applySettings (s : State) : State :=
  let b := s.store.blocks
  let p1 := applyBlock b.link loadLink s
  let p2 := applyBlock b.axis loadAxis p1.1
  let p3 := applyBlock b.limits loadLimits p2.1
  let p4 := applyBlock b.lines loadLines p3.1
  let p5 := applyBlock b.inputs loadInputs p4.1
  let p6 := applyBlock b.capture loadCapture p5.1
  let p7 := applyBlock b.cams loadCams p6.1
  let p8 := applyBlock b.events loadEvents p7.1
  p8.1.onStore fun x =>
    { x with results := #v[p1.2, p2.2, p3.2, p4.2, p5.2, p6.2, p7.2, p8.2], skipped := false }

/-- The header is read, and the setting blocks are applied unless the header is unprepared or they are skipped (R169 steps 3
and 4, notes/assumptions/25). -/
def autoload (skip : Bool) (s : State) : State :=
  match s.store.blocks.header with
  | .valid c =>
    if c.signed then
      let t := s.onStore fun x => { x with limit := c.limit }
      if skip then t else applySettings t
    else s
  | .empty | .bad => s

/-- The stamp at which the autoload of a start-up ends: a free value of at most 3 ms (R169, notes/assumptions/7). -/
def autoloadEnd (ticket : Nat) : Stamp := BitVec.ofNat 32 (Config.autoloadTime ticket % (Config.autoloadMax + 1))

/-- The first speed sample after a stamp: the samples before it found nothing counted (R17). -/
def sampleAfter (t : Stamp) : Stamp := BitVec.ofNat 32 ((t.toNat / Config.sampleTime + 1) * Config.sampleTime)

/-- The autoload ends (R169 step 5): the silence timer takes the stamp, and the track levels are recomputed.  The supply, the
lines and the transmitter follow in `settle`. -/
def endAutoload (t : Stamp) (s : State) : State :=
  recomputeCams
    { (s.onAxis fun a => { a with nextSample := sampleAfter t }).onLink
        fun l => { l with silenceStamp := t } with stamp := t }

/-- The sequence common to start-up and restart: reset values, autoload, its end (R169, R171). -/
def startPart (rate : LinkRate) (skip : Bool) (s : State) : State :=
  let t := endAutoload (autoloadEnd s.freeIndex) (autoload skip (resetBlocks .running rate s.store.blocks s))
  { t with freeIndex := s.freeIndex + 1 }

/-! ## The commands -/

/-- The blocks a full reset finds: the block of an operation in flight is left BAD (R167). -/
def blocksAtReset (x : SettingStore) : Blocks :=
  match x.op with
  | some o => spoilBlock (workBlock o.work) x.blocks
  | none => x.blocks

/-- FULL_RESET (R161, R167, R169): power-on, or RST# low.  The part is held at its reset values. -/
def execFullReset (s : State) : Result :=
  .next (resetBlocks .held s.link.rate (blocksAtReset s.store) s)

/-- The rate the straps give (R154). -/
def strapRate (cfg1 cfg0 : Bool) : LinkRate :=
  match cfg1, cfg0 with
  | false, false => .b115200
  | false, true => .b230400
  | true, false => .b460800
  | true, true => .b921600

/-- START_UP (R154, R169): RST# rises; the straps give the rate and, CFG2 high, skip the setting blocks.  A part that is not
held in reset does not start up. -/
def execStartUp (cfg0 cfg1 cfg2 : Bool) (s : State) : Result :=
  .next (match s.phase with
    | .held => settle (startPart (strapRate cfg1 cfg0) cfg2 s)
    | .running => s)

/-- The RESTART reply has left (R161). -/
def restartDue (s : State) : Bool :=
  s.link.restarting && s.link.replies.isEmpty && s.link.tx.isNone

/-- RESTART_BEGIN (R161, R171): the restart, with the rate kept and the straps not consulted. -/
def execRestartBegin (s : State) : Result :=
  event (restartDue s) (fun s => startPart s.link.rate false s) s

end Sys2Proof.Machine
end

