-- ==== Sys2Proof/Machine/Autonomy.lean ====
section
/-! DEFINITION. What the part does by itself when no command waits (notes/assumptions/2): the next command that is due, and
the advance of the Stamp Clock; and a raw change of an input, which can come after the decoder has done with a stamp. -/

namespace Sys2Proof.Machine

/-- The first number a test holds for. -/
def firstDue {n : Nat} (test : Fin n → Bool) (command : Fin n → Instr) : Option Instr :=
  ((List.finRange n).find? test).map command

/-- A command, when it is due. -/
def dueWhen (b : Bool) (c : Instr) : Option Instr := if b then some c else none

/-- The oldest report at the Fault Monitor, as the command that takes it. -/
def reportCommand (s : State) : Option Instr :=
  s.faults.inbox.head?.map fun r => if r.begins then .conditionBegin r.cond else .conditionEnd r.cond

/-- The request at the head of the inbound queue, as its command. -/
def requestCommand (s : State) : Option Instr := if canTake s then s.link.inbound.head?.map Frame.command else none

/-- The frame on TXD has left (R160, notes/assumptions/12). -/
def frameDone (s : State) : Bool :=
  match s.link.tx with
  | some x => reached s.stamp (after x.since (frameTime s.link.rate x.frame))
  | none => false

/-- How long the store operation of a number lasts by itself: a free value of 5 to 15 ms (R166, notes/assumptions/8). -/
def storeDuration (ticket : Nat) : Nat :=
  Config.storeMin + Config.storeTime ticket % (Config.storeMax - Config.storeMin + 1)

/-- The store operation has reached its end (R166). -/
def storeDone (s : State) : Bool :=
  match s.store.op with
  | some o => storeEndDue s && reached s.stamp (after o.since (storeDuration o.ticket))
  | none => false

/-- The hand-overs that wait, then the waiting request, then the timers that are reached: the next command the part takes by
itself. -/
def dueCommand (s : State) : Option Instr :=
  match s.phase with
  | .held => none
  | .running =>
    [dueWhen (restartDue s) .restartBegin,
      reportCommand s,
      dueWhen (s.cams.boundaries ≠ 0) .profileSwap,
      dueWhen (!s.outs.arrivals.isEmpty) .trailArrival,
      dueWhen (!s.cues.arrivals.isEmpty) .leadArrival,
      dueWhen (!s.capture.arrivals.isEmpty) .windowArrival,
      requestCommand s,
      firstDue (inputDue s) .inputEdgeAccepted,
      dueWhen (timebaseDue s) .timebaseCount,
      dueWhen (sampleDue s) .speedSample,
      firstDue (trailDue s) .trailExpiry,
      firstDue (mismatchDue s) .mismatchTimeout,
      dueWhen (gapDue s) .gapTimerExpiry,
      dueWhen (silenceDue s) .silenceExpiry,
      dueWhen (frameDone s) .frameSent,
      dueWhen (storeDone s) .storeOperationEnd].findSome? id

/-- One microsecond passes (R1); what the decoder and the divider took at the stamp before is forgotten. -/
def tick (s : State) : State :=
  match s.phase with
  | .held => s
  | .running =>
    { s.onAxis fun a => { a with takenA := false, takenB := false, timebaseTaken := false } with
      stamp := s.stamp + 1#32
      checkpoint := none }

/-! ## A raw change (R123) -/

/-- The commands that are due at a stamp and do nothing when they are not: the accepted edges, the speed sample, the trails, the
mismatch timeouts, and the two timers of the link. -/
def timedCommands : List (State → Result) :=
  (List.finRange 8).map execInputEdgeAccepted ++ [execSpeedSample] ++ (List.finRange 16).map execTrailExpiry ++
    (List.finRange 16).map execMismatchTimeout ++ [execGapTimerExpiry, execSilenceExpiry]

/-- The state a command leaves. -/
def goOn (command : State → Result) (s : State) : State :=
  match command s with
  | .next t => t
  | .fault _ | .refused _ => s

/-- The present stamp passes: what is due at it is taken, and the Stamp Clock advances (notes/assumptions/6). -/
def passStamp (s : State) : State := tick (timedCommands.foldl (fun s c => goOn c s) s)

/-- The filter of an input takes a raw change (R123).  One that would share its acceptance stamp with an edge of the other
decoder line that has been accepted already is taken with that edge, the two as one, by R2 and R3: the part goes back to where
it stood before the edge.  When another command has come between, the stamp of the edge is over, and the change comes at the
next one (notes/assumptions/6). -/
def takeRawChange (input : Fin 8) (high : Bool) (s : State) : State :=
  let u :=
    if startsPending high s.ins[input] && sharesStamp s input then
      match s.checkpoint with
      | some c => backTo c s
      | none => passStamp s
    else s
  u.onIns fun v => updAt v input (rawChange u.stamp high)

/-- INPUT_RAW_CHANGE (R123): the filter takes the change, or, while the part is held in reset, only the pin changes
(R169). -/
def execInputRawChange (input : Fin 8) (high : Bool) (s : State) : Result :=
  .next (match s.phase with
    | .held => s.onIns fun v => updAt v input fun i => { i with raw := high }
    | .running => settle (takeRawChange input high s))

end Sys2Proof.Machine
end

