-- ==== Sys2Proof/Machine/Dispatch.lean ====
section
/-! DEFINITION. The meaning of each command, one arm a constructor. -/

namespace Sys2Proof.Machine

def exec (i : Instr) (s : State) : Host.Outcome State Fault Refusal :=
  match i with
  | .axisSetup tag body => Sys2Proof.Machine.execAxisSetup tag body s
  | .axisRun tag body => Sys2Proof.Machine.execAxisRun tag body s
  | .axisHalt tag body => Sys2Proof.Machine.execAxisHalt tag body s
  | .axisZero tag body => Sys2Proof.Machine.execAxisZero tag body s
  | .axisHome tag body => Sys2Proof.Machine.execAxisHome tag body s
  | .modulusStage tag body => Sys2Proof.Machine.execModulusStage tag body s
  | .axisRead tag body => Sys2Proof.Machine.execAxisRead tag body s
  | .cuePut tag body => Sys2Proof.Machine.execCuePut tag body s
  | .groupPut tag body => Sys2Proof.Machine.execGroupPut tag body s
  | .cueCancel tag body => Sys2Proof.Machine.execCueCancel tag body s
  | .groupCancel tag body => Sys2Proof.Machine.execGroupCancel tag body s
  | .cueRead tag body => Sys2Proof.Machine.execCueRead tag body s
  | .listRead tag body => Sys2Proof.Machine.execListRead tag body s
  | .marksSet tag body => Sys2Proof.Machine.execMarksSet tag body s
  | .arm tag body => Sys2Proof.Machine.execArm tag body s
  | .disarm tag body => Sys2Proof.Machine.execDisarm tag body s
  | .hold tag body => Sys2Proof.Machine.execHold tag body s
  | .release tag body => Sys2Proof.Machine.execRelease tag body s
  | .seqRead tag body => Sys2Proof.Machine.execSeqRead tag body s
  | .outcomesRead tag body => Sys2Proof.Machine.execOutcomesRead tag body s
  | .captureSetup tag body => Sys2Proof.Machine.execCaptureSetup tag body s
  | .capturesRead tag body => Sys2Proof.Machine.execCapturesRead tag body s
  | .camLoad tag body => Sys2Proof.Machine.execCamLoad tag body s
  | .camRead tag body => Sys2Proof.Machine.execCamRead tag body s
  | .lineSetup tag body => Sys2Proof.Machine.execLineSetup tag body s
  | .linesEnable tag body => Sys2Proof.Machine.execLinesEnable tag body s
  | .linesSet tag body => Sys2Proof.Machine.execLinesSet tag body s
  | .linesRead tag body => Sys2Proof.Machine.execLinesRead tag body s
  | .inputSetup tag body => Sys2Proof.Machine.execInputSetup tag body s
  | .limitsSet tag body => Sys2Proof.Machine.execLimitsSet tag body s
  | .faultRead tag body => Sys2Proof.Machine.execFaultRead tag body s
  | .resume tag body => Sys2Proof.Machine.execResume tag body s
  | .eventEnable tag body => Sys2Proof.Machine.execEventEnable tag body s
  | .eventRead tag body => Sys2Proof.Machine.execEventRead tag body s
  | .eventClear tag body => Sys2Proof.Machine.execEventClear tag body s
  | .noticeOrder tag body => Sys2Proof.Machine.execNoticeOrder tag body s
  | .storeSave tag body => Sys2Proof.Machine.execStoreSave tag body s
  | .storeErase tag body => Sys2Proof.Machine.execStoreErase tag body s
  | .storeRead tag body => Sys2Proof.Machine.execStoreRead tag body s
  | .restart tag body => Sys2Proof.Machine.execRestart tag body s
  | .unknownKindRequest tag kind body => Sys2Proof.Machine.execUnknownKindRequest tag kind body s
  | .receiveCharacter byte stopHigh => Sys2Proof.Machine.execReceiveCharacter byte stopHigh s
  | .gapTimerExpiry => Sys2Proof.Machine.execGapTimerExpiry s
  | .frameSent => Sys2Proof.Machine.execFrameSent s
  | .restartBegin => Sys2Proof.Machine.execRestartBegin s
  | .fullReset => Sys2Proof.Machine.execFullReset s
  | .startUp cfg0 cfg1 cfg2 => Sys2Proof.Machine.execStartUp cfg0 cfg1 cfg2 s
  | .storeOperationEnd => Sys2Proof.Machine.execStoreOperationEnd s
  | .inputRawChange input high => Sys2Proof.Machine.execInputRawChange input high s
  | .inputEdgeAccepted input => Sys2Proof.Machine.execInputEdgeAccepted input s
  | .timebaseCount => Sys2Proof.Machine.execTimebaseCount s
  | .speedSample => Sys2Proof.Machine.execSpeedSample s
  | .leadArrival => Sys2Proof.Machine.execLeadArrival s
  | .windowArrival => Sys2Proof.Machine.execWindowArrival s
  | .trailArrival => Sys2Proof.Machine.execTrailArrival s
  | .trailExpiry line => Sys2Proof.Machine.execTrailExpiry line s
  | .profileSwap => Sys2Proof.Machine.execProfileSwap s
  | .pinSampleChange line high => Sys2Proof.Machine.execPinSampleChange line high s
  | .mismatchTimeout line => Sys2Proof.Machine.execMismatchTimeout line s
  | .supplyCrossing millivolts => Sys2Proof.Machine.execSupplyCrossing millivolts s
  | .silenceExpiry => Sys2Proof.Machine.execSilenceExpiry s
  | .conditionBegin cond => Sys2Proof.Machine.execConditionBegin cond s
  | .conditionEnd cond => Sys2Proof.Machine.execConditionEnd cond s

end Sys2Proof.Machine
end

