-- ==== Sys2Proof/Safety.lean ====
section
/-! DEFINITION. The terms claims are stated in: a safe run, a part that is ready for a request, the newest reply, and what a
command keeps. -/

namespace Sys2Proof

open Sys2Proof.Machine

/-- A step that goes on: neither a fault nor a refusal. -/
def goesOn (s : State) : Prop := ∃ t, step s = .next t

/-- A run is safe when every one of its steps goes on. -/
def safeRun : Nat → State → Prop
  | 0, _ => True
  | k + 1, s => ∃ t, step s = .next t ∧ safeRun k t

/-- A part that takes a request as it arrives: it runs, nothing stands before the request in the inbound queue, the reply
queue has room, no RESTART has been taken, and no report about LINK_SILENT waits at the Fault Monitor (R157, R158, R161). -/
def Ready (s : State) : Prop :=
  s.phase = .running ∧ s.link.inbound = [] ∧ s.link.replies.length < Config.replyRoom ∧ s.link.restarting = false ∧
    reportWaits s .linkSilent = false

/-- The state in which a ready part takes a request: its good frame has restarted the silence timer and ended LINK_SILENT
(R157). -/
def heard (s : State) : State :=
  (s.onLink fun l => { l with silenceStamp := s.stamp, silenceExpired := false, silent := false }).onFaults
    fun f => { f with present := { f.present with linkSilent := f.present.linkSilent && !s.link.silent } }

/-- The reply queued last: the tail of the reply queue, or the frame being sent when the queue is empty (R158, R160). -/
def newestReply (s : State) : Option Frame :=
  match s.link.replies.getLast? with
  | some f => some f
  | none => s.link.tx.map (·.frame)

/-- The request of a tag and a kind below 0x80 has been answered, as the newest reply, with a code, the flag REPLACED, the
link error count and data (R158). -/
def Answered (tag kind : Byte) (code : Code) (replaced : Bool) (data : List Byte) (s t : State) : Prop :=
  newestReply t =
    some ⟨tag, kind + 0x80#8, resultByte code :: flagByte replaced :: (be16 s.link.errors ++ data)⟩

/-- The axis, but for which of its conditions stand reported (R19). -/
def AxisIs (a : Axis) (t : State) : Prop :=
  t.axis = { a with overspeed := t.axis.overspeed, reversed := t.axis.reversed }

/-- The output lines, but for the mismatch states, which the monitor judges at every event (R121). -/
def LinesAre (f : Fin 16 → OutLine) (t : State) : Prop :=
  ∀ n : Fin 16, t.outs.lines[n] = { f n with mismatch := t.outs.lines[n].mismatch }

/-- The Fault Monitor, but for the reports that wait and for LINK_SILENT, which every good frame ends (R128, R157). -/
def FaultsAre (f : FaultMonitor) (t : State) : Prop :=
  t.faults =
    { f with present := { f.present with linkSilent := t.faults.present.linkSilent }, inbox := t.faults.inbox }

/-- The link's settings and receiver.  What it sends and the silence timer are left open (R157, R160). -/
def LinkIs (l : Link) (t : State) : Prop :=
  t.link =
    { l with
      replies := t.link.replies, tx := t.link.tx, silenceStamp := t.link.silenceStamp,
      silenceExpired := t.link.silenceExpired, silent := t.link.silent }

/-- The event sources have had just these occurrences.  The last noticed counts are left open (R143, R147). -/
def Raised (sources : List EventSource) (s t : State) : Prop :=
  t.events.order = s.events.order ∧
    ∀ n : Fin 28, t.events.recs[n] =
      { s.events.recs[n] with
        pending := s.events.recs[n].pending || sources.any fun x => decide (sourceNumber x = n)
        count := s.events.recs[n].count + BitVec.ofNat 8 (sources.countP fun x => decide (sourceNumber x = n))
        noticed := t.events.recs[n].noticed }

/-- The parts of the state that a command may leave alone. -/
inductive Part where
  | clock | axis | cues | seq | capture | cams | lines | inputs | faults | supply | events | link | store
deriving DecidableEq, Repr

/-- A part is kept. -/
def keptPart (s t : State) : Part → Prop
  | .clock => t.pending = s.pending ∧ t.phase = s.phase ∧ t.stamp = s.stamp ∧ t.freeIndex = s.freeIndex
  | .axis => AxisIs s.axis t
  | .cues => t.cues = s.cues
  | .seq => t.seq = s.seq
  | .capture => t.capture = s.capture
  | .cams => t.cams = s.cams
  | .lines => t.outs.arrivals = s.outs.arrivals ∧ LinesAre (fun n => s.outs.lines[n]) t
  | .inputs => t.ins = s.ins
  | .faults => FaultsAre s.faults t
  | .supply => t.supply = { s.supply with low := t.supply.low }
  | .events => Raised [] s t
  | .link => LinkIs s.link t
  | .store => t.store = s.store

/-- Every part but these is kept: the frame of a command. -/
def KeptBut (parts : List Part) (s t : State) : Prop := ∀ p, p ∉ parts → keptPart s t p

/-- A run of commands, each of which goes on. -/
def Runs : List Instr → State → State → Prop
  | [], s, t => t = s
  | c :: cs, s, t => ∃ u, exec c s = .next u ∧ Runs cs u t

/-! ## Cues -/

/-- The mark events of one event of the Cue Table, from its state before and after (R43, R44). -/
def marksRaised (c d : CueTable) : List EventSource :=
  (if c.lowMark ≤ listedCount c ∧ listedCount d < c.lowMark then [.listLow] else []) ++
    if occupiedCount c < c.highMark ∧ c.highMark ≤ occupiedCount d then [.slotsHigh] else []

/-- A CUE_PUT body that carries a cue, a key and a late policy and passes the checks of R30: every value in range, the
sequencer not SAFE, the position below both moduli, the slot FREE, and every line owned by CUE. -/
def CuePutPasses (body : List Byte) (cue : Cue) (key : Key) (late : LatePolicy) (s : State) : Prop :=
  ∃ slot l1 l0 action c1 c0 p3 p2 p1 p0 options w1 w0 count period policy : Byte,
    body = [slot, l1, l0, action, c1, c0, p3, p2, p1, p0, options, w1, w0, count, period, policy] ∧
    cueOf slot (word16 l1 l0) action options (num16 w1 w0) count period none = some cue ∧
    latePolicyOf policy = some late ∧ key = ⟨word16 c1 c0, num32 p3 p2 p1 p0⟩ ∧ s.seq.state ≠ .safe ∧
    key.pos < s.axis.cfg.modulus ∧ (∀ m, s.axis.staged = some m → key.pos < m) ∧
    slotFree s.cues cue.slot = true ∧ cue.lines &&& ~~~ cueOwned s = 0#16

/-- A CUE_PUT has listed its cue with a key and a standing (R25, R31). -/
def CueListed (tag : Byte) (cue : Cue) (key : Key) (standing : Byte) (s t : State) : Prop :=
  Answered tag 0x10#8 .ok false (keyBytes key ++ [standing, byteOf (listIndex t.cues cue.slot)]) s t ∧
    t.cues = { s.cues with list := insertCue s.cues.lead ⟨cue, key⟩ s.cues.list } ∧
    Raised (marksRaised s.cues t.cues) s t ∧ KeptBut [.cues, .events] s t

/-- The outcome record of a firing (R59, R68). -/
def firingRecord (cause : Cause) (x : Listed) (lead : Key) (s : State) : OutcomeRecord where
  slot := x.cue.slot
  cause := cause
  action := x.cue.action
  sets := some (appliedLines s x.cue.lines, x.cue.lines &&& ~~~ appliedLines s x.cue.lines)
  key := x.key
  lead := lead
  stamp := s.stamp
  remaining := x.cue.rep.map (·.remaining)
  skipped := none

/-- One cue has fired, and nothing else has acted on the lines and the outcome log: its action stands on its CUE-owned lines, a
counted pulse measured from a base key, and its record in the log when it reports and the log has room (R59, R69, R113,
R114). -/
def Fired (cause : Cause) (x : Listed) (base lead : Key) (s t : State) : Prop :=
  LinesAre (fun n =>
      if inSet (appliedLines s x.cue.lines) n then
        actOn x.cue.action (x.cue.width.map (pulseTrail s.axis.cfg.modulus s.stamp base)) s.outs.lines[n]
      else s.outs.lines[n]) t ∧
    t.outs.arrivals = s.outs.arrivals ∧
    t.seq = { s.seq with
      log := if x.cue.report ∧ s.seq.log.length < Config.outcomeRoom then
          s.seq.log ++ [firingRecord cause x lead s]
        else s.seq.log }

/-- The event of a firing's record (R69). -/
def firingRaised (x : Listed) (s : State) : List EventSource :=
  if x.cue.report then [if s.seq.log.length < Config.outcomeRoom then .outcome else .outLogFull] else []

/-! ## Outcome records and their events (R45, R59, R62, R69) -/

/-- The outcome log after some records, written one after another: each is appended while the log has room (R69). -/
def logAfter (rs : List OutcomeRecord) (s : State) : List OutcomeRecord :=
  s.seq.log ++ rs.take (Config.outcomeRoom - s.seq.log.length)

/-- The events of so many outcome records: OUTCOME for each that finds room, OUTLOG_FULL for each other (R69). -/
def recordsRaised (n : Nat) (s : State) : List EventSource :=
  List.replicate (min n (Config.outcomeRoom - s.seq.log.length)) .outcome ++
    List.replicate (n - (Config.outcomeRoom - s.seq.log.length)) .outLogFull

/-- The record of an expired cue, with the lead point it names (R45, R46). -/
def expiredRecord (lead : Key) (s : State) (x : Listed) : OutcomeRecord :=
  ⟨x.cue.slot, .expired, x.cue.action, none, x.key, lead, s.stamp, x.cue.rep.map (·.remaining), none⟩

/-- The events of an expiry of so many cues (R45, R69). -/
def expiryRaised (n : Nat) (s : State) : List EventSource := recordsRaised n s ++ List.replicate n .skipped

/-- One cue's action at one line, a counted pulse measured from the cue's key (R113, R114). -/
def lineFired (s : State) (n : Fin 16) (l : OutLine) (x : Listed) : OutLine :=
  if inSet (appliedLines s x.cue.lines) n then
    actOn x.cue.action (x.cue.width.map (pulseTrail s.axis.cfg.modulus s.stamp x.key)) l
  else l

/-- Records have been written, then one-shot cues have fired with cause KEY, one after another: each line as the actions leave
it, and a record for each cue that reports (R58, R59, R69). -/
def FiredRun (before : List OutcomeRecord) (run : List Listed) (lead : Key) (s t : State) : Prop :=
  LinesAre (fun n => run.foldl (lineFired s n) s.outs.lines[n]) t ∧ t.outs.arrivals = s.outs.arrivals ∧
    t.seq = { s.seq with
      log := logAfter (before ++ (run.filter (·.cue.report)).map fun x => firingRecord .key x lead s) s }

/-- A list of cues begins with a run of one-shot cues that a lead point has reached, and nothing behind the run is reached at
its head or shares a slot with it (R27). -/
def RunThen (lead : Key) (list run rest : List Listed) : Prop :=
  list = run ++ rest ∧ (∀ x ∈ run, keyReached lead x.key = true ∧ x.cue.rep = none) ∧
    (∀ y, rest.head? = some y → keyReached lead y.key = false) ∧ ∀ x ∈ run, ∀ y ∈ rest, y.cue.slot ≠ x.cue.slot

/-! ## The repeat rule (R61, R62) -/

/-- The key some periods after a key (R61). -/
def periodsAfter (k : Key) (period n : Nat) : Key := ⟨k.cycle + BitVec.ofNat 16 (n * period), k.pos⟩

/-- The firings still to come after some repetitions have been skipped (R62). -/
def lowered (t : Remaining) (n : Nat) : Remaining :=
  match t with
  | .times m => .times (m - n)
  | .unending => .unending

/-- Just n repetitions are skipped from a first key on: each of them is reached with firings still to come, and after them the
next key is ahead or none is to come (R61, R62). -/
def SkipsJust (lead first : Key) (r : Repetition) (n : Nat) : Prop :=
  1 ≤ r.period ∧ r.period ≤ 255 ∧
    (∀ i, i < n → keyReached lead (periodsAfter first r.period i) = true ∧ lowered r.remaining i ≠ .times 0) ∧
    (keyReached lead (periodsAfter first r.period n) = false ∨ lowered r.remaining n = .times 0)

/-- The list with the cue handed back at its next key with the firings still to come: freed at 0, made one-shot at 1, reinserted
with one firing less otherwise (R61). -/
def handedBack (lead : Key) (x : Listed) (r : Repetition) (next : Key) (t : Remaining) (rest : List Listed) : List Listed :=
  match t with
  | .times 0 => rest
  | .times 1 => insertCue lead ⟨{ x.cue with rep := none }, next⟩ rest
  | .times n => insertCue lead ⟨{ x.cue with rep := some { r with remaining := .times (n - 1) } }, next⟩ rest
  | .unending => insertCue lead ⟨{ x.cue with rep := some r }, next⟩ rest

/-- The record of skipped repetitions: the key of the first, the firings still to come, and how many, at most 254 (R62, R65). -/
def skippedRecord (lead first : Key) (x : Listed) (t : Remaining) (n : Nat) (s : State) : OutcomeRecord :=
  ⟨x.cue.slot, .skipped, x.cue.action, none, first, lead, s.stamp, some t, some (min 254 n)⟩

/-- A repeating cue has fired and n repetitions from a first key on were skipped: its action, a counted pulse measured from a
base key, and the records of the firing, where it reports, and of the skipped repetitions, where there are any (R59, R62). -/
def FiredRepeating (cause : Cause) (base lead first : Key) (x : Listed) (r : Repetition) (n : Nat) (s t : State) : Prop :=
  LinesAre (fun k =>
      if inSet (appliedLines s x.cue.lines) k then
        actOn x.cue.action (x.cue.width.map (pulseTrail s.axis.cfg.modulus s.stamp base)) s.outs.lines[k]
      else s.outs.lines[k]) t ∧
    t.outs.arrivals = s.outs.arrivals ∧
    t.seq.log = logAfter ((if x.cue.report then [firingRecord cause x lead s] else []) ++
      if n = 0 then [] else [skippedRecord lead first x (lowered r.remaining n) n s]) s

/-- The events of those records (R62, R69). -/
def repeatingRaised (x : Listed) (n : Nat) (s : State) : List EventSource :=
  recordsRaised (x.cue.report.toNat + if n = 0 then 0 else 1) s ++ if n = 0 then [] else [.skipped]

/-! ## Groups (R87 to R89) -/

/-- The cues of a group keyed at a point under the modulus in force (R88). -/
def keyed (g : Group) (point : Key) (s : State) : List Listed :=
  g.cues.map fun c => ⟨c,
    ⟨point.cycle + BitVec.ofNat 16 ((point.pos + c.offset.getD 0) / s.axis.cfg.modulus),
      (point.pos + c.offset.getD 0) % s.axis.cfg.modulus⟩⟩

/-- The keyed cues of a group that lie beyond the horizon, and expire (R28, R89). -/
def expiring (g : Group) (point : Key) (s : State) : List Listed :=
  (keyed g point s).filter fun x => beyondHorizon s.cues.lead x.key

/-- The cue list after the other keyed cues have entered in group order (R25, R89). -/
def enteredList (g : Group) (point : Key) (s : State) : List Listed :=
  ((keyed g point s).filter fun x => !beyondHorizon s.cues.lead x.key).foldl
    (fun l x => insertCue s.cues.lead x l) s.cues.list

/-- The oldest group of a channel has been resolved at a point, its records carrying a lead point, and with it some further
events have been raised: the group has left its queue, its cues have entered the list or expired, outside ARMED nothing fires,
and in ARMED the run of reached cues fires, here of one-shot cues (R28, R60, R87 to R89). -/
def GroupResolved (ch : Fin 4) (g : Group) (point lead : Key) (more : List EventSource) (s t : State) : Prop :=
  t.cues = { s.cues with list := t.cues.list, queues := t.cues.queues } ∧
    t.cues.queues[ch] = s.cues.queues[ch].tail ∧ (∀ d : Fin 4, d ≠ ch → t.cues.queues[d] = s.cues.queues[d]) ∧
    (s.seq.state ≠ .armed →
      t.cues.list = enteredList g point s ∧
      FiredRun ((expiring g point s).map (expiredRecord lead s)) [] lead s t ∧
      Raised (expiryRaised (expiring g point s).length s ++ marksRaised s.cues t.cues ++ more) s t) ∧
    ∀ run rest, s.seq.state = .armed → RunThen s.cues.lead (enteredList g point s) run rest →
      t.cues.list = rest ∧
      FiredRun ((expiring g point s).map (expiredRecord lead s)) run lead s t ∧
      Raised (recordsRaised ((expiring g point s).length + run.countP (·.cue.report)) s ++
        List.replicate (expiring g point s).length .skipped ++ marksRaised s.cues t.cues ++ more) s t

/-! ## Counts, cycle boundaries and position jumps (R6, R7, R9, R16, R106) -/

/-- The key one count on, forward or backward, under a modulus (R6). -/
def countedKey (forward : Bool) (modulus : Nat) (k : Key) : Key :=
  if forward then if k.pos + 1 < modulus then ⟨k.cycle, k.pos + 1⟩ else ⟨k.cycle + 1#16, 0⟩
  else if k.pos = 0 then ⟨k.cycle - 1#16, modulus - 1⟩ else ⟨k.cycle, k.pos - 1⟩

/-- The count moves the lead point (R7). -/
def leads (forward : Bool) (a : Axis) : Bool := forward && decide (a.current = a.lead)

/-- The count is a cycle boundary (R9). -/
def crosses (forward : Bool) (a : Axis) : Bool := leads forward a && decide (a.cfg.modulus ≤ a.current.pos + 1)

/-- A track after the cycle boundaries that wait at the Cam Unit: the slots of a staged one are swapped (R106). -/
def swappedTrack (s : State) (n : Fin 8) : Track :=
  if s.cams.boundaries ≠ 0 ∧ s.cams.tracks[n].staged = true then
    { s.cams.tracks[n] with active := if s.cams.tracks[n].active = .a then .b else .a, staged := false }
  else s.cams.tracks[n]

/-- The events of those swaps (R106). -/
def swapsRaised (s : State) : List EventSource :=
  if s.cams.boundaries = 0 then [] else List.replicate (s.cams.tracks.toList.countP (·.staged)) .camSwapped

/-- One count has been taken on the axis `a`, which is that of `s` but for what the caller says: the points, the net count and,
at a cycle boundary, the modulus; the arrival handed to three blocks when the lead point moved; the tracks recomputed, behind
the boundaries that waited at the Cam Unit (R6, R7, R9, R17; the last is the model's reading, notes/assumptions/17). -/
def CountTaken (forward : Bool) (a : Axis) (s t : State) : Prop :=
  AxisIs { a with
    current := countedKey forward a.cfg.modulus a.current
    lead := if leads forward a then countedKey forward a.cfg.modulus a.current else a.lead
    netCount := if forward then a.netCount + 1 else a.netCount - 1
    staged := if crosses forward a then none else a.staged
    cfg := { a.cfg with modulus := if crosses forward a then a.staged.getD a.cfg.modulus else a.cfg.modulus } } t ∧
  (∀ n : Fin 8, t.cams.tracks[n] = recomputeTrack t.axis (swappedTrack s n)) ∧
  t.cams.boundaries = (if crosses forward a then 1 else 0) ∧
  t.cues = { s.cues with
    arrivals := s.cues.arrivals ++
      if leads forward a then [⟨countedKey forward a.cfg.modulus a.current, crosses forward a⟩] else [] } ∧
  t.capture = { s.capture with
    arrivals := s.capture.arrivals ++
      if leads forward a then [countedKey forward a.cfg.modulus a.current] else [] } ∧
  t.outs.arrivals = s.outs.arrivals ++
    (if leads forward a then [countedKey forward a.cfg.modulus a.current] else []) ∧
  LinesAre (fun n => s.outs.lines[n]) t ∧
  Raised (swapsRaised s ++ if crosses forward a then [.cycle] else []) s t

/-- The filter of an input has taken a raw change, on the part as it stood in `u` (R123): a change away from the accepted level
is pending from its own stamp, or from the stamp it was pending from already, and with filter time 0 it is due at once; a change
back drops it. -/
def RawChangeTaken (n : Fin 8) (high : Bool) (s u : State) : Prop :=
  ∃ t, exec (.inputRawChange n high) s = .next t ∧
    t.ins[n] = { u.ins[n] with
      raw := high,
      pendingSince := if high = u.ins[n].accepted then none else some (u.ins[n].pendingSince.getD u.stamp) } ∧
    (high ≠ u.ins[n].accepted → u.ins[n].pendingSince = none → u.ins[n].filter = 0 → inputDue t n = true) ∧
    (∀ k : Fin 8, k ≠ n → t.ins[k] = u.ins[k]) ∧ KeptBut [.inputs] u t

/-- The commands that are due at a stamp and do nothing when they are not. -/
def timedInstrs : List Instr :=
  (List.finRange 8).map .inputEdgeAccepted ++ [.speedSample] ++ (List.finRange 16).map .trailExpiry ++
    (List.finRange 16).map .mismatchTimeout ++ [.gapTimerExpiry, .silenceExpiry]

/-- The entry of a condition in the present set after LIMITS_SET, from the entry before it and whether the condition stood
reported before and after: the oldest report about it, if it is an ending, has been taken (R129, R140). -/
def entryAfterLimits (s : State) (c : Condition) (entry before after : Bool) : Bool :=
  entry && match s.faults.inbox.find? fun r => decide (r.cond = c) with
    | some r => r.begins
    | none => !before || after

/-- The cue list has been put in key order against a lead point: the same cues, in key order, equal keys in the order they had
(R29). -/
def Reordered (lead : Key) (old new : List Listed) : Prop :=
  new.Perm old ∧ new.Pairwise (fun x y => keyBefore lead y.key x.key = false) ∧
    ∀ k : Key, new.filter (fun x => decide (x.key = k)) = old.filter fun x => decide (x.key = k)

/-- The blocks have taken a position jump to a key, in IDLE, with some further events: nothing waits that was handed over before
the jump, and the jump hands over no arrival and no boundary; every episode is closed, every track recomputed, every COUNTS
trail ended, nothing fires.  With no arrival waiting before it, the list is in the new key order without the cues beyond the
horizon, which have their EXPIRED records and SKIPPED (R16, R29, R78, R115). -/
def Jumped (key : Key) (more : List EventSource) (s t : State) : Prop :=
  t.cues.arrivals = [] ∧ t.capture.arrivals = [] ∧ t.outs.arrivals = [] ∧ t.cams.boundaries = 0 ∧ t.cues.lead = key ∧
    t.seq = { s.seq with log := t.seq.log } ∧ (∀ ch : Fin 4, t.capture.channels[ch].episode = .closed) ∧
    (∀ n : Fin 8, t.cams.tracks[n] = recomputeTrack t.axis (swappedTrack s n)) ∧
    LinesAre (fun n => match s.outs.lines[n].trail with
      | some (.counts _) => { s.outs.lines[n] with trail := none, cue := false }
      | _ => s.outs.lines[n]) t ∧
    (s.cues.arrivals = [] → s.capture.arrivals = [] →
      (∀ ch : Fin 4, t.capture.channels[ch] = { s.capture.channels[ch] with episode := .closed }) ∧
      ∃ l gone, Reordered key s.cues.list l ∧ gone = l.filter (fun x => beyondHorizon key x.key) ∧
        t.cues = { s.cues with lead := key, list := l.filter fun x => !beyondHorizon key x.key } ∧
        t.seq.log = logAfter (gone.map (expiredRecord key s)) s ∧
        Raised (swapsRaised s ++ expiryRaised gone.length s ++ marksRaised s.cues t.cues ++ more) s t)

/-- IN2 released from INDEX, its filter time kept (R13, R15). -/
def released (i : InLine) : InLine := { i with fn := .general, edgeMode := .never }

/-! ## Refusals -/

/-- The first of some checks that fails, in their order, and the code it is refused with. -/
def FirstFails : List (Prop × Code) → Code → Prop
  | [], _ => False
  | (p, c) :: rest, d => p ∧ c = d ∨ ¬ p ∧ FirstFails rest d

/-- A request of a kind whose checks fail is answered with the code of the first that fails, and changes nothing. -/
def RefusedInOrder (c : Instr) (tag kind : Byte) (checks : List (Prop × Code)) (s : State) : Prop :=
  ∀ code, FirstFails checks code →
    ∃ t, exec c s = .next t ∧ Answered tag kind code false [] s t ∧ KeptBut [] s t

/-- A position is at or above the modulus in force, or a staged one (R10). -/
abbrev AboveModuli (a : Axis) (p : Nat) : Prop := a.cfg.modulus ≤ p ∨ ∃ m ∈ a.staged, m ≤ p

/-- A cue's fields as a request carries them hold a value out of range (R30, R84, section 11.5). -/
abbrev CueOutOfRange (lines : LineSet) (action options : Byte) (width : Nat) (count period : Byte) : Prop :=
  lines = 0#16 ∨ 3 < action.toNat ∨ 32 ≤ options.toNat ∨ (action = 3#8 ∧ options.getLsbD 0 = false) ∨
    (action ≠ 3#8 ∧ options.getLsbD 0 = true) ∨ (options.getLsbD 0 = true ∧ width = 0) ∨
    (options.getLsbD 2 = true ∧ (count = 0#8 ∨ period = 0#8))

/-- A line of a set is not owned by CUE. -/
abbrev NotCueOwned (lines : LineSet) (s : State) : Prop :=
  ∃ n : Fin 16, inSet lines n = true ∧ s.outs.lines[n].cfg.owner ≠ .cue

/-! ## The length a kind calls for -/

/-- The body length that a known kind calls for, the two variable ones reckoned from the count byte (R173, section 11.5). -/
def lengthCalledFor (kind : Byte) (body : List Byte) : Option Nat :=
  if kind = 0x11#8 then (body[3]?).map fun n => 4 + 13 * n.toNat
  else if kind = 0x38#8 then (body[5]?).map fun c => 6 + 8 * c.toNat
  else if kind ∈ [0x02#8, 0x03#8, 0x04#8, 0x07#8, 0x20#8, 0x21#8, 0x22#8, 0x23#8, 0x24#8, 0x43#8, 0x51#8, 0x61#8,
      0x72#8, 0x7F#8] then some 0
  else if kind ∈ [0x12#8, 0x13#8, 0x14#8, 0x15#8, 0x25#8, 0x31#8, 0x39#8, 0x71#8] then some 1
  else if kind ∈ [0x52#8, 0x62#8, 0x70#8] then some 2
  else if kind = 0x63#8 then some 3
  else if kind ∈ [0x05#8, 0x06#8, 0x16#8, 0x41#8, 0x42#8, 0x44#8, 0x60#8] then some 4
  else if kind ∈ [0x01#8, 0x40#8] then some 6
  else if kind = 0x50#8 then some 7
  else if kind = 0x10#8 then some 16
  else if kind = 0x30#8 then some 17
  else none

/-! ## The layouts of sections 11.6 to 11.8, written from the spec's tables

A code is the place of its value in the list that section 11.4 gives. -/

/-- A number in so many bytes, most significant first (R172). -/
def bytesOf : Nat → Nat → List Byte
  | 0, _ => []
  | n + 1, v => BitVec.ofNat 8 (v / 256 ^ n) :: bytesOf n v

/-- Fields, each a size in bytes and a number, one after another. -/
def layout (fields : List (Nat × Nat)) : List Byte := fields.flatMap fun f => bytesOf f.1 f.2

/-- A signed number as the number of its two's complement in 4 bytes (R172). -/
def signed (i : Int) : Nat := (BitVec.ofInt 32 i).toNat

/-- Flags as a byte, bit 0 first. -/
def flagBits : List Bool → Nat
  | [] => 0
  | b :: bs => b.toNat + 2 * flagBits bs

/-- A key. -/
def keyFields (k : Key) : List (Nat × Nat) := [(2, k.cycle.toNat), (4, k.pos)]

/-- action -/
def actionCode (a : Action) : Nat := [.activate, .clear, .toggle, .pulse].idxOf a

/-- remaining, 255 for UNENDING -/
def remainingCode : Remaining → Nat
  | .times n => n
  | .unending => 255

/-- fault kind, the rank -/
def kindCode (k : FaultKind) : Nat :=
  1 + [.supplyLow, .axisSignal, .overspeed, .reverseLimit, .lineMismatch, .linkSilent].idxOf k

/-- sequencer state, state left -/
def stateCode (q : SeqState) : Nat := [.idle, .armed, .hold, .safe].idxOf q

/-- notice group -/
def groupCode (g : NoticeGroup) : Nat := [.capture, .schedule, .general].idxOf g

/-- store result -/
def resultCode (r : StoreResult) : Nat := [.done, .failed].idxOf r

/-- The data of AXIS_READ, 41 bytes. -/
def axisFields (a : Axis) : List (Nat × Nat) :=
  [(1, [.quad, .step, .timebase].idxOf a.cfg.source), (1, a.cfg.k), (1, a.running.toNat), (4, a.cfg.modulus),
    (1, a.staged.isSome.toNat), (4, a.staged.getD 0)] ++ keyFields a.current ++ keyFields a.lead ++
    [(4, min (excursion a) 4294967295), (4, signed a.speed), (1, a.homing.toNat), (4, a.cfg.home),
      (2, a.reverseLimit), (2, a.speedLimit)]

/-- The data of CUE_READ for a slot that is not FREE, 24 bytes: a LISTED cue with key, list index and standing, or a WAITING one
with group and place in group. -/
def cueFields (state : Nat) (c : Cue) (listed : Option (Key × Nat × Bool)) (waiting : Option (Nat × Nat)) :
    List (Nat × Nat) :=
  [(1, state), (2, c.lines.toNat), (1, actionCode c.action),
    (1, flagBits [c.width.isSome, decide (c.width.map (·.unit) = some .microseconds), c.rep.isSome,
      decide (c.catchUp = .skip), c.report]),
    (1, flagBits [listed.isSome, waiting.isSome, c.offset.isSome])] ++
    keyFields ((listed.map (·.1)).getD Key.zero) ++
    [(1, (waiting.map (·.1)).getD 0), (1, (waiting.map (·.2)).getD 0), (4, c.offset.getD 0),
      (2, (c.width.map (·.value)).getD 0), (1, (c.rep.map fun r => remainingCode r.remaining).getD 0),
      (1, (c.rep.map (·.period)).getD 0), (1, (listed.map (·.2.1)).getD 0),
      (1, ((listed.map (·.2.2)).getD false).toNat)]

/-- The data of LIST_READ from a starting index, 3 + 8e bytes. -/
def listFields (c : CueTable) (start : Nat) : List (Nat × Nat) :=
  [(2, c.list.length), (1, min 16 (c.list.length - start))] ++
    ((c.list.drop start).take 16).flatMap fun x =>
      [(1, x.cue.slot.val)] ++ keyFields x.key ++ [(1, (keyReached c.lead x.key).toNat)]

/-- The data of SEQ_READ, 16 bytes. -/
def seqFields (s : State) : List (Nat × Nat) :=
  [(1, stateCode s.seq.state), (1, flagBits [s.seq.holdRequest, s.seq.holdPin]), (1, s.seq.freeze.toNat),
    (2, 256 - ((waitingCues s.cues).length + s.cues.list.length)), (2, (waitingCues s.cues).length),
    (2, s.cues.list.length), (2, (s.cues.list.takeWhile fun x => keyReached s.cues.lead x.key).length),
    (2, s.cues.lowMark), (2, s.cues.highMark), (1, s.seq.log.length)]

/-- A profile in CAM_READ, 34 bytes. -/
def profileFields : Profile → List (Nat × Nat)
  | .empty => [(1, 0), (1, 0), (32, 0)]
  | .full => [(1, 1), (1, 0), (32, 0)]
  | .windows ws =>
    [(1, 2), (1, ws.length)] ++ ws.flatMap (fun w => [(4, w.on), (4, w.off)]) ++ [(32 - 8 * ws.length, 0)]

/-- The data of CAM_READ, 82 bytes: the track output is the level in ARMED and inactive otherwise. -/
def camFields (s : State) (t : Track) : List (Nat × Nat) :=
  profileFields t.slotA ++ profileFields t.slotB ++
    [(1, [.a, .b].idxOf t.active), (1, t.staged.toNat), (2, t.leadTime), (4, signed t.advance), (4, t.advPos),
      (1, t.level.toNat), (1, (decide (s.seq.state = .armed) && t.level).toNat)]

/-- An output entry, 13 bytes. -/
def outputFields (s : State) (l : OutLine) : List (Nat × Nat) :=
  [(1, match l.cfg.owner with
      | .nobody => 0
      | .direct => 1
      | .cue => 2
      | .cam t => 3 + t.val),
    (1, (decide (l.cfg.polarity = .activeLow)).toNat + 2 * [.off, .pushPull, .openDrain].idxOf l.cfg.driver +
      8 * [.inactive, .active, .float].idxOf l.cfg.safeLevel),
    (1, flagBits [l.enable, l.direct, l.cue, l.sampled]), (1, l.cfg.mismatchTime),
    (1, match l.mismatch with
      | .agree => 0
      | .pending _ => 1
      | .present => 2),
    (1, [.low, .high, .released].idxOf (drive s l))] ++
    match l.trail with
    | none => [(1, 0), (6, 0)]
    | some (.counts k) => (1, 1) :: keyFields k
    | some (.time e) => [(1, 2), (2, 0), (4, e.toNat)]

/-- An input entry, 4 bytes. -/
def inputFields (i : InLine) : List (Nat × Nat) :=
  [(1, match i.fn with
      | .general => 0
      | .freeze => 1
      | .axisA => 2
      | .axisB => 3
      | .index => 4
      | .capture _ => 5),
    (1, [.never, .rising, .falling, .both].idxOf i.edgeMode), (1, i.filter), (1, i.accepted.toNat)]

/-- The data of FAULT_READ, 38 bytes. -/
def faultFields (s : State) : List (Nat × Nat) :=
  [(2, s.faults.count.toNat)] ++
    (match s.faults.primary with
      | none => [(24, 0)]
      | some r =>
        [(1, flagBits [true, r.line.isSome, r.speed.isSome]), (1, kindCode r.kind), (4, r.stamp.toNat)] ++
          keyFields r.current ++ keyFields r.lead ++
          [(1, stateCode r.left), (1, (r.line.map (·.val)).getD 0), (4, (r.speed.map signed).getD 0)]) ++
    [(1, s.faults.secondary.toNat),
      (1, flagBits [s.faults.present.supplyLow, s.faults.present.overspeed, s.faults.present.reverseLimit,
        s.faults.present.linkSilent, decide (s.faults.present.lines ≠ 0#16)]),
      (2, s.faults.present.lines.toNat), (2, s.axis.reverseLimit), (2, s.axis.speedLimit), (2, s.link.silenceLimit),
      (1, s.supply.level.val), (1, s.faults.flt.toNat)]

/-- The data of EVENT_READ, 68 bytes, with its sets of source numbers as numbers. -/
def eventFields (pending enabled : Nat) (e : EventUnit) : List (Nat × Nat) :=
  [(4, pending), (4, enabled), (1, groupCode e.order.first), (1, groupCode e.order.second), (1, groupCode e.order.third),
    (1, (e.recs.toList.any fun r => r.enabled && r.pending).toNat)] ++
    e.recs.toList.flatMap fun r => [(1, r.count.toNat), (1, r.noticed.toNat)]

/-- block condition -/
def conditionCode {α : Type} : Block α → Nat
  | .empty => 0
  | .valid _ => 1
  | .bad => 2

/-- The data of STORE_READ, 24 bytes. -/
def storeFields (x : SettingStore) : List (Nat × Nat) :=
  [(1, conditionCode x.blocks.header), (1, conditionCode x.blocks.link), (1, conditionCode x.blocks.axis),
    (1, conditionCode x.blocks.limits), (1, conditionCode x.blocks.lines), (1, conditionCode x.blocks.inputs),
    (1, conditionCode x.blocks.capture), (1, conditionCode x.blocks.cams), (1, conditionCode x.blocks.events),
    (1, match x.blocks.header with
      | .valid c => c.signed.toNat
      | _ => 0),
    (1, x.limit), (1, 0), (1, x.lastOp.isSome.toNat), (1, (x.lastOp.map (·.block.val)).getD 0),
    (1, (x.lastOp.map fun o => resultCode o.result).getD 0), (1, x.skipped.toNat)] ++
    x.results.toList.map fun r => (1, [.loaded, .partly, .empty, .bad, .skipped].idxOf r)

/-- The outcome record, 26 bytes. -/
def outcomeFields (r : OutcomeRecord) : List (Nat × Nat) :=
  [(1, r.slot.val), (1, [.key, .catchUp, .skipped, .expired].idxOf r.cause), (1, actionCode r.action),
    (1, flagBits [r.sets.isSome, r.remaining.isSome, r.skipped.isSome]),
    (2, (r.sets.map (·.1.toNat)).getD 0), (2, (r.sets.map (·.2.toNat)).getD 0)] ++ keyFields r.key ++
    keyFields r.lead ++
    [(4, r.stamp.toNat), (1, (r.remaining.map remainingCode).getD 0), (1, r.skipped.getD 0)]

/-- The capture record, 14 bytes. -/
def captureFields (r : CaptureRecord) : List (Nat × Nat) :=
  [(1, r.channel.val), (1, r.group.isSome.toNat)] ++ keyFields r.point ++
    [(1, [.rising, .falling].idxOf r.edge), (4, r.stamp.toNat), (1, (r.group.map (·.val)).getD 0)]

/-- miss result -/
def missCode (m : MissResult) : Nat := [.dropped, .nominal, .empty, .suspended].idxOf m

/-- The data of CAPTURES_READ, 28 + 3q + 14r bytes. -/
def capturesFields (c : Channel) (queue : List Group) : List (Nat × Nat) :=
  [(1, c.log.length), (2, c.strays)] ++
    (match c.episode with
      | .closed => [(1, 0), (2, 0)]
      | .opened cyc => [(1, 1), (2, cyc.toNat)]
      | .taken cyc => [(1, 2), (2, cyc.toNat)]) ++
    (match c.lastMiss with
      | none => [(1, 0), (1, 0), (1, 0), (2, 0)]
      | some m => [(1, flagBits [true, m.group.isSome]), (1, missCode m.result), (1, (m.group.map (·.val)).getD 0),
        (2, m.cycle.toNat)]) ++
    [(1, c.cfg.enabled.toNat), (1, (c.cfg.input.map (·.val)).getD 8), (1, [.rising, .falling, .both].idxOf c.cfg.edge)] ++
    (match c.cfg.gate with
      | .always => [(1, 0), (4, 0), (4, 0), (4, 0)]
      | .window start stop nominal => [(1, 1), (4, start), (4, stop), (4, nominal)]) ++
    [(1, queue.length)] ++
    queue.flatMap (fun g => [(1, g.number.val), (1, [.drop, .nominal].idxOf g.policy), (1, g.cues.length)]) ++
    c.log.flatMap captureFields

/-! ## The notice chosen next -/

/-- The place of a group in the notice order. -/
def orderPlace (o : NoticeOrder) (g : NoticeGroup) : Nat :=
  if g = o.first then 0 else if g = o.second then 1 else 2

/-- A source is the one whose notice goes next: due, and every other due source stands in a later group of the notice order or
in the same group with a higher number (R146). -/
def NextNoticed (e : EventUnit) (n : Fin 28) : Prop :=
  due e.recs[n] = true ∧ ∀ m : Fin 28, due e.recs[m] = true → m ≠ n →
    orderPlace e.order (groupOf n) < orderPlace e.order (groupOf m) ∨ groupOf m = groupOf n ∧ n.val < m.val

/-! ## Reset values -/

/-- Every block but the store and the clock is at its reset values, at a link rate and a stamp; the supply has been judged when
the part runs (R21, R47, R72, R96, R109, R127, R142, R152, R163, R169). -/
def IsReset (rate : LinkRate) (now : Stamp) (s t : State) : Prop :=
  t.stamp = now ∧ t.pending = s.pending ∧ t.axis = { Axis.reset with nextSample := t.axis.nextSample } ∧
    t.axis.nextSample.toNat = (now.toNat / 1000 + 1) * 1000 ∧ t.cues = CueTable.reset ∧ t.seq = Sequencer.reset ∧
    t.capture = CaptureUnit.reset ∧ t.cams = CamUnit.reset ∧
    (∀ n : Fin 16, t.outs.lines[n] = OutLine.reset s.outs.lines[n].sampled) ∧ t.outs.arrivals = [] ∧
    (∀ n : Fin 8, t.ins[n] = InLine.reset s.ins[n].raw) ∧
    t.faults = { FaultMonitor.reset with inbox := t.faults.inbox } ∧ t.supply.level = 0 ∧
    t.supply.millivolts = s.supply.millivolts ∧
    t.supply.low = (decide (t.phase = .running) && decide (s.supply.millivolts < 2850)) ∧
    t.faults.inbox = (if t.supply.low then [plainReport .supplyLow true] else []) ∧
    t.events = EventUnit.reset ∧ t.link = Link.reset rate now

/-! ## The autoload of a prepared store (R169, R170) -/

/-- The content of a VALID block, and another value for an EMPTY or BAD one. -/
def contentOr {α : Type} (other : α) : Block α → α
  | .valid c => c
  | .empty => other
  | .bad => other

/-- The load result of a block, PARTIAL being said of a VALID one. -/
def resultOf {α : Type} (b : Block α) (partly : Prop) [Decidable partly] : LoadResult :=
  match b with
  | .empty => .empty
  | .bad => .bad
  | .valid _ => if partly then .partly else .loaded

/-- The axis settings after the AXIS block. -/
def loadedAxis (b : Blocks) : AxisSettings := contentOr AxisSettings.reset b.axis

/-- The AXIS block claims an input: IN0 and IN1 for QUAD and STEP (R170). -/
def axisClaims (b : Blocks) (n : Fin 8) : Prop := (loadedAxis b).source ≠ .timebase ∧ (n = 0 ∨ n = 1)

/-- The stored settings of an input, or the reset ones. -/
def storedInput (b : Blocks) (n : Fin 8) : InputSettings :=
  (contentOr (Vector.replicate 8 ⟨false, .never, 0⟩) b.inputs)[n]

/-- The stored settings of a channel, or the reset ones. -/
def storedChannel (b : Blocks) (ch : Fin 4) : ChannelSettings :=
  (contentOr (Vector.replicate 4 ⟨false, none, .rising, .always⟩) b.capture)[ch]

/-- The stored settings of a track, or the reset ones. -/
def storedTrack (b : Blocks) (n : Fin 8) : TrackSettings :=
  (contentOr (Vector.replicate 8 ⟨.empty, 0⟩) b.cams)[n]

/-- A stored channel cannot be set: a WINDOW position is not below the modulus in force, or its input holds a function other
than GENERAL, a lower channel's claim in `t` among them (R170). -/
def channelKept (b : Blocks) (t : State) (ch : Fin 4) : Prop :=
  (∃ x y z, (storedChannel b ch).gate = .window x y z ∧ ∃ p ∈ [x, y, z], (loadedAxis b).modulus ≤ p) ∨
    ∃ n, (storedChannel b ch).input = some n ∧
      (axisClaims b n ∨ (storedInput b n).freeze = true ∨ ∃ d < ch, t.capture.channels[d].cfg.input = some n)

/-- A stored track cannot be set: a bound of its profile is not below the modulus in force (R109, R170). -/
def trackKept (b : Blocks) (n : Fin 8) : Prop :=
  ∃ ws, (storedTrack b n).profile = .windows ws ∧
    ∃ w ∈ ws, (loadedAxis b).modulus ≤ w.on ∨ (loadedAxis b).modulus ≤ w.off

open Classical in
/-- The autoload of a prepared store that is not skipped has set the part: every VALID block by its rule, every other kind at
its reset values, with the load results (R169, R170). -/
def Autoloaded (rate : LinkRate) (limit : Nat) (s t : State) : Prop :=
  let b := s.store.blocks
  let lim := contentOr ⟨0, 0, 0, 0⟩ b.limits
  t.phase = .running ∧ t.stamp.toNat ≤ 3000 ∧ t.pending = s.pending ∧
    t.store = { (SettingStore.reset b) with
      limit := limit, skipped := false
      results := #v[resultOf b.link False, resultOf b.axis False, resultOf b.limits False, resultOf b.lines False,
        resultOf b.inputs (∃ n, axisClaims b n ∧ (storedInput b n).freeze = true),
        resultOf b.capture (∃ ch, channelKept b t ch), resultOf b.cams (∃ n, trackKept b n),
        resultOf b.events False] } ∧
    t.link = { Link.reset (contentOr rate b.link) t.stamp with silenceLimit := lim.silence } ∧
    t.axis = { Axis.reset with
      cfg := loadedAxis b, nextSample := t.axis.nextSample
      pairA := decide ((loadedAxis b).source ≠ .timebase) && s.ins[0].raw
      pairB := decide ((loadedAxis b).source ≠ .timebase) && s.ins[1].raw
      reverseLimit := lim.reverse, speedLimit := lim.speed } ∧
    t.axis.nextSample.toNat = (t.stamp.toNat / 1000 + 1) * 1000 ∧
    t.supply = ⟨lim.supply, s.supply.millivolts, decide (s.supply.millivolts < 2850 + 100 * lim.supply.val)⟩ ∧
    t.faults = { FaultMonitor.reset with inbox := if t.supply.low then [plainReport .supplyLow true] else [] } ∧
    LinesAre (fun n => { OutLine.reset s.outs.lines[n].sampled with
      cfg := (contentOr (Vector.replicate 16 LineSettings.reset) b.lines)[n] }) t ∧ t.outs.arrivals = [] ∧
    (∀ n : Fin 8, t.ins[n] = { InLine.reset s.ins[n].raw with
      fn := t.ins[n].fn, edgeMode := (storedInput b n).edgeMode, filter := (storedInput b n).filter }) ∧
    (∀ n : Fin 8, (∀ ch : Fin 4, t.capture.channels[ch].cfg.input ≠ some n) → t.ins[n].fn =
      if axisClaims b n then if n = 0 then .axisA else .axisB
      else if (storedInput b n).freeze then .freeze else .general) ∧
    (∀ (n : Fin 8) (ch : Fin 4), t.capture.channels[ch].cfg.input = some n → t.ins[n].fn = .capture ch) ∧
    t.seq = { Sequencer.reset with
      freeze := decide (∃ n : Fin 8, t.ins[n].fn = .freeze ∧ s.ins[n].raw = true) } ∧
    t.cues = CueTable.reset ∧ t.capture.arrivals = [] ∧
    (∀ ch : Fin 4, t.capture.channels[ch] =
      if channelKept b t ch then Channel.reset else { Channel.reset with cfg := storedChannel b ch }) ∧
    t.cams.boundaries = 0 ∧
    (∀ n : Fin 8, t.cams.tracks[n] = recomputeTrack t.axis (if trackKept b n then Track.reset
      else { Track.reset with slotA := (storedTrack b n).profile, leadTime := (storedTrack b n).leadTime })) ∧
    t.events = ⟨Vector.ofFn fun n =>
        ⟨false, (contentOr ⟨Vector.replicate 28 false, NoticeOrder.reset⟩ b.events).enables[n], 0#8, 0#8⟩,
      (contentOr ⟨Vector.replicate 28 false, NoticeOrder.reset⟩ b.events).order⟩

/-! ## Invariants -/

/-- The hold reasons are non-empty in HOLD and in no other state, and FLT# is low in SAFE and in no other state (R48, R134). -/
def SeqInv (s : State) : Prop :=
  (s.seq.state = .hold ↔ (s.seq.holdRequest || s.seq.holdPin) = true) ∧ (s.seq.state = .safe ↔ s.faults.flt = true)

/-- No log and no queue holds more than its room (R67, R82, R83, R157, R158). -/
def RoomInv (s : State) : Prop :=
  s.seq.log.length ≤ Config.outcomeRoom ∧ (∀ ch : Fin 4, s.capture.channels[ch].log.length ≤ Config.captureRoom) ∧
    (∀ ch : Fin 4, s.cues.queues[ch].length ≤ Config.queueRoom) ∧ s.link.inbound.length ≤ Config.inboundRoom ∧
    s.link.replies.length ≤ Config.replyRoom ∧ s.link.errors ≤ 65535

/-- A line has a cue level and a trail only under CUE, a direct level only under DIRECT, and no trail in SAFE (R110, R117,
R133). -/
def LineInv (s : State) : Prop :=
  ∀ n : Fin 16,
    (s.outs.lines[n].cfg.owner ≠ .cue → s.outs.lines[n].cue = false ∧ s.outs.lines[n].trail = none) ∧
    (s.outs.lines[n].cfg.owner ≠ .direct → s.outs.lines[n].direct = false) ∧
    (s.seq.state = .safe → s.outs.lines[n].trail = none ∧ s.outs.lines[n].cue = false)

/-- Axis settings in range: exponent 0 to 12, modulus 16 to 4,000,000, home position below it (R10, R12). -/
def settingsFit (c : AxisSettings) : Prop := c.k ≤ 12 ∧ 16 ≤ c.modulus ∧ c.modulus ≤ 4000000 ∧ c.home < c.modulus

/-- The axis and all that is bound to its moduli: settings in range, positions and every member of the bound set below the
modulus in force and a staged one, and no group QUEUED while a modulus is staged (R10, R11).  The stored settings are in
range as well. -/
def AxisFits (s : State) : Prop :=
  settingsFit s.axis.cfg ∧ s.axis.current.pos < s.axis.cfg.modulus ∧ s.axis.lead.pos < s.axis.cfg.modulus ∧
    (∀ b ∈ boundSet s, b < s.axis.cfg.modulus) ∧
    (∀ m, s.axis.staged = some m → 16 ≤ m ∧ m ≤ 4000000 ∧ queuedGroups s.cues = [] ∧ ∀ b ∈ boundSet s, b < m) ∧
    (∀ c, s.store.blocks.axis = .valid c → settingsFit c) ∧
    (∀ o c, s.store.op = some o → o.work = .writing (.axis c) → settingsFit c)

/-- The axis and what is bound to its moduli fit, as the part stands and as it would stand with the first edge of the decoder at
the present stamp taken again (the second is the model's, notes/assumptions/6). -/
def AxisInv (s : State) : Prop := AxisFits s ∧ AxisFits (reopened s)

/-- Each slot stands in one place only, and each group number once (R22, R25, R83). -/
def SlotInv (s : State) : Prop :=
  (s.cues.list.map (·.cue.slot) ++ (waitingCues s.cues).map (·.slot)).Nodup ∧
    ((queuedGroups s.cues).map (·.number)).Nodup

/-- A property that every step keeps. -/
def KeptByStep (inv : State → Prop) : Prop := ∀ s t : State, inv s → step s = .next t → inv t

end Sys2Proof
end

