-- ==== Sys2Proof/Laws/PerInstr.lean ====
section
/-! SUPPORT. Per command: the frame that carries a well-formed request spells that request again. -/

namespace Sys2Proof.Laws.FrameRoundTrip

/-- What a frame round trip says of a command: a well-formed one that is a request is read back from its frame (R155, section
11.3). -/
def Statement (c : Instr) : Prop := c.wf = true → ∀ f : Frame, c.frame = some f → f.command = c

theorem of_frame {c : Instr} {f : Frame} (hf : c.frame = some f) (hc : f.command = c) : Statement c := by
  intro _ g hg
  rw [hf] at hg
  cases hg
  exact hc

theorem of_none {c : Instr} (hf : c.frame = none) : Statement c := by
  intro _ g hg
  rw [hf] at hg
  cases hg

theorem axisSetup (tag : Byte) (body : List Byte) : Statement (.axisSetup tag body) := of_frame rfl rfl
theorem axisRun (tag : Byte) (body : List Byte) : Statement (.axisRun tag body) := of_frame rfl rfl
theorem axisHalt (tag : Byte) (body : List Byte) : Statement (.axisHalt tag body) := of_frame rfl rfl
theorem axisZero (tag : Byte) (body : List Byte) : Statement (.axisZero tag body) := of_frame rfl rfl
theorem axisHome (tag : Byte) (body : List Byte) : Statement (.axisHome tag body) := of_frame rfl rfl
theorem modulusStage (tag : Byte) (body : List Byte) : Statement (.modulusStage tag body) := of_frame rfl rfl
theorem axisRead (tag : Byte) (body : List Byte) : Statement (.axisRead tag body) := of_frame rfl rfl
theorem cuePut (tag : Byte) (body : List Byte) : Statement (.cuePut tag body) := of_frame rfl rfl
theorem groupPut (tag : Byte) (body : List Byte) : Statement (.groupPut tag body) := of_frame rfl rfl
theorem cueCancel (tag : Byte) (body : List Byte) : Statement (.cueCancel tag body) := of_frame rfl rfl
theorem groupCancel (tag : Byte) (body : List Byte) : Statement (.groupCancel tag body) := of_frame rfl rfl
theorem cueRead (tag : Byte) (body : List Byte) : Statement (.cueRead tag body) := of_frame rfl rfl
theorem listRead (tag : Byte) (body : List Byte) : Statement (.listRead tag body) := of_frame rfl rfl
theorem marksSet (tag : Byte) (body : List Byte) : Statement (.marksSet tag body) := of_frame rfl rfl
theorem arm (tag : Byte) (body : List Byte) : Statement (.arm tag body) := of_frame rfl rfl
theorem disarm (tag : Byte) (body : List Byte) : Statement (.disarm tag body) := of_frame rfl rfl
theorem hold (tag : Byte) (body : List Byte) : Statement (.hold tag body) := of_frame rfl rfl
theorem release (tag : Byte) (body : List Byte) : Statement (.release tag body) := of_frame rfl rfl
theorem seqRead (tag : Byte) (body : List Byte) : Statement (.seqRead tag body) := of_frame rfl rfl
theorem outcomesRead (tag : Byte) (body : List Byte) : Statement (.outcomesRead tag body) := of_frame rfl rfl
theorem captureSetup (tag : Byte) (body : List Byte) : Statement (.captureSetup tag body) := of_frame rfl rfl
theorem capturesRead (tag : Byte) (body : List Byte) : Statement (.capturesRead tag body) := of_frame rfl rfl
theorem camLoad (tag : Byte) (body : List Byte) : Statement (.camLoad tag body) := of_frame rfl rfl
theorem camRead (tag : Byte) (body : List Byte) : Statement (.camRead tag body) := of_frame rfl rfl
theorem lineSetup (tag : Byte) (body : List Byte) : Statement (.lineSetup tag body) := of_frame rfl rfl
theorem linesEnable (tag : Byte) (body : List Byte) : Statement (.linesEnable tag body) := of_frame rfl rfl
theorem linesSet (tag : Byte) (body : List Byte) : Statement (.linesSet tag body) := of_frame rfl rfl
theorem linesRead (tag : Byte) (body : List Byte) : Statement (.linesRead tag body) := of_frame rfl rfl
theorem inputSetup (tag : Byte) (body : List Byte) : Statement (.inputSetup tag body) := of_frame rfl rfl
theorem limitsSet (tag : Byte) (body : List Byte) : Statement (.limitsSet tag body) := of_frame rfl rfl
theorem faultRead (tag : Byte) (body : List Byte) : Statement (.faultRead tag body) := of_frame rfl rfl
theorem resume (tag : Byte) (body : List Byte) : Statement (.resume tag body) := of_frame rfl rfl
theorem eventEnable (tag : Byte) (body : List Byte) : Statement (.eventEnable tag body) := of_frame rfl rfl
theorem eventRead (tag : Byte) (body : List Byte) : Statement (.eventRead tag body) := of_frame rfl rfl
theorem eventClear (tag : Byte) (body : List Byte) : Statement (.eventClear tag body) := of_frame rfl rfl
theorem noticeOrder (tag : Byte) (body : List Byte) : Statement (.noticeOrder tag body) := of_frame rfl rfl
theorem storeSave (tag : Byte) (body : List Byte) : Statement (.storeSave tag body) := of_frame rfl rfl
theorem storeErase (tag : Byte) (body : List Byte) : Statement (.storeErase tag body) := of_frame rfl rfl
theorem storeRead (tag : Byte) (body : List Byte) : Statement (.storeRead tag body) := of_frame rfl rfl
theorem restart (tag : Byte) (body : List Byte) : Statement (.restart tag body) := of_frame rfl rfl

theorem unknownKindRequest (tag kind : Byte) (body : List Byte) : Statement (.unknownKindRequest tag kind body) := by
  intro hw g hg
  cases hg
  simp only [Instr.wf, Bool.and_eq_true, Bool.not_eq_true'] at hw
  have hk := hw.2
  unfold Frame.command
  dsimp only
  split <;> first
    | rfl
    | (exfalso; rename_i h; simp [knownKinds, ← BitVec.toNat_inj, h] at hk)

theorem receiveCharacter (byte : Byte) (stopHigh : Bool) : Statement (.receiveCharacter byte stopHigh) := of_none rfl
theorem gapTimerExpiry : Statement (.gapTimerExpiry) := of_none rfl
theorem frameSent : Statement (.frameSent) := of_none rfl
theorem restartBegin : Statement (.restartBegin) := of_none rfl
theorem fullReset : Statement (.fullReset) := of_none rfl
theorem startUp (cfg0 : Bool) (cfg1 : Bool) (cfg2 : Bool) : Statement (.startUp cfg0 cfg1 cfg2) := of_none rfl
theorem storeOperationEnd : Statement (.storeOperationEnd) := of_none rfl
theorem inputRawChange (input : Fin 8) (high : Bool) : Statement (.inputRawChange input high) := of_none rfl
theorem inputEdgeAccepted (input : Fin 8) : Statement (.inputEdgeAccepted input) := of_none rfl
theorem timebaseCount : Statement (.timebaseCount) := of_none rfl
theorem speedSample : Statement (.speedSample) := of_none rfl
theorem leadArrival : Statement (.leadArrival) := of_none rfl
theorem windowArrival : Statement (.windowArrival) := of_none rfl
theorem trailArrival : Statement (.trailArrival) := of_none rfl
theorem trailExpiry (line : Fin 16) : Statement (.trailExpiry line) := of_none rfl
theorem profileSwap : Statement (.profileSwap) := of_none rfl
theorem pinSampleChange (line : Fin 16) (high : Bool) : Statement (.pinSampleChange line high) := of_none rfl
theorem mismatchTimeout (line : Fin 16) : Statement (.mismatchTimeout line) := of_none rfl
theorem supplyCrossing (millivolts : BitVec 16) : Statement (.supplyCrossing millivolts) := of_none rfl
theorem silenceExpiry : Statement (.silenceExpiry) := of_none rfl
theorem conditionBegin (cond : Condition) : Statement (.conditionBegin cond) := of_none rfl
theorem conditionEnd (cond : Condition) : Statement (.conditionEnd cond) := of_none rfl

end Sys2Proof.Laws.FrameRoundTrip
end

