-- ==== Sys2Proof/Certificates/Slice0/Obligations.lean ====
section
/-! DEFINITION. The statements for the provers. -/

open Sys2Proof Sys2Proof.Machine

/-! ## The step, and every command -/

/-- A step takes the command at the front of the queue (the model's queue, notes/assumptions/1). -/
def Obligations.StepRunsFrontCommand : Prop :=
  ∀ (c : Instr) (rest : List Instr) (s : State), s.pending = c :: rest →
    step s = exec c { s with pending := rest }

/-- On an empty queue a step runs the command that is due, and when none is due lets one microsecond pass, or nothing while the
part is held in reset; what the stamp before had taken is forgotten and nothing else changes (DESIGN CHOICE,
notes/assumptions/2, 6, 22; R1). -/
def Obligations.EmptyQueueStepTakesDueCommandOrPassesTime : Prop :=
  ∀ s : State, s.pending = [] →
    (∀ c, dueCommand s = some c → step s = exec c s) ∧
      (dueCommand s = none → step s = .next (match s.phase with
        | .held => s
        | .running => { s with
            stamp := s.stamp + 1#32
            axis := { s.axis with takenA := false, takenB := false, timebaseTaken := false }
            checkpoint := none }))

/-- Every command goes on in every state, and leaves the queue as it found it. -/
def Obligations.EveryCommandGoesOn : Prop :=
  ∀ (c : Instr) (s : State), ∃ t, exec c s = .next t ∧ t.pending = s.pending

/-! ## The machine axis -/

/-- AXIS_RUN and AXIS_HALT (R5). -/
def Obligations.AxisRunAndHaltSetRunState : Prop :=
  ∀ (tag : Byte) (s : State), Ready s →
    (∃ t, exec (.axisRun tag []) s = .next t ∧ Answered tag 0x02#8 .ok false [] s t ∧
      AxisIs { s.axis with running := true } t ∧ KeptBut [.axis] s t) ∧
    (∃ t, exec (.axisHalt tag []) s = .next t ∧ Answered tag 0x03#8 .ok false [] s t ∧
      AxisIs { s.axis with running := false } t ∧ KeptBut [.axis] s t)

/-- AXIS_SETUP that passes its checks (R12).  That the decoder it selects has seen no edge of the present stamp is the model's
choice (takenA, takenB, notes/assumptions/6). -/
def Obligations.AxisSetupWritesSettings : Prop :=
  ∀ (tag source k m3 m2 m1 m0 : Byte) (src : AxisSource) (m : Nat) (s : State),
    Ready s → s.seq.state = .idle → axisSourceOf source = some src → k.toNat ≤ 12 → m = num32 m3 m2 m1 m0 →
    16 ≤ m → m ≤ 4000000 →
    (src = .timebase ∨ axisInputFree s.ins[0] = true ∧ axisInputFree s.ins[1] = true) →
    (∀ b ∈ boundSet s, b < m) → queuedGroups s.cues = [] → s.axis.current.pos < m → s.axis.lead.pos < m →
    ∃ t, exec (.axisSetup tag [source, k, m3, m2, m1, m0]) s = .next t ∧ Answered tag 0x01#8 .ok false [] s t ∧
      AxisIs { s.axis with
        cfg := ⟨src, k.toNat, m, s.axis.cfg.home⟩, staged := none, running := false, homing := false,
        takenA := false, takenB := false,
        pairA := if src = .timebase then s.axis.pairA else s.ins[0].accepted,
        pairB := if src = .timebase then s.axis.pairB else s.ins[1].accepted } t ∧
      t.ins[0] = (if src ≠ .timebase then { s.ins[0] with fn := .axisA }
        else if s.ins[0].fn = .axisA then { s.ins[0] with fn := .general, edgeMode := .never } else s.ins[0]) ∧
      t.ins[1] = (if src ≠ .timebase then { s.ins[1] with fn := .axisB }
        else if s.ins[1].fn = .axisB then { s.ins[1] with fn := .general, edgeMode := .never } else s.ins[1]) ∧
      t.ins[2] = (if s.axis.homing then { s.ins[2] with fn := .general, edgeMode := .never } else s.ins[2]) ∧
      (∀ n : Fin 8, 3 ≤ n.val → t.ins[n] = s.ins[n]) ∧
      (∀ n : Fin 8, t.cams.tracks[n] = recomputeTrack t.axis s.cams.tracks[n]) ∧
      t.cams.boundaries = s.cams.boundaries ∧ KeptBut [.axis, .inputs, .cams] s t

/-- AXIS_ZERO: refused outside IDLE; in IDLE, whatever waits, both points go to (0, 0) with the effects of a position jump, and a
homing wait is cancelled (R13, R16, R29, R78, R115).  That what waits is taken before the jump is the model's reading
(notes/assumptions/5). -/
def Obligations.AxisZeroMovesBothPointsToOrigin : Prop :=
  ∀ (tag : Byte) (s : State), Ready s →
    (s.seq.state ≠ .idle → ∃ t, exec (.axisZero tag []) s = .next t ∧ Answered tag 0x04#8 .wrongState false [] s t ∧
      KeptBut [] s t) ∧
    (s.seq.state = .idle → ∃ t, exec (.axisZero tag []) s = .next t ∧ Answered tag 0x04#8 .ok false [] s t ∧
      AxisIs { s.axis with current := ⟨0#16, 0⟩, lead := ⟨0#16, 0⟩, homing := false } t ∧
      t.ins[2] = (if s.axis.homing then released s.ins[2] else s.ins[2]) ∧
      (∀ n : Fin 8, n ≠ 2 → t.ins[n] = s.ins[n]) ∧ Jumped ⟨0#16, 0⟩ [] s t ∧
      KeptBut [.axis, .cues, .seq, .capture, .cams, .lines, .inputs, .events] s t)

/-- AXIS_HOME that passes its checks (R14). -/
def Obligations.AxisHomeEntersHomingWait : Prop :=
  ∀ (tag p3 p2 p1 p0 : Byte) (s : State), Ready s → s.seq.state = .idle → s.axis.cfg.source ≠ .timebase →
    num32 p3 p2 p1 p0 < s.axis.cfg.modulus → (∀ m, s.axis.staged = some m → num32 p3 p2 p1 p0 < m) →
    (s.ins[2].fn = .general ∨ s.ins[2].fn = .index) →
    ∃ t, exec (.axisHome tag [p3, p2, p1, p0]) s = .next t ∧ Answered tag 0x05#8 .ok s.axis.homing [] s t ∧
      AxisIs { s.axis with cfg := { s.axis.cfg with home := num32 p3 p2 p1 p0 }, homing := true } t ∧
      t.ins[2] = { s.ins[2] with fn := .index } ∧ (∀ n : Fin 8, n ≠ 2 → t.ins[n] = s.ins[n]) ∧
      KeptBut [.axis, .inputs] s t

/-- MODULUS_STAGE that passes its checks, and its three refusals in their order (R11). -/
def Obligations.ModulusStageStagesOrRefuses : Prop :=
  ∀ (tag m3 m2 m1 m0 : Byte) (m : Nat) (s : State), Ready s → m = num32 m3 m2 m1 m0 →
    ∃ t, exec (.modulusStage tag [m3, m2, m1, m0]) s = .next t ∧
      if s.seq.state = .safe then Answered tag 0x06#8 .wrongState false [] s t ∧ KeptBut [] s t
      else if m < 16 ∨ 4000000 < m then Answered tag 0x06#8 .badValue false [] s t ∧ KeptBut [] s t
      else if (∃ b ∈ boundSet s, m ≤ b) ∨ queuedGroups s.cues ≠ [] then
        Answered tag 0x06#8 .conflict false [] s t ∧ KeptBut [] s t
      else Answered tag 0x06#8 .ok s.axis.staged.isSome [] s t ∧ AxisIs { s.axis with staged := some m } t ∧
        KeptBut [.axis] s t

/-- One count of the timebase, when it is due (R4, R6, R7, R9); the speed sample, when its stamp is reached (R17); and the value of
the reverse excursion (R7): so many forward counts lead from the current point to the lead point, and no fewer.  That one stamp
has one count, and may have it when the divider starts, is the model's choice (timebaseTaken, notes/assumptions/22), and so are
the order behind a waiting boundary (17) and the count round all cycles of an axis whose lead point lies behind (14). -/
def Obligations.TimebaseCountsAndSpeedIsSampled : Prop :=
  (∀ s : State, s.phase = .running → s.axis.cfg.source = .timebase → s.axis.running = true →
      (s.seq.state = .idle ∨ s.seq.state = .armed) → s.stamp.toNat % 2 ^ s.axis.cfg.k = 0 →
      s.axis.timebaseTaken = false →
      ∃ t, exec .timebaseCount s = .next t ∧ CountTaken true { s.axis with timebaseTaken := true } s t ∧
        (s.axis.current ≠ s.axis.lead → s.cams.boundaries = 0 → KeptBut [.axis, .cams] s t) ∧
        KeptBut [.axis, .cues, .capture, .cams, .lines, .events] s t) ∧
  (∀ s : State, s.phase = .running → reached s.stamp s.axis.nextSample = true →
      ∃ t, exec .speedSample s = .next t ∧
        AxisIs { s.axis with speed := s.axis.netCount, netCount := 0, nextSample := s.axis.nextSample + 1000#32 } t ∧
        (∀ n : Fin 8, t.cams.tracks[n] = recomputeTrack t.axis s.cams.tracks[n]) ∧
        t.cams.boundaries = s.cams.boundaries ∧ KeptBut [.axis, .cams] s t) ∧
  (∀ a : Axis, a.current.pos < a.cfg.modulus → a.lead.pos < a.cfg.modulus →
      Nat.repeat (countedKey true a.cfg.modulus) (excursion a) a.current = a.lead ∧
        ∀ n, n < excursion a → Nat.repeat (countedKey true a.cfg.modulus) n a.current ≠ a.lead)

/-! ## Reading -/

/-- The read requests answer with what they read and change nothing (R20, R40, R41, R71, R108, R120, R141, R150, R168); and what
they read lies in their replies as section 11.8 lays it out, written here from its table.  An excursion above the size of its
field is sent as the largest number (notes/assumptions/14), absent fields as zeros (R172). -/
def Obligations.ReadRequestsAnswerAndChangeNothing : Prop :=
  (∀ (tag : Byte) (s : State), Ready s →
    (∃ t, exec (.axisRead tag []) s = .next t ∧ Answered tag 0x07#8 .ok false (axisReadData s.axis) s t ∧
      KeptBut [] s t) ∧
    (∀ slot : Byte, ∃ t, exec (.cueRead tag [slot]) s = .next t ∧
      Answered tag 0x14#8 .ok false (cueReadData s.cues slot.toFin) s t ∧ KeptBut [] s t) ∧
    (∀ start : Byte, ∃ t, exec (.listRead tag [start]) s = .next t ∧
      Answered tag 0x15#8 .ok false (listReadData s.cues start.toNat) s t ∧ KeptBut [] s t) ∧
    (∃ t, exec (.seqRead tag []) s = .next t ∧ Answered tag 0x24#8 .ok false (seqReadData s) s t ∧ KeptBut [] s t) ∧
    (∀ (b : Byte) (n : Fin 8), b.toNat = n.val → ∃ t, exec (.camRead tag [b]) s = .next t ∧
      Answered tag 0x39#8 .ok false (camReadData s n) s t ∧ KeptBut [] s t) ∧
    (∃ t, exec (.linesRead tag []) s = .next t ∧ Answered tag 0x43#8 .ok false (linesReadData s) s t ∧
      KeptBut [] s t) ∧
    (∃ t, exec (.faultRead tag []) s = .next t ∧ Answered tag 0x51#8 .ok false (faultReadData (heard s)) s t ∧
      KeptBut [] s t) ∧
    (∃ t, exec (.eventRead tag []) s = .next t ∧ Answered tag 0x61#8 .ok false (eventReadData s) s t ∧
      KeptBut [] s t) ∧
    (∃ t, exec (.storeRead tag []) s = .next t ∧ KeptBut [] s t ∧
      if s.store.op.isSome then Answered tag 0x72#8 .busy false [] s t
      else Answered tag 0x72#8 .ok false (storeReadData s.store) s t)) ∧
  (∀ (tag b : Byte) (s : State), Ready s → 7 < b.toNat → ∃ t, exec (.camRead tag [b]) s = .next t ∧
      Answered tag 0x39#8 .badValue false [] s t ∧ KeptBut [] s t) ∧
  (∀ a : Axis, axisReadData a = layout (axisFields a)) ∧
  (∀ (c : CueTable) (slot : Fin 256),
      (slotFree c slot = true → cueReadData c slot = layout [(24, 0)]) ∧
      (∀ before x behind, c.list = before ++ x :: behind → (∀ y ∈ before, y.cue.slot ≠ slot) → x.cue.slot = slot →
        cueReadData c slot =
          layout (cueFields 2 x.cue (some (x.key, before.length, keyReached c.lead x.key)) none)) ∧
      (∀ groups g others front x back, (∀ y ∈ c.list, y.cue.slot ≠ slot) → queuedGroups c = groups ++ g :: others →
        (∀ h ∈ groups, ∀ y ∈ h.cues, y.slot ≠ slot) → g.cues = front ++ x :: back →
        (∀ y ∈ front, y.slot ≠ slot) → x.slot = slot →
        cueReadData c slot = layout (cueFields 1 x none (some (g.number.val, front.length))))) ∧
  (∀ (c : CueTable) (start : Nat), listReadData c start = layout (listFields c start)) ∧
  ∀ s : State,
    seqReadData s = layout (seqFields s) ∧ (∀ n : Fin 8, camReadData s n = layout (camFields s s.cams.tracks[n])) ∧
    linesReadData s = layout (s.outs.lines.toList.flatMap (outputFields s) ++ s.ins.toList.flatMap inputFields) ∧
    faultReadData s = layout (faultFields s) ∧ storeReadData s.store = layout (storeFields s.store) ∧
    ∃ pending enabled : Nat, pending < 2 ^ 28 ∧ enabled < 2 ^ 28 ∧
      (∀ n : Fin 28, pending.testBit n.val = s.events.recs[n].pending) ∧
      (∀ n : Fin 28, enabled.testBit n.val = s.events.recs[n].enabled) ∧
      eventReadData s = layout (eventFields pending enabled s.events)

/-! ## Keys, the cue list and its requests -/

/-- Reached and ahead, and key order (R8). -/
def Obligations.KeysAreReachedOrAheadAndInKeyOrder : Prop :=
  ∀ lead a b : Key,
    (keyReached lead a = true ↔
      (a.cycle - lead.cycle).toNat = 0 ∧ a.pos ≤ lead.pos ∨ 32768 ≤ (a.cycle - lead.cycle).toNat) ∧
    (keyReached lead a = false ↔
      (a.cycle - lead.cycle).toNat = 0 ∧ lead.pos < a.pos ∨
        1 ≤ (a.cycle - lead.cycle).toNat ∧ (a.cycle - lead.cycle).toNat ≤ 32767) ∧
    (keyReached lead a = true → keyReached lead b = false → keyBefore lead a b = true ∧ keyBefore lead b a = false) ∧
    (keyBefore lead a b = true ↔
      (a.cycle - lead.cycle).toInt < (b.cycle - lead.cycle).toInt ∨
        (a.cycle - lead.cycle).toInt = (b.cycle - lead.cycle).toInt ∧ a.pos < b.pos) ∧
    (keyBefore lead a b = false ∧ keyBefore lead b a = false ↔ a = b) ∧
    (keyReached lead a = true → beyondHorizon lead a = false →
      keyReached ⟨lead.cycle, lead.pos + 1⟩ a = true ∧ keyReached ⟨lead.cycle + 1#16, 0⟩ a = true)

/-- Entry into the cue list: behind every cue whose key stands before or equals the new one, before every other; a list in key
order stays so (R25). -/
def Obligations.CueEntersBehindEqualKeys : Prop :=
  ∀ (lead : Key) (x : Listed) (l : List Listed),
    (∃ before behind, l = before ++ behind ∧ insertCue lead x l = before ++ x :: behind ∧
      (∀ y ∈ before, keyBefore lead x.key y.key = false) ∧
      (∀ y, behind.head? = some y → keyBefore lead x.key y.key = true)) ∧
    (l.Pairwise (fun y z => keyBefore lead z.key y.key = false) →
      (insertCue lead x l).Pairwise fun y z => keyBefore lead z.key y.key = false)

/-- CUE_PUT of a key that is ahead, under every late policy (R31), and of a reached key under NEXT (R34). -/
def Obligations.CuePutAheadOrNextIsListed : Prop :=
  (∀ (tag : Byte) (body : List Byte) (cue : Cue) (key : Key) (late : LatePolicy) (s : State), Ready s →
      CuePutPasses body cue key late s → keyReached s.cues.lead key = false →
      ∃ t, exec (.cuePut tag body) s = .next t ∧ CueListed tag cue key 0#8 s t) ∧
  (∀ (tag : Byte) (body : List Byte) (cue : Cue) (key next : Key) (s : State), Ready s →
      CuePutPasses body cue key .next s → keyReached s.cues.lead key = true →
      next = (if s.cues.lead.pos < key.pos then ⟨s.cues.lead.cycle, key.pos⟩ else ⟨s.cues.lead.cycle + 1#16, key.pos⟩) →
      keyReached s.cues.lead next = false ∧
        ∃ t, exec (.cuePut tag body) s = .next t ∧ CueListed tag cue next 0#8 s t)

/-- CUE_PUT of a reached key under REFUSE (R32). -/
def Obligations.CuePutLateIsRefused : Prop :=
  ∀ (tag : Byte) (body : List Byte) (cue : Cue) (key : Key) (s : State), Ready s →
    CuePutPasses body cue key .refuse s → keyReached s.cues.lead key = true ∨ beyondHorizon s.cues.lead key = true →
    ∃ t, exec (.cuePut tag body) s = .next t ∧
      Answered tag 0x10#8 .late false (keyBytes s.cues.lead) s t ∧
      slotFree t.cues cue.slot = true ∧ t.cues.list = s.cues.list ∧ KeptBut [] s t

/-- CUE_PUT of a reached key under NOW: LATE beyond the horizon, listed in IDLE and HOLD, and in ARMED, for a one-shot cue with
no reached cue before it, fired at once (R33). -/
def Obligations.CuePutNowIsListedOrFired : Prop :=
  ∀ (tag : Byte) (body : List Byte) (cue : Cue) (key : Key) (s : State), Ready s →
    CuePutPasses body cue key .now s → keyReached s.cues.lead key = true →
    (beyondHorizon s.cues.lead key = true → ∃ t, exec (.cuePut tag body) s = .next t ∧
      Answered tag 0x10#8 .late false (keyBytes s.cues.lead) s t ∧ KeptBut [] s t) ∧
    (beyondHorizon s.cues.lead key = false → s.seq.state ≠ .armed →
      ∃ t, exec (.cuePut tag body) s = .next t ∧ CueListed tag cue key 1#8 s t) ∧
    (beyondHorizon s.cues.lead key = false → s.seq.state = .armed → reachedRun s.cues = [] → cue.rep = none →
      ∃ t, exec (.cuePut tag body) s = .next t ∧
        Answered tag 0x10#8 .ok false (keyBytes key ++ [2#8, 0#8]) s t ∧ t.cues = s.cues ∧
        Fired .key ⟨cue, key⟩ key s.cues.lead s t ∧ Raised (firingRaised ⟨cue, key⟩ s) s t ∧
        KeptBut [.seq, .lines, .events] s t)

/-- GROUP_PUT that passes its checks (R84, R85). -/
def Obligations.GroupPutQueuesWaitingCues : Prop :=
  ∀ (tag number channel policy n : Byte) (rest : List Byte) (g : Group) (ch : Fin 4) (s : State), Ready s →
    rest.length = 13 * n.toNat → 1 ≤ n.toNat → n.toNat ≤ 16 → s.seq.state ≠ .safe → s.axis.staged = none →
    number.toNat = g.number.val → channel.toNat = ch.val → missPolicyOf policy = some g.policy →
    allSome ((specificationsOf rest).map (specificationCue s.axis.cfg.modulus)) = some g.cues →
    s.capture.channels[ch].cfg.enabled = true → (∀ h ∈ queuedGroups s.cues, h.number ≠ g.number) →
    s.cues.queues[ch].length < 8 → (∀ c ∈ g.cues, slotFree s.cues c.slot = true) → (g.cues.map (·.slot)).Nodup →
    (∀ c ∈ g.cues, c.lines &&& ~~~ cueOwned s = 0#16) →
    ∃ t, exec (.groupPut tag (number :: channel :: policy :: n :: rest)) s = .next t ∧
      Answered tag 0x11#8 .ok false
        [number, channel, byteOf s.cues.queues[ch].length, byteOf (s.cues.queues[ch].length + 1)] s t ∧
      g.cues.length = n.toNat ∧ t.cues.queues[ch] = s.cues.queues[ch] ++ [g] ∧
      (∀ d : Fin 4, d ≠ ch → t.cues.queues[d] = s.cues.queues[d]) ∧
      t.cues = { s.cues with queues := t.cues.queues } ∧
      Raised (if occupiedCount s.cues < s.cues.highMark ∧ s.cues.highMark ≤ occupiedCount s.cues + n.toNat then
        [.slotsHigh] else []) s t ∧
      KeptBut [.cues, .events] s t

/-- CUE_CANCEL of a LISTED slot removes the cue from the list (R37); of a WAITING slot the cue leaves its group, and a group left
empty is freed (R38). -/
def Obligations.CueCancelFreesSlot : Prop :=
  (∀ (tag slot : Byte) (x : Listed) (s : State), Ready s →
      s.cues.list.find? (fun y => decide (y.cue.slot = slot.toFin)) = some x →
      ∃ t, exec (.cueCancel tag [slot]) s = .next t ∧
        Answered tag 0x12#8 .ok false (2#8 :: keyBytes x.key ++ [0#8, 0#8]) s t ∧
        t.cues = { s.cues with list := s.cues.list.filter fun y => decide (y.cue.slot ≠ slot.toFin) } ∧
        Raised (marksRaised s.cues t.cues) s t ∧ KeptBut [.cues, .events] s t) ∧
  (∀ (tag slot : Byte) (g : Group) (s : State), Ready s →
      (∀ y ∈ s.cues.list, y.cue.slot ≠ slot.toFin) →
      groupOfSlot s.cues slot.toFin = some g →
      ∃ t, exec (.cueCancel tag [slot]) s = .next t ∧
        Answered tag 0x12#8 .ok false
          (1#8 :: List.replicate 6 0#8 ++
            [byteOf g.number.val, flagByte (g.cues.all fun c => decide (c.slot = slot.toFin))]) s t ∧
        (∀ ch : Fin 4, t.cues.queues[ch] = s.cues.queues[ch].filterMap fun h =>
          if h.cues.any (fun c => decide (c.slot = slot.toFin)) then
            if h.cues.all (fun c => decide (c.slot = slot.toFin)) then none
            else some { h with cues := h.cues.filter fun c => decide (c.slot ≠ slot.toFin) }
          else some h) ∧
        t.cues = { s.cues with queues := t.cues.queues } ∧
        Raised (marksRaised s.cues t.cues) s t ∧ KeptBut [.cues, .events] s t)

/-- GROUP_CANCEL: BAD_VALUE, NOT_FOUND, or the group and its cues freed (R86). -/
def Obligations.GroupCancelFreesGroup : Prop :=
  ∀ (tag number : Byte) (s : State), Ready s →
    (31 < number.toNat → ∃ t, exec (.groupCancel tag [number]) s = .next t ∧
      Answered tag 0x13#8 .badValue false [] s t ∧ KeptBut [] s t) ∧
    (number.toNat ≤ 31 → (∀ g ∈ queuedGroups s.cues, g.number.val ≠ number.toNat) →
      ∃ t, exec (.groupCancel tag [number]) s = .next t ∧
        Answered tag 0x13#8 .notFound false [] s t ∧ KeptBut [] s t) ∧
    (∀ (ch : Fin 4) (g : Group) (front back : List Group), g.number.val = number.toNat →
      s.cues.queues[ch] = front ++ g :: back → ((queuedGroups s.cues).map (·.number)).Nodup →
      ∃ t, exec (.groupCancel tag [number]) s = .next t ∧
        Answered tag 0x13#8 .ok false [byteOf ch.val, byteOf g.cues.length] s t ∧
        t.cues.queues[ch] = front ++ back ∧ (∀ d : Fin 4, d ≠ ch → t.cues.queues[d] = s.cues.queues[d]) ∧
        t.cues = { s.cues with queues := t.cues.queues } ∧ Raised [] s t ∧ KeptBut [.cues] s t)

/-- MARKS_SET (R42): both marks, or BAD_VALUE and neither; no event either way. -/
def Obligations.MarksSetWritesBothMarks : Prop :=
  ∀ (tag a1 a0 b1 b0 : Byte) (s : State), Ready s →
    ∃ t, exec (.marksSet tag [a1, a0, b1, b0]) s = .next t ∧ Raised [] s t ∧
      if 256 < num16 a1 a0 ∨ 256 < num16 b1 b0 then
        Answered tag 0x16#8 .badValue false [] s t ∧ KeptBut [] s t
      else
        Answered tag 0x16#8 .ok false [] s t ∧
          t.cues = { s.cues with lowMark := num16 a1 a0, highMark := num16 b1 b0 } ∧ KeptBut [.cues] s t

/-- LEAD_ARRIVAL.  Outside ARMED the lead point is taken, a boundary expires the cues beyond the horizon with their records, and
nothing fires (R27, R45, R46, R58).  In ARMED every cue of the run of reached cues fires in list order, here one-shot cues, which
are freed (R58, R59); and one reached repeating cue fires, its reached repetitions are skipped with one record, and it is
handed back at its next key (R61, R62). -/
def Obligations.LeadArrivalFiresOnlyInArmed : Prop :=
  (∀ (a : Arrival) (rest : List Arrival) (gone : List Listed) (s : State), s.phase = .running →
      s.cues.arrivals = a :: rest → s.seq.state ≠ .armed →
      gone = (if a.boundary then s.cues.list.filter fun x => beyondHorizon a.key x.key else []) →
      ∃ t, exec .leadArrival s = .next t ∧
        t.cues = { s.cues with
          lead := a.key, arrivals := rest,
          list := if a.boundary then s.cues.list.filter fun x => !beyondHorizon a.key x.key else s.cues.list } ∧
        t.seq = { s.seq with log := logAfter (gone.map (expiredRecord a.key s)) s } ∧
        Raised (expiryRaised gone.length s ++ marksRaised s.cues t.cues) s t ∧
        (a.boundary = false → t.seq = s.seq ∧ Raised [] s t) ∧ KeptBut [.cues, .seq, .events] s t) ∧
  (∀ (a : Arrival) (rest : List Arrival) (kept gone run l : List Listed) (s : State), s.phase = .running →
      s.cues.arrivals = a :: rest → s.seq.state = .armed →
      kept = (if a.boundary then s.cues.list.filter fun x => !beyondHorizon a.key x.key else s.cues.list) →
      gone = (if a.boundary then s.cues.list.filter fun x => beyondHorizon a.key x.key else []) →
      RunThen a.key kept run l →
      ∃ t, exec .leadArrival s = .next t ∧ t.cues = { s.cues with lead := a.key, arrivals := rest, list := l } ∧
        FiredRun (gone.map (expiredRecord a.key s)) run a.key s t ∧
        Raised (recordsRaised (gone.length + run.countP (·.cue.report)) s ++ List.replicate gone.length .skipped ++
          marksRaised s.cues { s.cues with list := kept } ++
          marksRaised { s.cues with list := kept } { s.cues with list := l }) s t ∧
        KeptBut [.cues, .seq, .lines, .events] s t) ∧
  (∀ (a : Arrival) (rest : List Arrival) (x : Listed) (l : List Listed) (r : Repetition) (n : Nat) (first : Key)
      (s : State), s.phase = .running →
      s.cues.arrivals = a :: rest → s.seq.state = .armed → a.boundary = false → s.cues.list = x :: l →
      keyReached a.key x.key = true → (l.head?.all fun y => !keyReached a.key y.key) = true →
      (∀ y ∈ l, y.cue.slot ≠ x.cue.slot) →
      x.cue.rep = some r → first = ⟨x.key.cycle + BitVec.ofNat 16 r.period, x.key.pos⟩ → SkipsJust a.key first r n →
      ∃ t, exec .leadArrival s = .next t ∧
        t.cues = { s.cues with
          lead := a.key, arrivals := rest,
          list := handedBack a.key x r (periodsAfter first r.period n) (lowered r.remaining n) l } ∧
        FiredRepeating .key x.key a.key first x r n s t ∧ t.seq = { s.seq with log := t.seq.log } ∧
        Raised (repeatingRaised x n s ++ marksRaised s.cues t.cues) s t ∧
        KeptBut [.cues, .seq, .lines, .events] s t)

/-! ## The Sequencer -/

/-- ARM: refused outside IDLE and in a homing wait; HOLD with PIN under an active freeze level; otherwise ARMED with the counts of
the catch-up (R50, R63).  Catch-up of one reached one-shot cue: with FIRE it fires with cause CATCH_UP, a counted pulse measured
from the lead point; with SKIP it is freed with a SKIPPED record and no action; of one reached repeating cue: with FIRE it fires
and its reached repetitions are skipped with one record, with SKIP its own key counts as the first skipped, and either way it is
handed back at its next key (R61, R62, R64, R65). -/
def Obligations.ArmHoldsOrArmsWithCatchUp : Prop :=
  (∀ (tag : Byte) (s : State), Ready s →
      (s.seq.state ≠ .idle ∨ s.axis.homing = true → ∃ t, exec (.arm tag []) s = .next t ∧
        Answered tag 0x20#8 .wrongState false [] s t ∧ KeptBut [] s t) ∧
      (s.seq.state = .idle → s.axis.homing = false → s.seq.freeze = true → ∃ t, exec (.arm tag []) s = .next t ∧
        Answered tag 0x20#8 .ok false [2#8, 2#8, 0#8, 0#8, 0#8, 0#8] s t ∧
        t.seq = { s.seq with state := .hold, holdRequest := false, holdPin := true } ∧ KeptBut [.seq] s t) ∧
      (s.seq.state = .idle → s.axis.homing = false → s.seq.freeze = false → ∃ t, exec (.arm tag []) s = .next t ∧
        Answered tag 0x20#8 .ok false
          ([1#8, 0#8] ++ be16 ((reachedRun s.cues).countP fun x => decide (x.cue.catchUp = .fire)) ++
            be16 ((reachedRun s.cues).countP fun x => decide (x.cue.catchUp = .skip))) s t ∧
        t.seq = { s.seq with state := .armed, holdRequest := false, holdPin := false, log := t.seq.log } ∧
        KeptBut [.cues, .seq, .lines, .events] s t ∧
        (reachedRun s.cues = [] → t.seq.log = s.seq.log ∧ KeptBut [.seq] s t))) ∧
  (∀ (tag : Byte) (x : Listed) (l : List Listed) (s : State), Ready s → s.seq.state = .idle → s.axis.homing = false →
      s.seq.freeze = false → s.cues.list = x :: l → keyReached s.cues.lead x.key = true →
      (l.head?.all fun y => !keyReached s.cues.lead y.key) = true → x.cue.rep = none →
      (∀ y ∈ l, y.cue.slot ≠ x.cue.slot) →
      (x.cue.catchUp = .fire → ∃ t, exec (.arm tag []) s = .next t ∧ t.cues = { s.cues with list := l } ∧
        Fired .catchUp x s.cues.lead s.cues.lead
          { s with seq := { s.seq with state := .armed, holdRequest := false, holdPin := false } } t ∧
        Raised (firingRaised x s ++ marksRaised s.cues { s.cues with list := l }) s t ∧
        KeptBut [.cues, .seq, .lines, .events] s t) ∧
      (x.cue.catchUp = .skip → ∃ t, exec (.arm tag []) s = .next t ∧ t.cues = { s.cues with list := l } ∧
        t.seq = { s.seq with
          state := .armed, holdRequest := false, holdPin := false,
          log := if s.seq.log.length < 32 then
              s.seq.log ++ [⟨x.cue.slot, .skipped, x.cue.action, none, x.key, s.cues.lead, s.stamp, none, none⟩]
            else s.seq.log } ∧
        Raised ([if s.seq.log.length < 32 then .outcome else .outLogFull, .skipped] ++
          marksRaised s.cues { s.cues with list := l }) s t ∧
        KeptBut [.cues, .seq, .events] s t)) ∧
  (∀ (tag : Byte) (x : Listed) (l : List Listed) (r : Repetition) (n : Nat) (first : Key) (s : State), Ready s →
      s.seq.state = .idle → s.axis.homing = false → s.seq.freeze = false → s.cues.list = x :: l →
      keyReached s.cues.lead x.key = true → (l.head?.all fun y => !keyReached s.cues.lead y.key) = true →
      (∀ y ∈ l, y.cue.slot ≠ x.cue.slot) → x.cue.rep = some r →
      first = ⟨x.key.cycle + BitVec.ofNat 16 r.period, x.key.pos⟩ → SkipsJust s.cues.lead first r n →
      ∃ t, exec (.arm tag []) s = .next t ∧
        t.cues = { s.cues with
          list := handedBack s.cues.lead x r (periodsAfter first r.period n) (lowered r.remaining n) l } ∧
        t.seq = { s.seq with state := .armed, holdRequest := false, holdPin := false, log := t.seq.log } ∧
        (x.cue.catchUp = .fire → FiredRepeating .catchUp s.cues.lead s.cues.lead first x r n s t ∧
          Raised (repeatingRaised x n s ++ marksRaised s.cues t.cues) s t ∧
          KeptBut [.cues, .seq, .lines, .events] s t) ∧
        (x.cue.catchUp = .skip →
          t.seq.log = logAfter [skippedRecord s.cues.lead x.key x (lowered r.remaining n) (n + 1) s] s ∧
          Raised (recordsRaised 1 s ++ [.skipped] ++ marksRaised s.cues t.cues) s t ∧
          KeptBut [.cues, .seq, .events] s t))

/-- DISARM (R51); while the state is IDLE a change of the freeze level adds no reason. -/
def Obligations.DisarmReturnsToIdle : Prop :=
  ∀ (tag : Byte) (s : State), Ready s →
    (s.seq.state = .armed ∨ s.seq.state = .hold → ∃ t, exec (.disarm tag []) s = .next t ∧
      Answered tag 0x21#8 .ok false [0#8, 0#8, 0#8, 0#8, 0#8, 0#8] s t ∧
      t.seq = { s.seq with state := .idle, holdRequest := false, holdPin := false } ∧
      (∀ level : Bool, (changeFreeze level t).seq = { t.seq with freeze := level }) ∧
      (∀ n : Fin 8, trackOutput t n = false) ∧ t.axis.overspeed = false ∧ t.axis.reversed = false ∧
      KeptBut [.seq] s t) ∧
    (s.seq.state = .idle ∨ s.seq.state = .safe → ∃ t, exec (.disarm tag []) s = .next t ∧
      Answered tag 0x21#8 .wrongState false [] s t ∧ KeptBut [] s t)

/-- HOLD (R52). -/
def Obligations.HoldAddsRequest : Prop :=
  ∀ (tag : Byte) (s : State), Ready s →
    (s.seq.state = .armed → ∃ t, exec (.hold tag []) s = .next t ∧
      Answered tag 0x22#8 .ok false [2#8, 1#8, 0#8, 0#8, 0#8, 0#8] s t ∧
      t.seq = { s.seq with state := .hold, holdRequest := true, holdPin := false } ∧
      (∀ n : Fin 8, trackOutput t n = false) ∧ dividerRuns t = false ∧ KeptBut [.seq] s t) ∧
    (s.seq.state = .hold → ∃ t, exec (.hold tag []) s = .next t ∧
      Answered tag 0x22#8 .ok false [2#8, if s.seq.holdPin then 3#8 else 1#8, 0#8, 0#8, 0#8, 0#8] s t ∧
      t.seq = { s.seq with holdRequest := true } ∧ KeptBut [.seq] s t ∧
      (s.seq.holdRequest = true → t.seq = s.seq)) ∧
    (s.seq.state = .idle ∨ s.seq.state = .safe → ∃ t, exec (.hold tag []) s = .next t ∧
      Answered tag 0x22#8 .wrongState false [] s t ∧ KeptBut [] s t)

/-- RELEASE (R53): removes REQUEST, and arms with catch-up when no reason is left. -/
def Obligations.ReleaseRemovesRequest : Prop :=
  ∀ (tag : Byte) (s : State), Ready s →
    (s.seq.state = .armed → s.seq.holdRequest = false → s.seq.holdPin = false →
      ∃ t, exec (.release tag []) s = .next t ∧
        Answered tag 0x23#8 .ok false [1#8, 0#8, 0#8, 0#8, 0#8, 0#8] s t ∧ KeptBut [] s t) ∧
    (s.seq.state = .hold → s.seq.holdPin = true → ∃ t, exec (.release tag []) s = .next t ∧
      Answered tag 0x23#8 .ok false [2#8, 2#8, 0#8, 0#8, 0#8, 0#8] s t ∧
      t.seq = { s.seq with holdRequest := false } ∧ KeptBut [.seq] s t) ∧
    (s.seq.state = .hold → s.seq.holdPin = false → ∃ t, exec (.release tag []) s = .next t ∧
      Answered tag 0x23#8 .ok false
        ([1#8, 0#8] ++ be16 ((reachedRun s.cues).countP fun x => decide (x.cue.catchUp = .fire)) ++
          be16 ((reachedRun s.cues).countP fun x => decide (x.cue.catchUp = .skip))) s t ∧
      t.seq = { s.seq with state := .armed, holdRequest := false, holdPin := false, log := t.seq.log } ∧
      KeptBut [.cues, .seq, .lines, .events] s t ∧
      (reachedRun s.cues = [] → t.seq.log = s.seq.log ∧ KeptBut [.seq] s t)) ∧
    (s.seq.state = .idle ∨ s.seq.state = .safe → ∃ t, exec (.release tag []) s = .next t ∧
      Answered tag 0x23#8 .wrongState false [] s t ∧ KeptBut [] s t)

/-- OUTCOMES_READ removes and returns the oldest records, and refuses a number outside 1 to 8 (R70); CAPTURES_READ empties the log
and clears the stray count, and returns both (R95); the records and the channel's data lie as sections 11.7 and 11.8 say. -/
def Obligations.LogReadsRemoveRecords : Prop :=
  (∀ (tag n : Byte) (s : State), Ready s → ∃ t, exec (.outcomesRead tag [n]) s = .next t ∧
      if 1 ≤ n.toNat ∧ n.toNat ≤ 8 then
        Answered tag 0x25#8 .ok false
            ([byteOf (min n.toNat s.seq.log.length), byteOf (s.seq.log.length - n.toNat)] ++
              (s.seq.log.take n.toNat).flatMap outcomeBytes) s t ∧
          t.seq = { s.seq with log := s.seq.log.drop n.toNat } ∧ Raised [] s t ∧ KeptBut [.seq] s t
      else Answered tag 0x25#8 .badValue false [] s t ∧ KeptBut [] s t) ∧
  (∀ (tag channel : Byte) (s : State), Ready s →
      (3 < channel.toNat → ∃ t, exec (.capturesRead tag [channel]) s = .next t ∧
        Answered tag 0x31#8 .badValue false [] s t ∧ KeptBut [] s t) ∧
      (∀ ch : Fin 4, channel.toNat = ch.val → ∃ t, exec (.capturesRead tag [channel]) s = .next t ∧
        Answered tag 0x31#8 .ok false (capturesReadData s.capture.channels[ch] s.cues.queues[ch]) s t ∧
        t.capture.channels[ch] = { s.capture.channels[ch] with log := [], strays := 0 } ∧
        (∀ d : Fin 4, d ≠ ch → t.capture.channels[d] = s.capture.channels[d]) ∧
        t.capture.arrivals = s.capture.arrivals ∧ Raised [] s t ∧ KeptBut [.capture] s t)) ∧
  (∀ r : OutcomeRecord, outcomeBytes r = layout (outcomeFields r)) ∧
  ∀ (c : Channel) (queue : List Group), capturesReadData c queue = layout (capturesFields c queue)

/-! ## The Capture Unit -/

/-- CAPTURE_SETUP that passes its checks (R74). -/
def Obligations.CaptureSetupWritesChannel : Prop :=
  ∀ (tag channel enable input edge gate a3 a2 a1 a0 b3 b2 b1 b0 n3 n2 n1 n0 : Byte) (ch : Fin 4)
    (cfg : ChannelSettings) (s : State), Ready s → channel.toNat = ch.val →
    channelSettingsOf enable input edge gate (num32 a3 a2 a1 a0) (num32 b3 b2 b1 b0) (num32 n3 n2 n1 n0) = some cfg →
    (∀ start stop nominal, cfg.gate = .window start stop nominal → start ≠ stop ∧
      ∀ p ∈ [start, stop, nominal], p < s.axis.cfg.modulus ∧ ∀ m, s.axis.staged = some m → p < m) →
    s.cues.queues[ch] = [] →
    (∀ n, cfg.input = some n → s.ins[n].fn = .general ∨ s.ins[n].fn = .capture ch) →
    ∃ t, exec (.captureSetup tag
        [channel, enable, input, edge, gate, a3, a2, a1, a0, b3, b2, b1, b0, n3, n2, n1, n0]) s = .next t ∧
      Answered tag 0x30#8 .ok false [] s t ∧
      t.capture.channels[ch] = { s.capture.channels[ch] with cfg := cfg, episode := .closed } ∧
      (∀ d : Fin 4, d ≠ ch → t.capture.channels[d] = s.capture.channels[d]) ∧
      t.capture.arrivals = s.capture.arrivals ∧
      (∀ n : Fin 8, t.ins[n] =
        if cfg.input = some n then { s.ins[n] with fn := .capture ch }
        else if s.capture.channels[ch].cfg.input = some n then { s.ins[n] with fn := .general, edgeMode := .never }
        else s.ins[n]) ∧
      KeptBut [.capture, .inputs] s t

/-- WINDOW_ARRIVAL.  Where no OPEN episode ends, episodes open at the start position and TAKEN ones close at the end position (R76,
R77).  The end of one OPEN episode is a miss: SUSPENDED in SAFE, EMPTY on an empty queue, and the oldest group and its cues
dropped under DROP; under NOMINAL the oldest group is resolved at the nominal point of the episode cycle, its records carrying the
lead point of the arrival (R77, R91 to R94).  That its keys are judged against the Cue Table's own lead point is the model's
reading of R27 (notes/assumptions/16). -/
def Obligations.WindowArrivalMovesEpisodesAndMisses : Prop :=
  (∀ (k : Key) (rest : List Key) (s : State), s.phase = .running → s.capture.arrivals = k :: rest →
      (∀ (ch : Fin 4) (start stop nominal : Nat) (c : BitVec 16), s.capture.channels[ch].cfg.enabled = true →
        s.capture.channels[ch].cfg.gate = .window start stop nominal →
        s.capture.channels[ch].episode = .opened c → k.pos ≠ stop) →
      ∃ t, exec .windowArrival s = .next t ∧ t.capture.arrivals = rest ∧ KeptBut [.capture] s t ∧
        ∀ ch : Fin 4, t.capture.channels[ch] = { s.capture.channels[ch] with
          episode := match s.capture.channels[ch].cfg.enabled, s.capture.channels[ch].cfg.gate,
              s.capture.channels[ch].episode with
            | true, .window start _ _, .closed => if k.pos = start then .opened k.cycle else .closed
            | true, .window _ stop _, .taken c => if k.pos = stop then .closed else .taken c
            | _, _, e => e }) ∧
  (∀ (k : Key) (rest : List Key) (ch : Fin 4) (start stop nominal : Nat) (c : BitVec 16) (s : State),
      s.phase = .running → s.capture.arrivals = k :: rest → s.capture.channels[ch].cfg.enabled = true →
      s.capture.channels[ch].cfg.gate = .window start stop nominal → s.capture.channels[ch].episode = .opened c →
      k.pos = stop → (∀ d : Fin 4, d ≠ ch → s.capture.channels[d].cfg.enabled = false) →
      (s.seq.state = .safe ∨ s.cues.queues[ch] = [] → ∃ t, exec .windowArrival s = .next t ∧
        t.capture.channels[ch] = { s.capture.channels[ch] with
          episode := .closed,
          lastMiss := some ⟨if s.seq.state = .safe then .suspended else .empty, none, c⟩ } ∧
        (∀ d : Fin 4, d ≠ ch → t.capture.channels[d] = s.capture.channels[d]) ∧ t.capture.arrivals = rest ∧
        Raised [.missed ch] s t ∧ KeptBut [.capture, .events] s t) ∧
      (∀ (g : Group) (gs : List Group), s.seq.state ≠ .safe → s.cues.queues[ch] = g :: gs → g.policy = .drop →
        ∃ t, exec .windowArrival s = .next t ∧
          t.capture.channels[ch] = { s.capture.channels[ch] with
            episode := .closed, lastMiss := some ⟨.dropped, some g.number, c⟩ } ∧
          (∀ d : Fin 4, d ≠ ch → t.capture.channels[d] = s.capture.channels[d]) ∧ t.capture.arrivals = rest ∧
          t.cues.queues[ch] = gs ∧ (∀ d : Fin 4, d ≠ ch → t.cues.queues[d] = s.cues.queues[d]) ∧
          t.cues = { s.cues with queues := t.cues.queues } ∧ t.seq = s.seq ∧
          Raised [.missed ch] s t ∧ KeptBut [.cues, .capture, .events] s t) ∧
      (∀ (g : Group) (gs : List Group), s.seq.state ≠ .safe → s.cues.queues[ch] = g :: gs → g.policy = .nominal →
        ∃ t, exec .windowArrival s = .next t ∧
          t.capture.channels[ch] = { s.capture.channels[ch] with
            episode := .closed, lastMiss := some ⟨.nominal, some g.number, c⟩ } ∧
          (∀ d : Fin 4, d ≠ ch → t.capture.channels[d] = s.capture.channels[d]) ∧ t.capture.arrivals = rest ∧
          GroupResolved ch g ⟨c, nominal⟩ k [.missed ch] s t ∧
          KeptBut [.cues, .seq, .lines, .capture, .events] s t))

/-- An edge at a CAPTURE input (R79 to R82, R87 to R89): a DISABLED channel or an edge not selected discards it; a WINDOW gate
whose episode is not OPEN makes it a stray; otherwise it is a capture, which raises CAPTUREDn, and CAPLOG_FULL when the log is
full, and outside SAFE resolves the oldest group at the capture point: its cues enter in group order, a key beyond the horizon
expires at once, and in ARMED the run of reached cues fires (R28, R60, R87 to R89). -/
def Obligations.EdgeAtChannelIsDiscardedStrayOrCapture : Prop :=
  ∀ (n : Fin 8) (ch : Fin 4) (e : Edge) (c : Channel) (s : State), s.phase = .running → inputDue s n = true →
    s.ins[n].fn = .capture ch → e = (if s.ins[n].accepted then .falling else .rising) → c = s.capture.channels[ch] →
    ∃ t, exec (.inputEdgeAccepted n) s = .next t ∧
      t.ins[n] = { s.ins[n] with accepted := !s.ins[n].accepted, pendingSince := none } ∧
      (∀ m : Fin 8, m ≠ n → t.ins[m] = s.ins[m]) ∧
      (∀ d : Fin 4, d ≠ ch → t.capture.channels[d] = s.capture.channels[d]) ∧
      t.capture.arrivals = s.capture.arrivals ∧
      (c.cfg.enabled = false ∨ edgeSelected c.cfg.edge e = false → KeptBut [.inputs] s t) ∧
      (c.cfg.enabled = true → edgeSelected c.cfg.edge e = true → c.cfg.gate ≠ .always →
        (∀ cyc, c.episode ≠ .opened cyc) →
        t.capture.channels[ch] = { c with strays := min (c.strays + 1) 65535 } ∧ Raised [.stray] s t ∧
        KeptBut [.inputs, .capture, .events] s t) ∧
      (c.cfg.enabled = true → edgeSelected c.cfg.edge e = true →
        (c.cfg.gate = .always ∨ ∃ cyc, c.episode = .opened cyc) →
        ∃ r : CaptureRecord, r = ⟨ch, s.axis.current, e, s.stamp,
            if s.seq.state = .safe then none else s.cues.queues[ch].head?.map (·.number)⟩ ∧
          t.capture.channels[ch] = { c with
            episode := match c.cfg.gate, c.episode with
              | .window _ _ _, .opened cyc => .taken cyc
              | _, x => x,
            latest := some r, log := if c.log.length < 8 then c.log ++ [r] else c.log } ∧
          t.cues.queues[ch] = (if s.seq.state = .safe then s.cues.queues[ch] else s.cues.queues[ch].tail) ∧
          (s.seq.state = .safe ∨ s.cues.queues[ch] = [] → Raised
              (if c.log.length < 8 then [.captured ch] else [.capLogFull, .captured ch]) s t ∧
            KeptBut [.inputs, .capture, .events] s t) ∧
          (∀ g gs, s.seq.state ≠ .safe → s.cues.queues[ch] = g :: gs →
            GroupResolved ch g s.axis.current s.cues.lead
                (if c.log.length < 8 then [.captured ch] else [.capLogFull, .captured ch]) s t ∧
              KeptBut [.inputs, .capture, .cues, .seq, .lines, .events] s t))

/-! ## The Cam Unit -/

/-- The level of a track: the current position plus the advance, wrapped into the modulus, lies in the active profile (R98,
R99). -/
def Obligations.TrackLevelFollowsAdvancedPosition : Prop :=
  ∀ (a : Axis) (t : Track), 0 < a.cfg.modulus →
    ∃ p : Nat, p < a.cfg.modulus ∧
      (p : Int) % a.cfg.modulus = ((a.current.pos : Int) + (a.speed * t.leadTime).tdiv 1000) % a.cfg.modulus ∧
      recomputeTrack a t = { t with
        advance := (a.speed * t.leadTime).tdiv 1000, advPos := p, level := (recomputeTrack a t).level } ∧
      ((recomputeTrack a t).level = true ↔
        match (if t.active = .a then t.slotA else t.slotB) with
        | .empty => False
        | .full => True
        | .windows ws => ∃ w ∈ ws, if w.on < w.off then w.on ≤ p ∧ p < w.off else w.on ≤ p ∨ p < w.off)

/-- CAM_LOAD that passes its checks, with and without the immediate flag (R102 to R105). -/
def Obligations.CamLoadStagesOrLoadsAtOnce : Prop :=
  ∀ (tag track options t1 t0 kind c : Byte) (rest : List Byte) (n : Fin 8) (p : Profile) (x : Track) (s : State),
    Ready s → rest.length = 8 * c.toNat → track.toNat = n.val → profileOf kind (windowsOf rest) = some p →
    num16 t1 t0 ≤ 10000 → (∀ ws, p = .windows ws → ∀ w ∈ ws, w.on ≠ w.off) →
    (∀ b ∈ profileBounds p, b < s.axis.cfg.modulus ∧ ∀ m, s.axis.staged = some m → b < m) →
    x = s.cams.tracks[n] →
    (options = 0#8 → ∃ t y, exec (.camLoad tag (track :: options :: t1 :: t0 :: kind :: c :: rest)) s = .next t ∧
      y = { x with
        slotA := if x.active = .a then x.slotA else p, slotB := if x.active = .a then p else x.slotB,
        staged := true, leadTime := num16 t1 t0 } ∧
      t.cams.tracks[n] = recomputeTrack s.axis y ∧
      Answered tag 0x38#8 .ok x.staged
        [track, profileSlotByte x.active, 1#8, flagByte (recomputeTrack s.axis y).level] s t ∧
      (∀ m : Fin 8, m ≠ n → t.cams.tracks[m] = s.cams.tracks[m]) ∧ t.cams.boundaries = s.cams.boundaries ∧
      Raised [] s t ∧ KeptBut [.cams] s t) ∧
    (options = 1#8 → s.seq.state = .idle →
      ∃ t y, exec (.camLoad tag (track :: options :: t1 :: t0 :: kind :: c :: rest)) s = .next t ∧
        y = { x with
          slotA := if x.active = .a then x.slotA else p, slotB := if x.active = .a then p else x.slotB,
          active := if x.active = .a then .b else .a, staged := false, leadTime := num16 t1 t0 } ∧
        t.cams.tracks[n] = recomputeTrack s.axis y ∧
        Answered tag 0x38#8 .ok x.staged
          [track, profileSlotByte y.active, 0#8, flagByte (recomputeTrack s.axis y).level] s t ∧
        (∀ m : Fin 8, m ≠ n → t.cams.tracks[m] = s.cams.tracks[m]) ∧ t.cams.boundaries = s.cams.boundaries ∧
        Raised [] s t ∧ KeptBut [.cams] s t)

/-- PROFILE_SWAP (R106): every staged track swaps its slots with one CAM_SWAPPED each, and every level is recomputed from position
0 of the cycle the axis stands in, with the speed and the modulus as they stand. -/
def Obligations.ProfileSwapSwapsStagedTracks : Prop :=
  ∀ (b : Nat) (s : State), s.phase = .running → s.cams.boundaries = b + 1 →
    ∃ t, exec .profileSwap s = .next t ∧ t.cams.boundaries = b ∧
      (∀ n : Fin 8, t.cams.tracks[n] = recomputeTrack { s.axis with current := ⟨s.axis.current.cycle, 0⟩ }
        (if s.cams.tracks[n].staged then
          { s.cams.tracks[n] with
            active := if s.cams.tracks[n].active = .a then .b else .a, staged := false }
        else s.cams.tracks[n])) ∧
      Raised (List.replicate (s.cams.tracks.toList.countP (·.staged)) .camSwapped) s t ∧
      KeptBut [.cams, .events] s t

/-! ## The Line Unit -/

/-- LINE_SETUP that passes its checks (R117, R121), with the line's entry as section 11.8 lays it out. -/
def Obligations.LineSetupWritesRecord : Prop :=
  ∀ (tag line owner polarity driver safe time : Byte) (n : Fin 16) (cfg : LineSettings) (l : OutLine) (s : State),
    Ready s → line.toNat = n.val → lineSettingsOf owner polarity driver safe time = some cfg →
    l = s.outs.lines[n] →
    ∃ t, exec (.lineSetup tag [line, owner, polarity, driver, safe, time]) s = .next t ∧
      Answered tag 0x40#8 .ok false (outputEntry t t.outs.lines[n]) s t ∧
      t.outs.lines[n] = { l with
        cfg := cfg
        direct := if l.cfg.owner = .direct ∧ cfg.owner ≠ .direct then false else l.direct
        cue := if l.cfg.owner ≠ cfg.owner ∧ (l.cfg.owner = .cue ∨ cfg.owner = .cue) then false else l.cue
        trail := if l.cfg.owner ≠ cfg.owner ∧ (l.cfg.owner = .cue ∨ cfg.owner = .cue) then none else l.trail
        mismatch := if inMismatch t t.outs.lines[n] then .pending s.stamp else .agree } ∧
      LinesAre (fun m => if m = n then t.outs.lines[n] else s.outs.lines[m]) t ∧ t.outs.arrivals = s.outs.arrivals ∧
      (l.mismatch = .present → plainReport (.lineMismatch n) false ∈ t.faults.inbox) ∧ KeptBut [.lines] s t ∧
      outputEntry t t.outs.lines[n] = layout (outputFields t t.outs.lines[n])

/-- LINES_ENABLE (R118). -/
def Obligations.LinesEnableWritesMaskedLatches : Prop :=
  ∀ (tag m1 m0 l1 l0 : Byte) (s : State), Ready s →
    (∃ t, exec (.linesEnable tag [m1, m0, l1, l0]) s = .next t ∧
      LinesAre (fun n => { s.outs.lines[n] with
        enable := if inSet (word16 m1 m0) n then inSet (word16 l1 l0) n else s.outs.lines[n].enable }) t ∧
      t.outs.arrivals = s.outs.arrivals ∧
      (∃ latches : LineSet, (∀ n : Fin 16, inSet latches n = t.outs.lines[n].enable) ∧
        Answered tag 0x41#8 .ok false (be16 latches.toNat) s t) ∧
      (word16 m1 m0 = 0#16 → KeptBut [] s t) ∧ KeptBut [.lines] s t) ∧
    ∀ (stored : Vector LineSettings 16) (n : Fin 16),
      (loadLines stored s).1.outs.lines[n].enable = s.outs.lines[n].enable

/-- LINES_SET (R119). -/
def Obligations.LinesSetWritesMaskedDirectLevels : Prop :=
  ∀ (tag m1 m0 l1 l0 : Byte) (s : State), Ready s →
    ((∃ n : Fin 16, inSet (word16 m1 m0) n = true ∧ s.outs.lines[n].cfg.owner ≠ .direct) →
      ∃ t, exec (.linesSet tag [m1, m0, l1, l0]) s = .next t ∧
        Answered tag 0x42#8 .wrongOwner false [] s t ∧ KeptBut [] s t) ∧
    ((∀ n : Fin 16, inSet (word16 m1 m0) n = true → s.outs.lines[n].cfg.owner = .direct) →
      ∃ t, exec (.linesSet tag [m1, m0, l1, l0]) s = .next t ∧
        LinesAre (fun n => { s.outs.lines[n] with
          direct := if inSet (word16 m1 m0) n then inSet (word16 l1 l0) n else s.outs.lines[n].direct }) t ∧
        t.outs.arrivals = s.outs.arrivals ∧
        (∃ levels : LineSet, (∀ n : Fin 16, inSet levels n = t.outs.lines[n].direct) ∧
          Answered tag 0x42#8 .ok false (be16 levels.toNat) s t) ∧
        (s.seq.state = .safe → ∀ n : Fin 16, drive t t.outs.lines[n] = drive s s.outs.lines[n]) ∧
        KeptBut [.lines] s t)

/-- The pin drive of a line (R111), and what makes it differ from the sampled level (R121); a change of the sampled level moves
the mismatch state, and a PENDING mismatch that has lasted its time becomes PRESENT and is reported (R121, R122). -/
def Obligations.PinDriveAndMismatchFollowTheirTables : Prop :=
  ∀ s : State,
    (∀ (l : OutLine) (active high : Bool),
      active = (if s.seq.state = .safe then decide (l.cfg.safeLevel = .active)
        else l.enable && match l.cfg.owner with
          | .nobody => false
          | .direct => l.direct
          | .cue => l.cue
          | .cam k => decide (s.seq.state = .armed) && s.cams.tracks[k].level) →
      high = (if l.cfg.polarity = .activeHigh then active else !active) →
      drive s l = (if l.cfg.driver = .off then .released
        else if s.seq.state = .safe ∧ l.cfg.safeLevel = .float then .released
        else if l.cfg.driver = .openDrain ∧ high = true then .released
        else if high then .high else .low) ∧
      (inMismatch s l = true ↔ l.cfg.mismatchTime ≠ 0 ∧
        (drive s l = .high ∧ l.sampled = false ∨ drive s l = .low ∧ l.sampled = true))) ∧
    (∀ (n : Fin 16) (high : Bool), s.phase = .running → ∃ t, exec (.pinSampleChange n high) s = .next t ∧
      t.outs.arrivals = s.outs.arrivals ∧
      LinesAre (fun m => if m = n then { s.outs.lines[n] with sampled := high } else s.outs.lines[m]) t ∧
      (∀ m : Fin 16, t.outs.lines[m].mismatch =
        if inMismatch t t.outs.lines[m] then
          (if s.outs.lines[m].mismatch = .agree then .pending s.stamp else s.outs.lines[m].mismatch)
        else .agree) ∧
      KeptBut [.lines] s t) ∧
    (∀ (n : Fin 16) (since : Stamp), s.phase = .running → s.outs.lines[n].mismatch = .pending since →
      reached s.stamp (since + BitVec.ofNat 32 (1000 * s.outs.lines[n].cfg.mismatchTime)) = true →
      inMismatch s s.outs.lines[n] = true → ∃ t, exec (.mismatchTimeout n) s = .next t ∧
        t.outs.lines[n] = { s.outs.lines[n] with mismatch := .present } ∧
        plainReport (.lineMismatch n) true ∈ t.faults.inbox ∧ KeptBut [] s t)

/-- TRAIL_ARRIVAL ends every COUNTS trail that is reached, TRAIL_EXPIRY a TIME trail whose stamp is reached: the trail goes and
the cue level is inactive (R115). -/
def Obligations.TrailsEndAtTheirKeyOrStamp : Prop :=
  ∀ s : State, s.phase = .running →
    (∀ (k : Key) (rest : List Key), s.outs.arrivals = k :: rest → ∃ t, exec .trailArrival s = .next t ∧
      t.outs.arrivals = rest ∧
      LinesAre (fun n => match s.outs.lines[n].trail with
        | some (.counts key) =>
          if keyReached k key then { s.outs.lines[n] with trail := none, cue := false } else s.outs.lines[n]
        | _ => s.outs.lines[n]) t ∧
      KeptBut [.lines] s t) ∧
    (∀ (n : Fin 16) (e : Stamp), s.outs.lines[n].trail = some (.time e) → reached s.stamp e = true →
      ∃ t, exec (.trailExpiry n) s = .next t ∧ t.outs.arrivals = s.outs.arrivals ∧
        LinesAre (fun m => if m = n then { s.outs.lines[n] with trail := none, cue := false } else s.outs.lines[m]) t ∧
        KeptBut [.lines] s t)

/-- INPUT_SETUP that passes its checks (R125), with the input's entry as section 11.8 lays it out, and a raw change at the
filter (R123).  Where the change would be accepted at a stamp at which the decoder has accepted an edge of the other line, the
part goes back to before that edge, so that the two are taken as one (R2, R3), or, when another command has come between, the
stamp passes, with what is due at it, before the change is taken: both are the model's choice (notes/assumptions/6). -/
def Obligations.InputSetupAndRawChange : Prop :=
  ∀ s : State,
    (∀ (tag input fn mode filter : Byte) (n : Fin 8) (freeze : Bool) (m : EdgeMode), Ready s →
      input.toNat = n.val → flagOf fn = some freeze → edgeModeOf mode = some m →
      (s.ins[n].fn = .general ∨ s.ins[n].fn = .freeze) →
      ∃ t, exec (.inputSetup tag [input, fn, mode, filter]) s = .next t ∧
        Answered tag 0x44#8 .ok false [fn, mode, filter, flagByte s.ins[n].accepted] s t ∧
        [fn, mode, filter, flagByte s.ins[n].accepted] = layout (inputFields t.ins[n]) ∧
        t.ins[n] = { s.ins[n] with
          fn := if freeze then .freeze else .general, edgeMode := m, filter := filter.toNat } ∧
        (∀ k : Fin 8, k ≠ n → t.ins[k] = s.ins[k]) ∧
        (t.seq.freeze = true ↔ ∃ k : Fin 8, t.ins[k].fn = .freeze ∧ t.ins[k].accepted = true) ∧
        (freezeLevel t.ins = s.seq.freeze → KeptBut [.inputs] s t) ∧
        KeptBut [.inputs, .cues, .seq, .lines, .events] s t) ∧
    (∀ (n : Fin 8) (high shared : Bool), s.phase = .running →
      shared = (decide (high ≠ s.ins[n].accepted) && s.ins[n].pendingSince.isNone && decide (s.ins[n].filter = 0) &&
        (decide (s.axis.cfg.source = .quad ∧ s.ins[n].fn = .axisA) && s.axis.takenB ||
          decide (s.axis.cfg.source ≠ .timebase ∧ s.ins[n].fn = .axisB) && s.axis.takenA)) →
      (shared = false → RawChangeTaken n high s s) ∧
      (∀ c, shared = true → s.checkpoint = some c → RawChangeTaken n high s (backTo c s)) ∧
      (shared = true → s.checkpoint = none → ∃ u t, Runs timedInstrs s u ∧ exec (.inputRawChange n high) s = .next t ∧
        t.pending = s.pending ∧ t.phase = .running ∧ t.stamp = s.stamp + 1#32 ∧ t.freeIndex = s.freeIndex ∧
        AxisIs { u.axis with takenA := false, takenB := false, timebaseTaken := false } t ∧
        t.ins[n] = { u.ins[n] with raw := high, pendingSince := some (s.stamp + 1#32) } ∧ inputDue t n = true ∧
        (∀ k : Fin 8, k ≠ n → t.ins[k] = u.ins[k]) ∧ KeptBut [.clock, .axis, .inputs] u t))

/-- An accepted edge of a GENERAL or FREEZE input (R126), and what a change of the freeze level does (R49, R54); an edge of IN2 as
INDEX: a rising edge during the homing wait in IDLE is the homing jump with HOMED, every other is discarded (R15, R16).  That
what waits is taken before the jump is the model's reading (notes/assumptions/5). -/
def Obligations.InputEdgeRaisesEventAndFreezes : Prop :=
  (∀ (n : Fin 8) (ev : List EventSource) (s : State), s.phase = .running → inputDue s n = true →
    ev = (if s.ins[n].edgeMode = .both ∨ s.ins[n].edgeMode = .rising ∧ s.ins[n].accepted = false ∨
        s.ins[n].edgeMode = .falling ∧ s.ins[n].accepted = true then [.input n] else []) →
    (s.ins[n].fn = .general ∨ s.ins[n].fn = .freeze) →
    ∃ t, exec (.inputEdgeAccepted n) s = .next t ∧
      t.ins[n] = { s.ins[n] with accepted := !s.ins[n].accepted, pendingSince := none } ∧
      (∀ k : Fin 8, k ≠ n → t.ins[k] = s.ins[k]) ∧
      (s.ins[n].fn = .general ∨ freezeLevel t.ins = s.seq.freeze →
        Raised ev s t ∧ KeptBut [.inputs, .events] s t) ∧
      (s.ins[n].fn = .freeze → freezeLevel t.ins ≠ s.seq.freeze →
        t.seq.freeze = !s.seq.freeze ∧ KeptBut [.inputs, .cues, .seq, .lines, .events] s t ∧
        (s.seq.freeze = false → s.seq.state = .armed →
          t.seq = { s.seq with state := .hold, holdRequest := false, holdPin := true, freeze := true } ∧
            Raised ev s t ∧ KeptBut [.inputs, .seq, .events] s t) ∧
        (s.seq.freeze = false → s.seq.state = .hold → t.seq = { s.seq with holdPin := true, freeze := true } ∧
          Raised ev s t ∧ KeptBut [.inputs, .seq, .events] s t) ∧
        (s.seq.freeze = true → s.seq.state = .hold → s.seq.holdRequest = true →
          t.seq = { s.seq with holdPin := false, freeze := false } ∧
            Raised ev s t ∧ KeptBut [.inputs, .seq, .events] s t) ∧
        (s.seq.freeze = true → s.seq.state = .hold → s.seq.holdRequest = false →
          t.seq = { s.seq with state := .armed, holdPin := false, freeze := false, log := t.seq.log } ∧
            (reachedRun s.cues = [] → Raised ev s t ∧ t.seq.log = s.seq.log ∧ KeptBut [.inputs, .seq, .events] s t)) ∧
        (s.seq.state = .idle ∨ s.seq.state = .safe ∨ s.seq.state = .armed ∧ s.seq.freeze = true →
          t.seq = { s.seq with freeze := !s.seq.freeze } ∧ Raised ev s t ∧ KeptBut [.inputs, .seq, .events] s t))) ∧
  (∀ s : State, s.phase = .running → inputDue s 2 = true → s.ins[2].fn = .index →
      (s.ins[2].accepted = false → s.axis.homing = true → s.seq.state = .idle →
        ∃ t, exec (.inputEdgeAccepted 2) s = .next t ∧
          AxisIs { s.axis with
            current := ⟨0#16, s.axis.cfg.home⟩, lead := ⟨0#16, s.axis.cfg.home⟩, homing := false } t ∧
          t.ins[2] = released { s.ins[2] with accepted := true, pendingSince := none } ∧
          (∀ n : Fin 8, n ≠ 2 → t.ins[n] = s.ins[n]) ∧ Jumped ⟨0#16, s.axis.cfg.home⟩ [.homed] s t ∧
          KeptBut [.axis, .cues, .seq, .capture, .cams, .lines, .inputs, .events] s t) ∧
      (s.ins[2].accepted = true ∨ s.axis.homing = false ∨ s.seq.state ≠ .idle →
        ∃ t, exec (.inputEdgeAccepted 2) s = .next t ∧
          t.ins[2] = { s.ins[2] with accepted := !s.ins[2].accepted, pendingSince := none } ∧
          (∀ n : Fin 8, n ≠ 2 → t.ins[n] = s.ins[n]) ∧ KeptBut [.inputs] s t))

/-- The QUAD decoder (R2, R5, R6, R7, R18): an accepted change of A alone or of B alone is one count, forward when A leads, and
discarded while HALTED; a change of both is a double change, which moves nothing and reports AXIS_SIGNAL; the stored pair follows
every time.  The STEP decoder (R3): a rising edge of IN0 is one count, forward when IN1 is high with the edges of the same stamp
in force.  The same holds when the other line's pin changes after the first edge of the stamp has been accepted, with filter
time 0: then QUAD has a double change that moves no count, no arrival and no modulus, and STEP one count in the new direction.
That every change due at a stamp is accepted in one event, that the first edge is taken again with the later one, and the marks
takenA and takenB of what the decoder has acted on at a stamp, are the model's choice (notes/assumptions/6). -/
def Obligations.QuadDecoderCountsSingleChanges : Prop :=
  (∀ (s : State) (dueA dueB newA newB : Bool), s.phase = .running → s.ins[0].fn = .axisA → s.ins[1].fn = .axisB →
    dueA = inputDue s 0 → dueB = inputDue s 1 → newA = xor s.ins[0].accepted dueA → newB = xor s.ins[1].accepted dueB →
    ∀ n : Fin 8, n = 0 ∧ dueA = true ∨ n = 1 ∧ dueB = true →
    ∃ t, exec (.inputEdgeAccepted n) s = .next t ∧
      t.ins[0] = (if dueA then { s.ins[0] with accepted := newA, pendingSince := none } else s.ins[0]) ∧
      t.ins[1] = (if dueB then { s.ins[1] with accepted := newB, pendingSince := none } else s.ins[1]) ∧
      (∀ m : Fin 8, 2 ≤ m.val → t.ins[m] = s.ins[m]) ∧
      KeptBut [.axis, .inputs, .cams, .cues, .capture, .lines, .events] s t ∧
      (∀ a : Axis, s.axis.cfg.source = .quad →
        a = { s.axis with
          pairA := newA, pairB := newB, takenA := s.axis.takenA || dueA, takenB := s.axis.takenB || dueB } →
        (xor (xor s.axis.pairA newA) (xor s.axis.pairB newB) = true → s.axis.running = true →
          CountTaken (if s.axis.pairA = newA then decide (s.axis.pairA ≠ s.axis.pairB)
            else decide (s.axis.pairA = s.axis.pairB)) a s t) ∧
        (xor (xor s.axis.pairA newA) (xor s.axis.pairB newB) = true → s.axis.running = false →
          AxisIs a t ∧ KeptBut [.axis, .inputs] s t) ∧
        (s.axis.pairA ≠ newA → s.axis.pairB ≠ newB → AxisIs a t ∧ KeptBut [.axis, .inputs] s t ∧
          (⟨.axisSignal, true, some (s.axis.current, s.axis.lead), none⟩ : Report) ∈ t.faults.inbox) ∧
        (s.axis.pairA = newA → s.axis.pairB = newB → AxisIs a t ∧ KeptBut [.axis, .inputs] s t)) ∧
      (∀ (a : Axis) (rises : Bool), s.axis.cfg.source = .step → rises = (dueA && newA) →
        a = { s.axis with takenA := s.axis.takenA || rises, takenB := s.axis.takenB || dueB } →
        (rises = true → s.axis.running = true → CountTaken newB a s t) ∧
        (rises = false ∨ s.axis.running = false → AxisIs a t ∧ KeptBut [.axis, .inputs] s t))) ∧
  (∀ (s : State) (n m k : Fin 8), s.phase = .running → s.ins[0].fn = .axisA → s.ins[1].fn = .axisB →
    n = 0 ∧ m = 1 ∨ n = 1 ∧ m = 0 → k = n ∨ k = m → s.axis.takenA = false → s.axis.takenB = false →
    inputDue s n = true → s.ins[m].pendingSince = none → s.ins[m].filter = 0 →
    (s.axis.cfg.source = .quad → s.axis.pairA = s.ins[0].accepted → s.axis.pairB = s.ins[1].accepted →
      ∃ t, Runs [.inputEdgeAccepted n, .inputRawChange m (!s.ins[m].accepted), .inputEdgeAccepted k] s t ∧
        AxisIs { s.axis with pairA := !s.axis.pairA, pairB := !s.axis.pairB, takenA := true, takenB := true } t ∧
        (⟨.axisSignal, true, some (s.axis.current, s.axis.lead), none⟩ : Report) ∈ t.faults.inbox ∧
        t.ins[n] = { s.ins[n] with accepted := !s.ins[n].accepted, pendingSince := none } ∧
        t.ins[m] = { s.ins[m] with raw := !s.ins[m].accepted, accepted := !s.ins[m].accepted } ∧
        (∀ i : Fin 8, 2 ≤ i.val → t.ins[i] = s.ins[i]) ∧ KeptBut [.axis, .inputs] s t) ∧
    (s.axis.cfg.source = .step → n = 0 → s.ins[0].accepted = false →
      ∃ t, Runs [.inputEdgeAccepted n, .inputRawChange m (!s.ins[m].accepted), .inputEdgeAccepted k] s t ∧
        t.ins[0] = { s.ins[0] with accepted := true, pendingSince := none } ∧
        t.ins[1] = { s.ins[1] with raw := !s.ins[1].accepted, accepted := !s.ins[1].accepted } ∧
        (∀ i : Fin 8, 2 ≤ i.val → t.ins[i] = s.ins[i]) ∧
        (s.axis.running = true →
          CountTaken (!s.ins[1].accepted) { s.axis with takenA := true, takenB := true } s t ∧
          KeptBut [.axis, .inputs, .cams, .cues, .capture, .lines, .events] s t) ∧
        (s.axis.running = false →
          AxisIs { s.axis with takenA := true, takenB := true } t ∧ KeptBut [.axis, .inputs] s t)))

/-! ## Faults -/

/-- LIMITS_SET writes its four values, or none, and the conditions are judged again at once; what it ends, and any older ending
that waits, leaves the present set with the request, so that the next RESUME no longer finds it; the supply comparator judges
every voltage it finds (R19, R130, R140).  That an older ending is taken too, and that an ending behind a beginning that waits
follows it, is the model's reading (notes/assumptions/4). -/
def Obligations.LimitsAndSupplyAreJudgedAtOnce : Prop :=
  ∀ s : State,
    (∀ (tag r1 r0 v1 v0 q1 q0 level : Byte), Ready s → 3 < level.toNat ∨ 60000 < num16 q1 q0 →
      ∃ t, exec (.limitsSet tag [r1, r0, v1, v0, q1, q0, level]) s = .next t ∧
        Answered tag 0x50#8 .badValue false [] s t ∧ KeptBut [] s t) ∧
    (∀ (tag r1 r0 v1 v0 q1 q0 level : Byte) (lv : Fin 4), Ready s → level.toNat = lv.val → num16 q1 q0 ≤ 60000 →
      ∃ t, exec (.limitsSet tag [r1, r0, v1, v0, q1, q0, level]) s = .next t ∧
        Answered tag 0x50#8 .ok false [r1, r0, v1, v0, q1, q0, level] s t ∧
        AxisIs { s.axis with reverseLimit := num16 r1 r0, speedLimit := num16 v1 v0 } t ∧
        LinkIs { s.link with silenceLimit := num16 q1 q0 } t ∧
        t.supply.level = lv ∧ t.supply.millivolts = s.supply.millivolts ∧
        (t.axis.overspeed = true ↔
          num16 v1 v0 ≠ 0 ∧ num16 v1 v0 < s.axis.speed.natAbs ∧ s.seq.state ≠ .idle) ∧
        (t.axis.reversed = true ↔
          num16 r1 r0 ≠ 0 ∧ num16 r1 r0 < excursion s.axis ∧ s.seq.state ≠ .idle) ∧
        (t.supply.low = true ↔ s.supply.millivolts < 2850 + 100 * lv.val ∨
          s.supply.millivolts < 2900 + 100 * lv.val ∧ s.supply.low = true) ∧
        FaultsAre { s.faults with present := { s.faults.present with
          overspeed :=
            entryAfterLimits s .overspeed s.faults.present.overspeed s.axis.overspeed t.axis.overspeed
          reverseLimit :=
            entryAfterLimits s .reverseLimit s.faults.present.reverseLimit s.axis.reversed t.axis.reversed
          supplyLow := entryAfterLimits s .supplyLow s.faults.present.supplyLow s.supply.low t.supply.low } } t ∧
        KeptBut [.axis, .supply, .link, .faults] s t) ∧
    (∀ mv : BitVec 16, s.phase = .running → ∃ t, exec (.supplyCrossing mv) s = .next t ∧
      t.supply.level = s.supply.level ∧ t.supply.millivolts = mv.toNat ∧
      (t.supply.low = true ↔ mv.toNat < 2850 + 100 * s.supply.level.val ∨
        mv.toNat < 2900 + 100 * s.supply.level.val ∧ s.supply.low = true) ∧
      (t.supply.low ≠ s.supply.low → plainReport .supplyLow t.supply.low ∈ t.faults.inbox) ∧
      KeptBut [.supply] s t)

/-- The Fault Monitor takes a beginning outside SAFE: a fault writes the primary record, empties the secondary set, enters SAFE
and drives FLT#; in IDLE a beginning of OVERSPEED, REVERSE_LIMIT or LINK_SILENT is no fault (R128 to R134). -/
def Obligations.ConditionBeginOutsideSafeEntersSafe : Prop :=
  ∀ (cond : Condition) (r : Report) (s : State), s.phase = .running → nextReport s cond = some r → r.begins = true →
    s.seq.state ≠ .safe →
    (s.seq.state = .idle → (cond = .overspeed ∨ cond = .reverseLimit ∨ cond = .linkSilent) →
      ∃ t, exec (.conditionBegin cond) s = .next t ∧
        t.faults = { s.faults with present := setPresent cond true s.faults.present, inbox := t.faults.inbox } ∧
        KeptBut [.faults] s t) ∧
    (s.seq.state ≠ .idle ∨ cond ≠ .overspeed ∧ cond ≠ .reverseLimit ∧ cond ≠ .linkSilent →
      ∃ t, exec (.conditionBegin cond) s = .next t ∧
        t.faults = {
          count := s.faults.count + 1#16
          primary := some {
            kind := condKind cond, stamp := s.stamp,
            current := (r.points.map (·.1)).getD s.axis.current, lead := (r.points.map (·.2)).getD s.axis.lead,
            left := s.seq.state,
            line := match cond with
              | .lineMismatch n => some n
              | _ => none,
            speed := r.speed }
          secondary := 0#8
          present := setPresent cond true s.faults.present
          flt := true
          inbox := t.faults.inbox } ∧
        t.seq = { s.seq with state := .safe, holdRequest := false, holdPin := false } ∧
        LinesAre (fun n => { s.outs.lines[n] with trail := none, cue := false }) t ∧
        t.outs.arrivals = s.outs.arrivals ∧
        AxisIs { s.axis with running := s.axis.running && decide (s.axis.cfg.source ≠ .timebase) } t ∧
        (cond ≠ .supplyLow ∨ s.store.op = none → t.store = s.store ∧ Raised [.fault] s t) ∧
        (∀ o, cond = .supplyLow → s.store.op = some o →
          t.store = { s.store with
            op := none, lastOp := some ⟨workBlock o.work, .failed⟩,
            blocks := spoilBlock (workBlock o.work) s.store.blocks } ∧
          Raised [.fault, .storeDone] s t) ∧
        KeptBut [.axis, .seq, .lines, .faults, .events, .store] s t)

/-- The Fault Monitor takes a fault in SAFE by rank (R135), and the ending of a condition (R129). -/
def Obligations.ConditionInSafeIsRecordedByRank : Prop :=
  ∀ (cond : Condition) (r : Report) (s : State), s.phase = .running → nextReport s cond = some r →
    (∀ p : FaultRecord, r.begins = true → s.seq.state = .safe → s.faults.primary = some p →
      ∃ t, exec (.conditionBegin cond) s = .next t ∧
        t.faults.count = s.faults.count + 1#16 ∧ t.faults.flt = s.faults.flt ∧
        t.faults.present = setPresent cond true s.faults.present ∧ t.seq = s.seq ∧
        (faultRank (condKind cond) < faultRank p.kind →
          (∃ q : FaultRecord, t.faults.primary = some q ∧ q.kind = condKind cond ∧ q.stamp = s.stamp ∧
            q.left = .safe ∧ q.speed = r.speed ∧
            q.current = (r.points.map (·.1)).getD s.axis.current ∧
            q.lead = (r.points.map (·.2)).getD s.axis.lead ∧
            q.line = match cond with
              | .lineMismatch n => some n
              | _ => none) ∧
          t.faults.secondary = joinSecondary p.kind s.faults.secondary) ∧
        (faultRank p.kind ≤ faultRank (condKind cond) → t.faults.primary = some p ∧
          t.faults.secondary = joinSecondary (condKind cond) s.faults.secondary) ∧
        (cond ≠ .supplyLow ∨ s.store.op = none → t.store = s.store ∧ Raised [.fault] s t) ∧
        (∀ o, cond = .supplyLow → s.store.op = some o →
          t.store = { s.store with
            op := none, lastOp := some ⟨workBlock o.work, .failed⟩,
            blocks := spoilBlock (workBlock o.work) s.store.blocks } ∧
          Raised [.fault, .storeDone] s t) ∧
        KeptBut [.faults, .events, .store] s t) ∧
    (r.begins = false → ∃ t, exec (.conditionEnd cond) s = .next t ∧
      t.faults = { s.faults with present := setPresent cond false s.faults.present, inbox := t.faults.inbox } ∧
      KeptBut [.faults] s t)

/-- RESUME: its checks in their order, the blocking members of the present set among them, and its effect (R129, R137 to
R139). -/
def Obligations.ResumeLeavesSafeWhenNothingBlocks : Prop :=
  ∀ (tag t1 t0 : Byte) (blocked : Bool) (s : State), Ready s →
    blocked = (s.faults.present.supplyLow || s.faults.present.overspeed || s.faults.present.reverseLimit ||
      decide (s.faults.present.lines ≠ 0#16)) →
    ∃ t, exec (.resume tag [t1, t0]) s = .next t ∧
      if s.seq.state ≠ .safe then Answered tag 0x52#8 .wrongState false [] s t ∧ KeptBut [] s t
      else if word16 t1 t0 ≠ s.faults.count then
        Answered tag 0x52#8 .stale false (be16 s.faults.count.toNat ++
          [((s.faults.primary.map fun r => byteOf (faultRank r.kind)).getD 0#8)]) s t ∧ KeptBut [] s t
      else if blocked then
        Answered tag 0x52#8 .stillPresent false (layout [(2, s.faults.count.toNat),
            (1, flagBits [s.faults.present.supplyLow, s.faults.present.overspeed, s.faults.present.reverseLimit, false,
              decide (s.faults.present.lines ≠ 0#16)]), (2, s.faults.present.lines.toNat)]) s t ∧
          KeptBut [] s t
      else
        Answered tag 0x52#8 .ok false [t1, t0, 0#8] s t ∧
          t.seq = { s.seq with state := .idle, holdRequest := false, holdPin := false } ∧
          FaultsAre { s.faults with flt := false } t ∧ t.axis.overspeed = false ∧ t.axis.reversed = false ∧
          (∀ n : Fin 8, trackOutput t n = false) ∧ KeptBut [.seq, .faults] s t

/-! ## Events -/

/-- EVENT_ENABLE (R145): a set with a source above 27 is refused; any other becomes the enable set.  ATN# is asserted while a
source is enabled and pending (R144). -/
def Obligations.EventEnableBecomesTheEnableSet : Prop :=
  ∀ (tag b3 b2 b1 b0 : Byte) (s : State), Ready s →
    ∃ t, exec (.eventEnable tag [b3, b2, b1, b0]) s = .next t ∧
      ((∃ n : Nat, 28 ≤ n ∧ (num32 b3 b2 b1 b0).testBit n = true) →
        Answered tag 0x60#8 .badValue false [] s t ∧ KeptBut [] s t) ∧
      ((∀ n : Nat, 28 ≤ n → (num32 b3 b2 b1 b0).testBit n = false) →
        Answered tag 0x60#8 .ok false [b3, b2, b1, b0] s t ∧ t.events.order = s.events.order ∧
          (∀ n : Fin 28, t.events.recs[n] = { s.events.recs[n] with
            enabled := (num32 b3 b2 b1 b0).testBit n.val, noticed := t.events.recs[n].noticed }) ∧
          (atnAsserted t = true ↔
            ∃ n : Fin 28, (num32 b3 b2 b1 b0).testBit n.val = true ∧ s.events.recs[n].pending = true) ∧
          KeptBut [.events] s t)

/-- EVENT_CLEAR (R149): a pending flag is cleared when the count matches. -/
def Obligations.EventClearClearsMatchingFlag : Prop :=
  ∀ (tag source count : Byte) (s : State), Ready s →
    (27 < source.toNat → ∃ t, exec (.eventClear tag [source, count]) s = .next t ∧
      Answered tag 0x62#8 .badValue false [] s t ∧ KeptBut [] s t) ∧
    (∀ n : Fin 28, source.toNat = n.val → ∃ t, exec (.eventClear tag [source, count]) s = .next t ∧
      if s.events.recs[n].pending = true ∧ count = s.events.recs[n].count then
        Answered tag 0x62#8 .ok false [source, count, 0#8] s t ∧ t.events.order = s.events.order ∧
          (∀ m : Fin 28, t.events.recs[m] = { s.events.recs[m] with
            pending := s.events.recs[m].pending && decide (m ≠ n), noticed := t.events.recs[m].noticed }) ∧
          (atnAsserted t = true ↔ ∃ m : Fin 28, m ≠ n ∧ s.events.recs[m].enabled = true ∧ s.events.recs[m].pending = true) ∧
          KeptBut [.events] s t
      else if s.events.recs[n].pending = true then
        Answered tag 0x62#8 .stale false [source, s.events.recs[n].count, 1#8] s t ∧ KeptBut [] s t
      else Answered tag 0x62#8 .ok false [source, s.events.recs[n].count, 0#8] s t ∧ KeptBut [] s t)

/-- NOTICE_ORDER (R151): three groups, each named once, become the notice order; anything else is refused. -/
def Obligations.NoticeOrderTakesThreeGroups : Prop :=
  ∀ (tag a b c : Byte) (s : State), Ready s →
    ∃ t, exec (.noticeOrder tag [a, b, c]) s = .next t ∧
      if a.toNat ≤ 2 ∧ b.toNat ≤ 2 ∧ c.toNat ≤ 2 ∧ a ≠ b ∧ a ≠ c ∧ b ≠ c then
        Answered tag 0x63#8 .ok false [a, b, c] s t ∧
          [some t.events.order.first, some t.events.order.second, some t.events.order.third] =
            [noticeGroupOf a, noticeGroupOf b, noticeGroupOf c] ∧
          (∀ n : Fin 28, t.events.recs[n] = { s.events.recs[n] with noticed := t.events.recs[n].noticed }) ∧
          KeptBut [.events] s t
      else Answered tag 0x63#8 .badValue false [] s t ∧ KeptBut [] s t

/-! ## The Setting Store, resets and the link -/

/-- STORE_SAVE and STORE_ERASE that pass their checks, and the end of an operation once its shortest time has passed; and the
refusals of the two requests in their order (R166, R167). -/
def Obligations.StoreOperationsBeginAndEnd : Prop :=
  (∀ s : State,
      (∀ (tag block limit : Byte) (n : Fin 9), Ready s → block.toNat = n.val → (n = 0 → limit.toNat ≤ 9) →
        s.store.op = none → s.faults.present.supplyLow = false → s.store.limit ≤ n.val →
        (∃ t, exec (.storeSave tag [block, limit]) s = .next t ∧ Answered tag 0x70#8 .ok false [block] s t ∧
          t.store = { s.store with op := some ⟨.writing (snapshot n limit.toNat s), s.stamp, s.freeIndex⟩ } ∧
          t.stamp = s.stamp ∧ t.phase = s.phase ∧ t.pending = s.pending ∧ KeptBut [.clock, .store] s t) ∧
        (∃ t, exec (.storeErase tag [block]) s = .next t ∧ Answered tag 0x71#8 .ok false [] s t ∧
          t.store = { s.store with op := some ⟨.erasing n, s.stamp, s.freeIndex⟩ } ∧
          t.stamp = s.stamp ∧ t.phase = s.phase ∧ t.pending = s.pending ∧ KeptBut [.clock, .store] s t)) ∧
      (∀ o : StoreOp, s.phase = .running → s.store.op = some o → reached s.stamp (o.since + 5000#32) = true →
        ∃ t, exec .storeOperationEnd s = .next t ∧
          t.store = { s.store with
            op := none, lastOp := some ⟨workBlock o.work, .done⟩,
            blocks := match o.work with
              | .writing c => writeBlock c s.store.blocks
              | .erasing n => eraseBlock n s.store.blocks,
            limit := match o.work with
              | .writing (.header c) => c.limit
              | _ => s.store.limit } ∧
          Raised [.storeDone] s t ∧ KeptBut [.store, .events] s t)) ∧
  (∀ (tag block limit : Byte) (s : State), Ready s →
      (8 < block.toNat ∨ s.store.op.isSome = true ∨ s.faults.present.supplyLow = true ∨ block.toNat < s.store.limit) →
      ∃ c : Code, c = (if 8 < block.toNat then .badValue else if s.store.op.isSome then .busy
          else if s.faults.present.supplyLow then .wrongState else .protected_) ∧
        (block.toNat = 0 → limit.toNat ≤ 9 → ∃ t, exec (.storeSave tag [block, limit]) s = .next t ∧
          Answered tag 0x70#8 c false [] s t ∧ KeptBut [] s t) ∧
        (block.toNat ≠ 0 → ∃ t, exec (.storeSave tag [block, limit]) s = .next t ∧
          Answered tag 0x70#8 c false [] s t ∧ KeptBut [] s t) ∧
        (∃ t, exec (.storeErase tag [block]) s = .next t ∧ Answered tag 0x71#8 c false [] s t ∧ KeptBut [] s t))

/-- RESTART is refused BUSY during an operation and otherwise answered OK, after which the restart waits for its reply to leave;
FULL_RESET holds the part at once; START_UP and RESTART_BEGIN of a part with an unprepared header run the start-up sequence
(R161, R167, R169, R171).  The stamp it ends at is a free value (notes/assumptions/7); that the skipped flag of the store is set
for an unprepared header is the model's reading (notes/assumptions/25).  Among the reset values the model's choice, not the
spec's, are the stored pair of the decoder, low and low (notes/assumptions/20), the link's stamp of the last character, 0 (9),
the Cue Table's own lead point (27), the empty hand-over lists (4), and the marks of what a stamp has taken (6, 22). -/
def Obligations.ResetsTakeResetValues : Prop :=
  ∀ s : State,
    (∀ tag : Byte, Ready s → ∃ t, exec (.restart tag []) s = .next t ∧
      (s.store.op.isSome = true → Answered tag 0x7F#8 .busy false [] s t ∧ KeptBut [] s t) ∧
      (s.store.op = none → Answered tag 0x7F#8 .ok false [] s t ∧ LinkIs { s.link with restarting := true } t ∧
        KeptBut [.link] s t)) ∧
    (∃ t, exec .fullReset s = .next t ∧ t.phase = .held ∧ IsReset s.link.rate 0#32 s t ∧
      t.store = SettingStore.reset (match s.store.op with
        | some o => spoilBlock (workBlock o.work) s.store.blocks
        | none => s.store.blocks)) ∧
    (∀ cfg0 cfg1 cfg2 : Bool, s.phase = .held → headerPrepared s.store.blocks = false →
      ∃ t, exec (.startUp cfg0 cfg1 cfg2) s = .next t ∧ t.phase = .running ∧ t.stamp.toNat ≤ 3000 ∧
        IsReset (if cfg1 then if cfg0 then .b921600 else .b460800 else if cfg0 then .b230400 else .b115200)
          t.stamp s t ∧
        t.store = SettingStore.reset s.store.blocks) ∧
    (s.phase = .running → s.link.restarting = true → s.link.replies = [] → s.link.tx = none →
      headerPrepared s.store.blocks = false →
      ∃ t, exec .restartBegin s = .next t ∧ t.phase = .running ∧ t.stamp.toNat ≤ 3000 ∧
        IsReset s.link.rate t.stamp s t ∧ t.store = SettingStore.reset s.store.blocks)

/-- The autoload of a prepared store, at START_UP and at RESTART_BEGIN (R169 to R171): the protected limit; with CFG2 high at
START_UP every result SKIPPED and every block at its reset values; otherwise every VALID block by its own rule, with PARTIAL for
INPUTS, CAPTURE and CAMS, and every EMPTY or BAD one at its reset values (Autoloaded).  The stamp it ends at is a free value
(notes/assumptions/7).  Among the reset values the model's choice, not the spec's, are the stored pair of the decoder under
TIMEBASE, low and low (notes/assumptions/20), the link's stamp of the last character, 0 (9), the Cue Table's own lead point (27),
the empty hand-over lists (4), and the marks of what a stamp has taken (6, 22). -/
def Obligations.AutoloadAppliesValidBlocks : Prop :=
  ∀ (h : HeaderContent) (s : State), s.store.blocks.header = .valid h → h.signed = true →
    (∀ cfg0 cfg1 : Bool, s.phase = .held →
      (∃ t, exec (.startUp cfg0 cfg1 true) s = .next t ∧ t.phase = .running ∧ t.stamp.toNat ≤ 3000 ∧
        IsReset (strapRate cfg1 cfg0) t.stamp s t ∧
        t.store = ⟨s.store.blocks, none, none, h.limit, Vector.replicate 8 .skipped, true⟩) ∧
      ∃ t, exec (.startUp cfg0 cfg1 false) s = .next t ∧ Autoloaded (strapRate cfg1 cfg0) h.limit s t) ∧
    (s.phase = .running → s.link.restarting = true → s.link.replies = [] → s.link.tx = none →
      ∃ t, exec .restartBegin s = .next t ∧ Autoloaded s.link.rate h.limit s t)

/-- Requests that fail a check are answered and change nothing: a request of unknown kind, one whose body has not the length its
kind calls for (R158, R173), and, each with the code of the first check that fails, AXIS_SETUP (R12), AXIS_HOME (R14), CUE_PUT
(R30), CUE_CANCEL (R37), CAPTURE_SETUP (R74), GROUP_PUT (R84), CAM_LOAD (R102), LINE_SETUP (R117) and INPUT_SETUP (R125). -/
def Obligations.UnknownKindAndBadLengthChangeNothing : Prop :=
  ∀ s : State, Ready s →
    (∀ f : Frame,
      (f.kind ∉ knownKinds → ∃ t, exec (.unknownKindRequest f.tag f.kind f.body) s = .next t ∧
        newestReply t = some ⟨f.tag, if f.kind.toNat < 128 then f.kind + 0x80#8 else 0xFF#8,
          [0x01#8, 0x00#8] ++ be16 s.link.errors⟩ ∧ KeptBut [] s t) ∧
      (f.kind ∈ knownKinds → f.body.length ≤ 248 → lengthCalledFor f.kind f.body ≠ some f.body.length →
        ∃ t, exec f.command s = .next t ∧ Answered f.tag f.kind .badLength false [] s t ∧ KeptBut [] s t)) ∧
    (∀ (tag source k m3 m2 m1 m0 : Byte) (m : Nat), m = num32 m3 m2 m1 m0 →
      RefusedInOrder (.axisSetup tag [source, k, m3, m2, m1, m0]) tag 0x01#8
        [(s.seq.state ≠ .idle, .wrongState),
          (2 < source.toNat ∨ 12 < k.toNat ∨ m < 16 ∨ 4000000 < m, .badValue),
          (source ≠ 2#8 ∧ (s.ins[0].fn ∉ [.general, .axisA, .axisB] ∨ s.ins[1].fn ∉ [.general, .axisA, .axisB]), .inUse),
          ((∃ b ∈ boundSet s, m ≤ b) ∨ queuedGroups s.cues ≠ [] ∨ m ≤ s.axis.current.pos ∨ m ≤ s.axis.lead.pos,
            .conflict)] s) ∧
    (∀ tag p3 p2 p1 p0 : Byte, RefusedInOrder (.axisHome tag [p3, p2, p1, p0]) tag 0x05#8
        [(s.seq.state ≠ .idle ∨ s.axis.cfg.source = .timebase, .wrongState),
          (AboveModuli s.axis (num32 p3 p2 p1 p0), .badValue), (s.ins[2].fn ∉ [.general, .index], .inUse)] s) ∧
    (∀ tag slot l1 l0 action c1 c0 p3 p2 p1 p0 options w1 w0 count period late : Byte,
      RefusedInOrder
        (.cuePut tag [slot, l1, l0, action, c1, c0, p3, p2, p1, p0, options, w1, w0, count, period, late]) tag 0x10#8
        [(s.seq.state = .safe, .wrongState),
          (CueOutOfRange (word16 l1 l0) action options (num16 w1 w0) count period ∨ 2 < late.toNat ∨
            AboveModuli s.axis (num32 p3 p2 p1 p0), .badValue),
          (slotFree s.cues slot.toFin = false, .slotBusy), (NotCueOwned (word16 l1 l0) s, .wrongOwner)] s) ∧
    (∀ tag slot : Byte, RefusedInOrder (.cueCancel tag [slot]) tag 0x12#8
        [(slotFree s.cues slot.toFin = true, .notFound)] s) ∧
    (∀ tag channel enable input edge gate a3 a2 a1 a0 b3 b2 b1 b0 n3 n2 n1 n0 : Byte,
      RefusedInOrder (.captureSetup tag
          [channel, enable, input, edge, gate, a3, a2, a1, a0, b3, b2, b1, b0, n3, n2, n1, n0]) tag 0x30#8
        [(3 < channel.toNat ∨ 1 < enable.toNat ∨ 8 < input.toNat ∨ 2 < edge.toNat ∨ 1 < gate.toNat ∨
            (enable = 1#8 ∧ input = 8#8) ∨
            (gate = 1#8 ∧ (num32 a3 a2 a1 a0 = num32 b3 b2 b1 b0 ∨
              ∃ p ∈ [num32 a3 a2 a1 a0, num32 b3 b2 b1 b0, num32 n3 n2 n1 n0], AboveModuli s.axis p)), .badValue),
          (∃ ch : Fin 4, channel.toNat = ch.val ∧ s.cues.queues[ch] ≠ [], .inUse),
          (∃ (ch : Fin 4) (n : Fin 8), channel.toNat = ch.val ∧ input.toNat = n.val ∧
            s.ins[n].fn ∉ [.general, .capture ch], .inUse)] s) ∧
    (∀ (tag number channel policy n : Byte) (rest : List Byte), rest.length = 13 * n.toNat → rest.length ≤ 244 →
      RefusedInOrder (.groupPut tag (number :: channel :: policy :: n :: rest)) tag 0x11#8
        [(s.seq.state = .safe ∨ s.axis.staged ≠ none, .wrongState),
          (31 < number.toNat ∨ 3 < channel.toNat ∨ 1 < policy.toNat ∨ n = 0#8 ∨ 16 < n.toNat ∨
            (∀ ch : Fin 4, channel.toNat = ch.val → s.capture.channels[ch].cfg.enabled = false) ∨
            ∃ x ∈ specificationsOf rest, CueOutOfRange x.lines x.action x.options x.width x.count x.period ∨
              4000000 < x.offset ∨ 32767 * s.axis.cfg.modulus ≤ x.offset, .badValue),
          (∃ g ∈ queuedGroups s.cues, g.number.val = number.toNat, .groupBusy),
          (∃ ch : Fin 4, channel.toNat = ch.val ∧ 8 ≤ s.cues.queues[ch].length, .queueFull),
          ((∃ x ∈ specificationsOf rest, slotFree s.cues x.slot.toFin = false) ∨
            ¬ ((specificationsOf rest).map (·.slot)).Nodup, .slotBusy),
          (∃ x ∈ specificationsOf rest, NotCueOwned x.lines s, .wrongOwner)] s) ∧
    (∀ (tag track options t1 t0 kind c : Byte) (rest : List Byte), rest.length = 8 * c.toNat → rest.length ≤ 242 →
      RefusedInOrder (.camLoad tag (track :: options :: t1 :: t0 :: kind :: c :: rest)) tag 0x38#8
        [(options.getLsbD 0 = true ∧ s.seq.state ≠ .idle, .wrongState),
          (7 < track.toNat ∨ 1 < options.toNat ∨ 10000 < num16 t1 t0 ∨ 2 < kind.toNat ∨
            (kind = 2#8 ∧ (c = 0#8 ∨ 4 < c.toNat)) ∨ (kind ≠ 2#8 ∧ c ≠ 0#8) ∨
            ∃ w ∈ windowsOf rest, w.on = w.off ∨ AboveModuli s.axis w.on ∨ AboveModuli s.axis w.off, .badValue)] s) ∧
    (∀ tag line owner polarity driver safe time : Byte,
      RefusedInOrder (.lineSetup tag [line, owner, polarity, driver, safe, time]) tag 0x40#8
        [(15 < line.toNat ∨ 10 < owner.toNat ∨ 1 < polarity.toNat ∨ 2 < driver.toNat ∨ 2 < safe.toNat, .badValue)] s) ∧
    (∀ tag input fn mode filter : Byte, RefusedInOrder (.inputSetup tag [input, fn, mode, filter]) tag 0x44#8
        [(7 < input.toNat ∨ 1 < fn.toNat ∨ 3 < mode.toNat, .badValue),
          (∃ n : Fin 8, input.toNat = n.val ∧ s.ins[n].fn ∉ [.general, .freeze], .inUse)] s)

/-- The receiver, character by character, with framing errors and the gap timer (R153, R156, R157). -/
def Obligations.ReceiverFollowsItsTable : Prop :=
  ∀ (b : Byte) (s : State), s.phase = .running →
    (∃ t, exec (.receiveCharacter b false) s = .next t ∧ KeptBut [.link] s t ∧
      LinkIs { s.link with rx := .hunt, lastChar := s.stamp, errors := min (s.link.errors + 1) 65535 } t) ∧
    (s.link.rx = .hunt → ∃ t, exec (.receiveCharacter b true) s = .next t ∧ KeptBut [.link] s t ∧
      LinkIs { s.link with rx := if b = 0x7E#8 then .length else .hunt, lastChar := s.stamp } t) ∧
    (s.link.rx = .length → ∃ t, exec (.receiveCharacter b true) s = .next t ∧ KeptBut [.link] s t ∧
      LinkIs (if 2 ≤ b.toNat ∧ b.toNat ≤ 250 then { s.link with rx := .body b.toNat [], lastChar := s.stamp }
        else { s.link with rx := .hunt, lastChar := s.stamp, errors := min (s.link.errors + 1) 65535 }) t) ∧
    (∀ (m : Nat) (got : List Byte), s.link.rx = .body m got →
      ∃ t, exec (.receiveCharacter b true) s = .next t ∧ KeptBut [.link] s t ∧
        LinkIs { s.link with
          rx := if got.length + 1 < m then .body m (got ++ [b]) else .check (got ++ [b]) none,
          lastChar := s.stamp } t) ∧
    (∀ counted : List Byte, s.link.rx = .check counted none →
      ∃ t, exec (.receiveCharacter b true) s = .next t ∧ KeptBut [.link] s t ∧
        LinkIs { s.link with rx := .check counted (some b), lastChar := s.stamp } t) ∧
    (∀ (tag kind high : Byte) (body : List Byte), s.link.rx = .check (tag :: kind :: body) (some high) →
      ∃ t, exec (.receiveCharacter b true) s = .next t ∧ KeptBut [.link] s t ∧
        if Frame.check ⟨tag, kind, body⟩ = high ++ b then
          LinkIs (if s.link.inbound.length < 4 then
              { s.link with
                rx := .hunt, lastChar := s.stamp, inbound := s.link.inbound ++ [⟨tag, kind, body⟩] }
            else { s.link with rx := .hunt, lastChar := s.stamp, errors := min (s.link.errors + 1) 65535 }) t ∧
          t.link.silenceStamp = s.stamp ∧ t.link.silenceExpired = false ∧ t.link.silent = false
        else LinkIs { s.link with rx := .hunt, lastChar := s.stamp, errors := min (s.link.errors + 1) 65535 } t) ∧
    (s.link.rx ≠ .hunt → reached s.stamp (s.link.lastChar + 4000#32) = true →
      ∃ t, exec .gapTimerExpiry s = .next t ∧ KeptBut [.link] s t ∧
        LinkIs { s.link with rx := .hunt, errors := min (s.link.errors + 1) 65535 } t)

/-- The end of a frame on TXD: the oldest reply goes next, otherwise the notice chosen by the notice order, and no notice once
RESTART has been taken (R146, R147, R160, R161); and the summary of a notice as section 11.6 lays it out (R148). -/
def Obligations.TransmitterSendsRepliesThenNotices : Prop :=
  (∀ (x : Sending) (s : State), s.phase = .running → s.link.tx = some x →
    (∀ f rest, s.link.replies = f :: rest → ∃ t, exec .frameSent s = .next t ∧ t.link.tx = some ⟨f, s.stamp⟩ ∧
      t.link.replies = rest ∧ t.events = s.events ∧ KeptBut [] s t) ∧
    (s.link.replies = [] → (s.link.restarting = true ∨ ∀ n : Fin 28, due s.events.recs[n] = false) →
      ∃ t, exec .frameSent s = .next t ∧ t.link.tx = none ∧ t.link.replies = [] ∧ t.events = s.events ∧
        KeptBut [] s t) ∧
    (∀ n : Fin 28, s.link.replies = [] → s.link.restarting = false → NextNoticed s.events n →
      s.events.order.first ≠ s.events.order.second → s.events.order.first ≠ s.events.order.third →
      s.events.order.second ≠ s.events.order.third →
      ∃ t, exec .frameSent s = .next t ∧
        t.link.tx = some ⟨⟨0x00#8, 0xEE#8, byteOf n.val :: s.events.recs[n].count :: noticeSummary s n⟩, s.stamp⟩ ∧
        t.link.replies = [] ∧
        (∀ m : Fin 28, t.events.recs[m] = { s.events.recs[m] with
          noticed := if m = n then s.events.recs[n].count else s.events.recs[m].noticed }) ∧
        KeptBut [] s t)) ∧
  (∀ (s : State) (n : Fin 28),
    (∀ (ch : Fin 4) r, n.val = ch.val → s.capture.channels[ch].latest = some r →
      noticeSummary s n = layout (captureFields r)) ∧
    (∀ (ch : Fin 4) m, n.val = 4 + ch.val → s.capture.channels[ch].lastMiss = some m →
      noticeSummary s n = layout [(1, missCode m.result), (1, m.group.isSome.toNat), (1, (m.group.map (·.val)).getD 0),
        (2, m.cycle.toNat), (9, 0)]) ∧
    (∀ r, n = 26 → s.faults.primary = some r → noticeSummary s n = layout [(1, kindCode r.kind), (13, 0)]) ∧
    (∀ o, n = 27 → s.store.lastOp = some o →
      noticeSummary s n = layout [(1, o.block.val), (1, resultCode o.result), (12, 0)]) ∧
    (8 ≤ n.val → n ≠ 26 → n ≠ 27 → noticeSummary s n = layout [(14, 0)]))

/-- The silence timer runs out: the expired flag is set, and outside IDLE LINK_SILENT is reported (R162).  A good frame ends
LINK_SILENT (R157), at once, or behind a beginning that still waits (the model's reading, notes/assumptions/19).  A fault that
leaves IDLE with the expired flag set begins LINK_SILENT late (R162). -/
def Obligations.SilenceExpirySetsFlag : Prop :=
  (∀ s : State, s.phase = .running → s.link.silenceLimit ≠ 0 → s.link.silenceExpired = false →
    reached s.stamp (s.link.silenceStamp + BitVec.ofNat 32 (1000 * s.link.silenceLimit)) = true →
    ∃ t, exec .silenceExpiry s = .next t ∧ t.link.silenceExpired = true ∧
      t.link.silenceStamp = s.link.silenceStamp ∧
      (s.seq.state = .idle → t.link.silent = s.link.silent) ∧
      (s.seq.state ≠ .idle → t.link.silent = true ∧
        (s.link.silent = false → plainReport .linkSilent true ∈ t.faults.inbox)) ∧
      KeptBut [] s t) ∧
  (∀ (b high tag kind : Byte) (body : List Byte) (s : State), s.phase = .running → s.link.silent = true →
    s.link.rx = .check (tag :: kind :: body) (some high) → Frame.check ⟨tag, kind, body⟩ = high ++ b →
    ∃ t, exec (.receiveCharacter b true) s = .next t ∧ t.link.silent = false ∧ t.link.silenceExpired = false ∧
      t.link.silenceStamp = s.stamp ∧
      (reportWaits s .linkSilent = false →
        t.faults.present.linkSilent = false ∧ reportWaits t .linkSilent = false) ∧
      (reportWaits s .linkSilent = true → t.faults.present.linkSilent = s.faults.present.linkSilent ∧
        plainReport .linkSilent false ∈ t.faults.inbox) ∧ KeptBut [.link] s t) ∧
  (∀ (cond : Condition) (r : Report) (s : State), s.phase = .running → nextReport s cond = some r → r.begins = true →
    s.seq.state = .idle → cond ≠ .overspeed → cond ≠ .reverseLimit → cond ≠ .linkSilent →
    s.link.silenceExpired = true → s.link.silent = false →
    ∃ t, exec (.conditionBegin cond) s = .next t ∧ t.seq.state = .safe ∧ t.link.silent = true ∧
      plainReport .linkSilent true ∈ t.faults.inbox)

/-- A well-formed request reaches the part as its frame, sent byte by byte; with another check it is dropped and the error count
rises by one (R155 to R157).  A request at the head of the inbound queue is taken while the reply queue has room and no RESTART
has been taken, and gets one reply; with either wanting, or behind another frame, a request that arrives waits at the tail of the
queue, or is discarded by a full one (R157, R158, R161).  That a request command takes the frame at the head, and else stands for
a frame that arrives, is the model's choice (notes/assumptions/1). -/
def Obligations.RequestSentByBytesIsReceived : Prop :=
  (∀ (c : Instr) (f : Frame) (s : State), c.wf = true → c.frame = some f → s.phase = .running →
    s.link.rx = .hunt → s.link.inbound.length < 4 →
    f.command = c ∧
    (∃ t, Runs (f.bytes.map fun b => .receiveCharacter b true) s t ∧
      LinkIs { s.link with lastChar := s.stamp, inbound := s.link.inbound ++ [f] } t ∧ KeptBut [.link] s t) ∧
    (∀ high low : Byte, high ++ low ≠ f.check →
      ∃ t, Runs ((0x7E#8 :: f.length :: f.counted ++ [high, low]).map fun b => .receiveCharacter b true) s t ∧
        LinkIs { s.link with lastChar := s.stamp, errors := min (s.link.errors + 1) 65535 } t ∧
        KeptBut [.link] s t)) ∧
  (∀ (c : Instr) (f : Frame) (rest : List Frame) (s : State), c.wf = true → c.frame = some f → s.phase = .running →
    s.link.inbound = f :: rest → s.link.replies.length < 4 → s.link.restarting = false →
    (∀ r ∈ s.faults.inbox, r.cond = .linkSilent → r.begins = true) →
    ∃ t, exec c s = .next t ∧ t.link.inbound = rest ∧ t.link.errors = s.link.errors ∧
      ∃ r : Frame, newestReply t = some r ∧ r.tag = f.tag ∧
        r.kind = (if f.kind.toNat < 128 then f.kind + 0x80#8 else 0xFF#8)) ∧
  (∀ (c : Instr) (f : Frame) (s : State), c.wf = true → c.frame = some f → s.phase = .running →
    (4 ≤ s.link.replies.length ∨ s.link.restarting = true ∨ ∃ g, s.link.inbound.head? = some g ∧ g ≠ f) →
    ∃ t, exec c s = .next t ∧
      LinkIs (if s.link.inbound.length < 4 then { s.link with inbound := s.link.inbound ++ [f] }
        else { s.link with errors := min (s.link.errors + 1) 65535 }) t ∧
      (s.link.tx.isSome = true → t.link.tx = s.link.tx ∧ t.link.replies = s.link.replies) ∧ KeptBut [.link] s t)

/-! ## Invariants -/

/-- The invariants hold at reset; the reset values are those of the spec for every block (R21, R47, R72, R96, R109, R127, R142,
R152, R163, R169), for the store as shipped and the pins low (notes/assumptions/9, 10).  The stored pair of the decoder is the
model's choice (notes/assumptions/20), and so are the link's stamp of the last character (9), the Cue Table's own lead point (27),
the skipped flag of the shipped store (25), the empty hand-over lists (4), and the marks and the absent checkpoint of what a
stamp has taken (6, 22). -/
def Obligations.ResetStateMeetsInvariants : Prop :=
  SeqInv State.reset ∧ RoomInv State.reset ∧ LineInv State.reset ∧ AxisInv State.reset ∧ SlotInv State.reset ∧
    State.reset.seq.state = .idle ∧ State.reset.axis.cfg = ⟨.timebase, 0, 3600, 0⟩ ∧
    State.reset.axis.running = false ∧ State.reset.cues.lowMark = 0 ∧ State.reset.cues.highMark = 256 ∧
    freeCount State.reset.cues = 256 ∧ State.reset.faults.count = 0#16 ∧ atnAsserted State.reset = false ∧
    (∀ n : Fin 16, drive State.reset State.reset.outs.lines[n] = .released) ∧
    State.reset.axis = Axis.reset ∧ State.reset.cues = CueTable.reset ∧ State.reset.seq = Sequencer.reset ∧
    State.reset.capture = CaptureUnit.reset ∧ State.reset.cams = CamUnit.reset ∧
    State.reset.faults = FaultMonitor.reset ∧ State.reset.events = EventUnit.reset ∧
    State.reset.checkpoint = none ∧ State.reset.supply.level = 0 ∧ State.reset.outs.arrivals = [] ∧
    Axis.reset = {
      cfg := ⟨.timebase, 0, 3600, 0⟩, running := false, staged := none, current := ⟨0#16, 0⟩, lead := ⟨0#16, 0⟩
      netCount := 0, speed := 0, nextSample := 1000#32, pairA := false, pairB := false, takenA := false
      takenB := false, timebaseTaken := false, homing := false, reverseLimit := 0, speedLimit := 0
      overspeed := false, reversed := false } ∧
    CueTable.reset = ⟨[], #v[[], [], [], []], ⟨0#16, 0⟩, 0, 256, []⟩ ∧
    Sequencer.reset = ⟨.idle, false, false, false, []⟩ ∧ CaptureUnit.reset.arrivals = [] ∧
    (∀ ch : Fin 4, CaptureUnit.reset.channels[ch] = ⟨⟨false, none, .rising, .always⟩, .closed, 0, [], none, none⟩) ∧
    CamUnit.reset.boundaries = 0 ∧
    (∀ n : Fin 8, CamUnit.reset.tracks[n] = ⟨.empty, .empty, .a, false, 0, false, 0, 0⟩) ∧
    (∀ sampled : Bool,
      OutLine.reset sampled = ⟨⟨.nobody, .activeHigh, .off, .inactive, 0⟩, false, false, false, none, .agree, sampled⟩) ∧
    (∀ n : Fin 16, State.reset.outs.lines[n] = OutLine.reset false) ∧
    (∀ raw : Bool, InLine.reset raw = ⟨.general, .never, 0, raw, raw, none⟩) ∧
    (∀ n : Fin 8, State.reset.ins[n] = InLine.reset false) ∧
    FaultMonitor.reset = ⟨0#16, none, 0#8, ⟨false, false, false, false, 0#16⟩, false, []⟩ ∧
    (∀ n : Fin 28, EventUnit.reset.recs[n] = ⟨false, false, 0#8, 0#8⟩) ∧
    EventUnit.reset.order = ⟨.capture, .schedule, .general⟩ ∧
    (∀ (rate : LinkRate) (now : Stamp), Link.reset rate now = {
      rate := rate, rx := .hunt, lastChar := 0#32, inbound := [], replies := [], tx := none, errors := 0
      silenceStamp := now, silenceExpired := false, silenceLimit := 0, silent := false, restarting := false }) ∧
    ∀ b : Blocks, SettingStore.reset b = ⟨b, none, none, 0, Vector.replicate 8 .skipped, true⟩

/-- Every step keeps the hold reasons and FLT# in accord with the sequencer state (R48, R134). -/
def Obligations.StepKeepsReasonsAndFaultPin : Prop := KeptByStep SeqInv

/-- Every step keeps every log and queue within its room (R67, R82, R83, R157, R158). -/
def Obligations.StepKeepsLogsAndQueuesInRoom : Prop := KeptByStep RoomInv

/-- Every step keeps the levels and trails of the lines in accord with their owners (R110, R117, R133). -/
def Obligations.StepKeepsLineLevels : Prop := KeptByStep LineInv

/-- Every step keeps every position and bound below the modulus in force and a staged one (R10, R11, R12), also as the part would
stand with the first edge of the decoder at the present stamp taken again (the model's, notes/assumptions/6). -/
def Obligations.StepKeepsPositionsBelowModuli : Prop := KeptByStep AxisInv

/-- Every step keeps each slot in one place and each group number in one queue (R22, R25). -/
def Obligations.StepKeepsSlotsInOnePlace : Prop := KeptByStep SlotInv
end

