-- ==== Sys2Proof/Laws/State.lean ====
section
/-! SUPPORT. One lemma per field per update of State, each true by rfl. -/

namespace Sys2Proof.Machine

@[simp] theorem State.onAxis_pending (s : State) (f : Axis → Axis) : (s.onAxis f).pending = s.pending := rfl
@[simp] theorem State.onAxis_phase (s : State) (f : Axis → Axis) : (s.onAxis f).phase = s.phase := rfl
@[simp] theorem State.onAxis_stamp (s : State) (f : Axis → Axis) : (s.onAxis f).stamp = s.stamp := rfl
@[simp] theorem State.onAxis_axis (s : State) (f : Axis → Axis) : (s.onAxis f).axis = f s.axis := rfl
@[simp] theorem State.onAxis_cues (s : State) (f : Axis → Axis) : (s.onAxis f).cues = s.cues := rfl
@[simp] theorem State.onAxis_seq (s : State) (f : Axis → Axis) : (s.onAxis f).seq = s.seq := rfl
@[simp] theorem State.onAxis_capture (s : State) (f : Axis → Axis) : (s.onAxis f).capture = s.capture := rfl
@[simp] theorem State.onAxis_cams (s : State) (f : Axis → Axis) : (s.onAxis f).cams = s.cams := rfl
@[simp] theorem State.onAxis_outs (s : State) (f : Axis → Axis) : (s.onAxis f).outs = s.outs := rfl
@[simp] theorem State.onAxis_ins (s : State) (f : Axis → Axis) : (s.onAxis f).ins = s.ins := rfl
@[simp] theorem State.onAxis_faults (s : State) (f : Axis → Axis) : (s.onAxis f).faults = s.faults := rfl
@[simp] theorem State.onAxis_supply (s : State) (f : Axis → Axis) : (s.onAxis f).supply = s.supply := rfl
@[simp] theorem State.onAxis_events (s : State) (f : Axis → Axis) : (s.onAxis f).events = s.events := rfl
@[simp] theorem State.onAxis_link (s : State) (f : Axis → Axis) : (s.onAxis f).link = s.link := rfl
@[simp] theorem State.onAxis_store (s : State) (f : Axis → Axis) : (s.onAxis f).store = s.store := rfl
@[simp] theorem State.onAxis_freeIndex (s : State) (f : Axis → Axis) : (s.onAxis f).freeIndex = s.freeIndex := rfl
@[simp] theorem State.onAxis_checkpoint (s : State) (f : Axis → Axis) : (s.onAxis f).checkpoint = s.checkpoint := rfl

@[simp] theorem State.onCues_pending (s : State) (f : CueTable → CueTable) : (s.onCues f).pending = s.pending := rfl
@[simp] theorem State.onCues_phase (s : State) (f : CueTable → CueTable) : (s.onCues f).phase = s.phase := rfl
@[simp] theorem State.onCues_stamp (s : State) (f : CueTable → CueTable) : (s.onCues f).stamp = s.stamp := rfl
@[simp] theorem State.onCues_axis (s : State) (f : CueTable → CueTable) : (s.onCues f).axis = s.axis := rfl
@[simp] theorem State.onCues_cues (s : State) (f : CueTable → CueTable) : (s.onCues f).cues = f s.cues := rfl
@[simp] theorem State.onCues_seq (s : State) (f : CueTable → CueTable) : (s.onCues f).seq = s.seq := rfl
@[simp] theorem State.onCues_capture (s : State) (f : CueTable → CueTable) : (s.onCues f).capture = s.capture := rfl
@[simp] theorem State.onCues_cams (s : State) (f : CueTable → CueTable) : (s.onCues f).cams = s.cams := rfl
@[simp] theorem State.onCues_outs (s : State) (f : CueTable → CueTable) : (s.onCues f).outs = s.outs := rfl
@[simp] theorem State.onCues_ins (s : State) (f : CueTable → CueTable) : (s.onCues f).ins = s.ins := rfl
@[simp] theorem State.onCues_faults (s : State) (f : CueTable → CueTable) : (s.onCues f).faults = s.faults := rfl
@[simp] theorem State.onCues_supply (s : State) (f : CueTable → CueTable) : (s.onCues f).supply = s.supply := rfl
@[simp] theorem State.onCues_events (s : State) (f : CueTable → CueTable) : (s.onCues f).events = s.events := rfl
@[simp] theorem State.onCues_link (s : State) (f : CueTable → CueTable) : (s.onCues f).link = s.link := rfl
@[simp] theorem State.onCues_store (s : State) (f : CueTable → CueTable) : (s.onCues f).store = s.store := rfl
@[simp] theorem State.onCues_freeIndex (s : State) (f : CueTable → CueTable) : (s.onCues f).freeIndex = s.freeIndex := rfl
@[simp] theorem State.onCues_checkpoint (s : State) (f : CueTable → CueTable) : (s.onCues f).checkpoint = s.checkpoint := rfl

@[simp] theorem State.onSeq_pending (s : State) (f : Sequencer → Sequencer) : (s.onSeq f).pending = s.pending := rfl
@[simp] theorem State.onSeq_phase (s : State) (f : Sequencer → Sequencer) : (s.onSeq f).phase = s.phase := rfl
@[simp] theorem State.onSeq_stamp (s : State) (f : Sequencer → Sequencer) : (s.onSeq f).stamp = s.stamp := rfl
@[simp] theorem State.onSeq_axis (s : State) (f : Sequencer → Sequencer) : (s.onSeq f).axis = s.axis := rfl
@[simp] theorem State.onSeq_cues (s : State) (f : Sequencer → Sequencer) : (s.onSeq f).cues = s.cues := rfl
@[simp] theorem State.onSeq_seq (s : State) (f : Sequencer → Sequencer) : (s.onSeq f).seq = f s.seq := rfl
@[simp] theorem State.onSeq_capture (s : State) (f : Sequencer → Sequencer) : (s.onSeq f).capture = s.capture := rfl
@[simp] theorem State.onSeq_cams (s : State) (f : Sequencer → Sequencer) : (s.onSeq f).cams = s.cams := rfl
@[simp] theorem State.onSeq_outs (s : State) (f : Sequencer → Sequencer) : (s.onSeq f).outs = s.outs := rfl
@[simp] theorem State.onSeq_ins (s : State) (f : Sequencer → Sequencer) : (s.onSeq f).ins = s.ins := rfl
@[simp] theorem State.onSeq_faults (s : State) (f : Sequencer → Sequencer) : (s.onSeq f).faults = s.faults := rfl
@[simp] theorem State.onSeq_supply (s : State) (f : Sequencer → Sequencer) : (s.onSeq f).supply = s.supply := rfl
@[simp] theorem State.onSeq_events (s : State) (f : Sequencer → Sequencer) : (s.onSeq f).events = s.events := rfl
@[simp] theorem State.onSeq_link (s : State) (f : Sequencer → Sequencer) : (s.onSeq f).link = s.link := rfl
@[simp] theorem State.onSeq_store (s : State) (f : Sequencer → Sequencer) : (s.onSeq f).store = s.store := rfl
@[simp] theorem State.onSeq_freeIndex (s : State) (f : Sequencer → Sequencer) : (s.onSeq f).freeIndex = s.freeIndex := rfl
@[simp] theorem State.onSeq_checkpoint (s : State) (f : Sequencer → Sequencer) : (s.onSeq f).checkpoint = s.checkpoint := rfl

@[simp] theorem State.onCapture_pending (s : State) (f : CaptureUnit → CaptureUnit) : (s.onCapture f).pending = s.pending := rfl
@[simp] theorem State.onCapture_phase (s : State) (f : CaptureUnit → CaptureUnit) : (s.onCapture f).phase = s.phase := rfl
@[simp] theorem State.onCapture_stamp (s : State) (f : CaptureUnit → CaptureUnit) : (s.onCapture f).stamp = s.stamp := rfl
@[simp] theorem State.onCapture_axis (s : State) (f : CaptureUnit → CaptureUnit) : (s.onCapture f).axis = s.axis := rfl
@[simp] theorem State.onCapture_cues (s : State) (f : CaptureUnit → CaptureUnit) : (s.onCapture f).cues = s.cues := rfl
@[simp] theorem State.onCapture_seq (s : State) (f : CaptureUnit → CaptureUnit) : (s.onCapture f).seq = s.seq := rfl
@[simp] theorem State.onCapture_capture (s : State) (f : CaptureUnit → CaptureUnit) : (s.onCapture f).capture = f s.capture := rfl
@[simp] theorem State.onCapture_cams (s : State) (f : CaptureUnit → CaptureUnit) : (s.onCapture f).cams = s.cams := rfl
@[simp] theorem State.onCapture_outs (s : State) (f : CaptureUnit → CaptureUnit) : (s.onCapture f).outs = s.outs := rfl
@[simp] theorem State.onCapture_ins (s : State) (f : CaptureUnit → CaptureUnit) : (s.onCapture f).ins = s.ins := rfl
@[simp] theorem State.onCapture_faults (s : State) (f : CaptureUnit → CaptureUnit) : (s.onCapture f).faults = s.faults := rfl
@[simp] theorem State.onCapture_supply (s : State) (f : CaptureUnit → CaptureUnit) : (s.onCapture f).supply = s.supply := rfl
@[simp] theorem State.onCapture_events (s : State) (f : CaptureUnit → CaptureUnit) : (s.onCapture f).events = s.events := rfl
@[simp] theorem State.onCapture_link (s : State) (f : CaptureUnit → CaptureUnit) : (s.onCapture f).link = s.link := rfl
@[simp] theorem State.onCapture_store (s : State) (f : CaptureUnit → CaptureUnit) : (s.onCapture f).store = s.store := rfl
@[simp] theorem State.onCapture_freeIndex (s : State) (f : CaptureUnit → CaptureUnit) : (s.onCapture f).freeIndex = s.freeIndex := rfl
@[simp] theorem State.onCapture_checkpoint (s : State) (f : CaptureUnit → CaptureUnit) : (s.onCapture f).checkpoint = s.checkpoint := rfl

@[simp] theorem State.onCams_pending (s : State) (f : CamUnit → CamUnit) : (s.onCams f).pending = s.pending := rfl
@[simp] theorem State.onCams_phase (s : State) (f : CamUnit → CamUnit) : (s.onCams f).phase = s.phase := rfl
@[simp] theorem State.onCams_stamp (s : State) (f : CamUnit → CamUnit) : (s.onCams f).stamp = s.stamp := rfl
@[simp] theorem State.onCams_axis (s : State) (f : CamUnit → CamUnit) : (s.onCams f).axis = s.axis := rfl
@[simp] theorem State.onCams_cues (s : State) (f : CamUnit → CamUnit) : (s.onCams f).cues = s.cues := rfl
@[simp] theorem State.onCams_seq (s : State) (f : CamUnit → CamUnit) : (s.onCams f).seq = s.seq := rfl
@[simp] theorem State.onCams_capture (s : State) (f : CamUnit → CamUnit) : (s.onCams f).capture = s.capture := rfl
@[simp] theorem State.onCams_cams (s : State) (f : CamUnit → CamUnit) : (s.onCams f).cams = f s.cams := rfl
@[simp] theorem State.onCams_outs (s : State) (f : CamUnit → CamUnit) : (s.onCams f).outs = s.outs := rfl
@[simp] theorem State.onCams_ins (s : State) (f : CamUnit → CamUnit) : (s.onCams f).ins = s.ins := rfl
@[simp] theorem State.onCams_faults (s : State) (f : CamUnit → CamUnit) : (s.onCams f).faults = s.faults := rfl
@[simp] theorem State.onCams_supply (s : State) (f : CamUnit → CamUnit) : (s.onCams f).supply = s.supply := rfl
@[simp] theorem State.onCams_events (s : State) (f : CamUnit → CamUnit) : (s.onCams f).events = s.events := rfl
@[simp] theorem State.onCams_link (s : State) (f : CamUnit → CamUnit) : (s.onCams f).link = s.link := rfl
@[simp] theorem State.onCams_store (s : State) (f : CamUnit → CamUnit) : (s.onCams f).store = s.store := rfl
@[simp] theorem State.onCams_freeIndex (s : State) (f : CamUnit → CamUnit) : (s.onCams f).freeIndex = s.freeIndex := rfl
@[simp] theorem State.onCams_checkpoint (s : State) (f : CamUnit → CamUnit) : (s.onCams f).checkpoint = s.checkpoint := rfl

@[simp] theorem State.onOuts_pending (s : State) (f : OutputLines → OutputLines) : (s.onOuts f).pending = s.pending := rfl
@[simp] theorem State.onOuts_phase (s : State) (f : OutputLines → OutputLines) : (s.onOuts f).phase = s.phase := rfl
@[simp] theorem State.onOuts_stamp (s : State) (f : OutputLines → OutputLines) : (s.onOuts f).stamp = s.stamp := rfl
@[simp] theorem State.onOuts_axis (s : State) (f : OutputLines → OutputLines) : (s.onOuts f).axis = s.axis := rfl
@[simp] theorem State.onOuts_cues (s : State) (f : OutputLines → OutputLines) : (s.onOuts f).cues = s.cues := rfl
@[simp] theorem State.onOuts_seq (s : State) (f : OutputLines → OutputLines) : (s.onOuts f).seq = s.seq := rfl
@[simp] theorem State.onOuts_capture (s : State) (f : OutputLines → OutputLines) : (s.onOuts f).capture = s.capture := rfl
@[simp] theorem State.onOuts_cams (s : State) (f : OutputLines → OutputLines) : (s.onOuts f).cams = s.cams := rfl
@[simp] theorem State.onOuts_outs (s : State) (f : OutputLines → OutputLines) : (s.onOuts f).outs = f s.outs := rfl
@[simp] theorem State.onOuts_ins (s : State) (f : OutputLines → OutputLines) : (s.onOuts f).ins = s.ins := rfl
@[simp] theorem State.onOuts_faults (s : State) (f : OutputLines → OutputLines) : (s.onOuts f).faults = s.faults := rfl
@[simp] theorem State.onOuts_supply (s : State) (f : OutputLines → OutputLines) : (s.onOuts f).supply = s.supply := rfl
@[simp] theorem State.onOuts_events (s : State) (f : OutputLines → OutputLines) : (s.onOuts f).events = s.events := rfl
@[simp] theorem State.onOuts_link (s : State) (f : OutputLines → OutputLines) : (s.onOuts f).link = s.link := rfl
@[simp] theorem State.onOuts_store (s : State) (f : OutputLines → OutputLines) : (s.onOuts f).store = s.store := rfl
@[simp] theorem State.onOuts_freeIndex (s : State) (f : OutputLines → OutputLines) : (s.onOuts f).freeIndex = s.freeIndex := rfl
@[simp] theorem State.onOuts_checkpoint (s : State) (f : OutputLines → OutputLines) : (s.onOuts f).checkpoint = s.checkpoint := rfl

@[simp] theorem State.onIns_pending (s : State) (f : Vector InLine 8 → Vector InLine 8) : (s.onIns f).pending = s.pending := rfl
@[simp] theorem State.onIns_phase (s : State) (f : Vector InLine 8 → Vector InLine 8) : (s.onIns f).phase = s.phase := rfl
@[simp] theorem State.onIns_stamp (s : State) (f : Vector InLine 8 → Vector InLine 8) : (s.onIns f).stamp = s.stamp := rfl
@[simp] theorem State.onIns_axis (s : State) (f : Vector InLine 8 → Vector InLine 8) : (s.onIns f).axis = s.axis := rfl
@[simp] theorem State.onIns_cues (s : State) (f : Vector InLine 8 → Vector InLine 8) : (s.onIns f).cues = s.cues := rfl
@[simp] theorem State.onIns_seq (s : State) (f : Vector InLine 8 → Vector InLine 8) : (s.onIns f).seq = s.seq := rfl
@[simp] theorem State.onIns_capture (s : State) (f : Vector InLine 8 → Vector InLine 8) : (s.onIns f).capture = s.capture := rfl
@[simp] theorem State.onIns_cams (s : State) (f : Vector InLine 8 → Vector InLine 8) : (s.onIns f).cams = s.cams := rfl
@[simp] theorem State.onIns_outs (s : State) (f : Vector InLine 8 → Vector InLine 8) : (s.onIns f).outs = s.outs := rfl
@[simp] theorem State.onIns_ins (s : State) (f : Vector InLine 8 → Vector InLine 8) : (s.onIns f).ins = f s.ins := rfl
@[simp] theorem State.onIns_faults (s : State) (f : Vector InLine 8 → Vector InLine 8) : (s.onIns f).faults = s.faults := rfl
@[simp] theorem State.onIns_supply (s : State) (f : Vector InLine 8 → Vector InLine 8) : (s.onIns f).supply = s.supply := rfl
@[simp] theorem State.onIns_events (s : State) (f : Vector InLine 8 → Vector InLine 8) : (s.onIns f).events = s.events := rfl
@[simp] theorem State.onIns_link (s : State) (f : Vector InLine 8 → Vector InLine 8) : (s.onIns f).link = s.link := rfl
@[simp] theorem State.onIns_store (s : State) (f : Vector InLine 8 → Vector InLine 8) : (s.onIns f).store = s.store := rfl
@[simp] theorem State.onIns_freeIndex (s : State) (f : Vector InLine 8 → Vector InLine 8) : (s.onIns f).freeIndex = s.freeIndex := rfl
@[simp] theorem State.onIns_checkpoint (s : State) (f : Vector InLine 8 → Vector InLine 8) : (s.onIns f).checkpoint = s.checkpoint := rfl

@[simp] theorem State.onFaults_pending (s : State) (f : FaultMonitor → FaultMonitor) : (s.onFaults f).pending = s.pending := rfl
@[simp] theorem State.onFaults_phase (s : State) (f : FaultMonitor → FaultMonitor) : (s.onFaults f).phase = s.phase := rfl
@[simp] theorem State.onFaults_stamp (s : State) (f : FaultMonitor → FaultMonitor) : (s.onFaults f).stamp = s.stamp := rfl
@[simp] theorem State.onFaults_axis (s : State) (f : FaultMonitor → FaultMonitor) : (s.onFaults f).axis = s.axis := rfl
@[simp] theorem State.onFaults_cues (s : State) (f : FaultMonitor → FaultMonitor) : (s.onFaults f).cues = s.cues := rfl
@[simp] theorem State.onFaults_seq (s : State) (f : FaultMonitor → FaultMonitor) : (s.onFaults f).seq = s.seq := rfl
@[simp] theorem State.onFaults_capture (s : State) (f : FaultMonitor → FaultMonitor) : (s.onFaults f).capture = s.capture := rfl
@[simp] theorem State.onFaults_cams (s : State) (f : FaultMonitor → FaultMonitor) : (s.onFaults f).cams = s.cams := rfl
@[simp] theorem State.onFaults_outs (s : State) (f : FaultMonitor → FaultMonitor) : (s.onFaults f).outs = s.outs := rfl
@[simp] theorem State.onFaults_ins (s : State) (f : FaultMonitor → FaultMonitor) : (s.onFaults f).ins = s.ins := rfl
@[simp] theorem State.onFaults_faults (s : State) (f : FaultMonitor → FaultMonitor) : (s.onFaults f).faults = f s.faults := rfl
@[simp] theorem State.onFaults_supply (s : State) (f : FaultMonitor → FaultMonitor) : (s.onFaults f).supply = s.supply := rfl
@[simp] theorem State.onFaults_events (s : State) (f : FaultMonitor → FaultMonitor) : (s.onFaults f).events = s.events := rfl
@[simp] theorem State.onFaults_link (s : State) (f : FaultMonitor → FaultMonitor) : (s.onFaults f).link = s.link := rfl
@[simp] theorem State.onFaults_store (s : State) (f : FaultMonitor → FaultMonitor) : (s.onFaults f).store = s.store := rfl
@[simp] theorem State.onFaults_freeIndex (s : State) (f : FaultMonitor → FaultMonitor) : (s.onFaults f).freeIndex = s.freeIndex := rfl
@[simp] theorem State.onFaults_checkpoint (s : State) (f : FaultMonitor → FaultMonitor) : (s.onFaults f).checkpoint = s.checkpoint := rfl

@[simp] theorem State.onSupply_pending (s : State) (f : Supply → Supply) : (s.onSupply f).pending = s.pending := rfl
@[simp] theorem State.onSupply_phase (s : State) (f : Supply → Supply) : (s.onSupply f).phase = s.phase := rfl
@[simp] theorem State.onSupply_stamp (s : State) (f : Supply → Supply) : (s.onSupply f).stamp = s.stamp := rfl
@[simp] theorem State.onSupply_axis (s : State) (f : Supply → Supply) : (s.onSupply f).axis = s.axis := rfl
@[simp] theorem State.onSupply_cues (s : State) (f : Supply → Supply) : (s.onSupply f).cues = s.cues := rfl
@[simp] theorem State.onSupply_seq (s : State) (f : Supply → Supply) : (s.onSupply f).seq = s.seq := rfl
@[simp] theorem State.onSupply_capture (s : State) (f : Supply → Supply) : (s.onSupply f).capture = s.capture := rfl
@[simp] theorem State.onSupply_cams (s : State) (f : Supply → Supply) : (s.onSupply f).cams = s.cams := rfl
@[simp] theorem State.onSupply_outs (s : State) (f : Supply → Supply) : (s.onSupply f).outs = s.outs := rfl
@[simp] theorem State.onSupply_ins (s : State) (f : Supply → Supply) : (s.onSupply f).ins = s.ins := rfl
@[simp] theorem State.onSupply_faults (s : State) (f : Supply → Supply) : (s.onSupply f).faults = s.faults := rfl
@[simp] theorem State.onSupply_supply (s : State) (f : Supply → Supply) : (s.onSupply f).supply = f s.supply := rfl
@[simp] theorem State.onSupply_events (s : State) (f : Supply → Supply) : (s.onSupply f).events = s.events := rfl
@[simp] theorem State.onSupply_link (s : State) (f : Supply → Supply) : (s.onSupply f).link = s.link := rfl
@[simp] theorem State.onSupply_store (s : State) (f : Supply → Supply) : (s.onSupply f).store = s.store := rfl
@[simp] theorem State.onSupply_freeIndex (s : State) (f : Supply → Supply) : (s.onSupply f).freeIndex = s.freeIndex := rfl
@[simp] theorem State.onSupply_checkpoint (s : State) (f : Supply → Supply) : (s.onSupply f).checkpoint = s.checkpoint := rfl

@[simp] theorem State.onEvents_pending (s : State) (f : EventUnit → EventUnit) : (s.onEvents f).pending = s.pending := rfl
@[simp] theorem State.onEvents_phase (s : State) (f : EventUnit → EventUnit) : (s.onEvents f).phase = s.phase := rfl
@[simp] theorem State.onEvents_stamp (s : State) (f : EventUnit → EventUnit) : (s.onEvents f).stamp = s.stamp := rfl
@[simp] theorem State.onEvents_axis (s : State) (f : EventUnit → EventUnit) : (s.onEvents f).axis = s.axis := rfl
@[simp] theorem State.onEvents_cues (s : State) (f : EventUnit → EventUnit) : (s.onEvents f).cues = s.cues := rfl
@[simp] theorem State.onEvents_seq (s : State) (f : EventUnit → EventUnit) : (s.onEvents f).seq = s.seq := rfl
@[simp] theorem State.onEvents_capture (s : State) (f : EventUnit → EventUnit) : (s.onEvents f).capture = s.capture := rfl
@[simp] theorem State.onEvents_cams (s : State) (f : EventUnit → EventUnit) : (s.onEvents f).cams = s.cams := rfl
@[simp] theorem State.onEvents_outs (s : State) (f : EventUnit → EventUnit) : (s.onEvents f).outs = s.outs := rfl
@[simp] theorem State.onEvents_ins (s : State) (f : EventUnit → EventUnit) : (s.onEvents f).ins = s.ins := rfl
@[simp] theorem State.onEvents_faults (s : State) (f : EventUnit → EventUnit) : (s.onEvents f).faults = s.faults := rfl
@[simp] theorem State.onEvents_supply (s : State) (f : EventUnit → EventUnit) : (s.onEvents f).supply = s.supply := rfl
@[simp] theorem State.onEvents_events (s : State) (f : EventUnit → EventUnit) : (s.onEvents f).events = f s.events := rfl
@[simp] theorem State.onEvents_link (s : State) (f : EventUnit → EventUnit) : (s.onEvents f).link = s.link := rfl
@[simp] theorem State.onEvents_store (s : State) (f : EventUnit → EventUnit) : (s.onEvents f).store = s.store := rfl
@[simp] theorem State.onEvents_freeIndex (s : State) (f : EventUnit → EventUnit) : (s.onEvents f).freeIndex = s.freeIndex := rfl
@[simp] theorem State.onEvents_checkpoint (s : State) (f : EventUnit → EventUnit) : (s.onEvents f).checkpoint = s.checkpoint := rfl

@[simp] theorem State.onLink_pending (s : State) (f : Link → Link) : (s.onLink f).pending = s.pending := rfl
@[simp] theorem State.onLink_phase (s : State) (f : Link → Link) : (s.onLink f).phase = s.phase := rfl
@[simp] theorem State.onLink_stamp (s : State) (f : Link → Link) : (s.onLink f).stamp = s.stamp := rfl
@[simp] theorem State.onLink_axis (s : State) (f : Link → Link) : (s.onLink f).axis = s.axis := rfl
@[simp] theorem State.onLink_cues (s : State) (f : Link → Link) : (s.onLink f).cues = s.cues := rfl
@[simp] theorem State.onLink_seq (s : State) (f : Link → Link) : (s.onLink f).seq = s.seq := rfl
@[simp] theorem State.onLink_capture (s : State) (f : Link → Link) : (s.onLink f).capture = s.capture := rfl
@[simp] theorem State.onLink_cams (s : State) (f : Link → Link) : (s.onLink f).cams = s.cams := rfl
@[simp] theorem State.onLink_outs (s : State) (f : Link → Link) : (s.onLink f).outs = s.outs := rfl
@[simp] theorem State.onLink_ins (s : State) (f : Link → Link) : (s.onLink f).ins = s.ins := rfl
@[simp] theorem State.onLink_faults (s : State) (f : Link → Link) : (s.onLink f).faults = s.faults := rfl
@[simp] theorem State.onLink_supply (s : State) (f : Link → Link) : (s.onLink f).supply = s.supply := rfl
@[simp] theorem State.onLink_events (s : State) (f : Link → Link) : (s.onLink f).events = s.events := rfl
@[simp] theorem State.onLink_link (s : State) (f : Link → Link) : (s.onLink f).link = f s.link := rfl
@[simp] theorem State.onLink_store (s : State) (f : Link → Link) : (s.onLink f).store = s.store := rfl
@[simp] theorem State.onLink_freeIndex (s : State) (f : Link → Link) : (s.onLink f).freeIndex = s.freeIndex := rfl
@[simp] theorem State.onLink_checkpoint (s : State) (f : Link → Link) : (s.onLink f).checkpoint = s.checkpoint := rfl

@[simp] theorem State.onStore_pending (s : State) (f : SettingStore → SettingStore) : (s.onStore f).pending = s.pending := rfl
@[simp] theorem State.onStore_phase (s : State) (f : SettingStore → SettingStore) : (s.onStore f).phase = s.phase := rfl
@[simp] theorem State.onStore_stamp (s : State) (f : SettingStore → SettingStore) : (s.onStore f).stamp = s.stamp := rfl
@[simp] theorem State.onStore_axis (s : State) (f : SettingStore → SettingStore) : (s.onStore f).axis = s.axis := rfl
@[simp] theorem State.onStore_cues (s : State) (f : SettingStore → SettingStore) : (s.onStore f).cues = s.cues := rfl
@[simp] theorem State.onStore_seq (s : State) (f : SettingStore → SettingStore) : (s.onStore f).seq = s.seq := rfl
@[simp] theorem State.onStore_capture (s : State) (f : SettingStore → SettingStore) : (s.onStore f).capture = s.capture := rfl
@[simp] theorem State.onStore_cams (s : State) (f : SettingStore → SettingStore) : (s.onStore f).cams = s.cams := rfl
@[simp] theorem State.onStore_outs (s : State) (f : SettingStore → SettingStore) : (s.onStore f).outs = s.outs := rfl
@[simp] theorem State.onStore_ins (s : State) (f : SettingStore → SettingStore) : (s.onStore f).ins = s.ins := rfl
@[simp] theorem State.onStore_faults (s : State) (f : SettingStore → SettingStore) : (s.onStore f).faults = s.faults := rfl
@[simp] theorem State.onStore_supply (s : State) (f : SettingStore → SettingStore) : (s.onStore f).supply = s.supply := rfl
@[simp] theorem State.onStore_events (s : State) (f : SettingStore → SettingStore) : (s.onStore f).events = s.events := rfl
@[simp] theorem State.onStore_link (s : State) (f : SettingStore → SettingStore) : (s.onStore f).link = s.link := rfl
@[simp] theorem State.onStore_store (s : State) (f : SettingStore → SettingStore) : (s.onStore f).store = f s.store := rfl
@[simp] theorem State.onStore_freeIndex (s : State) (f : SettingStore → SettingStore) : (s.onStore f).freeIndex = s.freeIndex := rfl
@[simp] theorem State.onStore_checkpoint (s : State) (f : SettingStore → SettingStore) : (s.onStore f).checkpoint = s.checkpoint := rfl

@[simp] theorem State.forget_pending (s : State) : s.forget.pending = s.pending := rfl
@[simp] theorem State.forget_phase (s : State) : s.forget.phase = s.phase := rfl
@[simp] theorem State.forget_stamp (s : State) : s.forget.stamp = s.stamp := rfl
@[simp] theorem State.forget_axis (s : State) : s.forget.axis = s.axis := rfl
@[simp] theorem State.forget_cues (s : State) : s.forget.cues = s.cues := rfl
@[simp] theorem State.forget_seq (s : State) : s.forget.seq = s.seq := rfl
@[simp] theorem State.forget_capture (s : State) : s.forget.capture = s.capture := rfl
@[simp] theorem State.forget_cams (s : State) : s.forget.cams = s.cams := rfl
@[simp] theorem State.forget_outs (s : State) : s.forget.outs = s.outs := rfl
@[simp] theorem State.forget_ins (s : State) : s.forget.ins = s.ins := rfl
@[simp] theorem State.forget_faults (s : State) : s.forget.faults = s.faults := rfl
@[simp] theorem State.forget_supply (s : State) : s.forget.supply = s.supply := rfl
@[simp] theorem State.forget_events (s : State) : s.forget.events = s.events := rfl
@[simp] theorem State.forget_link (s : State) : s.forget.link = s.link := rfl
@[simp] theorem State.forget_store (s : State) : s.forget.store = s.store := rfl
@[simp] theorem State.forget_freeIndex (s : State) : s.forget.freeIndex = s.freeIndex := rfl
@[simp] theorem State.forget_checkpoint (s : State) : s.forget.checkpoint = none := rfl

end Sys2Proof.Machine
end

