-- ==== Sys2Proof/Laws/Ops.lean ====
section
/-! SUPPORT. What each shared operation does, said once: banks, occurrences, the end of a command, the taking of a request. -/

namespace Sys2Proof.Machine

/-! ## Banks -/

theorem updAt_get {α : Type} {n : Nat} (v : Vector α n) (i j : Fin n) (f : α → α) :
    (updAt v i f)[j] = if i = j then f v[i] else v[j] := by
  simp only [updAt, Fin.getElem_fin, Vector.getElem_set, Fin.ext_iff]

theorem updAt_same {α : Type} {n : Nat} (v : Vector α n) (i : Fin n) (f : α → α) : (updAt v i f)[i] = f v[i] := by
  rw [updAt_get, if_pos rfl]

theorem updAt_other {α : Type} {n : Nat} (v : Vector α n) {i j : Fin n} (f : α → α) (h : i ≠ j) :
    (updAt v i f)[j] = v[j] := by rw [updAt_get, if_neg h]

theorem map_get {α β : Type} {n : Nat} (v : Vector α n) (f : α → β) (i : Fin n) : (v.map f)[i] = f v[i] := by simp

theorem mapIdx_get {α β : Type} {n : Nat} (v : Vector α n) (f : Nat → α → β) (i : Fin n) :
    (v.mapIdx f)[i] = f i.val v[i] := by simp

theorem ofFn_get {α : Type} {n : Nat} (f : Fin n → α) (i : Fin n) : (Vector.ofFn f)[i] = f i := by simp

/-! ## Occurrences and reports -/

theorem raise_events (src : EventSource) (s : State) :
    (raise src s).events = { s.events with recs := updAt s.events.recs (sourceNumber src) occur } := rfl

@[simp] theorem raise_pending (src : EventSource) (s : State) : (raise src s).pending = s.pending := rfl
@[simp] theorem raise_phase (src : EventSource) (s : State) : (raise src s).phase = s.phase := rfl
@[simp] theorem raise_stamp (src : EventSource) (s : State) : (raise src s).stamp = s.stamp := rfl
@[simp] theorem raise_axis (src : EventSource) (s : State) : (raise src s).axis = s.axis := rfl
@[simp] theorem raise_cues (src : EventSource) (s : State) : (raise src s).cues = s.cues := rfl
@[simp] theorem raise_seq (src : EventSource) (s : State) : (raise src s).seq = s.seq := rfl
@[simp] theorem raise_capture (src : EventSource) (s : State) : (raise src s).capture = s.capture := rfl
@[simp] theorem raise_cams (src : EventSource) (s : State) : (raise src s).cams = s.cams := rfl
@[simp] theorem raise_outs (src : EventSource) (s : State) : (raise src s).outs = s.outs := rfl
@[simp] theorem raise_ins (src : EventSource) (s : State) : (raise src s).ins = s.ins := rfl
@[simp] theorem raise_faults (src : EventSource) (s : State) : (raise src s).faults = s.faults := rfl
@[simp] theorem raise_supply (src : EventSource) (s : State) : (raise src s).supply = s.supply := rfl
@[simp] theorem raise_link (src : EventSource) (s : State) : (raise src s).link = s.link := rfl
@[simp] theorem raise_store (src : EventSource) (s : State) : (raise src s).store = s.store := rfl
@[simp] theorem raise_freeIndex (src : EventSource) (s : State) : (raise src s).freeIndex = s.freeIndex := rfl

end Sys2Proof.Machine

namespace Sys2Proof

open Machine

/-! ## What is kept -/

theorem KeptBut.refl (ps : List Part) (s : State) : KeptBut ps s s := by
  intro p _
  cases p <;> simp [keptPart, AxisIs, LinesAre, FaultsAre, LinkIs, Raised]

theorem KeptBut.mono {ps qs : List Part} {s t : State} (h : KeptBut ps s t) (hs : ∀ p ∈ ps, p ∈ qs) :
    KeptBut qs s t := fun p hp => h p fun hm => hp (hs p hm)

theorem LinesAre.trans {f : Fin 16 → OutLine} {t u : State} (h : LinesAre f t)
    (h' : LinesAre (fun n => t.outs.lines[n]) u) : LinesAre f u := by
  intro n
  have h1 := h n
  have h2 := h' n
  simp only at h1 h2
  rw [h2, h1]

theorem Raised.trans_none {xs : List EventSource} {s t u : State} (h : Raised xs s t) (h' : Raised [] t u) :
    Raised xs s u := by
  refine ⟨h'.1.trans h.1, fun n => ?_⟩
  have h1 := h.2 n
  have h2 := h'.2 n
  simp only [List.any_nil, Bool.or_false, List.countP_nil, BitVec.add_zero] at h2
  rw [h2, h1]

theorem keptPart_trans {p : Part} {s t u : State} (h : keptPart s t p) (h' : keptPart t u p) : keptPart s u p := by
  cases p
  case clock =>
    obtain ⟨a, b, c, d⟩ := h
    obtain ⟨a', b', c', d'⟩ := h'
    exact ⟨a'.trans a, b'.trans b, c'.trans c, d'.trans d⟩
  case axis => simp only [keptPart, AxisIs] at *; rw [h', h]
  case cues => exact Eq.trans h' h
  case seq => exact Eq.trans h' h
  case capture => exact Eq.trans h' h
  case cams => exact Eq.trans h' h
  case lines => exact ⟨h'.1.trans h.1, LinesAre.trans h.2 h'.2⟩
  case inputs => exact Eq.trans h' h
  case faults => simp only [keptPart, FaultsAre] at *; rw [h', h]
  case supply => simp only [keptPart] at *; rw [h', h]
  case events => exact Raised.trans_none h h'
  case link => simp only [keptPart, LinkIs] at *; rw [h', h]
  case store => exact Eq.trans h' h

theorem KeptBut.trans {ps : List Part} {s t u : State} (h : KeptBut ps s t) (h' : KeptBut ps t u) : KeptBut ps s u :=
  fun p hp => keptPart_trans (h p hp) (h' p hp)

end Sys2Proof

namespace Sys2Proof.Machine

/-! ## The frame of one update -/

theorem onAxis_kept (s : State) (f : Axis → Axis) : KeptBut [.axis] s (s.onAxis f) := by
  intro p hp
  cases p <;> simp_all [keptPart, LinesAre, FaultsAre, LinkIs, Raised]

theorem onCues_kept (s : State) (f : CueTable → CueTable) : KeptBut [.cues] s (s.onCues f) := by
  intro p hp
  cases p <;> simp_all [keptPart, AxisIs, LinesAre, FaultsAre, LinkIs, Raised]

theorem onSeq_kept (s : State) (f : Sequencer → Sequencer) : KeptBut [.seq] s (s.onSeq f) := by
  intro p hp
  cases p <;> simp_all [keptPart, AxisIs, LinesAre, FaultsAre, LinkIs, Raised]

theorem onCapture_kept (s : State) (f : CaptureUnit → CaptureUnit) : KeptBut [.capture] s (s.onCapture f) := by
  intro p hp
  cases p <;> simp_all [keptPart, AxisIs, LinesAre, FaultsAre, LinkIs, Raised]

theorem onCams_kept (s : State) (f : CamUnit → CamUnit) : KeptBut [.cams] s (s.onCams f) := by
  intro p hp
  cases p <;> simp_all [keptPart, AxisIs, LinesAre, FaultsAre, LinkIs, Raised]

theorem onOuts_kept (s : State) (f : OutputLines → OutputLines) : KeptBut [.lines] s (s.onOuts f) := by
  intro p hp
  cases p <;> simp_all [keptPart, AxisIs, FaultsAre, LinkIs, Raised]

theorem onIns_kept (s : State) (f : Vector InLine 8 → Vector InLine 8) : KeptBut [.inputs] s (s.onIns f) := by
  intro p hp
  cases p <;> simp_all [keptPart, AxisIs, LinesAre, FaultsAre, LinkIs, Raised]

theorem onFaults_kept (s : State) (f : FaultMonitor → FaultMonitor) : KeptBut [.faults] s (s.onFaults f) := by
  intro p hp
  cases p <;> simp_all [keptPart, AxisIs, LinesAre, LinkIs, Raised]

theorem onSupply_kept (s : State) (f : Supply → Supply) : KeptBut [.supply] s (s.onSupply f) := by
  intro p hp
  cases p <;> simp_all [keptPart, AxisIs, LinesAre, FaultsAre, LinkIs, Raised]

theorem onEvents_kept (s : State) (f : EventUnit → EventUnit) : KeptBut [.events] s (s.onEvents f) := by
  intro p hp
  cases p <;> simp_all [keptPart, AxisIs, LinesAre, FaultsAre, LinkIs]

theorem onLink_kept (s : State) (f : Link → Link) : KeptBut [.link] s (s.onLink f) := by
  intro p hp
  cases p <;> simp_all [keptPart, AxisIs, LinesAre, FaultsAre, Raised]

theorem onStore_kept (s : State) (f : SettingStore → SettingStore) : KeptBut [.store] s (s.onStore f) := by
  intro p hp
  cases p <;> simp_all [keptPart, AxisIs, LinesAre, FaultsAre, LinkIs, Raised]

theorem raise_kept (src : EventSource) (s : State) : KeptBut [.events] s (raise src s) := onEvents_kept s _

/-- One update after a command that keeps its part out. -/
theorem KeptBut.then_mono {ps qs rs : List Part} {s t u : State} (h : KeptBut ps s t) (h' : KeptBut qs t u)
    (hp : ∀ p ∈ ps, p ∈ rs) (hq : ∀ p ∈ qs, p ∈ rs) : KeptBut rs s u :=
  KeptBut.trans (KeptBut.mono h hp) (KeptBut.mono h' hq)

/-- A report keeps everything but the Fault Monitor's inbox. -/
theorem report_kept (r : Report) (s : State) : KeptBut [] s (report r s) := by
  intro p _
  cases p <;> simp [keptPart, AxisIs, LinesAre, FaultsAre, LinkIs, Raised, report]

/-! ## The end of a command -/

theorem judgeLines_kept (s : State) : KeptBut [] s (judgeLines s) := by
  intro p _
  cases p <;> simp [keptPart, AxisIs, LinesAre, FaultsAre, LinkIs, Raised, judgeLines]

theorem judgeOverspeed_kept (s : State) : KeptBut [] s (judgeOverspeed s) := by
  intro p _
  simp only [judgeOverspeed]
  split
  · exact KeptBut.refl [] s p (by simp)
  · cases p <;> simp [keptPart, AxisIs, LinesAre, FaultsAre, LinkIs, Raised, report]

theorem judgeReverse_kept (s : State) : KeptBut [] s (judgeReverse s) := by
  intro p _
  simp only [judgeReverse]
  split
  · exact KeptBut.refl [] s p (by simp)
  · cases p <;> simp [keptPart, AxisIs, LinesAre, FaultsAre, LinkIs, Raised, report]

theorem judgeSilence_kept (s : State) : KeptBut [] s (judgeSilence s) := by
  intro p _
  simp only [judgeSilence]
  split
  · cases p <;> simp [keptPart, AxisIs, LinesAre, FaultsAre, LinkIs, Raised, report]
  · exact KeptBut.refl [] s p (by simp)

theorem judgeSupply_kept (s : State) : KeptBut [] s (judgeSupply s) := by
  intro p _
  simp only [judgeSupply]
  generalize (if s.supply.millivolts < supplyThreshold s.supply.level then true
    else if supplyThreshold s.supply.level + 50 ≤ s.supply.millivolts then false else s.supply.low) = low
  split
  · exact KeptBut.refl [] s p (by simp)
  · cases p <;> simp [keptPart, AxisIs, LinesAre, FaultsAre, LinkIs, Raised, report]

theorem noticed_kept (s : State) (n : Fin 28) :
    Raised [] s (s.onEvents fun e => { e with recs := updAt e.recs n fun r => { r with noticed := r.count } }) := by
  refine ⟨rfl, fun m => ?_⟩
  simp only [State.onEvents_events, updAt_get, List.any_nil, Bool.or_false, List.countP_nil, BitVec.add_zero]
  split
  · rename_i hm
    subst hm
    rfl
  · rfl

theorem chooseFrame_kept (s : State) : KeptBut [] s (chooseFrame s) := by
  intro p _
  unfold chooseFrame
  split
  · exact KeptBut.refl [] s p (by simp)
  · split
    · cases p <;> simp [keptPart, AxisIs, LinesAre, FaultsAre, LinkIs, Raised, beginSending]
    · split
      · exact KeptBut.refl [] s p (by simp)
      · split
        · rename_i n _
          cases p
          case events =>
            exact noticed_kept s n
          all_goals simp [keptPart, AxisIs, LinesAre, FaultsAre, LinkIs, beginSending]
        · exact KeptBut.refl [] s p (by simp)

theorem forget_kept (s : State) : KeptBut [] s s.forget := KeptBut.refl [] s

/-- The end of a command keeps every part. -/
theorem settle_kept (s : State) : KeptBut [] s (settle s) := by
  unfold settle
  split
  · exact KeptBut.refl [] s
  · exact KeptBut.trans (judgeLines_kept s) (KeptBut.trans (judgeOverspeed_kept _) (KeptBut.trans (judgeReverse_kept _)
      (KeptBut.trans (judgeSilence_kept _) (KeptBut.trans (judgeSupply_kept _)
        (KeptBut.trans (chooseFrame_kept _) (forget_kept _))))))

@[simp] theorem settle_pending (s : State) : (settle s).pending = s.pending := (settle_kept s .clock (by simp)).1
@[simp] theorem settle_phase (s : State) : (settle s).phase = s.phase := (settle_kept s .clock (by simp)).2.1
@[simp] theorem settle_stamp (s : State) : (settle s).stamp = s.stamp := (settle_kept s .clock (by simp)).2.2.1
@[simp] theorem settle_freeIndex (s : State) : (settle s).freeIndex = s.freeIndex :=
  (settle_kept s .clock (by simp)).2.2.2
@[simp] theorem settle_cues (s : State) : (settle s).cues = s.cues := settle_kept s .cues (by simp)
@[simp] theorem settle_seq (s : State) : (settle s).seq = s.seq := settle_kept s .seq (by simp)
@[simp] theorem settle_capture (s : State) : (settle s).capture = s.capture := settle_kept s .capture (by simp)
@[simp] theorem settle_cams (s : State) : (settle s).cams = s.cams := settle_kept s .cams (by simp)
@[simp] theorem settle_ins (s : State) : (settle s).ins = s.ins := settle_kept s .inputs (by simp)
@[simp] theorem settle_store (s : State) : (settle s).store = s.store := settle_kept s .store (by simp)
theorem settle_axis (s : State) : AxisIs s.axis (settle s) := settle_kept s .axis (by simp)
@[simp] theorem settle_arrivals (s : State) : (settle s).outs.arrivals = s.outs.arrivals :=
  (settle_kept s .lines (by simp)).1
theorem settle_lines (s : State) : LinesAre (fun n => s.outs.lines[n]) (settle s) := (settle_kept s .lines (by simp)).2
theorem settle_faults (s : State) : FaultsAre s.faults (settle s) := settle_kept s .faults (by simp)
theorem settle_supply (s : State) : (settle s).supply = { s.supply with low := (settle s).supply.low } :=
  settle_kept s .supply (by simp)
theorem settle_events (s : State) : Raised [] s (settle s) := settle_kept s .events (by simp)
theorem settle_link (s : State) : LinkIs s.link (settle s) := settle_kept s .link (by simp)

/-! ## The transmitter and the newest reply -/

@[simp] theorem report_link (r : Report) (s : State) : (report r s).link = s.link := rfl

theorem judgeLines_queue (s : State) : (judgeLines s).link.replies = s.link.replies ∧ (judgeLines s).link.tx = s.link.tx := by
  unfold judgeLines
  exact ⟨rfl, rfl⟩

theorem judgeOverspeed_queue (s : State) : (judgeOverspeed s).link.replies = s.link.replies ∧ (judgeOverspeed s).link.tx = s.link.tx := by
  unfold judgeOverspeed
  dsimp only
  split <;> exact ⟨rfl, rfl⟩

theorem judgeReverse_queue (s : State) : (judgeReverse s).link.replies = s.link.replies ∧ (judgeReverse s).link.tx = s.link.tx := by
  unfold judgeReverse
  dsimp only
  split <;> exact ⟨rfl, rfl⟩

theorem judgeSilence_queue (s : State) : (judgeSilence s).link.replies = s.link.replies ∧ (judgeSilence s).link.tx = s.link.tx := by
  unfold judgeSilence
  split <;> exact ⟨rfl, rfl⟩

theorem judgeSupply_queue (s : State) : (judgeSupply s).link.replies = s.link.replies ∧ (judgeSupply s).link.tx = s.link.tx := by
  simp only [judgeSupply]
  generalize (if s.supply.millivolts < supplyThreshold s.supply.level then true
    else if supplyThreshold s.supply.level + 50 ≤ s.supply.millivolts then false else s.supply.low) = low
  split <;> exact ⟨rfl, rfl⟩

theorem judged_queue (s : State) :
    (judgeSupply (judgeSilence (judgeReverse (judgeOverspeed (judgeLines s))))).link.replies = s.link.replies ∧
      (judgeSupply (judgeSilence (judgeReverse (judgeOverspeed (judgeLines s))))).link.tx = s.link.tx := by
  simp only [judgeSupply_queue, judgeSilence_queue, judgeReverse_queue, judgeOverspeed_queue, judgeLines_queue, and_self]

theorem chooseFrame_newestReply (s : State) (h : s.link.replies ≠ []) :
    newestReply (chooseFrame s) = newestReply s := by
  unfold chooseFrame
  split
  · rfl
  · split
    · rename_i f rest hr
      cases rest with
      | nil => simp [newestReply, beginSending, hr]
      | cons g gs => simp [newestReply, beginSending, hr, List.getLast?_cons]
    · contradiction

/-- The end of a command that has queued a reply leaves that reply the newest. -/
theorem settle_newestReply (s : State) (h : s.link.replies ≠ []) : newestReply (settle s) = newestReply s := by
  unfold settle
  split
  · rfl
  · have hj := judged_queue s
    change newestReply (chooseFrame _) = _
    rw [chooseFrame_newestReply _ (by rw [hj.1]; exact h)]
    simp [newestReply, hj.1, hj.2]

/-! ## The taking of a request -/

@[simp] theorem heard_pending (s : State) : (heard s).pending = s.pending := rfl
@[simp] theorem heard_phase (s : State) : (heard s).phase = s.phase := rfl
@[simp] theorem heard_stamp (s : State) : (heard s).stamp = s.stamp := rfl
@[simp] theorem heard_axis (s : State) : (heard s).axis = s.axis := rfl
@[simp] theorem heard_cues (s : State) : (heard s).cues = s.cues := rfl
@[simp] theorem heard_seq (s : State) : (heard s).seq = s.seq := rfl
@[simp] theorem heard_capture (s : State) : (heard s).capture = s.capture := rfl
@[simp] theorem heard_cams (s : State) : (heard s).cams = s.cams := rfl
@[simp] theorem heard_outs (s : State) : (heard s).outs = s.outs := rfl
@[simp] theorem heard_ins (s : State) : (heard s).ins = s.ins := rfl
@[simp] theorem heard_supply (s : State) : (heard s).supply = s.supply := rfl
@[simp] theorem heard_events (s : State) : (heard s).events = s.events := rfl
@[simp] theorem heard_store (s : State) : (heard s).store = s.store := rfl
@[simp] theorem heard_freeIndex (s : State) : (heard s).freeIndex = s.freeIndex := rfl
@[simp] theorem heard_rate (s : State) : (heard s).link.rate = s.link.rate := rfl
@[simp] theorem heard_rx (s : State) : (heard s).link.rx = s.link.rx := rfl
@[simp] theorem heard_inbound (s : State) : (heard s).link.inbound = s.link.inbound := rfl
@[simp] theorem heard_replies (s : State) : (heard s).link.replies = s.link.replies := rfl
@[simp] theorem heard_tx (s : State) : (heard s).link.tx = s.link.tx := rfl
@[simp] theorem heard_errors (s : State) : (heard s).link.errors = s.link.errors := rfl
@[simp] theorem heard_silenceLimit (s : State) : (heard s).link.silenceLimit = s.link.silenceLimit := rfl

theorem heard_kept (s : State) : KeptBut [] s (heard s) := by
  intro p _
  cases p <;> simp [keptPart, AxisIs, LinesAre, FaultsAre, LinkIs, Raised, heard]

theorem goodFrame_ready {s : State} (f : Frame) (h : Ready s) :
    goodFrame f s = (heard s).onLink fun l => { l with inbound := [f] } := by
  obtain ⟨_, hin, _, _, hrep⟩ := h
  have hw : ∀ g : Link → Link, reportWaits (s.onLink g) .linkSilent = false := fun _ => hrep
  have hroom : (0 : Nat) < Config.inboundRoom := by decide
  unfold goodFrame endSilence
  dsimp only
  cases hs : s.link.silent
  · simp [State.onLink, hs, hin, hroom, heard, State.onFaults]
  · simp only [State.onLink_link, hs, if_true, hw, Bool.false_eq_true, if_false, State.onFaults_link, hin, List.length_nil,
      hroom]
    simp [State.onLink, State.onFaults, heard, hs, hin]

theorem canTake_heard {s : State} (h : Ready s) (f : Frame) :
    canTake ((heard s).onLink fun l => { l with inbound := [f] }) = true := by
  obtain ⟨hp, _, hl, hr, hrep⟩ := h
  simp only [reportWaits, List.any_eq_false, decide_eq_true_eq] at hrep
  simp only [canTake, State.onLink_phase, heard_phase, hp, State.onLink_link, heard_replies, hl, decide_true,
    Bool.true_and, Bool.and_eq_true, Bool.not_eq_true', List.any_eq_false, State.onLink_faults, decide_eq_true_eq,
    not_and, Bool.not_eq_false]
  exact ⟨hr, fun r hm hc => absurd hc (hrep r hm)⟩

/-- A ready part takes a request as it arrives (R157, R158). -/
theorem serve_ready {s : State} (f : Frame) (rule : State → State × Reply) (h : Ready s) :
    serve f rule s = settle (answer f rule (heard s)) := by
  have hpop : popInbound (goodFrame f s) = heard s := by
    rw [goodFrame_ready f h]
    have hin : s.link.inbound = [] := h.2.1
    simp only [popInbound, State.onLink, List.tail_cons, heard, State.onFaults]
    cases s
    simp_all
  have hne : ¬ s.phase = .held := by rw [h.1]; decide
  unfold serve
  rw [if_neg hne]
  have h1 : s.link.inbound = [] := h.2.1
  simp only [h1, List.head?_nil]
  rw [if_neg (by simp), if_pos ⟨trivial, by rw [goodFrame_ready f h]; exact canTake_heard h f⟩, hpop]

/-- An answered request queues its reply; nothing else of the link follows from that. -/
theorem answer_newestReply (f : Frame) (rule : State → State × Reply) (s : State) :
    newestReply (settle (answer f rule s)) = some (replyFrame f (rule s).2 (rule s).1.link.errors) := by
  rw [settle_newestReply] <;> simp [answer, newestReply]

theorem answer_kept (f : Frame) (rule : State → State × Reply) (s : State) : KeptBut [] (rule s).1 (answer f rule s) := by
  intro p _
  cases p <;> simp [keptPart, AxisIs, LinesAre, FaultsAre, LinkIs, Raised, answer]

/-- What a request does to a ready part: the rule acts on the part that has heard the frame, its reply is the newest, and
everything the rule keeps is kept. -/
theorem request_ready {s : State} (tag kind : Byte) (body : List Byte) (rule : State → State × Reply) (h : Ready s)
    (hk : kind.toNat < 128) (he : (rule (heard s)).1.link.errors = s.link.errors) :
    Answered tag kind (rule (heard s)).2.code (rule (heard s)).2.replaced (rule (heard s)).2.data s
        (serve ⟨tag, kind, body⟩ rule s) ∧
      KeptBut [] (rule (heard s)).1 (serve ⟨tag, kind, body⟩ rule s) := by
  rw [serve_ready _ _ h]
  refine ⟨?_, KeptBut.trans (answer_kept _ _ _) (settle_kept _)⟩
  simp [Answered, answer_newestReply, replyFrame, replyKind, hk, he]

/-- A request on a ready part whose rule is known to leave the state `u` and to reply `r`. -/
theorem request_done {s u : State} {r : Reply} {ps : List Part} (tag kind : Byte) (body : List Byte)
    (rule : State → State × Reply) (h : Ready s) (hk : kind.toNat < 128) (hr : rule (heard s) = (u, r))
    (hu : KeptBut ps (heard s) u) (he : u.link.errors = s.link.errors) :
    Answered tag kind r.code r.replaced r.data s (serve ⟨tag, kind, body⟩ rule s) ∧
      KeptBut [] u (serve ⟨tag, kind, body⟩ rule s) ∧ KeptBut ps s (serve ⟨tag, kind, body⟩ rule s) := by
  have hd := request_ready tag kind body rule h hk (by rw [hr]; exact he)
  rw [hr] at hd
  exact ⟨hd.1, hd.2, KeptBut.then_mono (KeptBut.then_mono (heard_kept s) hu (by simp) (fun _ hp => hp)) hd.2
    (fun _ hp => hp) (by simp)⟩

/-- A command that is no request, in a running part where its condition holds. -/
theorem event_running {enabled : Bool} {effect : State → State} {s : State} (hp : s.phase = .running)
    (he : enabled = true) : event enabled effect s = .next (settle (effect s)) := by
  simp [event, hp, he]

/-- A command that is no request, where its condition does not hold. -/
theorem event_skipped {enabled : Bool} {effect : State → State} {s : State} (he : enabled = false) :
    event enabled effect s = .next s := by simp [event, he]

theorem settled_kept {ps : List Part} {s u : State} (hu : KeptBut ps s u) : KeptBut ps s (settle u) :=
  KeptBut.then_mono hu (settle_kept u) (fun _ hp => hp) (by simp)

end Sys2Proof.Machine
end

