-- ==== Sys2Proof/Laws/Frames.lean ====
section
/-! SUPPORT. The frame of every shared operation: the parts it can change, and the occurrences it raises. -/

namespace Sys2Proof

open Machine

/-- The parts that firing, resolving and expiring cues can change. -/
abbrev schedule : List Part := [.cues, .seq, .lines, .events]

theorem KeptBut.foldl {α : Type} {ps : List Part} (f : State → α → State) (h : ∀ s x, KeptBut ps s (f s x)) :
    ∀ (l : List α) (s : State), KeptBut ps s (l.foldl f s)
  | [], s => KeptBut.refl ps s
  | x :: l, s => KeptBut.trans (h s x) (KeptBut.foldl f h l _)

theorem KeptBut.repeated {ps : List Part} (f : State → State) (h : ∀ s, KeptBut ps s (f s)) :
    ∀ (n : Nat) (s : State), KeptBut ps s (Nat.repeat f n s)
  | 0, s => KeptBut.refl ps s
  | n + 1, s => KeptBut.trans (KeptBut.repeated f h n s) (h _)

theorem KeptBut.ite {ps : List Part} {c : Prop} [Decidable c] {s t u : State} (ht : KeptBut ps s t)
    (hu : KeptBut ps s u) : KeptBut ps s (if c then t else u) := by
  split
  · exact ht
  · exact hu

end Sys2Proof

namespace Sys2Proof.Machine

/-! ## Ops -/

theorem writeOutcome_kept (r : OutcomeRecord) (s : State) : KeptBut [.seq, .events] s (writeOutcome r s) := by
  unfold writeOutcome
  exact KeptBut.ite (KeptBut.then_mono (onSeq_kept _ _) (raise_kept _ _) (by simp) (by simp))
    (KeptBut.mono (raise_kept _ _) (by simp))

theorem withMarks_kept {ps : List Part} {f : State → State} {s : State} (h : KeptBut ps s (f s))
    (he : Part.events ∈ ps) : KeptBut ps s (withMarks f s) := by
  have hr : ∀ x t, KeptBut ps t (raise x t) := fun x t => KeptBut.mono (raise_kept x t) (by simpa using he)
  unfold withMarks
  dsimp only
  refine KeptBut.ite (KeptBut.trans (KeptBut.ite (KeptBut.trans h (hr _ _)) h) (hr _ _))
    (KeptBut.ite (KeptBut.trans h (hr _ _)) h)

theorem releaseInput_kept (n : Fin 8) (s : State) : KeptBut [.inputs] s (releaseInput n s) := onIns_kept _ _

theorem claimInput_kept (n : Fin 8) (fn : InputFn) (s : State) : KeptBut [.inputs] s (claimInput n fn s) := onIns_kept _ _

/-! ## Requests -/

theorem countError_kept (s : State) : KeptBut [.link] s (countError s) := onLink_kept _ _

theorem endSilence_kept (s : State) : KeptBut [] s (endSilence s) := by
  unfold endSilence
  dsimp only
  intro p hp
  split <;> cases p <;> simp [keptPart, AxisIs, LinesAre, FaultsAre, LinkIs, Raised, report]

theorem goodFrame_kept (f : Frame) (s : State) : KeptBut [.link] s (goodFrame f s) := by
  unfold goodFrame
  dsimp only
  refine KeptBut.ite (KeptBut.trans (KeptBut.ite (KeptBut.trans (onLink_kept _ _)
    (KeptBut.mono (endSilence_kept _) (by simp))) (onLink_kept _ _)) (onLink_kept _ _))
    (KeptBut.trans (KeptBut.ite (KeptBut.trans (onLink_kept _ _) (KeptBut.mono (endSilence_kept _) (by simp)))
      (onLink_kept _ _)) (countError_kept _))

/-! ## Cues -/

theorem enterCue_kept (x : Listed) (s : State) : KeptBut [.cues] s (enterCue x s) := onCues_kept _ _

theorem leaveList_kept (n : Fin 256) (s : State) : KeptBut [.cues] s (leaveList n s) := onCues_kept _ _

theorem applyAction_kept (c : Cue) (k : Key) (s : State) : KeptBut [.lines] s (applyAction c k s) := onOuts_kept _ _

theorem handBack_kept (x : Listed) (r : Repetition) (k : Key) (t : Remaining) (s : State) :
    KeptBut [.cues] s (handBack x r k t s) := by
  unfold handBack
  dsimp only
  split
  · exact leaveList_kept _ _
  all_goals exact KeptBut.trans (leaveList_kept _ _) (enterCue_kept _ _)

theorem writeSkipped_kept (l : Key) (c : Cue) (k : Key) (m : Option Remaining) (n : Option Nat) (s : State) :
    KeptBut [.seq, .events] s (writeSkipped l c k m n s) :=
  KeptBut.then_mono (writeOutcome_kept _ _) (raise_kept _ _) (by simp) (by simp)

theorem repeatRule_kept (l : Key) (x : Listed) (r : Repetition) (s : State) :
    KeptBut [.cues, .seq, .events] s (repeatRule l x r s) := by
  unfold repeatRule
  dsimp only
  refine KeptBut.trans (KeptBut.ite (KeptBut.refl _ _) (KeptBut.mono (writeSkipped_kept _ _ _ _ _ _) (by simp)))
    (KeptBut.mono (handBack_kept _ _ _ _ _) (by simp))

theorem fireOne_kept (c : FiringCause) (l : Key) (s : State) (x : Listed) : KeptBut schedule s (fireOne c l s x) := by
  have h1 := KeptBut.mono (applyAction_kept x.cue (match c with | .key => x.key | .catchUp => s.cues.lead) s)
    (qs := schedule) (by simp)
  have h2 : ∀ r t, KeptBut schedule t (writeOutcome r t) := fun r t => KeptBut.mono (writeOutcome_kept r t) (by simp)
  unfold fireOne
  dsimp only
  split
  · exact KeptBut.trans (KeptBut.ite (KeptBut.trans h1 (h2 _ _)) h1) (KeptBut.mono (leaveList_kept _ _) (by simp))
  · exact KeptBut.trans (KeptBut.ite (KeptBut.trans h1 (h2 _ _)) h1) (KeptBut.mono (repeatRule_kept _ _ _ _) (by simp))

theorem skipOne_kept (l : Key) (s : State) (x : Listed) : KeptBut [.cues, .seq, .events] s (skipOne l s x) := by
  unfold skipOne
  split
  · exact KeptBut.then_mono (writeSkipped_kept _ _ _ _ _ _) (leaveList_kept _ _) (by simp) (by simp)
  · exact KeptBut.then_mono (writeSkipped_kept _ _ _ _ _ _) (handBack_kept _ _ _ _ _) (by simp) (by simp)

theorem fireRun_kept (l : Key) (s : State) : KeptBut schedule s (fireRun l s) :=
  KeptBut.foldl _ (fun _ _ => fireOne_kept _ _ _ _) _ _

theorem expire_kept (l : Key) (s : State) (x : Listed) : KeptBut [.seq, .events] s (expire l s x) :=
  KeptBut.then_mono (writeOutcome_kept _ _) (raise_kept _ _) (by simp) (by simp)

theorem expiryRun_kept (s : State) : KeptBut [.cues, .seq, .events] s (expiryRun s) :=
  KeptBut.then_mono (onCues_kept _ _) (KeptBut.foldl _ (fun _ _ => expire_kept _ _ _) _ _) (by simp) (by simp)

theorem catchUpOne_kept (l : Key) (s : State) (x : Listed) : KeptBut schedule s (catchUpOne l s x) := by
  unfold catchUpOne
  split
  · exact fireOne_kept _ _ _ _
  · exact KeptBut.mono (skipOne_kept _ _ _) (by simp)

theorem catchUpRun_kept (s : State) : KeptBut schedule s (catchUpRun s) :=
  KeptBut.foldl _ (fun _ _ => catchUpOne_kept _ _ _) _ _

theorem enterArmed_kept (s : State) : KeptBut schedule s (enterArmed s) :=
  KeptBut.trans (KeptBut.mono (onSeq_kept _ _) (by simp)) (withMarks_kept (catchUpRun_kept _) (by simp))

theorem takeLeadArrival_kept (s : State) (a : Arrival) : KeptBut schedule s (takeLeadArrival s a) := by
  have h1 : KeptBut schedule s (s.onCues fun c => { c with lead := a.key }) := KeptBut.mono (onCues_kept _ _) (by simp)
  have h2 : ∀ t, KeptBut schedule t (withMarks expiryRun t) := fun t =>
    withMarks_kept (KeptBut.mono (expiryRun_kept t) (by simp)) (by simp)
  have h3 : ∀ l t, KeptBut schedule t (withMarks (fireRun l) t) := fun l t => withMarks_kept (fireRun_kept l t) (by simp)
  unfold takeLeadArrival
  dsimp only
  exact KeptBut.ite (KeptBut.trans (KeptBut.ite (KeptBut.trans h1 (h2 _)) h1) (h3 _ _))
    (KeptBut.ite (KeptBut.trans h1 (h2 _)) h1)

theorem resolveCue_kept (p l : Key) (s : State) (c : Cue) : KeptBut schedule s (resolveCue p l s c) :=
  KeptBut.ite (KeptBut.mono (expire_kept _ _ _) (by simp)) (KeptBut.mono (enterCue_kept _ _) (by simp))

theorem resolveGroup_kept (g : Group) (p l : Key) (s : State) : KeptBut schedule s (resolveGroup g p l s) := by
  have h := KeptBut.foldl (resolveCue p l) (fun _ _ => resolveCue_kept p l _ _) g.cues s
  exact KeptBut.ite (KeptBut.trans h (fireRun_kept _ _)) h

theorem popGroup_kept (ch : Fin 4) (s : State) : KeptBut [.cues] s (popGroup ch s) := onCues_kept _ _

theorem resolved_kept (ch : Fin 4) (g : Group) (p : Key) (l : State → Key) (s : State) :
    KeptBut schedule s (withMarks (fun s => resolveGroup g p (l s) (popGroup ch s)) s) :=
  withMarks_kept (KeptBut.trans (KeptBut.mono (popGroup_kept _ _) (by simp)) (resolveGroup_kept _ _ _ _)) (by simp)

theorem claimCapture_kept (ch : Fin 4) (p : Key) (s : State) : KeptBut schedule s (claimCapture ch p s).1 := by
  unfold claimCapture
  split
  · exact KeptBut.refl _ _
  · exact resolved_kept ch _ p (fun s => s.cues.lead) s

theorem claimMiss_kept (ch : Fin 4) (p a : Key) (s : State) : KeptBut schedule s (claimMiss ch p a s).1 := by
  unfold claimMiss
  split
  · exact KeptBut.refl _ _
  · split
    · exact withMarks_kept (KeptBut.mono (popGroup_kept _ _) (by simp)) (by simp)
    · exact resolved_kept ch _ p (fun _ => a) s

/-! ## Capture -/

theorem onChannel_kept (ch : Fin 4) (f : Channel → Channel) (s : State) : KeptBut [.capture] s (onChannel ch f s) :=
  onCapture_kept _ _

theorem bindInput_kept (ch : Fin 4) (old new : Option (Fin 8)) (s : State) :
    KeptBut [.inputs] s (bindInput ch old new s) := by
  have h : KeptBut [.inputs] s (match old with
      | some m => if new = some m then s else releaseInput m s
      | none => s) := by
    split
    · exact KeptBut.ite (KeptBut.refl _ _) (releaseInput_kept _ _)
    · exact KeptBut.refl _ _
  unfold bindInput
  dsimp only
  split
  · exact KeptBut.trans h (claimInput_kept _ _ _)
  · exact h

theorem logCapture_kept (r : CaptureRecord) (s : State) : KeptBut [.capture, .events] s (logCapture r s) :=
  KeptBut.ite (KeptBut.mono (onChannel_kept _ _ _) (by simp)) (KeptBut.mono (raise_kept _ _) (by simp))

/-- The parts that captures and misses can change. -/
abbrev capturing : List Part := [.cues, .seq, .capture, .lines, .events]

theorem takeCapture_kept (ch : Fin 4) (e : Edge) (s : State) : KeptBut capturing s (takeCapture ch e s) := by
  have h : KeptBut capturing s
      (if s.seq.state = .safe then (s, none) else claimCapture ch s.axis.current s : State × Option (Fin 32)).1 := by
    split
    · exact KeptBut.refl _ _
    · exact KeptBut.mono (claimCapture_kept _ _ _) (by simp)
  unfold takeCapture
  exact KeptBut.trans h (KeptBut.then_mono (KeptBut.then_mono (onChannel_kept _ _ _) (logCapture_kept _ _)
    (rs := [.capture, .events]) (by simp) (by simp)) (raise_kept _ _) (by simp) (by simp))

theorem takeStray_kept (ch : Fin 4) (s : State) : KeptBut [.capture, .events] s (takeStray ch s) :=
  KeptBut.then_mono (onChannel_kept _ _ _) (raise_kept _ _) (by simp) (by simp)

theorem captureEdge_kept (ch : Fin 4) (e : Edge) (s : State) : KeptBut capturing s (captureEdge ch e s) := by
  unfold captureEdge
  dsimp only
  split
  · split
    · exact takeCapture_kept _ _ _
    · split
      · exact KeptBut.trans (KeptBut.mono (onChannel_kept _ _ _) (by simp)) (takeCapture_kept _ _ _)
      · exact KeptBut.mono (takeStray_kept _ _) (by simp)
      · exact KeptBut.mono (takeStray_kept _ _) (by simp)
  · exact KeptBut.refl _ _

theorem takeMiss_kept (ch : Fin 4) (c : Cycle) (n : Nat) (a : Key) (s : State) :
    KeptBut capturing s (takeMiss ch c n a s) := by
  have h : KeptBut capturing s
      (if s.seq.state = .safe then (s, MissResult.suspended, none)
        else claimMiss ch ⟨c, n⟩ a s : State × MissResult × Option (Fin 32)).1 := by
    split
    · exact KeptBut.refl _ _
    · exact KeptBut.mono (claimMiss_kept _ _ _ _) (by simp)
  unfold takeMiss
  exact KeptBut.trans h (KeptBut.then_mono (onChannel_kept _ _ _) (raise_kept _ _) (by simp) (by simp))

theorem windowAtArrival_kept (a : Key) (s : State) (ch : Fin 4) : KeptBut capturing s (windowAtArrival a s ch) := by
  have h : ∀ f, KeptBut capturing s (onChannel ch f s) := fun f => KeptBut.mono (onChannel_kept _ _ _) (by simp)
  unfold windowAtArrival
  dsimp only
  split
  · split
    · exact KeptBut.ite (h _) (KeptBut.refl _ _)
    · exact KeptBut.ite (KeptBut.trans (h _) (takeMiss_kept _ _ _ _ _)) (KeptBut.refl _ _)
    · exact KeptBut.ite (h _) (KeptBut.refl _ _)
  · exact KeptBut.refl _ _

theorem takeWindowArrival_kept (s : State) (a : Key) : KeptBut capturing s (takeWindowArrival s a) :=
  KeptBut.foldl _ (fun _ _ => windowAtArrival_kept _ _ _) _ _

theorem closeEpisodes_kept (s : State) : KeptBut [.capture] s (closeEpisodes s) := onCapture_kept _ _

/-! ## Cams -/

theorem recomputeCams_kept (s : State) : KeptBut [.cams] s (recomputeCams s) := onCams_kept _ _

theorem takeBoundary_kept (s : State) : KeptBut [.cams, .events] s (takeBoundary s) := by
  unfold takeBoundary
  exact KeptBut.then_mono (KeptBut.repeated _ (fun _ => raise_kept _ _) _ _) (onCams_kept _ _) (by simp) (by simp)

theorem takeBoundaries_kept (s : State) : KeptBut [.cams, .events] s (takeBoundaries s) :=
  KeptBut.ite (KeptBut.refl _ _)
    (KeptBut.trans (KeptBut.mono (onCams_kept _ _) (by simp)) (takeBoundary_kept _))

/-! ## Lines -/

theorem takeTrailArrival_kept (s : State) (k : Key) : KeptBut [.lines] s (takeTrailArrival s k) := onOuts_kept _ _

theorem endCountTrails_kept (s : State) : KeptBut [.lines] s (endCountTrails s) := onOuts_kept _ _

theorem mapMasked_kept (m : LineSet) (f : Fin 16 → OutLine → OutLine) (s : State) :
    KeptBut [.lines] s (mapMasked m f s) := onOuts_kept _ _

/-! ## The axis -/

theorem handArrival_kept (a : Arrival) (s : State) : KeptBut [.cues, .capture, .lines] s (handArrival a s) :=
  KeptBut.then_mono (KeptBut.then_mono (onCues_kept _ _) (onCapture_kept _ _) (rs := [.cues, .capture]) (by simp)
    (by simp)) (onOuts_kept _ _) (by simp) (by simp)

theorem cycleBoundary_kept (s : State) : KeptBut [.axis, .cams, .events] s (cycleBoundary s) :=
  KeptBut.then_mono (KeptBut.then_mono (onAxis_kept _ _) (onCams_kept _ _) (rs := [.axis, .cams]) (by simp)
    (by simp)) (raise_kept _ _) (by simp) (by simp)

/-- The parts that a count of the axis can change. -/
abbrev counting : List Part := [.axis, .cues, .capture, .cams, .lines, .events]

theorem arriveLead_kept (k : Key) (b : Bool) (s : State) : KeptBut counting s (arriveLead k b s) := by
  have h : KeptBut counting s (s.onAxis fun a => { a with lead := k }) := KeptBut.mono (onAxis_kept _ _) (by simp)
  exact KeptBut.trans (KeptBut.ite (KeptBut.trans h (KeptBut.mono (cycleBoundary_kept _) (by simp))) h)
    (KeptBut.mono (handArrival_kept _ _) (by simp))

theorem countForward_kept (s : State) : KeptBut counting s (countForward s) := by
  have h : ∀ f, KeptBut counting s ((takeBoundaries s).onAxis f) := fun f =>
    KeptBut.then_mono (takeBoundaries_kept s) (onAxis_kept _ f) (by simp) (by simp)
  exact KeptBut.trans (KeptBut.ite (KeptBut.trans (h _) (arriveLead_kept _ _ _)) (h _))
    (KeptBut.mono (recomputeCams_kept _) (by simp))

theorem countBackward_kept (s : State) : KeptBut [.axis, .cams, .events] s (countBackward s) :=
  KeptBut.trans (KeptBut.mono (takeBoundaries_kept s) (by simp))
    (KeptBut.then_mono (onAxis_kept _ _) (recomputeCams_kept _) (by simp) (by simp))

theorem decoderCount_kept (b : Bool) (s : State) : KeptBut counting s (decoderCount b s) :=
  KeptBut.ite (KeptBut.ite (countForward_kept _) (KeptBut.mono (countBackward_kept _) (by simp))) (KeptBut.refl _ _)

/-- The parts that a position jump can change. -/
abbrev jumping : List Part := [.axis, .cues, .seq, .capture, .cams, .lines, .events]

theorem takeArrivals_kept (s : State) : KeptBut jumping s (takeArrivals s) := by
  have h1 : KeptBut jumping s (takeBoundaries s) := KeptBut.mono (takeBoundaries_kept s) (by simp)
  have h2 : ∀ (l : List Key) t, KeptBut jumping t (l.foldl takeTrailArrival t) := fun l t =>
    KeptBut.foldl _ (fun _ _ => KeptBut.mono (takeTrailArrival_kept _ _) (by simp)) l t
  have h3 : ∀ (l : List Arrival) t, KeptBut jumping t (l.foldl takeLeadArrival t) := fun l t =>
    KeptBut.foldl _ (fun _ _ => KeptBut.mono (takeLeadArrival_kept _ _) (by simp)) l t
  have h4 : ∀ (l : List Key) t, KeptBut jumping t (l.foldl takeWindowArrival t) := fun l t =>
    KeptBut.foldl _ (fun _ _ => KeptBut.mono (takeWindowArrival_kept _ _) (by simp)) l t
  unfold takeArrivals
  dsimp only
  refine KeptBut.trans h1 (KeptBut.trans (KeptBut.mono (onOuts_kept _ _) (by simp)) (KeptBut.trans (h2 _ _)
    (KeptBut.trans (KeptBut.mono (onCues_kept _ _) (by simp)) (KeptBut.trans (h3 _ _)
      (KeptBut.trans (KeptBut.mono (onCapture_kept _ _) (by simp)) (h4 _ _))))))

theorem jumpCues_kept (k : Key) (s : State) : KeptBut [.cues, .seq, .events] s (jumpCues k s) :=
  withMarks_kept (KeptBut.then_mono (onCues_kept _ _) (expiryRun_kept _) (by simp) (by simp)) (by simp)

theorem positionJump_kept (k : Key) (s : State) : KeptBut jumping s (positionJump k s) := by
  unfold positionJump
  dsimp only
  exact KeptBut.trans (takeArrivals_kept s) (KeptBut.trans (KeptBut.mono (onAxis_kept _ _) (by simp))
    (KeptBut.trans (KeptBut.mono (closeEpisodes_kept _) (by simp)) (KeptBut.trans
      (KeptBut.mono (recomputeCams_kept _) (by simp)) (KeptBut.trans (KeptBut.mono (jumpCues_kept _ _) (by simp))
        (KeptBut.mono (endCountTrails_kept _) (by simp))))))

theorem cancelHoming_kept (s : State) : KeptBut [.axis, .inputs] s (cancelHoming s) :=
  KeptBut.ite (KeptBut.then_mono (onAxis_kept _ _) (releaseInput_kept _ _) (by simp) (by simp)) (KeptBut.refl _ _)

theorem claimAxisInputs_kept (s : State) : KeptBut [.axis, .inputs] s (claimAxisInputs s) :=
  KeptBut.then_mono (KeptBut.then_mono (onAxis_kept _ _) (claimInput_kept _ _ _) (rs := [.axis, .inputs]) (by simp)
    (by simp)) (claimInput_kept _ _ _) (by simp) (by simp)

theorem releaseAxisInputs_kept (s : State) : KeptBut [.inputs] s (releaseAxisInputs s) := by
  have h : KeptBut [.inputs] s (if s.ins[0].fn = .axisA then releaseInput 0 s else s) :=
    KeptBut.ite (releaseInput_kept _ _) (KeptBut.refl _ _)
  exact KeptBut.ite (KeptBut.trans h (releaseInput_kept _ _)) h

theorem setupAxis_kept (x : AxisSource) (k m : Nat) (s : State) :
    KeptBut [.axis, .inputs, .cams] s (setupAxis x k m s) := by
  have h : ∀ f, KeptBut [.axis, .inputs, .cams] s ((cancelHoming s).onAxis f) := fun f =>
    KeptBut.then_mono (cancelHoming_kept s) (onAxis_kept _ _) (by simp) (by simp)
  unfold setupAxis
  dsimp only
  refine KeptBut.trans ?_ (KeptBut.mono (recomputeCams_kept _) (by simp))
  split
  · exact KeptBut.trans (h _) (KeptBut.mono (releaseAxisInputs_kept _) (by simp))
  all_goals exact KeptBut.trans (h _) (KeptBut.mono (claimAxisInputs_kept _) (by simp))

/-! ## The Sequencer's freeze level -/

theorem setSeq_kept (q : SeqState) (r p : Bool) (s : State) : KeptBut [.seq] s (setSeq q r p s) := onSeq_kept _ _

theorem changeFreeze_kept (b : Bool) (s : State) : KeptBut schedule s (changeFreeze b s) := by
  have h : KeptBut schedule s (s.onSeq fun q => { q with freeze := b }) := KeptBut.mono (onSeq_kept _ _) (by simp)
  have h2 : ∀ q r p t, KeptBut schedule t (setSeq q r p t) := fun q r p t => KeptBut.mono (setSeq_kept _ _ _ _) (by simp)
  unfold changeFreeze
  dsimp only
  split
  · exact KeptBut.trans h (h2 _ _ _ _)
  · exact KeptBut.trans h (h2 _ _ _ _)
  · exact KeptBut.ite (KeptBut.trans h (h2 _ _ _ _)) (KeptBut.trans h (enterArmed_kept _))
  · exact h

theorem judgeFreeze_kept (s : State) : KeptBut schedule s (judgeFreeze s) :=
  KeptBut.ite (KeptBut.refl _ _) (changeFreeze_kept _ _)

/-! ## Inputs -/

theorem inputEvent_kept (n : Fin 8) (e : Edge) (s : State) : KeptBut [.events] s (inputEvent n e s) :=
  KeptBut.ite (raise_kept _ _) (KeptBut.refl _ _)

theorem quadDecode_kept (a b : Bool) (s : State) : KeptBut counting s (quadDecode a b s) := by
  have h : ∀ f, KeptBut counting s (s.onAxis f) := fun f => KeptBut.mono (onAxis_kept _ _) (by simp)
  unfold quadDecode
  dsimp only
  split
  · exact h _
  · exact KeptBut.trans (h _) (decoderCount_kept _ _)
  · exact KeptBut.trans (h _) (decoderCount_kept _ _)
  · exact KeptBut.trans (h _) (KeptBut.mono (report_kept _ _) (by simp))

theorem decode_kept (r a b : Bool) (s : State) : KeptBut counting s (decode r a b s) := by
  unfold decode
  split
  · exact quadDecode_kept _ _ _
  · exact KeptBut.ite (decoderCount_kept _ _) (KeptBut.refl _ _)
  · exact KeptBut.refl _ _

theorem acceptLevel_kept (n : Fin 8) (s : State) : KeptBut [.inputs] s (acceptLevel n s) := onIns_kept _ _

theorem acceptAxis_kept (s : State) : KeptBut (.inputs :: counting) s (acceptAxis s) := by
  have h : ∀ n t, KeptBut (.inputs :: counting) t (acceptLevel n t) := fun n t =>
    KeptBut.mono (acceptLevel_kept n t) (by simp)
  unfold acceptAxis
  dsimp only
  refine KeptBut.trans (KeptBut.trans (KeptBut.ite (KeptBut.trans (KeptBut.ite (h _ _) (KeptBut.refl _ _)) (h _ _))
    (KeptBut.ite (h _ _) (KeptBut.refl _ _))) (KeptBut.mono (onAxis_kept _ _) (by simp)))
    (KeptBut.mono (decode_kept _ _ _ _) (by simp))

theorem homingJump_kept (s : State) : KeptBut (.inputs :: jumping) s (homingJump s) := by
  unfold homingJump
  exact KeptBut.trans (KeptBut.mono (positionJump_kept _ _) (by simp)) (KeptBut.trans
    (KeptBut.mono (onAxis_kept _ _) (by simp)) (KeptBut.trans (KeptBut.mono (releaseInput_kept _ _) (by simp))
      (KeptBut.mono (raise_kept _ _) (by simp))))

theorem indexEdge_kept (e : Edge) (s : State) : KeptBut (.inputs :: jumping) s (indexEdge e s) :=
  KeptBut.ite (homingJump_kept _) (KeptBut.refl _ _)

theorem acceptInput_kept (n : Fin 8) (s : State) : KeptBut (.inputs :: jumping) s (acceptInput n s) := by
  have h : KeptBut (.inputs :: jumping) s (acceptLevel n s) := KeptBut.mono (acceptLevel_kept n s) (by simp)
  unfold acceptInput
  dsimp only
  split
  · exact KeptBut.trans h (KeptBut.mono (inputEvent_kept _ _ _) (by simp))
  · exact KeptBut.trans h (KeptBut.trans (KeptBut.mono (inputEvent_kept _ _ _) (by simp))
      (KeptBut.mono (judgeFreeze_kept _) (by simp)))
  · exact KeptBut.mono (acceptAxis_kept _) (by simp)
  · exact KeptBut.mono (acceptAxis_kept _) (by simp)
  · exact KeptBut.trans h (indexEdge_kept _ _)
  · exact KeptBut.trans h (KeptBut.mono (captureEdge_kept _ _ _) (by simp))

/-! ## The store and the Fault Monitor -/

theorem endOperation_kept (s : State) : KeptBut [.store, .events] s (endOperation s) := by
  unfold endOperation
  split
  · exact KeptBut.refl _ _
  · exact KeptBut.then_mono (onStore_kept _ _) (raise_kept _ _) (by simp) (by simp)

theorem abortOperation_kept (s : State) : KeptBut [.store, .events] s (abortOperation s) := by
  unfold abortOperation
  split
  · exact KeptBut.refl _ _
  · exact KeptBut.then_mono (onStore_kept _ _) (raise_kept _ _) (by simp) (by simp)

theorem markPresent_kept (c : Condition) (b : Bool) (s : State) : KeptBut [.faults] s (markPresent c b s) :=
  onFaults_kept _ _

theorem dropReport_kept (c : Condition) (s : State) : KeptBut [] s (dropReport c s) := by
  intro p _
  cases p <;> simp [keptPart, AxisIs, LinesAre, FaultsAre, LinkIs, Raised, dropReport]

theorem takeEnding_kept (c : Condition) (s : State) : KeptBut [.faults] s (takeEnding c s) := by
  unfold takeEnding
  split
  · exact KeptBut.ite (KeptBut.refl _ _) (KeptBut.trans (KeptBut.mono (dropReport_kept c s) (by simp)) (markPresent_kept _ _ _))
  · exact KeptBut.refl _ _

/-- The present set after the oldest report about a condition has been taken, if it is an ending (R129). -/
theorem takeEnding_present (c : Condition) (s : State) : (takeEnding c s).faults.present =
    match nextReport s c with
    | some r => if r.begins then s.faults.present else setPresent c false s.faults.present
    | none => s.faults.present := by
  unfold takeEnding
  cases nextReport s c with
  | none => rfl
  | some r => dsimp only; split <;> rfl

theorem judgeLimits_kept (s : State) : KeptBut [.faults, .supply] s (judgeLimits s) :=
  KeptBut.trans (KeptBut.trans (KeptBut.mono (judgeOverspeed_kept s) (by simp))
    (KeptBut.trans (KeptBut.mono (judgeReverse_kept _) (by simp)) (KeptBut.mono (judgeSupply_kept _) (by simp))))
    (KeptBut.mono (KeptBut.trans (takeEnding_kept .overspeed _) (KeptBut.trans (takeEnding_kept .reverseLimit _)
      (takeEnding_kept .supplyLow _))) (by simp))

theorem countFault_kept (s : State) : KeptBut [.faults, .events] s (countFault s) :=
  KeptBut.then_mono (onFaults_kept _ _) (raise_kept _ _) (by simp) (by simp)

theorem enterSafe_kept (s : State) : KeptBut [.axis, .seq, .lines] s (enterSafe s) := by
  have h : ∀ f g, KeptBut [.axis, .seq, .lines] s ((s.onSeq f).onOuts g) := fun f g =>
    KeptBut.then_mono (onSeq_kept _ _) (onOuts_kept _ _) (by simp) (by simp)
  unfold enterSafe
  dsimp only
  split
  · exact KeptBut.trans (h _ _) (KeptBut.mono (onAxis_kept _ _) (by simp))
  all_goals exact h _ _

/-- The parts that a fault can change. -/
abbrev faulting : List Part := [.axis, .seq, .lines, .faults, .events, .store]

theorem takeFault_kept (r : Report) (s : State) : KeptBut faulting s (takeFault r s) := by
  have h : KeptBut faulting s (if s.seq.state = .safe then faultInSafe r s else faultOutsideSafe r s) :=
    KeptBut.ite (KeptBut.then_mono (countFault_kept _) (onFaults_kept _ _) (by simp) (by simp))
      (KeptBut.trans (KeptBut.then_mono (countFault_kept _) (onFaults_kept _ _) (by simp) (by simp))
        (KeptBut.mono (enterSafe_kept _) (by simp)))
  exact KeptBut.ite (KeptBut.trans h (KeptBut.mono (abortOperation_kept _) (by simp))) h

theorem takeBeginning_kept (r : Report) (s : State) : KeptBut faulting s (takeBeginning r s) := by
  have h := KeptBut.mono (markPresent_kept r.cond true s) (qs := faulting) (by simp)
  exact KeptBut.ite (KeptBut.trans h (takeFault_kept _ _)) h

/-! ## The link -/

theorem setRx_kept (r : Receiver) (s : State) : KeptBut [.link] s (setRx r s) := onLink_kept _ _

theorem dropFrame_kept (s : State) : KeptBut [.link] s (dropFrame s) :=
  KeptBut.trans (setRx_kept _ _) (countError_kept _)

theorem receive_kept (b : Byte) (h : Bool) (s : State) : KeptBut [.link] s (receive b h s) := by
  have h1 : ∀ hi lo c t, KeptBut [.link] t (checkFrame c hi lo t) := by
    intro hi lo c t
    unfold checkFrame
    split
    · exact KeptBut.ite (KeptBut.trans (setRx_kept _ _) (goodFrame_kept _ _)) (dropFrame_kept _)
    · exact dropFrame_kept _
  have h2 : ∀ t, KeptBut [.link] t (receiveByte b t) := by
    intro t
    unfold receiveByte
    split
    · exact KeptBut.ite (setRx_kept _ _) (KeptBut.refl _ _)
    · exact KeptBut.ite (setRx_kept _ _) (dropFrame_kept _)
    · exact KeptBut.ite (setRx_kept _ _) (setRx_kept _ _)
    · exact setRx_kept _ _
    · exact h1 _ _ _ _
  exact KeptBut.trans (onLink_kept _ _) (KeptBut.ite (h2 _) (dropFrame_kept _))

/-! ## Keys -/

theorem keyReached_iff (lead k : Key) : keyReached lead k = true ↔
    (k.cycle - lead.cycle).toNat = 0 ∧ k.pos ≤ lead.pos ∨ 32768 ≤ (k.cycle - lead.cycle).toNat := by
  unfold keyReached cycleDistance
  dsimp only
  rw [Bool.or_eq_true, Bool.and_eq_true, decide_eq_true_iff, decide_eq_true_iff, decide_eq_true_iff]

theorem keyBefore_iff (lead a b : Key) : keyBefore lead a b = true ↔
    (a.cycle - lead.cycle).toInt < (b.cycle - lead.cycle).toInt ∨
      (a.cycle - lead.cycle).toInt = (b.cycle - lead.cycle).toInt ∧ a.pos < b.pos := by
  simp [keyBefore, cycleDistance]

theorem beyondHorizon_iff (lead k : Key) : beyondHorizon lead k = true ↔
    (k.cycle - lead.cycle).toNat = 32768 ∨ (k.cycle - lead.cycle).toNat = 32769 := by
  unfold beyondHorizon cycleDistance
  dsimp only
  rw [Bool.or_eq_true, decide_eq_true_iff, decide_eq_true_iff]

theorem reached_of_beyondHorizon {lead k : Key} (h : beyondHorizon lead k = true) : keyReached lead k = true := by
  rw [beyondHorizon_iff] at h
  rw [keyReached_iff]
  omega

/-! ## Occurrences -/

theorem raise_raised (src : EventSource) (s : State) : Raised [src] s (raise src s) := by
  refine ⟨rfl, fun n => ?_⟩
  rw [raise_events]
  simp only [updAt_get, occur]
  split
  · rename_i h
    subst h
    simp
  · rename_i h
    simp [h]

theorem raised_append {xs ys : List EventSource} {s t u : State} (h : Raised xs s t) (h' : Raised ys t u) :
    Raised (xs ++ ys) s u := by
  refine ⟨h'.1.trans h.1, fun n => ?_⟩
  have h1 := h.2 n
  have h2 := h'.2 n
  rw [h2, h1]
  simp [Bool.or_assoc, BitVec.add_assoc, BitVec.ofNat_add]

@[simp] theorem withMarks_pending (f : State → State) (s : State) : (withMarks f s).pending = (f s).pending := by
  unfold withMarks
  dsimp only
  split_ifs <;> rfl

@[simp] theorem withMarks_axis (f : State → State) (s : State) : (withMarks f s).axis = (f s).axis := by
  unfold withMarks
  dsimp only
  split_ifs <;> rfl

@[simp] theorem withMarks_cues (f : State → State) (s : State) : (withMarks f s).cues = (f s).cues := by
  unfold withMarks
  dsimp only
  split_ifs <;> rfl

@[simp] theorem withMarks_seq (f : State → State) (s : State) : (withMarks f s).seq = (f s).seq := by
  unfold withMarks
  dsimp only
  split_ifs <;> rfl

@[simp] theorem withMarks_capture (f : State → State) (s : State) : (withMarks f s).capture = (f s).capture := by
  unfold withMarks
  dsimp only
  split_ifs <;> rfl

@[simp] theorem withMarks_outs (f : State → State) (s : State) : (withMarks f s).outs = (f s).outs := by
  unfold withMarks
  dsimp only
  split_ifs <;> rfl

@[simp] theorem withMarks_link (f : State → State) (s : State) : (withMarks f s).link = (f s).link := by
  unfold withMarks
  dsimp only
  split_ifs <;> rfl

theorem marksRaised_same (c : CueTable) : marksRaised c c = [] := by
  have h1 : ¬ (c.lowMark ≤ listedCount c ∧ listedCount c < c.lowMark) := by omega
  have h2 : ¬ (occupiedCount c < c.highMark ∧ c.highMark ≤ occupiedCount c) := by omega
  simp [marksRaised, h1, h2]

/-- One event of the Cue Table raises what it raises, and then the marks it crosses (R43, R44). -/
theorem withMarks_raised {f : State → State} {s : State} {xs : List EventSource} (h : Raised xs s (f s)) :
    Raised (xs ++ marksRaised s.cues (f s).cues) s (withMarks f s) := by
  unfold withMarks marksRaised
  dsimp only
  by_cases h1 : s.cues.lowMark ≤ listedCount s.cues ∧ listedCount (f s).cues < s.cues.lowMark
  · simp only [h1, and_self, if_true, raise_cues]
    by_cases h2 : occupiedCount s.cues < s.cues.highMark ∧ s.cues.highMark ≤ occupiedCount (f s).cues
    · simp only [h2, and_self, if_true]
      simpa using raised_append (raised_append h (raise_raised .listLow _)) (raise_raised .slotsHigh _)
    · simp only [h2, if_false]
      simpa using raised_append h (raise_raised .listLow _)
  · simp only [h1, if_false]
    by_cases h2 : occupiedCount s.cues < s.cues.highMark ∧ s.cues.highMark ≤ occupiedCount (f s).cues
    · simp only [h2, and_self, if_true]
      simpa using raised_append h (raise_raised .slotsHigh _)
    · simp only [h2, if_false]
      simpa using h

theorem writeOutcome_raised (r : OutcomeRecord) (s : State) :
    Raised [if s.seq.log.length < Config.outcomeRoom then .outcome else .outLogFull] s (writeOutcome r s) := by
  unfold writeOutcome
  split
  · exact raise_raised .outcome (s.onSeq fun q => { q with log := q.log ++ [r] })
  · exact raise_raised .outLogFull s

end Sys2Proof.Machine
end

