-- ==== Sys2Proof/Laws/Firing.lean ====
section
/-! SUPPORT. What one firing does, and what entry into the cue list does. -/

namespace Sys2Proof.Machine

/-- The action and record of one firing, before the slot is handed back. -/
def fired (fc : FiringCause) (lead : Key) (s : State) (x : Listed) : State :=
  if x.cue.report then
    writeOutcome (firingRecord (match fc with | .key => .key | .catchUp => .catchUp) x lead s)
      (applyAction x.cue (match fc with | .key => x.key | .catchUp => s.cues.lead) s)
  else applyAction x.cue (match fc with | .key => x.key | .catchUp => s.cues.lead) s

/-- A firing, then the freeing of the slot or the repeat rule (R59). -/
theorem fireOne_fired (fc : FiringCause) (lead : Key) (s : State) (x : Listed) :
    fireOne fc lead s x = match x.cue.rep with
      | none => leaveList x.cue.slot (fired fc lead s x)
      | some r => repeatRule lead x r (fired fc lead s x) := by
  unfold fireOne fired
  cases fc <;> rfl

/-- What one firing does before its slot is handed back (R59). -/
theorem fired_spec (fc : FiringCause) (lead : Key) (s : State) (x : Listed) :
    (fired fc lead s x).cues = s.cues ∧
    Fired (match fc with | .key => .key | .catchUp => .catchUp) x (match fc with | .key => x.key | .catchUp => s.cues.lead) lead s (fired fc lead s x) ∧
    Raised (firingRaised x s) s (fired fc lead s x) := by
  unfold fired
  generalize (match fc with | .key => x.key | .catchUp => s.cues.lead) = base
  generalize (match fc with | .key => Cause.key | .catchUp => Cause.catchUp) = cause
  have hl : ∀ n : Fin 16, (applyAction x.cue base s).outs.lines[n] =
      if inSet (appliedLines s x.cue.lines) n then
        actOn x.cue.action (x.cue.width.map (pulseTrail s.axis.cfg.modulus s.stamp base)) s.outs.lines[n]
      else s.outs.lines[n] := by
    intro n
    simp only [applyAction, State.onOuts_outs, mapIdx_get]
    rfl
  have he : Raised [] s (applyAction x.cue base s) := applyAction_kept x.cue base s .events (by simp)
  by_cases hr : x.cue.report = true
  · have hw := writeOutcome_raised (firingRecord cause x lead s) (applyAction x.cue base s)
    have hw := raised_append he hw
    simp only [hr, if_true, true_and, Fired, firingRaised]
    refine ⟨?_, ⟨?_, ?_, ?_⟩, hw⟩
    · unfold writeOutcome; split <;> rfl
    · intro n
      have : (writeOutcome (firingRecord cause x lead s) (applyAction x.cue base s)).outs = (applyAction x.cue base s).outs := by
        unfold writeOutcome; split <;> rfl
      simp only [this, hl]
    · unfold writeOutcome; split <;> rfl
    · unfold writeOutcome
      have : (applyAction x.cue base s).seq = s.seq := rfl
      rw [this]
      split <;> rfl
  · rw [Bool.not_eq_true] at hr
    simp only [hr, Bool.false_eq_true, if_false, false_and, Fired, firingRaised]
    refine ⟨rfl, ⟨?_, rfl, rfl⟩, he⟩
    intro n
    simp only [hl]

theorem mem_insertCue (lead : Key) (x y : Listed) (l : List Listed) : y ∈ insertCue lead x l ↔ y = x ∨ y ∈ l := by
  induction l with
  | nil => simp [insertCue]
  | cons z l ih =>
    simp only [insertCue]
    split <;> simp [ih]
    tauto

/-- A cue taken out again leaves the list as it was before it entered. -/
theorem filter_insertCue (lead : Key) (x : Listed) (l : List Listed) (h : ∀ y ∈ l, y.cue.slot ≠ x.cue.slot) :
    (insertCue lead x l).filter (fun y => decide (y.cue.slot ≠ x.cue.slot)) = l := by
  induction l with
  | nil => simp [insertCue]
  | cons z l ih =>
    have hz := h z (by simp)
    have hl : ∀ y ∈ l, y.cue.slot ≠ x.cue.slot := fun y hy => h y (by simp [hy])
    have hf : l.filter (fun y => decide (y.cue.slot ≠ x.cue.slot)) = l := by
      rw [List.filter_eq_self]; simpa using hl
    simp only [insertCue]; split
    · rw [List.filter_cons, List.filter_cons]; simp [hz] ; simpa using hl
    · rw [List.filter_cons]; simp only [hz, ne_eq, not_false_eq_true, decide_true, if_true, ih hl]

/-- In a list without reached cues a reached cue forms the run alone (R33). -/
theorem takeWhile_insertCue (lead : Key) (x : Listed) (l : List Listed) (hx : keyReached lead x.key = true)
   (h : l.takeWhile (fun y => keyReached lead y.key) = []) :
   (insertCue lead x l).takeWhile (fun y => keyReached lead y.key) = [x] := by
  cases l with
  | nil => simp [insertCue, hx]
  | cons z l =>
    have hz : keyReached lead z.key = false := by
      by_contra hc; simp only [Bool.not_eq_false] at hc; simp [hc] at h
    have hb : keyBefore lead x.key z.key = true := by
      rw [keyReached_iff] at hx
      rw [← Bool.not_eq_true, keyReached_iff] at hz
      rw [keyBefore_iff]
      have hk : ∀ x : BitVec 16, x.toInt = if 2 * x.toNat < 65536 then (x.toNat : Int) else (x.toNat : Int) - 65536 := by
        intro x; rw [BitVec.toInt_eq_toNat_cond]; norm_num
      have ha := (x.key.cycle - lead.cycle).isLt
      have hb := (z.key.cycle - lead.cycle).isLt
      rw [hk, hk]; split_ifs <;> omega
    simp [insertCue, hb, hx, hz]

end Sys2Proof.Machine
end

