-- ==== Sys2Proof/Laws/Settle.lean ====
section
/-! SUPPORT. What the end of a command decides: conditions, mismatch states, reports, and the frame on TXD. -/

namespace Sys2Proof.Machine

/-- The judgements of a running part, before the transmitter chooses. -/
def judged (s : State) : State := judgeSupply (judgeSilence (judgeReverse (judgeOverspeed (judgeLines s))))

theorem settle_running {s : State} (h : s.phase = .running) : settle s = (chooseFrame (judged s)).forget := by
  simp only [settle, h]
  rfl

theorem settle_held {s : State} (h : s.phase = .held) : settle s = s := by simp only [settle, h]

/-! ## Judging one block leaves the others -/

theorem judgeSilence_other (s : State) :
    judgeSilence s = { s with link := (judgeSilence s).link, faults := (judgeSilence s).faults } := by
  unfold judgeSilence
  split <;> rfl


theorem judgeOverspeed_other (s : State) :
    judgeOverspeed s = { s with axis := (judgeOverspeed s).axis, faults := (judgeOverspeed s).faults } := by
  unfold judgeOverspeed
  dsimp only
  split <;> rfl

theorem judgeReverse_other (s : State) :
    judgeReverse s = { s with axis := (judgeReverse s).axis, faults := (judgeReverse s).faults } := by
  unfold judgeReverse
  dsimp only
  split <;> rfl

theorem judgeOverspeed_axis (s : State) :
    (judgeOverspeed s).axis = { s.axis with overspeed := tooFast s.axis && outsideIdle s } := by
  unfold judgeOverspeed
  dsimp only
  split
  · rename_i h
    rw [h]
  · rfl

theorem judgeReverse_axis (s : State) :
    (judgeReverse s).axis = { s.axis with reversed := tooFarBack s.axis && outsideIdle s } := by
  unfold judgeReverse
  dsimp only
  split
  · rename_i h
    rw [h]
  · rfl

/-- What the comparator makes of the supply (R130). -/
def lowJudged (p : Supply) : Bool :=
  if p.millivolts < supplyThreshold p.level then true
  else if supplyThreshold p.level + 50 ≤ p.millivolts then false
  else p.low

theorem judgeSupply_eq (s : State) : judgeSupply s =
    if lowJudged s.supply = s.supply.low then s
    else report (plainReport .supplyLow (lowJudged s.supply))
      (s.onSupply fun p => { p with low := lowJudged s.supply }) := rfl

theorem judgeSupply_other (s : State) :
    judgeSupply s = { s with supply := (judgeSupply s).supply, faults := (judgeSupply s).faults } := by
  rw [judgeSupply_eq]
  split <;> rfl

theorem judgeSupply_supply (s : State) : (judgeSupply s).supply = { s.supply with low := lowJudged s.supply } := by
  rw [judgeSupply_eq]
  split
  · rename_i h
    rw [h]
  · rfl

/-! ## Reports -/

/-- The judgements only add reports. -/
theorem report_faults (r : Report) (s : State) : (report r s).faults = { s.faults with inbox := s.faults.inbox ++ [r] } := rfl

theorem judgeOverspeed_faults (s : State) : (judgeOverspeed s).faults = { s.faults with
    inbox := s.faults.inbox ++
      if (tooFast s.axis && outsideIdle s) = s.axis.overspeed then []
      else [⟨.overspeed, tooFast s.axis && outsideIdle s, none,
        if tooFast s.axis && outsideIdle s then some s.axis.speed else none⟩] } := by
  unfold judgeOverspeed
  dsimp only
  split
  · simp
  · rfl

theorem judgeReverse_faults (s : State) : (judgeReverse s).faults = { s.faults with
    inbox := s.faults.inbox ++
      if (tooFarBack s.axis && outsideIdle s) = s.axis.reversed then []
      else [plainReport .reverseLimit (tooFarBack s.axis && outsideIdle s)] } := by
  unfold judgeReverse
  dsimp only
  split
  · simp
  · rfl

theorem judgeSilence_faults (s : State) : (judgeSilence s).faults = { s.faults with
    inbox := s.faults.inbox ++
      if s.link.silenceExpired && outsideIdle s && !s.link.silent then [plainReport .linkSilent true] else [] } := by
  unfold judgeSilence
  split
  · rfl
  · simp

theorem judgeSilence_link (s : State) : (judgeSilence s).link = { s.link with
    silent := s.link.silent || (s.link.silenceExpired && outsideIdle s) } := by
  unfold judgeSilence
  split
  · rename_i h
    simp only [Bool.and_eq_true, Bool.not_eq_true'] at h
    simp [h]
  · rename_i h
    cases h1 : s.link.silent
    · simp only [h1, Bool.not_false, Bool.and_true, Bool.not_eq_true] at h
      simp [h, ← h1]
    · simp only [Bool.true_or]
      rw [← h1]

theorem judgeSupply_faults (s : State) : (judgeSupply s).faults = { s.faults with
    inbox := s.faults.inbox ++
      if lowJudged s.supply = s.supply.low then [] else [plainReport .supplyLow (lowJudged s.supply)] } := by
  rw [judgeSupply_eq]
  split
  · simp
  · rfl

/-- The endings that the monitor reports (R121, R122). -/
def endedMismatches (s : State) : List Report :=
  ((List.finRange 16).filter fun n =>
    decide (s.outs.lines[n].mismatch = .present) && !inMismatch s s.outs.lines[n]).map fun n =>
      plainReport (.lineMismatch n) false

theorem judgeLines_eq (s : State) : judgeLines s = { s with
    outs := { s.outs with lines := s.outs.lines.map fun l => { l with mismatch := judgedMismatch s l } },
    faults := { s.faults with inbox := s.faults.inbox ++ endedMismatches s } } := rfl

/-- A running part judged: what each block holds, and the reports in their order. -/
theorem judged_eq (s : State) : judged s = { s with
    outs := { s.outs with lines := s.outs.lines.map fun l => { l with mismatch := judgedMismatch s l } },
    axis := { s.axis with
      overspeed := tooFast s.axis && outsideIdle s, reversed := tooFarBack s.axis && outsideIdle s },
    link := { s.link with silent := s.link.silent || (s.link.silenceExpired && outsideIdle s) },
    supply := { s.supply with low := lowJudged s.supply },
    faults := { s.faults with inbox := s.faults.inbox ++ endedMismatches s ++
      (if (tooFast s.axis && outsideIdle s) = s.axis.overspeed then []
        else [⟨.overspeed, tooFast s.axis && outsideIdle s, none,
          if tooFast s.axis && outsideIdle s then some s.axis.speed else none⟩]) ++
      (if (tooFarBack s.axis && outsideIdle s) = s.axis.reversed then []
        else [plainReport .reverseLimit (tooFarBack s.axis && outsideIdle s)]) ++
      (if s.link.silenceExpired && outsideIdle s && !s.link.silent then [plainReport .linkSilent true] else []) ++
      (if lowJudged s.supply = s.supply.low then [] else [plainReport .supplyLow (lowJudged s.supply)]) } } := by
  unfold judged
  rw [judgeSupply_other, judgeSupply_supply, judgeSupply_faults, judgeSilence_other, judgeSilence_faults, judgeSilence_link,
    judgeReverse_other, judgeReverse_axis, judgeReverse_faults, judgeOverspeed_other, judgeOverspeed_axis,
    judgeOverspeed_faults, judgeLines_eq]
  rfl

/-! ## After the choice of a frame -/

theorem chooseFrame_other (s : State) :
    chooseFrame s = { s with link := (chooseFrame s).link, events := (chooseFrame s).events } := by
  unfold chooseFrame
  split
  · rfl
  · split
    · rfl
    · split
      · rfl
      · split <;> rfl

theorem chooseFrame_link (s : State) :
    (chooseFrame s).link = { s.link with replies := (chooseFrame s).link.replies, tx := (chooseFrame s).link.tx } := by
  unfold chooseFrame
  split
  · rfl
  · split
    · rfl
    · split
      · rfl
      · split <;> rfl

/-- Every field that the end of a command decides in a running part, but for the transmitter's choice. -/
theorem settle_decides {s : State} (h : s.phase = .running) :
    (settle s).axis = (judged s).axis ∧ (settle s).outs = (judged s).outs ∧ (settle s).faults = (judged s).faults ∧
      (settle s).supply = (judged s).supply ∧ (settle s).link.silent = (judged s).link.silent ∧
      (settle s).link.silenceStamp = s.link.silenceStamp ∧
      (settle s).link.silenceExpired = s.link.silenceExpired := by
  rw [settle_running h]
  simp only [State.forget_axis, State.forget_outs, State.forget_faults, State.forget_supply, State.forget_link]
  rw [chooseFrame_other]
  refine ⟨rfl, rfl, rfl, rfl, ?_, ?_, ?_⟩ <;> dsimp only <;> rw [chooseFrame_link] <;> try rfl
  all_goals rw [judged_eq]

/-- The Fault Monitor after a command: only reports are added. -/
theorem settle_faults_eq (s : State) : (settle s).faults = { s.faults with inbox := (settle s).faults.inbox } := by
  cases h : s.phase
  · rw [settle_held h]
  · rw [(settle_decides h).2.2.1, judged_eq]

/-- Reports that wait stay. -/
theorem mem_settle_inbox {s : State} {r : Report} (h : r ∈ s.faults.inbox) : r ∈ (settle s).faults.inbox := by
  cases hp : s.phase
  · rwa [settle_held hp]
  · rw [(settle_decides hp).2.2.1, judged_eq]
    simp [h]

/-- The mismatch states after a command (R121). -/
theorem settle_mismatch {s : State} (h : s.phase = .running) (n : Fin 16) :
    (settle s).outs.lines[n] = { s.outs.lines[n] with mismatch := judgedMismatch s s.outs.lines[n] } := by
  rw [(settle_decides h).2.1, judged_eq]
  simp only [map_get]

end Sys2Proof.Machine
end

