-- ==== Sys2Proof/Laws/Runs.lean ====
section
/-! SUPPORT. What the runs of the Cue Table do as wholes: outcome records one after another, expiry, the repeat rule, a run of
one-shot cues, the resolution of a group. -/

namespace Sys2Proof.Machine

/-! ## Occurrences in any order -/

theorem Raised.perm {xs ys : List EventSource} {s t : State} (h : Raised xs s t) (hp : xs.Perm ys) : Raised ys s t := by
  refine ⟨h.1, fun n => ?_⟩
  rw [h.2 n, hp.countP_eq, hp.any_eq]

theorem raised_of_events {s t : State} (h : t.events = s.events) : Raised [] s t := ⟨by rw [h], fun n => by simp [h]⟩

/-! ## Outcome records -/

theorem logAfter_nil (s : State) : logAfter [] s = s.seq.log := by simp [logAfter]

theorem logAfter_append {rs qs : List OutcomeRecord} {s t : State} (h : t.seq.log = logAfter rs s) :
    logAfter qs t = logAfter (rs ++ qs) s := by
  unfold logAfter at *
  rw [h, List.take_append, List.append_assoc]
  congr 3
  simp only [List.length_append, List.length_take]
  omega

theorem recordsRaised_zero (s : State) : recordsRaised 0 s = [] := by simp [recordsRaised]

theorem recordsRaised_append {rs : List OutcomeRecord} {s t : State} (h : t.seq.log = logAfter rs s) (n : Nat) :
    (recordsRaised rs.length s ++ recordsRaised n t).Perm (recordsRaised (rs.length + n) s) := by
  have hl : t.seq.log.length = s.seq.log.length + min (Config.outcomeRoom - s.seq.log.length) rs.length := by
    rw [h]; simp [logAfter]
  rw [List.perm_iff_count]
  intro x
  simp only [recordsRaised, List.count_append, List.count_replicate, hl]
  cases x <;> simp <;> omega

/-- One record finds room and is appended, or is discarded (R69). -/
theorem writeOutcome_spec (r : OutcomeRecord) (s : State) :
    (∃ ev, writeOutcome r s = { s with seq := { s.seq with log := logAfter [r] s }, events := ev }) ∧
    Raised (recordsRaised 1 s) s (writeOutcome r s) := by
  have hr := writeOutcome_raised r s
  by_cases h : s.seq.log.length < 32
  · have h1 : 32 - s.seq.log.length = (31 - s.seq.log.length) + 1 := by omega
    have hl : logAfter [r] s = s.seq.log ++ [r] := by simp [logAfter, h1]
    have hs : recordsRaised 1 s = [.outcome] := by simp [recordsRaised, h1]
    rw [if_pos h] at hr
    rw [hl, hs]
    refine ⟨⟨(writeOutcome r s).events, ?_⟩, hr⟩
    unfold writeOutcome
    rw [if_pos h]
    rfl
  · have h1 : 32 - s.seq.log.length = 0 := by omega
    have hl : logAfter [r] s = s.seq.log := by simp [logAfter, h1]
    have hs : recordsRaised 1 s = [.outLogFull] := by simp [recordsRaised, h1]
    rw [if_neg h] at hr
    rw [hl, hs]
    refine ⟨⟨(raise .outLogFull s).events, ?_⟩, hr⟩
    unfold writeOutcome
    rw [if_neg h]
    rfl

/-! ## Expiry (R45, R46) -/

/-- The expired cues of a list, taken one after another. -/
theorem expire_foldl (lead : Key) (l : List Listed) (s : State) :
    (∃ ev, l.foldl (expire lead) s = { s with
      seq := { s.seq with log := logAfter (l.map (expiredRecord lead s)) s }, events := ev }) ∧
    Raised (expiryRaised l.length s) s (l.foldl (expire lead) s) := by
  induction l generalizing s with
  | nil => exact ⟨⟨s.events, by simp [logAfter]⟩, by simpa [expiryRaised, recordsRaised] using raised_of_events rfl⟩
  | cons x l ih =>
    obtain ⟨⟨ev, w1⟩, w2⟩ := writeOutcome_spec (expiredRecord lead s x) s
    have w3 := raised_append w2 (raise_raised .skipped _)
    obtain ⟨⟨ev', i1⟩, i2⟩ := ih (expire lead s x)
    obtain ⟨ev2, e2⟩ : ∃ ev, expire lead s x = { s with
        seq := { s.seq with log := logAfter [expiredRecord lead s x] s }, events := ev } :=
      ⟨_, (congrArg (raise .skipped) w1).trans rfl⟩
    have hlog : (expire lead s x).seq.log = logAfter [expiredRecord lead s x] s := by rw [e2]
    have hm : l.map (expiredRecord lead (expire lead s x)) = l.map (expiredRecord lead s) := by
      rw [e2]
      rfl
    rw [List.foldl_cons]
    constructor
    · rw [hm, logAfter_append hlog] at i1
      rw [i1, e2]
      exact ⟨ev', rfl⟩
    · refine Raised.perm (raised_append w3 i2) ?_
      have hp := recordsRaised_append hlog l.length
      unfold expiryRaised
      rw [List.perm_iff_count] at hp ⊢
      intro y
      have hy := hp y
      rw [List.length_cons, Nat.add_comm l.length 1]
      simp only [List.count_append, List.count_replicate, List.length_singleton, List.count_singleton] at hy ⊢
      rw [← hy]
      split <;> omega

/-! ## The repeat rule (R61, R62) -/

theorem periodsAfter_zero (k : Key) (p : Nat) : periodsAfter k p 0 = k := by simp [periodsAfter]

theorem periodsAfter_succ (k : Key) (p n : Nat) : periodsAfter (cyclesAfter k p) p n = periodsAfter k p (n + 1) := by
  simp only [periodsAfter, cyclesAfter, Nat.add_mul, Nat.one_mul, BitVec.ofNat_add, BitVec.add_assoc]
  congr 2
  exact BitVec.add_comm _ _

theorem lowered_succ (t : Remaining) (n : Nat) : lowered (lowered t 1) n = lowered t (n + 1) := by
  cases t <;> simp [lowered]
  omega

/-- Skipping with enough steps stops where the rule says (R61, R62). -/
theorem skipReached_stops (lead : Key) (period n : Nat) :
    ∀ (fuel : Nat) (key : Key) (t : Remaining) (m : Nat), n ≤ fuel →
      (∀ i, i < n → keyReached lead (periodsAfter key period i) = true ∧ lowered t i ≠ .times 0) →
      (n = fuel ∨ keyReached lead (periodsAfter key period n) = false ∨ lowered t n = .times 0) →
      skipReached lead period fuel key t m = (periodsAfter key period n, lowered t n, m + n) := by
  induction n with
  | zero =>
    intro fuel key t m _ _ hs
    have hl : lowered t 0 = t := by cases t <;> simp [lowered]
    rw [periodsAfter_zero, hl] at hs
    rw [periodsAfter_zero, hl]
    cases fuel with
    | zero => rfl
    | succ f =>
      rcases hs with h | h | h
      · omega
      · simp [skipReached, h]
      · subst h
        simp [skipReached]
  | succ n ih =>
    intro fuel key t m hf hi hs
    obtain ⟨f, rfl⟩ : ∃ f, fuel = f + 1 := ⟨fuel - 1, by omega⟩
    obtain ⟨h0, h1⟩ := hi 0 (by omega)
    rw [periodsAfter_zero] at h0
    have step : skipReached lead period (f + 1) key t m =
        skipReached lead period f (cyclesAfter key period) (lowered t 1) (m + 1) := by
      cases t with
      | times k =>
        cases k with
        | zero => simp [lowered] at h1
        | succ k => simp [skipReached, h0, lowered]
      | unending => simp [skipReached, h0, lowered]
    rw [step, ih f _ _ _ (by omega), periodsAfter_succ, lowered_succ, Nat.add_assoc, Nat.add_comm 1 n]
    · intro i hlt
      rw [periodsAfter_succ, lowered_succ]
      exact hi (i + 1) (by omega)
    · rw [periodsAfter_succ, lowered_succ]
      rcases hs with h | h
      · exact Or.inl (by omega)
      · exact Or.inr h

/-- The distance of a key so many periods on. -/
theorem periodsAfter_distance (lead k : Key) (p i : Nat) :
    ((periodsAfter k p i).cycle - lead.cycle).toNat = ((k.cycle - lead.cycle).toNat + i * p) % 65536 := by
  simp only [periodsAfter, BitVec.toNat_sub, BitVec.toNat_add, BitVec.toNat_ofNat]
  have h1 := k.cycle.isLt
  have h2 := lead.cycle.isLt
  generalize i * p = q
  omega

/-- A period of 1 to 255 cycles skips at most 32,769 repetitions: the keys ahead lie 32,767 cycles wide before the next
reached one (R8). -/
theorem skips_bounded {lead first : Key} {r : Repetition} {n : Nat} (h : SkipsJust lead first r n) : n ≤ skipFuel := by
  obtain ⟨h1, h2, hi, -⟩ := h
  by_contra hn
  have hn : 32769 < n := Nat.lt_of_not_le hn
  obtain ⟨d, hd⟩ : ∃ d, d = (first.cycle - lead.cycle).toNat := ⟨_, rfl⟩
  have hlt : d < 65536 := hd ▸ (first.cycle - lead.cycle).isLt
  have hr : ∀ i, i < n → (d + i * r.period) % 65536 = 0 ∨ 32768 ≤ (d + i * r.period) % 65536 := by
    intro i hin
    have := (hi i hin).1
    rw [keyReached_iff, periodsAfter_distance, ← hd] at this
    omega
  have h0 := hr 0 (by omega)
  simp only [Nat.zero_mul, Nat.add_zero, Nat.mod_eq_of_lt hlt] at h0
  by_cases hz : d = 0
  · have := hr 1 (by omega)
    omega
  · have hd2 : 32768 ≤ d := by omega
    obtain ⟨i, hq⟩ : ∃ i, i = (65536 - d) / r.period + 1 := ⟨_, rfl⟩
    have hle : (65536 - d) / r.period ≤ 65536 - d := Nat.div_le_self _ _
    have hm := Nat.div_add_mod (65536 - d) r.period
    have hmod := Nat.mod_lt (65536 - d) (show 0 < r.period by omega)
    have hi' := hr i (by omega)
    have he : i * r.period = r.period * ((65536 - d) / r.period) + r.period := by rw [hq]; ring
    omega

/-- What skipping answers (R61, R62). -/
theorem skipReached_spec {lead first : Key} {r : Repetition} {n : Nat} (h : SkipsJust lead first r n) (m : Nat) :
    skipReached lead r.period skipFuel first r.remaining m =
      (periodsAfter first r.period n, lowered r.remaining n, m + n) :=
  skipReached_stops lead r.period n skipFuel first r.remaining m (skips_bounded h) h.2.2.1 (Or.inr h.2.2.2)

/-- The cue handed back to the Cue Table, when its slot stands but once in the list (R61). -/
theorem handBack_spec (x : Listed) (r : Repetition) (key : Key) (t : Remaining) (s : State) (hr : x.cue.rep = some r) :
    handBack x r key t s = s.onCues fun c =>
      { c with list := handedBack c.lead x r key t (c.list.filter fun y => decide (y.cue.slot ≠ x.cue.slot)) } := by
  have hx : { x.cue with rep := some r } = x.cue := by rw [← hr]
  unfold handBack handedBack
  rcases t with (_ | _ | n) | _
  · rfl
  · rfl
  · rfl
  · rw [hx]
    rfl

/-! ## A run of one-shot cues (R58, R59) -/

theorem actOn_cfg (a : Action) (t : Option Trail) (l : OutLine) : (actOn a t l).cfg = l.cfg := by cases a <;> rfl

theorem lineFired_cfg (s : State) (n : Fin 16) (l : OutLine) (x : Listed) : (lineFired s n l x).cfg = l.cfg := by
  unfold lineFired
  split
  · exact actOn_cfg _ _ _
  · rfl

/-- Which lines CUE owns follows from the settings alone. -/
theorem cueOwned_congr {s t : State} (h : ∀ n : Fin 16, t.outs.lines[n].cfg = s.outs.lines[n].cfg) :
    cueOwned t = cueOwned s := by
  unfold cueOwned
  congr 1
  funext n
  rw [h n]

/-- One one-shot cue fires with cause KEY and is freed (R59). -/
theorem fireOne_oneShot (lead : Key) (s : State) (x : Listed) (hr : x.cue.rep = none) :
    (∃ ev lines, fireOne .key lead s x = { s with
      cues := { s.cues with list := s.cues.list.filter fun y => decide (y.cue.slot ≠ x.cue.slot) }
      outs := { s.outs with lines := lines }
      seq := { s.seq with log := logAfter (([x].filter (·.cue.report)).map fun y => firingRecord .key y lead s) s }
      events := ev } ∧ ∀ n : Fin 16, lines[n] = lineFired s n s.outs.lines[n] x) ∧
    Raised (recordsRaised ([x].countP (·.cue.report)) s) s (fireOne .key lead s x) := by
  have hf : fireOne .key lead s x = leaveList x.cue.slot (fired .key lead s x) := by
    rw [fireOne_fired, hr]
  rw [hf]
  have hlines : ∀ n : Fin 16, (applyAction x.cue x.key s).outs.lines[n] = lineFired s n s.outs.lines[n] x := by
    intro n
    simp only [applyAction, State.onOuts_outs, mapIdx_get]
    rfl
  have he : Raised [] s (applyAction x.cue x.key s) := applyAction_kept x.cue x.key s .events (by simp)
  by_cases hp : x.cue.report = true
  · obtain ⟨⟨ev, w1⟩, w2⟩ := writeOutcome_spec (firingRecord .key x lead s) (applyAction x.cue x.key s)
    have hfi : fired .key lead s x = writeOutcome (firingRecord .key x lead s) (applyAction x.cue x.key s) := by
      simp only [fired, hp, if_true]
    refine ⟨⟨ev, (applyAction x.cue x.key s).outs.lines, ?_, hlines⟩, ?_⟩
    · rw [hfi, w1]
      simp only [List.filter_cons, hp, if_true, List.filter_nil, List.map_cons, List.map_nil]
      rfl
    · have hc : [x].countP (·.cue.report) = 1 := by simp [hp]
      have h := raised_append he w2
      rw [List.nil_append] at h
      rw [hc, hfi]
      exact h
  · rw [Bool.not_eq_true] at hp
    have hfi : fired .key lead s x = applyAction x.cue x.key s := by simp [fired, hp]
    refine ⟨⟨s.events, (applyAction x.cue x.key s).outs.lines, ?_, hlines⟩, ?_⟩
    · rw [hfi]
      simp only [List.filter_cons, hp, Bool.false_eq_true, if_false, List.filter_nil, List.map_nil, logAfter_nil]
      rfl
    · have hc : [x].countP (·.cue.report) = 0 := by simp [hp]
      rw [hc, hfi, recordsRaised_zero]
      exact he

/-- A run of one-shot cues fires with cause KEY, one after another (R58, R59). -/
theorem fireRun_oneShot (lead : Key) (run : List Listed) (s : State) (hr : ∀ x ∈ run, x.cue.rep = none) :
    (∃ ev lines, run.foldl (fireOne .key lead) s = { s with
      cues := { s.cues with
        list := s.cues.list.filter fun y => run.all fun x => decide (y.cue.slot ≠ x.cue.slot) }
      outs := { s.outs with lines := lines }
      seq := { s.seq with log := logAfter ((run.filter (·.cue.report)).map fun y => firingRecord .key y lead s) s }
      events := ev } ∧ ∀ n : Fin 16, lines[n] = run.foldl (lineFired s n) s.outs.lines[n]) ∧
    Raised (recordsRaised (run.countP (·.cue.report)) s) s (run.foldl (fireOne .key lead) s) := by
  induction run generalizing s with
  | nil =>
    refine ⟨⟨s.events, s.outs.lines, ?_, fun _ => rfl⟩, ?_⟩
    · simp [logAfter_nil]
    · simpa [recordsRaised] using raised_of_events rfl
  | cons x run ih =>
    obtain ⟨⟨ev, lines, f1, f2⟩, f3⟩ := fireOne_oneShot lead s x (hr x (by simp))
    obtain ⟨⟨ev', lines', i1, i2⟩, i3⟩ := ih (fireOne .key lead s x) fun y hy => hr y (by simp [hy])
    have ho : cueOwned (fireOne .key lead s x) = cueOwned s :=
      cueOwned_congr fun n => by
        rw [f1]
        show lines[n].cfg = _
        rw [f2 n, lineFired_cfg]
    have ha : ∀ ls, appliedLines (fireOne .key lead s x) ls = appliedLines s ls := by
      intro ls
      unfold appliedLines
      rw [ho, f1]
    have hrec : ∀ y, firingRecord .key y lead (fireOne .key lead s x) = firingRecord .key y lead s := by
      intro y
      unfold firingRecord
      rw [ha, f1]
    have hline : ∀ n, lineFired (fireOne .key lead s x) n = lineFired s n := by
      intro n
      funext l y
      unfold lineFired
      rw [ha, f1]
    have hlog : (fireOne .key lead s x).seq.log =
        logAfter (([x].filter (·.cue.report)).map fun y => firingRecord .key y lead s) s := by rw [f1]
    simp only [hrec, logAfter_append hlog] at i1
    rw [List.foldl_cons]
    refine ⟨⟨ev', lines', ?_, ?_⟩, ?_⟩
    · rw [i1, f1]
      simp only [← List.map_append, ← List.filter_append, List.singleton_append, List.filter_filter, List.all_cons]
      congr 2
      apply List.filter_congr
      intro y _
      exact Bool.and_comm _ _
    · intro n
      rw [i2 n, hline, List.foldl_cons, f1]
      show run.foldl (lineFired s n) lines[n] = _
      rw [f2 n]
    · refine Raised.perm (raised_append f3 i3) ?_
      have hp := recordsRaised_append hlog (run.countP (·.cue.report))
      rw [List.length_map, ← List.countP_eq_length_filter] at hp
      rwa [show (x :: run).countP (·.cue.report) = [x].countP (·.cue.report) + run.countP (·.cue.report) from
        List.countP_append (l₁ := [x])]

/-! ## The resolution of a group (R28, R88, R89) -/

/-- The cues of a group enter the list or expire, in group order. -/
theorem resolveCues_spec (point lead : Key) (cues : List Cue) (s : State) (ks : List Listed)
    (hk : ks = cues.map fun c => ⟨c, keyAfter s.axis.cfg.modulus point (c.offset.getD 0)⟩) :
    (∃ ev, cues.foldl (resolveCue point lead) s = { s with
      cues := { s.cues with
        list := (ks.filter fun x => !beyondHorizon s.cues.lead x.key).foldl
          (fun l x => insertCue s.cues.lead x l) s.cues.list }
      seq := { s.seq with
        log := logAfter ((ks.filter fun x => beyondHorizon s.cues.lead x.key).map (expiredRecord lead s)) s }
      events := ev }) ∧
    Raised (expiryRaised (ks.countP fun x => beyondHorizon s.cues.lead x.key) s) s
      (cues.foldl (resolveCue point lead) s) := by
  induction cues generalizing s ks with
  | nil =>
    subst hk
    refine ⟨⟨s.events, by simp [logAfter_nil]⟩, ?_⟩
    simpa [expiryRaised, recordsRaised] using raised_of_events rfl
  | cons c cues ih =>
    rw [List.map_cons] at hk
    obtain ⟨x, hx⟩ : ∃ x : Listed, x = ⟨c, keyAfter s.axis.cfg.modulus point (c.offset.getD 0)⟩ := ⟨_, rfl⟩
    rw [← hx] at hk
    have hstep : resolveCue point lead s c = if beyondHorizon s.cues.lead x.key then expire lead s x else enterCue x s := by
      rw [hx]
      rfl
    rw [List.foldl_cons, hstep]
    by_cases hb : beyondHorizon s.cues.lead x.key = true
    · rw [if_pos hb]
      obtain ⟨⟨ev, e1⟩, e2⟩ := expire_foldl lead [x] s
      rw [List.foldl_cons, List.foldl_nil] at e1 e2
      obtain ⟨⟨ev', i1⟩, i2⟩ := ih (expire lead s x)
        (cues.map fun c => ⟨c, keyAfter s.axis.cfg.modulus point (c.offset.getD 0)⟩) (by rw [e1])
      have hlog : (expire lead s x).seq.log = logAfter ([x].map (expiredRecord lead s)) s := by rw [e1]
      have hm : expiredRecord lead (expire lead s x) = expiredRecord lead s := by
        rw [e1]
        rfl
      have hc : (expire lead s x).cues = s.cues := by rw [e1]
      subst hk
      simp only [hm, hc, logAfter_append hlog] at i1
      rw [hc] at i2
      constructor
      · refine ⟨ev', ?_⟩
        rw [i1, e1]
        simp [hb]
      · refine Raised.perm (raised_append e2 i2) ?_
        have hp := recordsRaised_append hlog
          ((cues.map fun c => (⟨c, keyAfter s.axis.cfg.modulus point (c.offset.getD 0)⟩ : Listed)).countP
            fun x => beyondHorizon s.cues.lead x.key)
        rw [List.countP_cons, if_pos hb, Nat.add_comm _ 1]
        unfold expiryRaised
        rw [List.perm_iff_count] at hp ⊢
        intro y
        have hy := hp y
        simp only [List.count_append, List.count_replicate, List.length_map, List.length_singleton] at hy ⊢
        rw [← hy]
        split <;> omega
    · rw [Bool.not_eq_true] at hb
      rw [hb, if_neg Bool.false_ne_true]
      obtain ⟨⟨ev', i1⟩, i2⟩ := ih (enterCue x s)
        (cues.map fun c => ⟨c, keyAfter s.axis.cfg.modulus point (c.offset.getD 0)⟩) rfl
      subst hk
      constructor
      · refine ⟨ev', ?_⟩
        rw [i1, List.filter_cons_of_pos (by rw [hb]; rfl), List.filter_cons_of_neg (by rw [hb]; exact Bool.false_ne_true),
          List.foldl_cons]
        rfl
      · rw [List.countP_cons, hb, if_neg Bool.false_ne_true]
        have h := raised_append (raised_of_events (s := s) (t := enterCue x s) rfl) i2
        rw [List.nil_append] at h
        exact h

end Sys2Proof.Machine
end

