-- ==== Sys2Proof/Laws/Counts.lean ====
section
/-! SUPPORT. What the cycle boundaries at the Cam Unit, one count of the axis and the reordering of the cue list do. -/

namespace Sys2Proof.Machine

/-! ## Tracks and cycle boundaries (R99, R106) -/

/-- A recomputation forgets the one before it. -/
theorem recompute_recompute (a b : Axis) (t : Track) : recomputeTrack a (recomputeTrack b t) = recomputeTrack a t := rfl

theorem swapTrack_spec (t : Track) : swapTrack t =
    if t.staged = true then { t with active := if t.active = .a then .b else .a, staged := false } else t := by
  unfold swapTrack
  cases t.active <;> rfl

theorem raise_repeated (src : EventSource) (n : Nat) (s : State) :
    (∃ ev, Nat.repeat (raise src) n s = { s with events := ev }) ∧
      Raised (List.replicate n src) s (Nat.repeat (raise src) n s) := by
  induction n with
  | zero => exact ⟨⟨s.events, rfl⟩, raised_of_events rfl⟩
  | succ n ih =>
    obtain ⟨⟨ev, i1⟩, i2⟩ := ih
    refine ⟨⟨(raise src (Nat.repeat (raise src) n s)).events, ?_⟩, ?_⟩
    · show raise src (Nat.repeat (raise src) n s) = _
      rw [i1]
      rfl
    · rw [List.replicate_succ']
      exact raised_append i2 (raise_raised src _)

/-- The boundaries that wait at the Cam Unit are taken: staged tracks swap, and nothing waits (R106). -/
theorem takeBoundaries_spec (s : State) :
    (∃ ev tracks, takeBoundaries s = { s with cams := ⟨tracks, 0⟩, events := ev } ∧
      ∀ (a : Axis) (n : Fin 8), recomputeTrack a tracks[n] = recomputeTrack a (swappedTrack s n)) ∧
    Raised (swapsRaised s) s (takeBoundaries s) := by
  unfold takeBoundaries swapsRaised
  by_cases h : s.cams.boundaries = 0
  · rw [if_pos h, if_pos h]
    refine ⟨⟨s.events, s.cams.tracks, ?_, fun a n => ?_⟩, raised_of_events rfl⟩
    · rw [← h]
    · simp [swappedTrack, h]
  · rw [if_neg h, if_neg h]
    obtain ⟨⟨ev, r1⟩, r2⟩ := raise_repeated .camSwapped (s.cams.tracks.toList.countP (·.staged))
      (s.onCams fun c => { c with boundaries := 0 })
    have he : takeBoundary (s.onCams fun c => { c with boundaries := 0 }) =
        (Nat.repeat (raise .camSwapped) (s.cams.tracks.toList.countP (·.staged))
          (s.onCams fun c => { c with boundaries := 0 })).onCams fun c =>
            { c with tracks := c.tracks.map fun t => recomputeTrack (atCycleStart s.axis) (swapTrack t) } := rfl
    rw [he]
    refine ⟨⟨ev, s.cams.tracks.map fun t => recomputeTrack (atCycleStart s.axis) (swapTrack t), ?_, fun a n => ?_⟩, ?_⟩
    · rw [r1]
      rfl
    · rw [map_get, recompute_recompute, swapTrack_spec]
      simp [swappedTrack, h]
    · exact r2

/-! ## Counts (R6, R7, R9) -/

theorem forwardKey_counted (m : Nat) (k : Key) : forwardKey m k = countedKey true m k := rfl

theorem backwardKey_counted (m : Nat) (k : Key) : backwardKey m k = countedKey false m k := rfl

/-- The terms in which `CountTaken` is said hold of a count before the end of the command as well: nothing the end of a command
judges is in them. -/
theorem CountTaken.settled {forward : Bool} {a : Axis} {s t : State} (h : CountTaken forward a s t) :
    CountTaken forward a s (settle t) := by
  obtain ⟨h1, h2, h3, h4, h5, h6, h7, h8⟩ := h
  have hk := settle_kept t
  have hax : ∀ x : Track, recomputeTrack (settle t).axis x = recomputeTrack t.axis x := by
    intro x
    rw [settle_axis t]
    rfl
  have hc : (settle t).cams = t.cams := hk .cams (by simp)
  have hq : (settle t).cues = t.cues := hk .cues (by simp)
  have hp : (settle t).capture = t.capture := hk .capture (by simp)
  refine ⟨?_, ?_, by rw [hc, h3], by rw [hq, h4], by rw [hp, h5], ?_, LinesAre.trans h7 (hk .lines (by simp)).2,
    h8.trans_none (hk .events (by simp))⟩
  · have h' := settle_axis t
    unfold AxisIs at h1 h' ⊢
    rw [h', h1]
  · intro n
    rw [hc, h2 n, hax]
  · rw [(hk .lines (by simp)).1, h6]

/-- A count of the axis on top of the boundaries it takes first: the tracks it leaves. -/
theorem counted_tracks {s t : State} {tracks : Vector Track 8}
    (h : ∀ (a : Axis) (n : Fin 8), recomputeTrack a tracks[n] = recomputeTrack a (swappedTrack s n))
    (ht : t.cams.tracks = tracks.map (recomputeTrack t.axis)) (n : Fin 8) :
    t.cams.tracks[n] = recomputeTrack t.axis (swappedTrack s n) := by
  rw [← h t.axis n, ht, map_get]

/-- A cycle boundary of the lead point raises CYCLE and nothing else (R9). -/
theorem arriveLead_raised (k : Key) (s : State) : Raised [.cycle] s (arriveLead k true s) := by
  have h1 : Raised [] s ((s.onAxis fun a => { a with lead := k }).onAxis fun a =>
      { a with cfg := { a.cfg with modulus := a.staged.getD a.cfg.modulus }, staged := none }) := raised_of_events rfl
  have h2 := raise_raised .cycle (((s.onAxis fun a => { a with lead := k }).onAxis fun a =>
      { a with cfg := { a.cfg with modulus := a.staged.getD a.cfg.modulus }, staged := none }).onCams
        fun c => { c with boundaries := c.boundaries + 1 })
  exact (raised_append h1 h2).trans_none (raised_of_events rfl)

theorem countBackward_spec (s : State) : CountTaken false s.axis s (countBackward s) := by
  obtain ⟨⟨ev, tracks, b1, b2⟩, b3⟩ := takeBoundaries_spec s
  unfold countBackward
  rw [b1] at b3 ⊢
  exact ⟨rfl, counted_tracks b2 rfl, rfl, by rw [show leads false s.axis = false from rfl]; simp [recomputeCams],
    by rw [show leads false s.axis = false from rfl]; simp [recomputeCams],
    by rw [show leads false s.axis = false from rfl]; simp [recomputeCams], fun n => rfl,
    by rw [show crosses false s.axis = false from rfl, if_neg Bool.false_ne_true, List.append_nil]
       exact b3.trans_none (raised_of_events rfl)⟩

theorem countForward_behind (s : State) (h : s.axis.current ≠ s.axis.lead) : CountTaken true s.axis s (countForward s) := by
  obtain ⟨⟨ev, tracks, b1, b2⟩, b3⟩ := takeBoundaries_spec s
  have hy : leads true s.axis = false := by simp [leads, h]
  have hx : crosses true s.axis = false := by simp [crosses, hy]
  have he : countForward s = recomputeCams ((takeBoundaries s).onAxis fun a =>
      { a with current := forwardKey s.axis.cfg.modulus s.axis.current, netCount := a.netCount + 1 }) := by
    unfold countForward
    simp only [if_neg h]
  rw [he]
  rw [b1] at b3 ⊢
  unfold CountTaken
  rw [hx, hy]
  exact ⟨rfl, counted_tracks b2 rfl, rfl, by simp [recomputeCams], by simp [recomputeCams], by simp [recomputeCams],
    fun n => rfl, by
      rw [if_neg Bool.false_ne_true, List.append_nil]
      exact b3.trans_none (raised_of_events rfl)⟩

theorem countForward_leading (s : State) (h : s.axis.current = s.axis.lead) : CountTaken true s.axis s (countForward s) := by
  obtain ⟨⟨ev, tracks, b1, b2⟩, b3⟩ := takeBoundaries_spec s
  have hy : leads true s.axis = true := by simp only [leads, h]; decide
  have hx : crosses true s.axis = decide (s.axis.cfg.modulus ≤ s.axis.current.pos + 1) := by simp only [crosses, hy, Bool.true_and]
  have he : countForward s = recomputeCams (arriveLead (forwardKey s.axis.cfg.modulus s.axis.current)
      (decide (s.axis.cfg.modulus ≤ s.axis.current.pos + 1)) ((takeBoundaries s).onAxis fun a =>
      { a with current := forwardKey s.axis.cfg.modulus s.axis.current, netCount := a.netCount + 1 })) := by
    unfold countForward
    simp only [if_pos h]
  rw [he]
  rw [b1] at b3 ⊢
  unfold CountTaken
  rw [hx, hy]
  have hr : ∀ t : State, (recomputeCams t).events = t.events := fun _ => rfl
  cases decide (s.axis.cfg.modulus ≤ s.axis.current.pos + 1) with
  | false =>
    refine ⟨rfl, counted_tracks b2 rfl, rfl, rfl, rfl, rfl, fun n => rfl, ?_⟩
    rw [if_neg Bool.false_ne_true, List.append_nil]
    exact b3.trans_none (raised_of_events rfl)
  | true =>
    refine ⟨rfl, counted_tracks b2 rfl, rfl, rfl, rfl, rfl, fun n => rfl, ?_⟩
    rw [if_pos rfl]
    refine Raised.trans_none ?_ (raised_of_events (hr _))
    refine raised_append ?_ (arriveLead_raised _ _)
    exact b3.trans_none (raised_of_events rfl)

/-- One count, when the axis runs (R5 to R7, R9, R17). -/
theorem decoderCount_spec (forward : Bool) (s : State) (h : s.axis.running = true) :
    CountTaken forward s.axis s (decoderCount forward s) := by
  unfold decoderCount
  rw [if_pos h]
  cases forward with
  | false => exact countBackward_spec s
  | true =>
    rw [if_pos rfl]
    by_cases hl : s.axis.current = s.axis.lead
    · exact countForward_leading s hl
    · exact countForward_behind s hl

/-! ## Key order (R8, R25, R29) -/

theorem keyBefore_trans {lead a b c : Key} (h : keyBefore lead a b = true) (h' : keyBefore lead b c = true) :
    keyBefore lead a c = true := by
  rw [keyBefore_iff] at *
  omega

/-- A cue put into a list in key order leaves the same cues, in key order, equal keys in the order of their entry (R25). -/
theorem insertCue_spec (lead : Key) (x : Listed) (l : List Listed)
    (h : l.Pairwise fun a b => keyBefore lead b.key a.key = false) :
    (insertCue lead x l).Perm (x :: l) ∧ (insertCue lead x l).Pairwise (fun a b => keyBefore lead b.key a.key = false) ∧
      ∀ k : Key, (insertCue lead x l).filter (fun y => decide (y.key = k)) =
        l.filter (fun y => decide (y.key = k)) ++ if x.key = k then [x] else [] := by
  induction l with
  | nil => exact ⟨List.Perm.refl _, by simp [insertCue], fun k => by by_cases hk : x.key = k <;> simp [insertCue, hk]⟩
  | cons y ys ih =>
    obtain ⟨h1, h2⟩ := List.pairwise_cons.mp h
    obtain ⟨i1, i2, i3⟩ := ih h2
    unfold insertCue
    by_cases hb : keyBefore lead x.key y.key = true
    · rw [if_pos hb]
      have hz : ∀ z ∈ y :: ys, keyBefore lead z.key x.key = false := by
        intro z hz
        by_contra hc
        have := keyBefore_trans (by simpa using hc) hb
        rcases List.mem_cons.mp hz with rfl | hm
        · rw [keyBefore_iff] at this
          omega
        · rw [h1 z hm] at this
          cases this
      refine ⟨List.Perm.refl _, List.pairwise_cons.mpr ⟨hz, h⟩, fun k => ?_⟩
      by_cases hk : x.key = k
      · have hn : (y :: ys).filter (fun z => decide (z.key = k)) = [] := by
          rw [List.filter_eq_nil_iff]
          intro z hm hc
          have he : z.key = x.key := by rw [hk]; simpa using hc
          rcases List.mem_cons.mp hm with rfl | hm
          · rw [he, keyBefore_iff] at hb
            omega
          · have := h1 z hm
            rw [he, hb] at this
            cases this
        rw [List.filter_cons, hn]
        simp [hk]
      · rw [List.filter_cons]
        simp [hk]
    · rw [if_neg hb]
      refine ⟨(i1.cons y).trans (List.Perm.swap x y ys), List.pairwise_cons.mpr ⟨fun z hz => ?_, i2⟩, fun k => ?_⟩
      · rcases List.mem_cons.mp (i1.mem_iff.mp hz) with rfl | hm
        · simpa using hb
        · exact h1 z hm
      · rw [List.filter_cons, List.filter_cons, i3 k]
        split <;> simp

/-- The reordering of R29: the same cues in key order, equal keys keeping their order. -/
theorem reorder_spec (lead : Key) (l : List Listed) : Reordered lead l (reorder lead l) := by
  have go : ∀ (l acc : List Listed), acc.Pairwise (fun a b => keyBefore lead b.key a.key = false) →
      Reordered lead (acc ++ l) (l.foldl (fun acc x => insertCue lead x acc) acc) := by
    intro l
    induction l with
    | nil => intro acc h; simpa [Reordered] using h
    | cons x xs ih =>
      intro acc h
      obtain ⟨i1, i2, i3⟩ := insertCue_spec lead x acc h
      obtain ⟨r1, r2, r3⟩ := ih _ i2
      refine ⟨r1.trans ((i1.append_right xs).trans ?_), r2, fun k => ?_⟩
      · exact (List.perm_middle (l₁ := acc)).symm
      · rw [List.foldl_cons, r3 k, List.filter_append, List.filter_append, i3 k, List.filter_cons]
        split <;> simp_all
  exact go l [] List.Pairwise.nil

end Sys2Proof.Machine
end

