-- ==== Sys2Proof/Laws/Layout.lean ====
section
/-! SUPPORT. The byte builders of the replies are the layouts of section 11: the small lemmas of `bytesOf` and `layout`. -/

namespace Sys2Proof.Machine

theorem bytesOf_one (v : Nat) : bytesOf 1 v = [byteOf v] := by simp [bytesOf, byteOf]

theorem bytesOf_two (v : Nat) : bytesOf 2 v = be16 v := by simp [bytesOf, byteOf, be16]

theorem bytesOf_four (v : Nat) : bytesOf 4 v = be32 v := by simp [bytesOf, byteOf, be32]

theorem bytesOf_zero (n : Nat) : bytesOf n 0 = List.replicate n 0#8 := by
  induction n with
  | zero => rfl
  | succ n ih => simp [bytesOf, ih, List.replicate_succ]

theorem layout_nil : layout [] = [] := rfl

theorem layout_cons (f : Nat × Nat) (l : List (Nat × Nat)) : layout (f :: l) = bytesOf f.1 f.2 ++ layout l := by
  simp [layout]

theorem layout_append (l m : List (Nat × Nat)) : layout (l ++ m) = layout l ++ layout m := by simp [layout]

theorem layout_flatMap {α : Type} (l : List α) (f : α → List (Nat × Nat)) :
    layout (l.flatMap f) = l.flatMap fun x => layout (f x) := by
  simp [layout, List.flatMap_assoc]

theorem layout_key (k : Key) : layout (keyFields k) = keyBytes k := by
  simp [keyFields, layout_cons, bytesOf_two, bytesOf_four, keyBytes, layout_nil]

theorem byteOf_flag (b : Bool) : byteOf b.toNat = flagByte b := by cases b <;> rfl

theorem flagBits_eq (l : List Bool) : flagBits l = bitsByte l := by
  induction l with
  | nil => rfl
  | cons b l ih => cases b <;> simp [flagBits, bitsByte, ih]

theorem be32_signed (i : Int) : be32 (signed i) = beInt i := rfl

theorem byteOf_actionCode (a : Action) : byteOf (actionCode a) = actionByte a := by cases a <;> rfl

theorem byteOf_remainingCode (r : Remaining) : byteOf (remainingCode r) = remainingByte r := by cases r <;> rfl

end Sys2Proof.Machine
end

