-- ==== Sys2Proof/Laws/Stamp.lean ====
section
/-! SUPPORT. The edges of the decoder at one stamp: what the checkpoint keeps, and what passing a stamp runs. -/

namespace Sys2Proof.Machine

/-! ## The checkpoint (notes/assumptions/6) -/

@[simp] theorem backTo_pending (c : Checkpoint) (s : State) : (backTo c s).pending = s.pending := rfl
@[simp] theorem backTo_phase (c : Checkpoint) (s : State) : (backTo c s).phase = s.phase := rfl
@[simp] theorem backTo_stamp (c : Checkpoint) (s : State) : (backTo c s).stamp = s.stamp := rfl
@[simp] theorem backTo_axis (c : Checkpoint) (s : State) : (backTo c s).axis = c.axis := rfl
@[simp] theorem backTo_seq (c : Checkpoint) (s : State) : (backTo c s).seq = s.seq := rfl
@[simp] theorem backTo_cams (c : Checkpoint) (s : State) : (backTo c s).cams = c.cams := rfl
@[simp] theorem backTo_ins (c : Checkpoint) (s : State) : (backTo c s).ins = c.ins := rfl
@[simp] theorem backTo_inbox (c : Checkpoint) (s : State) : (backTo c s).faults.inbox = c.reports := rfl
@[simp] theorem backTo_supply (c : Checkpoint) (s : State) : (backTo c s).supply = s.supply := rfl
@[simp] theorem backTo_events (c : Checkpoint) (s : State) : (backTo c s).events = c.events := rfl
@[simp] theorem backTo_store (c : Checkpoint) (s : State) : (backTo c s).store = s.store := rfl
@[simp] theorem backTo_freeIndex (c : Checkpoint) (s : State) : (backTo c s).freeIndex = s.freeIndex := rfl
@[simp] theorem backTo_checkpoint (c : Checkpoint) (s : State) : (backTo c s).checkpoint = none := rfl

/-- A command leaves no checkpoint when it ends. -/
@[simp] theorem settle_checkpoint {s : State} (h : s.phase = .running) : (settle s).checkpoint = none := by
  rw [settle_running h]
  rfl

theorem reopened_of_none {s : State} (h : s.checkpoint = none) : reopened s = s := by simp only [reopened, h]

theorem leaveOpen_kept (n : Fin 8) (s t : State) : KeptBut [] t (leaveOpen n s t) := by
  unfold leaveOpen
  split <;> exact KeptBut.refl [] t

/-- After a command that changes only what the checkpoint holds, the part before it comes back whole. -/
theorem backTo_kept {s t : State} (h : KeptBut [.axis, .inputs, .cams, .cues, .capture, .lines, .events] s t)
    (hq : t.cues = { s.cues with arrivals := t.cues.arrivals })
    (hp : t.capture = { s.capture with arrivals := t.capture.arrivals })
    (hl : LinesAre (fun n => s.outs.lines[n]) t) : KeptBut [] s (backTo (checkpointOf s) t) := by
  intro p _
  cases p with
  | clock => exact h .clock (by simp)
  | axis => exact rfl
  | cues =>
    show { t.cues with arrivals := s.cues.arrivals } = s.cues
    rw [hq]
  | seq => exact h .seq (by simp)
  | capture =>
    show { t.capture with arrivals := s.capture.arrivals } = s.capture
    rw [hp]
  | cams => exact rfl
  | lines =>
    refine ⟨rfl, fun n => ?_⟩
    have := hl n
    simp [backTo, checkpointOf] at this ⊢
    rw [this]
    exact ⟨rfl, rfl, rfl, rfl, rfl, rfl⟩
  | inputs => exact rfl
  | faults =>
    have : FaultsAre s.faults t := h .faults (by simp)
    unfold FaultsAre at this
    simp only [keptPart, FaultsAre, backTo]
    rw [this]
  | supply => exact h .supply (by simp)
  | events => exact ⟨rfl, fun n => by simp [backTo, checkpointOf]⟩
  | link =>
    have : LinkIs s.link t := h .link (by simp)
    unfold LinkIs at this
    simp only [keptPart, LinkIs, backTo]
    rw [this]
  | store => exact h .store (by simp)

/-! ## A stamp passes -/

theorem runs_goOn (cs : List Instr) (h : ∀ c ∈ cs, ∀ s, exec c s = .next (goOn (exec c) s)) (s : State) :
    Runs cs s ((cs.map exec).foldl (fun s c => goOn c s) s) := by
  induction cs generalizing s with
  | nil => rfl
  | cons c cs ih =>
    exact ⟨goOn (exec c) s, h c (by simp) s, ih (fun d hd => h d (by simp [hd])) _⟩

/-- What is due at a stamp when it passes has been run. -/
theorem passStamp_runs (s : State) : ∃ u, Runs timedInstrs s u ∧ passStamp s = tick u := by
  refine ⟨timedCommands.foldl (fun s c => goOn c s) s, ?_, rfl⟩
  have h := runs_goOn timedInstrs ?_ s
  · exact h
  · intro c hc s
    simp only [timedInstrs, List.mem_append, List.mem_map, List.mem_cons, List.not_mem_nil, or_false] at hc
    rcases hc with (((⟨n, -, rfl⟩ | rfl) | ⟨n, -, rfl⟩) | ⟨n, -, rfl⟩) | rfl | rfl <;> rfl

end Sys2Proof.Machine
end

