-- ==== Sys2Proof/Tests/Slice0.lean ====
section
/-! SUPPORT. The model's own tests: ill-formed commands that the check refuses, single steps on small states, and for every
statement with premises a state and operands that meet them all. -/

namespace Sys2Proof.Tests

set_option Elab.async false

open Sys2Proof Sys2Proof.Machine

/-! ## Well-formedness -/

theorem test_wf_refuses_long_body : (Instr.axisRun 0#8 (List.replicate 249 0#8)).wf = false := by
  decide +kernel

theorem test_wf_takes_longest_body : (Instr.axisRun 0#8 (List.replicate 248 0#8)).wf = true := by
  decide +kernel

theorem test_wf_refuses_known_kind_as_unknown : (Instr.unknownKindRequest 0#8 0x7F#8 []).wf = false := by decide

theorem test_wf_takes_unknown_kind : (Instr.unknownKindRequest 0#8 0x80#8 []).wf = true := by decide

/-! ## Frames -/

/-- The register of R155 over the nine digits. -/
theorem test_crc16_of_nine_digits :
    crc16 [0x31#8, 0x32#8, 0x33#8, 0x34#8, 0x35#8, 0x36#8, 0x37#8, 0x38#8, 0x39#8] = 0x29B1#16 := by decide +kernel

theorem test_frame_bytes_of_axis_run :
    (⟨5#8, 2#8, []⟩ : Frame).bytes.take 4 = [0x7E#8, 2#8, 5#8, 2#8] := by decide

theorem test_kind_3f_is_unknown : (⟨1#8, 0x3F#8, []⟩ : Frame).command = .unknownKindRequest 1#8 0x3F#8 [] := by decide

/-! ## States -/

/-- The state a command answers. -/
def run (c : Instr) (s : State) : State :=
  match exec c s with
  | .next t => t
  | _ => s

/-- The part after reset in a sequencer state. -/
def inSeq (q : SeqState) : State :=
  { State.reset with seq := { Sequencer.reset with state := q, holdRequest := decide (q = .hold) } }

/-- The part in SAFE with the record of a fault of a kind, and that many faults counted. -/
def inSafe (k : FaultKind) (count : BitVec 16) : State :=
  { inSeq .safe with
    faults := ⟨count, some ⟨k, 0#32, Key.zero, Key.zero, .idle, none, none⟩, 0#8, PresentSet.none, true, []⟩ }

/-- An output line of an owner, PUSH_PULL and ACTIVE_HIGH. -/
def lineOf (o : Owner) : OutLine := { OutLine.reset false with cfg := ⟨o, .activeHigh, .pushPull, .inactive, 0⟩ }

/-- The part with every line owned by CUE, in a sequencer state. -/
def cueLines (q : SeqState) : State := { inSeq q with outs := ⟨Vector.replicate 16 (lineOf .cue), []⟩ }

/-- A one-shot cue on OUT0 that activates and reports. -/
def oneShot (slot : Fin 256) : Cue := ⟨slot, 1#16, .activate, none, none, .fire, true, none⟩

/-- The Cue Table with a list and the lead point at (1, 100). -/
def listOf (l : List Listed) : CueTable := { CueTable.reset with list := l, lead := ⟨1#16, 100⟩ }

/-- A group of one cue with an offset. -/
def groupOf1 (n : Fin 32) (p : MissPolicy) : Group := ⟨n, p, [{ oneShot 255 with offset := some 10 }]⟩

/-- The Cue Table with one group in the queue of channel 3. -/
def queueOf (p : MissPolicy) : CueTable := { CueTable.reset with queues := #v[[], [], [], [groupOf1 31 p]] }

/-- The part with inputs 0 and 1 in some state. -/
def inputsOf (a b : InLine) : Vector InLine 8 :=
  #v[a, b, InLine.reset false, InLine.reset false, InLine.reset false, InLine.reset false, InLine.reset false,
    InLine.reset false]

/-- An input of a function with a raw high level whose filter has run out. -/
def risen (fn : InputFn) : InLine := ⟨fn, .both, 0, false, true, some 0#32⟩

/-- The channels with channel 3 alone in use. -/
def channel3 (c : Channel) : CaptureUnit := ⟨#v[Channel.reset, Channel.reset, Channel.reset, c], []⟩

/-- A channel with a WINDOW gate from 10 to 20, nominal 15. -/
def windowed (e : Episode) : Channel := ⟨⟨true, some 0, .both, .window 10 20 15⟩, e, 0, [], none, none⟩

theorem ready_of {s : State} (h1 : s.phase = .running) (h2 : s.link = State.reset.link) (h3 : s.faults.inbox = []) :
    Ready s := by
  refine ⟨h1, ?_, ?_, ?_, ?_⟩
  · rw [h2]; rfl
  · rw [h2]; decide
  · rw [h2]; rfl
  · simp [reportWaits, h3]

theorem test_ready_at_reset : Ready State.reset := ready_of rfl rfl rfl

/-! ## Single steps -/

theorem test_axis_run_runs_and_answers :
    (run (.axisRun 9#8 []) State.reset).axis.running = true ∧
      newestReply (run (.axisRun 9#8 []) State.reset) = some ⟨9#8, 0x82#8, [0#8, 0#8, 0#8, 0#8]⟩ := by decide

theorem test_axis_setup_quad_claims_inputs :
    (run (.axisSetup 0#8 [0#8, 0#8, 0#8, 0#8, 0#8, 16#8]) State.reset).ins[1].fn = .axisB := by decide

theorem test_axis_setup_below_sixteen_is_refused :
    newestReply (run (.axisSetup 0#8 [2#8, 0#8, 0#8, 0#8, 0#8, 15#8]) State.reset) =
      some ⟨0#8, 0x81#8, [3#8, 0#8, 0#8, 0#8]⟩ := by decide

theorem test_timebase_count_wraps_at_modulus :
    let s := { State.reset with axis := { Axis.reset with running := true, current := ⟨0#16, 3599⟩, lead := ⟨0#16, 3599⟩ } }
    (run .timebaseCount s).axis.current = ⟨1#16, 0⟩ ∧ (run .timebaseCount s).cams.boundaries = 1 := by decide

theorem test_quad_table : quadChange false false true false = .forward ∧ quadChange true true false false = .double := by
  decide

/-- The part on a running decoder at the end of a cycle with a modulus staged, with the lines in some state. -/
def decoding (src : AxisSource) (a b : InLine) : State := { State.reset with
  axis := { Axis.reset with
    running := true, cfg := ⟨src, 0, 3600, 0⟩, staged := some 5000, current := ⟨0#16, 3599⟩, lead := ⟨0#16, 3599⟩ }
  ins := inputsOf a b }

/-- A alone is a count, here over the cycle boundary; a change of B at the same stamp takes it back, so that the two are one. -/
theorem test_quad_count_and_later_edge_of_its_stamp :
    let s := decoding .quad (risen .axisA) { InLine.reset false with fn := .axisB }
    let t := run (.inputEdgeAccepted 0) s
    let u := run (.inputRawChange 1 true) t
    t.axis.current = ⟨1#16, 0⟩ ∧ t.axis.cfg.modulus = 5000 ∧ t.cues.arrivals = [⟨⟨1#16, 0⟩, true⟩] ∧ u.axis = s.axis ∧
      u.cues = s.cues ∧ u.events = s.events ∧ inputDue u 0 = true ∧ inputDue u 1 = true := by decide +kernel

/-- Both lines due at one stamp are a double change, which moves nothing. -/
theorem test_double_change_moves_nothing :
    let s := decoding .quad (risen .axisA) (risen .axisB)
    let t := run (.inputEdgeAccepted 1) s
    t.axis.current = s.axis.current ∧ t.axis.staged = some 5000 ∧ t.faults.inbox.map (·.cond) = [.axisSignal] := by
  decide +kernel

/-- When another command has come between, the change of B comes at the next stamp. -/
theorem test_raw_change_after_stamp_is_over :
    let s := decoding .step (risen .axisA) { InLine.reset false with fn := .axisB }
    let t := run (.inputRawChange 1 true) { s with
      axis := { s.axis with takenA := true }
      ins := inputsOf { InLine.reset true with fn := .axisA } { InLine.reset false with fn := .axisB } }
    t.stamp = s.stamp + 1#32 ∧ t.axis.takenA = false ∧ t.ins[1].pendingSince = some t.stamp ∧ inputDue t 1 = true := by
  decide +kernel

theorem test_cue_put_ahead_is_listed :
    let t := run (.cuePut 0#8 [7#8, 0#8, 1#8, 0#8, 0#8, 0#8, 0#8, 0#8, 0#8, 200#8, 16#8, 0#8, 0#8, 0#8, 0#8, 0#8])
      (cueLines .idle)
    t.cues.list = [⟨oneShot 7, ⟨0#16, 200⟩⟩] ∧
      newestReply t = some ⟨0#8, 0x90#8, [0#8, 0#8, 0#8, 0#8, 0#8, 0#8, 0#8, 0#8, 0#8, 200#8, 0#8, 0#8]⟩ := by decide

theorem test_cue_put_without_lines_is_refused :
    newestReply (run (.cuePut 0#8
      [7#8, 0#8, 0#8, 0#8, 0#8, 0#8, 0#8, 0#8, 0#8, 200#8, 16#8, 0#8, 0#8, 0#8, 0#8, 0#8]) (cueLines .idle)) =
      some ⟨0#8, 0x90#8, [3#8, 0#8, 0#8, 0#8]⟩ := by decide

theorem test_lead_arrival_fires_in_armed :
    let s := { cueLines .armed with cues := { listOf [⟨oneShot 7, ⟨1#16, 101⟩⟩] with arrivals := [⟨⟨1#16, 101⟩, false⟩] } }
    (run .leadArrival s).cues.list = [] ∧ (run .leadArrival s).outs.lines[0].cue = true ∧
      (run .leadArrival s).seq.log.map (·.cause) = [.key] := by decide +kernel

theorem test_repeating_cue_is_reinserted :
    let c : Cue := { oneShot 7 with rep := some ⟨.times 2, 1⟩ }
    let s := { cueLines .armed with cues := { listOf [⟨c, ⟨1#16, 101⟩⟩] with arrivals := [⟨⟨1#16, 101⟩, false⟩] } }
    (run .leadArrival s).cues.list = [⟨{ c with rep := some ⟨.times 1, 1⟩ }, ⟨2#16, 101⟩⟩] := by decide

theorem test_capture_resolves_oldest_group :
    let s := { cueLines .idle with
      cues := queueOf .drop, capture := channel3 (windowed (.opened 0#16))
      axis := { Axis.reset with current := ⟨0#16, 12⟩, lead := ⟨0#16, 12⟩ }
      ins := inputsOf (risen (.capture 3)) (InLine.reset false) }
    (run (.inputEdgeAccepted 0) s).cues.list.map (·.key) = [⟨0#16, 22⟩] ∧
      (run (.inputEdgeAccepted 0) s).capture.channels[3].episode = .taken 0#16 := by decide

theorem test_cam_window_wraps : inWindow ⟨3500, 20⟩ 10 = true ∧ inWindow ⟨3500, 20⟩ 20 = false := by decide

theorem test_open_drain_high_is_released :
    mapLevel ⟨.cue, .activeHigh, .openDrain, .inactive, 0⟩ true = .released ∧
      mapLevel ⟨.cue, .activeLow, .openDrain, .inactive, 0⟩ true = .low := by decide

theorem test_supply_low_is_reported_then_taken :
    let t := run (.supplyCrossing 2849#16) State.reset
    t.faults.inbox = [plainReport .supplyLow true] ∧
      (run (.conditionBegin .supplyLow) t).seq.state = .safe ∧ (run (.conditionBegin .supplyLow) t).faults.flt = true := by
  decide

theorem test_resume_with_stale_token :
    newestReply (run (.resume 0#8 [0#8, 1#8]) (inSafe .axisSignal 2#16)) =
      some ⟨0#8, 0xD2#8, [0x0D#8, 0#8, 0#8, 0#8, 0#8, 2#8, 2#8]⟩ := by decide

theorem test_unknown_kind_is_answered_ff :
    newestReply (run (.unknownKindRequest 3#8 0x90#8 []) State.reset) = some ⟨3#8, 0xFF#8, [1#8, 0#8, 0#8, 0#8]⟩ := by
  decide

theorem test_bad_length_is_answered :
    newestReply (run (.storeRead 3#8 [0#8]) State.reset) = some ⟨3#8, 0xF2#8, [2#8, 0#8, 0#8, 0#8]⟩ := by decide

theorem test_full_reset_holds : (run .fullReset (inSeq .armed)).phase = .held ∧ (run .fullReset (inSeq .armed)).seq = Sequencer.reset := by
  decide

theorem test_command_without_condition_does_nothing : run .timebaseCount State.reset = State.reset := by decide

/-! ## The premises of the statements are met

One theorem a statement with premises: the premises of each of its clauses, at a boundary value of its range, hold together of a
state and operands.  Statements whose only premise is `Ready` are met by `test_ready_at_reset`. -/

theorem test_premises_StepRunsFrontCommand :
    ({ State.reset with pending := [.frameSent] } : State).pending = .frameSent :: [] := rfl

theorem test_premises_EmptyQueueStep :
    State.reset.pending = [] ∧ dueCommand State.reset = none ∧
      dueCommand { State.reset with stamp := 1000#32 } = some .speedSample := by decide +kernel

theorem test_premises_AxisSetup :
    Ready State.reset ∧ State.reset.seq.state = .idle ∧ axisSourceOf 2#8 = some .timebase ∧
      axisSourceOf 0#8 = some .quad ∧ (12#8 : Byte).toNat ≤ 12 ∧ num32 0#8 0#8 0#8 16#8 = 16 ∧
      num32 0#8 0x3D#8 0x09#8 0x00#8 = 4000000 ∧ axisInputFree State.reset.ins[0] = true ∧
      axisInputFree State.reset.ins[1] = true ∧ (∀ b ∈ boundSet State.reset, b < 16) ∧
      queuedGroups State.reset.cues = [] ∧ State.reset.axis.current.pos < 16 ∧ State.reset.axis.lead.pos < 16 :=
  ⟨test_ready_at_reset, by decide +kernel⟩

/-- Outside IDLE; in IDLE with an arrival and a boundary waiting; and with none waiting, a key beyond the horizon of the origin
beside the last one before it. -/
theorem test_premises_AxisZero :
    let s := { State.reset with cues := listOf [⟨oneShot 0, ⟨0x7FFF#16, 3599⟩⟩, ⟨oneShot 1, ⟨0x8001#16, 3599⟩⟩] }
    let w := { State.reset with
      cues := { listOf [] with arrivals := [⟨⟨2#16, 0⟩, true⟩] }, cams := { CamUnit.reset with boundaries := 1 } }
    Ready (inSeq .safe) ∧ (inSeq .safe).seq.state ≠ .idle ∧ Ready w ∧ w.seq.state = .idle ∧ Ready s ∧
      s.seq.state = .idle ∧ s.cues.arrivals = [] ∧ s.capture.arrivals = [] ∧
      beyondHorizon Key.zero ⟨0x7FFF#16, 3599⟩ = false ∧ beyondHorizon Key.zero ⟨0x8001#16, 3599⟩ = true :=
  ⟨ready_of rfl rfl rfl, by decide, ready_of rfl rfl rfl, by decide, ready_of rfl rfl rfl, by decide +kernel⟩

theorem test_premises_AxisHome :
    let s := { State.reset with axis := { Axis.reset with cfg := ⟨.quad, 0, 3600, 0⟩ } }
    Ready s ∧ (∀ m, s.axis.staged = some m → num32 0#8 0#8 0x0E#8 0x0F#8 < m) ∧ s.seq.state = .idle ∧
      s.axis.cfg.source ≠ .timebase ∧ num32 0#8 0#8 0x0E#8 0x0F#8 = 3599 ∧ 3599 < s.axis.cfg.modulus ∧
      s.ins[2].fn = .general :=
  ⟨ready_of rfl rfl rfl, nofun, by decide +kernel⟩

/-- A modulus of 16 is staged, 15 and 4,000,001 are out of range, 100 conflicts with a key at position 100. -/
theorem test_premises_ModulusStage :
    let s := { State.reset with cues := listOf [⟨oneShot 0, ⟨0#16, 100⟩⟩] }
    Ready s ∧ Ready (inSafe .axisSignal 1#16) ∧ (∃ b ∈ boundSet s, 100 ≤ b) ∧
      (∀ b ∈ boundSet State.reset, b < 16) ∧ queuedGroups State.reset.cues = [] ∧ num32 0#8 0#8 0#8 15#8 < 16 ∧
      4000000 < num32 0#8 0x3D#8 0x09#8 0x01#8 :=
  ⟨ready_of rfl rfl rfl, ready_of rfl rfl rfl, ⟨100, by decide +kernel⟩, by decide +kernel⟩

/-- The last count of a cycle with the lead point and before it, a count behind it, a stamp with a sample; and the excursion's two
positions at the last of the modulus. -/
theorem test_premises_TimebaseCountAndSample :
    let at_ (c l : Nat) : State :=
      { State.reset with axis := { Axis.reset with running := true, current := ⟨0#16, c⟩, lead := ⟨0#16, l⟩ } }
    (at_ 3599 3599).phase = .running ∧ (at_ 3599 3599).axis.cfg.source = .timebase ∧
      (at_ 3599 3599).axis.running = true ∧ (at_ 3599 3599).seq.state = .idle ∧ (inSeq .armed).seq.state = .armed ∧
      (at_ 3599 3599).stamp.toNat % 2 ^ (at_ 3599 3599).axis.cfg.k = 0 ∧
      (at_ 3599 3599).axis.timebaseTaken = false ∧ crosses true (at_ 3599 3599).axis = true ∧
      leads true (at_ 3598 3598).axis = true ∧ crosses true (at_ 3598 3598).axis = false ∧
      (at_ 0 1).axis.current ≠ (at_ 0 1).axis.lead ∧ (at_ 0 1).cams.boundaries = 0 ∧
      reached ({ State.reset with stamp := 1000#32 } : State).stamp State.reset.axis.nextSample = true ∧
      (at_ 3599 3599).axis.current.pos < (at_ 3599 3599).axis.cfg.modulus ∧
      (at_ 3599 3599).axis.lead.pos < (at_ 3599 3599).axis.cfg.modulus ∧ 0 < excursion (at_ 3598 3599).axis := by
  decide +kernel

theorem test_premises_ReadRequests :
    Ready State.reset ∧ (7#8 : Byte).toNat = (7 : Fin 8).val ∧ State.reset.store.op.isSome = false ∧
      Ready { State.reset with store := { State.reset.store with op := some ⟨.erasing 8, 0#32, 0⟩ } } ∧
      7 < (8#8 : Byte).toNat :=
  ⟨test_ready_at_reset, rfl, rfl, ready_of rfl rfl rfl, by decide⟩

/-- Slot 255 FREE, LISTED behind another cue, and WAITING in the second group behind another cue. -/
theorem test_premises_CueRead :
    let listed := listOf [⟨oneShot 0, ⟨1#16, 100⟩⟩, ⟨oneShot 255, ⟨1#16, 101⟩⟩]
    let g : Group := ⟨31, .drop, [oneShot 1, oneShot 255]⟩
    let waits : CueTable := { CueTable.reset with queues := #v[[⟨0, .drop, [oneShot 2]⟩], [], [], [g]] }
    slotFree CueTable.reset 255 = true ∧
      listed.list = [⟨oneShot 0, ⟨1#16, 100⟩⟩] ++ ⟨oneShot 255, ⟨1#16, 101⟩⟩ :: [] ∧
      (∀ y ∈ [(⟨oneShot 0, ⟨1#16, 100⟩⟩ : Listed)], y.cue.slot ≠ 255) ∧ (oneShot 255).slot = 255 ∧
      (∀ y ∈ waits.list, y.cue.slot ≠ 255) ∧ queuedGroups waits = [⟨0, .drop, [oneShot 2]⟩] ++ g :: [] ∧
      (∀ h ∈ [(⟨0, .drop, [oneShot 2]⟩ : Group)], ∀ y ∈ h.cues, y.slot ≠ 255) ∧
      g.cues = [oneShot 1] ++ oneShot 255 :: [] ∧ ∀ y ∈ [oneShot 1], y.slot ≠ 255 := by decide +kernel

/-- Distance 0 at the lead position and distance 32,768 are reached, one position on and distance 32,767 are ahead. -/
theorem test_premises_Keys :
    let lead : Key := ⟨1#16, 100⟩
    keyReached lead ⟨1#16, 100⟩ = true ∧ keyReached lead ⟨0x8001#16, 0⟩ = true ∧
      keyReached lead ⟨1#16, 101⟩ = false ∧ keyReached lead ⟨0x8000#16, 0⟩ = false ∧
      beyondHorizon lead ⟨1#16, 100⟩ = false ∧ beyondHorizon lead ⟨0x8003#16, 0⟩ = false ∧
      keyReached lead ⟨0x8003#16, 0⟩ = true := by decide

theorem test_premises_CueEnters :
    [(⟨oneShot 0, ⟨1#16, 100⟩⟩ : Listed), ⟨oneShot 1, ⟨1#16, 100⟩⟩].Pairwise
      (fun y z => keyBefore ⟨1#16, 100⟩ z.key y.key = false) := by decide

/-- The body of a CUE_PUT of `oneShot`. -/
def putBody (slot c1 c0 p0 policy : Byte) : List Byte :=
  [slot, 0#8, 1#8, 0#8, c1, c0, 0#8, 0#8, 0#8, p0, 16#8, 0#8, 0#8, 0#8, 0#8, policy]

/-- The part with CUE-owned lines, the lead point at (1, 100) and an empty list. -/
def putState (q : SeqState) : State := { cueLines q with cues := listOf [] }

theorem staged_none (q : SeqState) (m : Nat) (h : (putState q).axis.staged = some m) : (200 : Nat) < m := by
  have h0 : (putState q).axis.staged = none := rfl
  rw [h0] at h
  cases h

theorem passes_of {c1 c0 p0 policy : Byte} {q : SeqState} {late : LatePolicy} (hl : latePolicyOf policy = some late)
    (hp : p0.toNat ≤ 200) (hq : q ≠ .safe) (hk : (⟨word16 c1 c0, num32 0#8 0#8 0#8 p0⟩ : Key) = ⟨word16 c1 c0, p0.toNat⟩)
    (ho : (oneShot 255).lines &&& ~~~ cueOwned (putState q) = 0#16) :
    CuePutPasses (putBody 255#8 c1 c0 p0 policy) (oneShot 255) ⟨word16 c1 c0, p0.toNat⟩ late (putState q) :=
  ⟨255#8, 0#8, 1#8, 0#8, c1, c0, 0#8, 0#8, 0#8, p0, 16#8, 0#8, 0#8, 0#8, 0#8, policy, rfl, by decide, hl, hk.symm,
    hq, Nat.lt_of_le_of_lt hp (show (200 : Nat) < 3600 by decide), fun m h => Nat.lt_of_le_of_lt hp (staged_none q m h), rfl, ho⟩

theorem test_premises_CuePutAheadOrNext :
    Ready (putState .armed) ∧
      CuePutPasses (putBody 255#8 0#8 1#8 101#8 0#8) (oneShot 255) ⟨1#16, 101⟩ .refuse (putState .armed) ∧
      keyReached (putState .armed).cues.lead ⟨1#16, 101⟩ = false ∧
      CuePutPasses (putBody 255#8 0#8 1#8 100#8 2#8) (oneShot 255) ⟨1#16, 100⟩ .next (putState .armed) ∧
      keyReached (putState .armed).cues.lead ⟨1#16, 100⟩ = true :=
  ⟨ready_of rfl rfl rfl, passes_of rfl (by decide) (by decide) (by decide) (by decide +kernel), by decide, passes_of rfl (by decide) (by decide) (by decide) (by decide +kernel),
    by decide⟩

theorem test_premises_CuePutLate :
    Ready (putState .hold) ∧
      CuePutPasses (putBody 255#8 0#8 1#8 100#8 0#8) (oneShot 255) ⟨1#16, 100⟩ .refuse (putState .hold) ∧
      keyReached (putState .hold).cues.lead ⟨1#16, 100⟩ = true ∧
      CuePutPasses (putBody 255#8 0x80#8 2#8 0#8 0#8) (oneShot 255) ⟨0x8002#16, 0⟩ .refuse (putState .hold) ∧
      beyondHorizon (putState .hold).cues.lead ⟨0x8002#16, 0⟩ = true :=
  ⟨ready_of rfl rfl rfl, passes_of rfl (by decide) (by decide) (by decide) (by decide +kernel), by decide, passes_of rfl (by decide) (by decide) (by decide) (by decide +kernel),
    by decide⟩

theorem test_premises_CuePutNow :
    Ready (putState .armed) ∧ Ready (putState .idle) ∧
      CuePutPasses (putBody 255#8 0x80#8 2#8 0#8 1#8) (oneShot 255) ⟨0x8002#16, 0⟩ .now (putState .armed) ∧
      keyReached (putState .armed).cues.lead ⟨0x8002#16, 0⟩ = true ∧
      beyondHorizon (putState .armed).cues.lead ⟨0x8002#16, 0⟩ = true ∧
      CuePutPasses (putBody 255#8 0x80#8 3#8 0#8 1#8) (oneShot 255) ⟨0x8003#16, 0⟩ .now (putState .idle) ∧
      CuePutPasses (putBody 255#8 0x80#8 3#8 0#8 1#8) (oneShot 255) ⟨0x8003#16, 0⟩ .now (putState .armed) ∧
      keyReached (putState .idle).cues.lead ⟨0x8003#16, 0⟩ = true ∧
      beyondHorizon (putState .armed).cues.lead ⟨0x8003#16, 0⟩ = false ∧ (putState .idle).seq.state ≠ .armed ∧
      (putState .armed).seq.state = .armed ∧ reachedRun (putState .armed).cues = [] ∧ (oneShot 255).rep = none :=
  ⟨ready_of rfl rfl rfl, ready_of rfl rfl rfl, passes_of rfl (by decide) (by decide) (by decide) (by decide +kernel), by decide, by decide,
    passes_of rfl (by decide) (by decide) (by decide) (by decide +kernel), passes_of rfl (by decide) (by decide) (by decide) (by decide +kernel), by decide +kernel⟩

/-- The bytes of one specification: OUT0, ACTIVATE, offset 0. -/
def specBytes (slot : Byte) : List Byte := [slot, 0#8, 1#8, 0#8, 0#8, 0#8, 0#8, 0#8, 0#8, 0#8, 0#8, 0#8, 0#8]

/-- Sixteen cues, into a queue that holds seven groups. -/
theorem test_premises_GroupPut :
    let rest := (List.range 16).flatMap fun i => specBytes (BitVec.ofNat 8 i)
    let s : State := { cueLines .armed with
      capture := channel3 (windowed .closed)
      cues := { CueTable.reset with
        queues := #v[[], [], [], [0, 1, 2, 3, 4, 5, 6].map fun n => ⟨n, .drop, []⟩] } }
    ∃ cues : List Cue, allSome ((specificationsOf rest).map (specificationCue s.axis.cfg.modulus)) = some cues ∧
      Ready s ∧ rest.length = 13 * (16#8 : Byte).toNat ∧ 1 ≤ (16#8 : Byte).toNat ∧ (16#8 : Byte).toNat ≤ 16 ∧
      s.seq.state ≠ .safe ∧ s.axis.staged = none ∧ (31#8 : Byte).toNat = (31 : Fin 32).val ∧
      (3#8 : Byte).toNat = (3 : Fin 4).val ∧ missPolicyOf 1#8 = some .nominal ∧
      s.capture.channels[3].cfg.enabled = true ∧ (∀ h ∈ queuedGroups s.cues, h.number ≠ (31 : Fin 32)) ∧
      s.cues.queues[3].length < 8 ∧ (∀ c ∈ cues, slotFree s.cues c.slot = true) ∧ (cues.map (·.slot)).Nodup ∧
      ∀ c ∈ cues, c.lines &&& ~~~ cueOwned s = 0#16 := by
  refine ⟨(List.finRange 16).map fun i => ⟨⟨i.val, by omega⟩, 1#16, .activate, none, none, .fire, false, some 0⟩, ?_,
    ready_of rfl rfl rfl, ?_⟩ <;> decide +kernel

theorem test_premises_CueCancel :
    let a : State := { State.reset with cues := listOf [⟨oneShot 255, ⟨0#16, 100⟩⟩] }
    let b : State := { State.reset with cues := queueOf .drop }
    Ready a ∧ Ready b ∧
      a.cues.list.find? (fun y => decide (y.cue.slot = (255#8 : Byte).toFin)) = some ⟨oneShot 255, ⟨0#16, 100⟩⟩ ∧
      (∀ y ∈ b.cues.list, y.cue.slot ≠ (255#8 : Byte).toFin) ∧
      groupOfSlot b.cues (255#8 : Byte).toFin = some (groupOf1 31 .drop) :=
  ⟨ready_of rfl rfl rfl, ready_of rfl rfl rfl, by decide +kernel⟩

theorem test_premises_GroupCancel :
    let b : State := { State.reset with cues := queueOf .drop }
    Ready b ∧ 31 < (32#8 : Byte).toNat ∧ (0#8 : Byte).toNat ≤ 31 ∧
      (∀ g ∈ queuedGroups b.cues, g.number.val ≠ (0#8 : Byte).toNat) ∧
      (groupOf1 31 .drop).number.val = (31#8 : Byte).toNat ∧ b.cues.queues[3] = [] ++ groupOf1 31 .drop :: [] ∧
      ((queuedGroups b.cues).map (·.number)).Nodup :=
  ⟨ready_of rfl rfl rfl, by decide +kernel⟩

theorem test_premises_MarksSet :
    Ready State.reset ∧ 256 < num16 1#8 1#8 ∧ ¬ (256 < num16 1#8 0#8 ∨ 256 < num16 0#8 0#8) :=
  ⟨test_ready_at_reset, by decide⟩

/-- Outside ARMED a boundary that puts a cue beyond the horizon; in ARMED a boundary with two cues in the run of reached cues. -/
theorem test_premises_LeadArrival :
    let at_ (q : SeqState) : State := { cueLines q with
      cues := { listOf [⟨oneShot 6, ⟨0x8002#16, 5⟩⟩, ⟨oneShot 7, ⟨1#16, 101⟩⟩, ⟨oneShot 9, ⟨2#16, 0⟩⟩, ⟨oneShot 8, ⟨2#16, 1⟩⟩]
        with arrivals := [⟨⟨2#16, 0⟩, true⟩] } }
    let kept := (at_ .armed).cues.list.filter fun x => !beyondHorizon ⟨2#16, 0⟩ x.key
    (at_ .idle).phase = .running ∧ (at_ .idle).seq.state ≠ .armed ∧ (at_ .idle).cues.arrivals = [⟨⟨2#16, 0⟩, true⟩] ∧
      (at_ .idle).cues.list.filter (fun x => beyondHorizon ⟨2#16, 0⟩ x.key) = [⟨oneShot 6, ⟨0x8002#16, 5⟩⟩] ∧
      (at_ .armed).seq.state = .armed ∧
      RunThen ⟨2#16, 0⟩ kept [⟨oneShot 7, ⟨1#16, 101⟩⟩, ⟨oneShot 9, ⟨2#16, 0⟩⟩] [⟨oneShot 8, ⟨2#16, 1⟩⟩] := by
  refine ⟨by decide +kernel, by decide +kernel, by decide +kernel, by decide +kernel, by decide +kernel, ?_⟩
  refine ⟨by decide +kernel, by decide +kernel, ?_, by decide +kernel⟩
  intro y h
  cases h
  decide +kernel

/-- No repetition skipped, two of three, and all of two. -/
theorem test_premises_SkipsJust :
    SkipsJust ⟨1#16, 101⟩ ⟨2#16, 101⟩ ⟨.times 1, 1⟩ 0 ∧ SkipsJust ⟨4#16, 101⟩ ⟨3#16, 101⟩ ⟨.times 3, 1⟩ 2 ∧
      SkipsJust ⟨300#16, 101⟩ ⟨3#16, 101⟩ ⟨.times 2, 1⟩ 2 := by
  unfold SkipsJust
  decide +kernel

/-- A reached repeating cue at the head of the list, with a cue ahead behind it: at an arrival, and in IDLE. -/
theorem test_premises_RepeatingCue :
    let x (c : CatchUp) : Listed := ⟨{ oneShot 7 with rep := some ⟨.times 3, 1⟩, catchUp := c }, ⟨2#16, 101⟩⟩
    let l : List Listed := [⟨oneShot 8, ⟨4#16, 102⟩⟩]
    let arriving : State := { cueLines .armed with
      cues := { listOf (x .fire :: l) with arrivals := [⟨⟨4#16, 101⟩, false⟩] } }
    let idle (c : CatchUp) : State := { cueLines .idle with cues := { listOf (x c :: l) with lead := ⟨4#16, 101⟩ } }
    arriving.cues.arrivals = [⟨⟨4#16, 101⟩, false⟩] ∧ arriving.seq.state = .armed ∧
      keyReached ⟨4#16, 101⟩ (x .fire).key = true ∧ (l.head?.all fun y => !keyReached ⟨4#16, 101⟩ y.key) = true ∧
      (∀ y ∈ l, y.cue.slot ≠ (x .fire).cue.slot) ∧ Ready (idle .skip) ∧ (idle .skip).seq.state = .idle ∧
      (idle .skip).axis.homing = false ∧ (idle .skip).seq.freeze = false ∧ (idle .skip).cues.list = x .skip :: l ∧
      (x .skip).cue.catchUp = .skip ∧ (x .fire).cue.catchUp = .fire :=
  ⟨by decide +kernel, by decide +kernel, by decide +kernel, by decide +kernel, by decide +kernel, ready_of rfl rfl rfl,
    by decide +kernel⟩

theorem test_premises_Arm :
    let freeze : State := { State.reset with seq := { Sequencer.reset with freeze := true } }
    let one (c : CatchUp) : State :=
      { State.reset with cues := listOf [⟨{ oneShot 7 with catchUp := c }, ⟨1#16, 100⟩⟩, ⟨oneShot 8, ⟨1#16, 101⟩⟩] }
    Ready freeze ∧ Ready (inSeq .armed) ∧ Ready (one .fire) ∧ (inSeq .armed).seq.state ≠ .idle ∧
      freeze.seq.state = .idle ∧ freeze.axis.homing = false ∧ freeze.seq.freeze = true ∧
      State.reset.seq.freeze = false ∧ reachedRun State.reset.cues = [] ∧ (one .skip).seq.state = .idle ∧
      keyReached (one .skip).cues.lead ⟨1#16, 100⟩ = true ∧ keyReached (one .skip).cues.lead ⟨1#16, 101⟩ = false ∧
      (oneShot 7).rep = none ∧ (oneShot 8).slot ≠ (oneShot 7).slot :=
  ⟨ready_of rfl rfl rfl, ready_of rfl rfl rfl, ready_of rfl rfl rfl, by decide +kernel⟩

/-- The premises of DISARM, HOLD and RELEASE. -/
theorem test_premises_DisarmHoldRelease :
    let pin : State := { State.reset with seq := ⟨.hold, false, true, true, []⟩ }
    Ready (inSeq .armed) ∧ Ready (inSeq .hold) ∧ Ready (inSeq .safe) ∧ Ready pin ∧ (inSeq .armed).seq.state = .armed ∧
      (inSeq .armed).seq.holdRequest = false ∧ (inSeq .armed).seq.holdPin = false ∧ (inSeq .hold).seq.state = .hold ∧
      (inSeq .hold).seq.holdRequest = true ∧ (inSeq .hold).seq.holdPin = false ∧ pin.seq.state = .hold ∧
      pin.seq.holdPin = true ∧ reachedRun (inSeq .hold).cues = [] ∧ (inSeq .safe).seq.state = .safe :=
  ⟨ready_of rfl rfl rfl, ready_of rfl rfl rfl, ready_of rfl rfl rfl, ready_of rfl rfl rfl, by decide +kernel⟩

theorem test_premises_LogReads :
    Ready State.reset ∧ 1 ≤ (8#8 : Byte).toNat ∧ (8#8 : Byte).toNat ≤ 8 ∧ ¬ (9#8 : Byte).toNat ≤ 8 ∧
      3 < (4#8 : Byte).toNat ∧ (3#8 : Byte).toNat = (3 : Fin 4).val := ⟨test_ready_at_reset, by decide⟩

theorem test_premises_CaptureSetup :
    let cfg : ChannelSettings := ⟨true, some 7, .both, .window 0 3599 5⟩
    (∀ start stop nominal, cfg.gate = .window start stop nominal → start ≠ stop ∧
        ∀ p ∈ [start, stop, nominal], p < State.reset.axis.cfg.modulus ∧
          ∀ m, State.reset.axis.staged = some m → p < m) ∧
      Ready State.reset ∧ (3#8 : Byte).toNat = (3 : Fin 4).val ∧
      channelSettingsOf 1#8 7#8 2#8 1#8 (num32 0#8 0#8 0#8 0#8) (num32 0#8 0#8 0x0E#8 0x0F#8)
        (num32 0#8 0#8 0#8 5#8) = some cfg ∧
      State.reset.cues.queues[3] = [] ∧ State.reset.ins[7].fn = .general := by
  refine ⟨?_, test_ready_at_reset, by decide +kernel⟩
  intro start stop nominal h
  cases h
  refine ⟨by decide, fun p hp => ⟨?_, nofun⟩⟩
  revert p
  decide

theorem test_premises_WindowArrival :
    let s (q : SeqState) (c : CueTable) (e : Episode) (p : Nat) : State :=
      { inSeq q with cues := c, capture := { channel3 (windowed e) with arrivals := [⟨0#16, p⟩] } }
    let opened := (s .idle (queueOf .drop) (.opened 0#16) 20)
    (s .idle CueTable.reset .closed 10).capture.arrivals = [⟨0#16, 10⟩] ∧
      (s .idle CueTable.reset .closed 10).capture.channels[3].episode = .closed ∧
      (s .idle CueTable.reset (.taken 0#16) 20).capture.channels[3].episode = .taken 0#16 ∧
      opened.phase = .running ∧ opened.capture.channels[3].cfg.enabled = true ∧
      opened.capture.channels[3].cfg.gate = .window 10 20 15 ∧
      opened.capture.channels[3].episode = .opened 0#16 ∧
      (∀ d : Fin 4, d ≠ 3 → opened.capture.channels[d].cfg.enabled = false) ∧ opened.seq.state ≠ .safe ∧
      opened.cues.queues[3] = [groupOf1 31 .drop] ∧ (groupOf1 31 .drop).policy = .drop ∧
      (s .safe (queueOf .drop) (.opened 0#16) 20).seq.state = .safe ∧
      (s .idle CueTable.reset (.opened 0#16) 20).cues.queues[3] = [] := by decide +kernel

theorem test_premises_CaptureEdge :
    let s (c : Channel) (q : CueTable) : State := { State.reset with
      cues := q, capture := channel3 c, ins := inputsOf (risen (.capture 3)) (InLine.reset false) }
    let disabled : Channel := { windowed .closed with cfg := { (windowed .closed).cfg with enabled := false } }
    let falling : Channel := { windowed .closed with cfg := { (windowed .closed).cfg with edge := .falling } }
    inputDue (s disabled CueTable.reset) 0 = true ∧ (s disabled CueTable.reset).ins[0].fn = .capture 3 ∧
      disabled.cfg.enabled = false ∧ edgeSelected falling.cfg.edge .rising = false ∧
      (windowed .closed).cfg.enabled = true ∧ edgeSelected (windowed .closed).cfg.edge .rising = true ∧
      (windowed .closed).cfg.gate ≠ .always ∧ (windowed (.opened 7#16)).episode = .opened 7#16 ∧
      (s (windowed (.opened 0#16)) CueTable.reset).cues.queues[3] = [] ∧
      (s (windowed (.opened 0#16)) (queueOf .drop)).cues.queues[3] = [groupOf1 31 .drop] ∧
      (s (windowed (.opened 0#16)) (queueOf .drop)).seq.state ≠ .safe ∧ (inSeq .safe).seq.state = .safe := by
  decide +kernel

/-- A group resolved at a point, at an edge and at a NOMINAL miss: in ARMED the run is one of its two cues, and at a point half
the range away its keys are beyond the horizon. -/
theorem test_premises_GroupResolved :
    let g : Group := ⟨31, .nominal, [{ oneShot 254 with offset := some 0 }, { oneShot 255 with offset := some 10 }]⟩
    let s : State := { cueLines .armed with
      cues := { CueTable.reset with queues := #v[[], [], [], [g]] }
      capture := { channel3 (windowed (.opened 0#16)) with arrivals := [⟨0#16, 20⟩] } }
    s.seq.state = .armed ∧ s.capture.arrivals = [⟨0#16, 20⟩] ∧ s.cues.queues[3] = [g] ∧ g.policy = .nominal ∧
      RunThen s.cues.lead (enteredList g ⟨0#16, 0⟩ s) [⟨{ oneShot 254 with offset := some 0 }, ⟨0#16, 0⟩⟩]
        [⟨{ oneShot 255 with offset := some 10 }, ⟨0#16, 10⟩⟩] ∧
      (expiring g ⟨0x8000#16, 0⟩ s).length = 2 ∧ (cueLines .hold).seq.state ≠ .armed := by
  refine ⟨by decide +kernel, by decide +kernel, by decide +kernel, by decide +kernel, ?_, by decide +kernel,
    by decide +kernel⟩
  refine ⟨by decide +kernel, by decide +kernel, ?_, by decide +kernel⟩
  intro y h
  cases h
  decide +kernel

theorem test_premises_TrackLevel : 0 < Axis.reset.cfg.modulus := by decide

theorem test_premises_CamLoad :
    Ready State.reset ∧ [0#8, 0#8, 0x0E#8, 0x0F#8, 0#8, 0#8, 0#8, (0#8 : Byte)].length = 8 * (1#8 : Byte).toNat ∧
      (7#8 : Byte).toNat = (7 : Fin 8).val ∧
      profileOf 2#8 (windowsOf [0#8, 0#8, 0x0E#8, 0x0F#8, 0#8, 0#8, 0#8, 0#8]) = some (.windows [⟨3599, 0⟩]) ∧
      num16 0x27#8 0x10#8 = 10000 ∧ (∀ w ∈ [(⟨3599, 0⟩ : Window)], w.on ≠ w.off) ∧
      (∀ b ∈ profileBounds (.windows [⟨3599, 0⟩]), b < State.reset.axis.cfg.modulus) ∧
      State.reset.axis.staged = none ∧ State.reset.seq.state = .idle := ⟨test_ready_at_reset, by decide⟩

theorem test_premises_ProfileSwap :
    let s : State := { State.reset with cams := { CamUnit.reset with boundaries := 1 } }
    s.phase = .running ∧ s.cams.boundaries = 0 + 1 := ⟨rfl, rfl⟩

theorem test_premises_LineSetup :
    let s : State := { State.reset with
      outs := ⟨Vector.replicate 16 { lineOf .cue with mismatch := .present }, []⟩ }
    Ready s ∧ (15#8 : Byte).toNat = (15 : Fin 16).val ∧
      lineSettingsOf 10#8 1#8 2#8 2#8 255#8 = some ⟨.cam 7, .activeLow, .openDrain, .float, 255⟩ ∧
      s.outs.lines[15].mismatch = .present := ⟨ready_of rfl rfl rfl, by decide +kernel⟩

theorem test_premises_LinesEnableAndSet :
    let s : State := { State.reset with outs := ⟨Vector.replicate 16 (lineOf .direct), []⟩ }
    Ready s ∧ Ready State.reset ∧ word16 0#8 0#8 = 0#16 ∧
      (∀ n : Fin 16, inSet (word16 0xFF#8 0xFF#8) n = true → s.outs.lines[n].cfg.owner = .direct) ∧
      (∃ n : Fin 16, inSet (word16 0x80#8 0#8) n = true ∧ State.reset.outs.lines[n].cfg.owner ≠ .direct) :=
  ⟨ready_of rfl rfl rfl, test_ready_at_reset, rfl, by decide +kernel, 15, by decide +kernel⟩

theorem test_premises_MismatchTimeout :
    let l : OutLine :=
      { lineOf .nobody with
        cfg := ⟨.nobody, .activeLow, .pushPull, .inactive, 255⟩, mismatch := .pending 0#32 }
    let s : State := { State.reset with outs := ⟨Vector.replicate 16 l, []⟩, stamp := 255000#32 }
    s.phase = .running ∧ s.outs.lines[15].mismatch = .pending 0#32 ∧
      reached s.stamp (0#32 + BitVec.ofNat 32 (1000 * s.outs.lines[15].cfg.mismatchTime)) = true ∧
      inMismatch s s.outs.lines[15] = true := by decide +kernel

theorem test_premises_Trails :
    let s : State := { State.reset with
      outs := ⟨Vector.replicate 16 { lineOf .cue with cue := true, trail := some (.time 0#32) }, [⟨0#16, 5⟩]⟩ }
    s.phase = .running ∧ s.outs.arrivals = [⟨0#16, 5⟩] ∧ s.outs.lines[15].trail = some (.time 0#32) ∧
      reached s.stamp 0#32 = true := by decide +kernel

theorem test_premises_InputSetup :
    Ready State.reset ∧ (7#8 : Byte).toNat = (7 : Fin 8).val ∧ flagOf 1#8 = some true ∧ edgeModeOf 3#8 = some .both ∧
      State.reset.ins[7].fn = .general ∧ freezeLevel State.reset.ins = State.reset.seq.freeze :=
  ⟨test_ready_at_reset, by decide +kernel⟩

/-- A raw change of B at a stamp at which the decoder has acted on A, and one at another. -/
theorem test_premises_RawChange :
    let s (taken : Bool) : State := { State.reset with
      axis := { Axis.reset with cfg := ⟨.quad, 0, 3600, 0⟩, takenA := taken }
      ins := inputsOf { InLine.reset false with fn := .axisA } { InLine.reset false with fn := .axisB } }
    ∀ taken : Bool, (s taken).phase = .running ∧ (s taken).ins[1].pendingSince = none ∧ (s taken).ins[1].filter = 0 ∧
      true ≠ (s taken).ins[1].accepted ∧ (s taken).ins[1].fn = .axisB ∧ (s taken).axis.takenA = taken ∧
      (s taken).checkpoint = none ∧ { s taken with checkpoint := some (checkpointOf (s taken)) }.checkpoint.isSome = true := by
  decide +kernel

/-- The premises that name the sequencer state and the freeze level are met one by one. -/
theorem test_premises_InputEdge :
    let s (fn : InputFn) (q : SeqState) (level : Bool) : State :=
      { inSeq q with
        seq := { (inSeq q).seq with freeze := level }
        ins := inputsOf { risen fn with accepted := level, raw := !level } (InLine.reset false) }
    inputDue (s .general .idle false) 0 = true ∧ (s .general .idle false).ins[0].fn = .general ∧
      inputDue (s .freeze .armed false) 0 = true ∧ (s .freeze .armed false).ins[0].fn = .freeze ∧
      (s .freeze .armed false).seq.state = .armed ∧ (s .freeze .hold false).seq.state = .hold ∧
      (s .freeze .hold true).seq.freeze = true ∧ (s .freeze .hold true).seq.holdRequest = true ∧
      freezeLevel (run (.inputEdgeAccepted 0) (s .freeze .armed false)).ins ≠ (s .freeze .armed false).seq.freeze ∧
      freezeLevel (run (.inputEdgeAccepted 0) (s .freeze .hold true)).ins ≠ (s .freeze .hold true).seq.freeze := by
  decide +kernel

/-- The homing edge, and each reason for which an edge of IN2 as INDEX is discarded. -/
theorem test_premises_IndexEdge :
    let s (high homing : Bool) (q : SeqState) : State := { inSeq q with
      axis := { Axis.reset with homing := homing, cfg := ⟨.quad, 0, 3600, 3599⟩ }
      ins := (inSeq q).ins.set 2 { risen .index with accepted := high, raw := !high } }
    (∀ high homing : Bool, ∀ q ∈ [SeqState.idle, .armed], (s high homing q).phase = .running ∧
        inputDue (s high homing q) 2 = true ∧ (s high homing q).ins[2].fn = .index ∧
        (s high homing q).ins[2].accepted = high ∧ (s high homing q).axis.homing = homing) ∧
      (s false true .idle).seq.state = .idle ∧ (s true true .armed).seq.state ≠ .idle ∧
      (s false true .idle).cues.arrivals = [] ∧ (s false true .idle).capture.arrivals = [] := by decide +kernel

/-- QUAD: A alone, B alone, both, and a change of A that the stored pair has already, while RUNNING and HALTED; STEP: a rise and
a fall of IN0, and an edge of IN1 alone. -/
theorem test_premises_Decoders :
    let s (src : AxisSource) (run pair : Bool) (a b : InLine) : State := { State.reset with
      axis := { Axis.reset with running := run, pairA := pair, cfg := ⟨src, 0, 3600, 0⟩ }, ins := inputsOf a b }
    let still (fn : InputFn) : InLine := { InLine.reset false with fn := fn }
    let fallen : InLine := { risen .axisA with accepted := true, raw := false }
    (∀ src ∈ [AxisSource.quad, .step], ∀ run pair : Bool,
        (s src run pair (risen .axisA) (still .axisB)).ins[0].fn = .axisA ∧
        (s src run pair (risen .axisA) (still .axisB)).ins[1].fn = .axisB ∧
        (s src run pair (risen .axisA) (still .axisB)).axis.cfg.source = src ∧
        (s src run pair (risen .axisA) (still .axisB)).axis.running = run ∧
        (s src run pair (risen .axisA) (still .axisB)).axis.pairA = pair ∧
        inputDue (s src run pair (risen .axisA) (still .axisB)) 0 = true ∧
        inputDue (s src run pair (risen .axisA) (still .axisB)) 1 = false ∧
        inputDue (s src run pair (still .axisA) (risen .axisB)) 0 = false ∧
        inputDue (s src run pair (still .axisA) (risen .axisB)) 1 = true ∧
        inputDue (s src run pair (risen .axisA) (risen .axisB)) 0 = true ∧
        inputDue (s src run pair (risen .axisA) (risen .axisB)) 1 = true ∧
        inputDue (s src run pair fallen (still .axisB)) 0 = true) ∧ xor fallen.accepted true = false := by decide +kernel

/-- An edge of one line due, while the other is at rest with filter time 0. -/
theorem test_premises_LaterEdgeOfStamp :
    let s (src : AxisSource) (run : Bool) (a b : InLine) : State := { State.reset with
      axis := { Axis.reset with running := run, cfg := ⟨src, 0, 3600, 0⟩ }, ins := inputsOf a b }
    let still (fn : InputFn) : InLine := { InLine.reset false with fn := fn }
    ∀ src ∈ [AxisSource.quad, .step], ∀ run : Bool,
      (let u := s src run (risen .axisA) (still .axisB);
        u.phase = .running ∧ u.ins[0].fn = .axisA ∧ u.ins[1].fn = .axisB ∧ u.axis.takenA = false ∧ u.axis.takenB = false ∧
        inputDue u 0 = true ∧ u.ins[1].pendingSince = none ∧ u.ins[1].filter = 0 ∧ u.axis.cfg.source = src ∧
        u.axis.running = run ∧ u.axis.pairA = u.ins[0].accepted ∧ u.axis.pairB = u.ins[1].accepted ∧
        u.ins[0].accepted = false) ∧
      (let u := s src run (still .axisA) (risen .axisB);
        inputDue u 1 = true ∧ u.ins[0].pendingSince = none ∧ u.ins[0].filter = 0 ∧ u.axis.pairA = u.ins[0].accepted ∧
        u.axis.pairB = u.ins[1].accepted) := by decide +kernel

theorem test_premises_Limits :
    Ready State.reset ∧ 3 < (4#8 : Byte).toNat ∧ 60000 < num16 0xEA#8 0x61#8 ∧ (3#8 : Byte).toNat = (3 : Fin 4).val ∧
      num16 0xEA#8 0x60#8 ≤ 60000 := ⟨test_ready_at_reset, by decide⟩

/-- A LIMITS_SET that raises the limit takes REVERSE_LIMIT out of the present set, where the next RESUME no longer finds it. -/
theorem test_limits_set_ends_condition_at_once :
    let s : State := { inSafe .reverseLimit 1#16 with
      axis := { Axis.reset with lead := ⟨0#16, 9⟩, reverseLimit := 5, reversed := true }
      faults := { (inSafe .reverseLimit 1#16).faults with present := { PresentSet.none with reverseLimit := true } } }
    let t := run (.limitsSet 0#8 [0#8, 9#8, 0#8, 0#8, 0#8, 0#8, 0#8]) s
    blockingSet s ≠ PresentSet.none ∧ blockingSet t = PresentSet.none ∧ t.faults.inbox = [] := by decide +kernel

/-- The part with reports at the Fault Monitor. -/
def reporting (r : List Report) (s : State) : State := { s with faults := { s.faults with inbox := r } }

theorem test_premises_ConditionBegin :
    nextReport (reporting [plainReport .linkSilent true] State.reset) .linkSilent = some (plainReport .linkSilent true) ∧
      (reporting [plainReport .linkSilent true] State.reset).seq.state = .idle ∧
      nextReport (reporting [plainReport .supplyLow true] (inSeq .armed)) .supplyLow =
        some (plainReport .supplyLow true) ∧
      (reporting [plainReport .supplyLow true] (inSeq .armed)).seq.state ≠ .safe := by decide +kernel

/-- A more serious, an equal and a less serious kind, and an ending. -/
theorem test_premises_ConditionInSafe :
    let s := reporting [plainReport .supplyLow true] (inSafe .axisSignal 1#16)
    nextReport s .supplyLow = some (plainReport .supplyLow true) ∧ s.seq.state = .safe ∧
      s.faults.primary.map (·.kind) = some .axisSignal ∧ faultRank (condKind .supplyLow) < faultRank .axisSignal ∧
      faultRank .axisSignal ≤ faultRank (condKind .axisSignal) ∧
      faultRank .axisSignal ≤ faultRank (condKind (.lineMismatch 15)) ∧
      nextReport (reporting [plainReport .supplyLow false] (inSafe .axisSignal 1#16)) .supplyLow =
        some (plainReport .supplyLow false) := by decide +kernel

/-- Outside SAFE; a stale token; blocked by each member of the present set; and free to leave. -/
theorem test_premises_Resume :
    let s := inSafe .axisSignal 1#16
    let with_ (p : PresentSet) : State := { s with faults := { s.faults with present := p } }
    Ready State.reset ∧ Ready s ∧ (∀ p, Ready (with_ p)) ∧ State.reset.seq.state ≠ .safe ∧ s.seq.state = .safe ∧
      word16 0#8 0#8 ≠ s.faults.count ∧ word16 0#8 1#8 = s.faults.count ∧
      (∀ p ∈ [{ PresentSet.none with supplyLow := true }, { PresentSet.none with overspeed := true },
          { PresentSet.none with reverseLimit := true }, { PresentSet.none with lines := 0x8000#16 }],
        (with_ p).faults.present = p ∧ tooFast (with_ p).axis = false) ∧ s.faults.present = PresentSet.none :=
  ⟨test_ready_at_reset, ready_of rfl rfl rfl, fun _ => ready_of rfl rfl rfl, by decide +kernel⟩

theorem test_premises_EventEnable :
    (num32 0x10#8 0#8 0#8 0#8).testBit 28 = true ∧
      (∀ n : Nat, 28 ≤ n → (num32 0x0F#8 0xFF#8 0xFF#8 0xFF#8).testBit n = false) := by
  refine ⟨by decide, fun n hn => Nat.testBit_lt_two_pow (Nat.lt_of_lt_of_le ?_ (Nat.pow_le_pow_right (by omega) hn))⟩
  decide

theorem test_premises_EventClear :
    let s := raise .storeDone State.reset
    Ready State.reset ∧ 27 < (28#8 : Byte).toNat ∧ (27#8 : Byte).toNat = (27 : Fin 28).val ∧
      s.events.recs[27].pending = true ∧ s.events.recs[27].count = 1#8 ∧ (0#8 : Byte) ≠ s.events.recs[27].count ∧
      State.reset.events.recs[27].pending = false := ⟨test_ready_at_reset, by decide +kernel⟩

theorem test_premises_Store :
    let busy : State := { State.reset with
      stamp := 5000#32, store := { State.reset.store with op := some ⟨.erasing 8, 0#32, 0⟩ } }
    let low : State := { State.reset with
      faults := { FaultMonitor.reset with present := { PresentSet.none with supplyLow := true } } }
    let kept : State := { State.reset with store := { State.reset.store with limit := 9 } }
    Ready State.reset ∧ Ready busy ∧ Ready low ∧ Ready kept ∧ (0#8 : Byte).toNat = (0 : Fin 9).val ∧
      (9#8 : Byte).toNat ≤ 9 ∧ (8#8 : Byte).toNat = (8 : Fin 9).val ∧ State.reset.store.op = none ∧
      State.reset.faults.present.supplyLow = false ∧ State.reset.store.limit ≤ 0 ∧
      busy.store.op = some ⟨.erasing 8, 0#32, 0⟩ ∧ reached busy.stamp (0#32 + 5000#32) = true ∧ 8 < (9#8 : Byte).toNat ∧
      low.faults.present.supplyLow = true ∧ (8#8 : Byte).toNat < kept.store.limit :=
  ⟨test_ready_at_reset, ready_of rfl rfl rfl, ready_of rfl rfl rfl, ready_of rfl rfl rfl, by decide +kernel⟩

theorem test_premises_Resets :
    let heldPart : State := { State.reset with phase := .held }
    let leaving : State := { State.reset with link := { State.reset.link with restarting := true } }
    heldPart.phase = .held ∧ headerPrepared heldPart.store.blocks = false ∧ leaving.phase = .running ∧
      leaving.link.restarting = true ∧ leaving.link.replies = [] ∧ leaving.link.tx = none := by decide +kernel

theorem test_premises_Autoload :
    let s : State := { State.reset with
      phase := .held
      store := { State.reset.store with
        blocks := { Blocks.shipped with
          header := .valid ⟨true, 9⟩, axis := .valid ⟨.timebase, 12, 16, 15⟩, limits := .valid ⟨1, 2, 60000, 3⟩ } } }
    let r : State := { s with phase := .running, link := { State.reset.link with restarting := true } }
    s.phase = .held ∧ s.store.blocks.header = .valid ⟨true, 9⟩ ∧ r.store.blocks.header = .valid ⟨true, 9⟩ ∧
      r.phase = .running ∧ r.link.restarting = true ∧ r.link.replies = [] ∧ r.link.tx = none := by decide +kernel

theorem test_premises_UnknownKindAndBadLength :
    Ready State.reset ∧ 0x80#8 ∉ knownKinds ∧ 0x01#8 ∈ knownKinds ∧ lengthCalledFor 0x01#8 [] ≠ some ([] : List Byte).length ∧
      0x11#8 ∈ knownKinds ∧ lengthCalledFor 0x11#8 [0#8, 0#8, 0#8, 1#8] ≠ some 4 :=
  ⟨test_ready_at_reset, by decide⟩

/-- The part in which every request of the test below fails some check: QUAD on claimed inputs, a staged modulus, a cue at
position 100 in slot 255, a full queue at channel 3, and channel 3 alone enabled. -/
def awkward : State := { State.reset with
  axis := { Axis.reset with staged := some 3600, cfg := ⟨.quad, 0, 4000, 0⟩ }
  cues := { listOf [⟨oneShot 255, ⟨0#16, 100⟩⟩] with
    queues := #v[[], [], [], [0, 1, 2, 3, 4, 5, 6, 7].map fun n => ⟨n, .drop, [{ oneShot 254 with offset := some 0 }]⟩] }
  capture := channel3 (windowed .closed)
  ins := (inputsOf (risen .freeze) (risen (.capture 2))).set 2 (risen .freeze) }

/-- The checks of AXIS_SETUP and AXIS_HOME fail one after another, each at a bound. -/
theorem test_premises_AxisRefusals :
    let idle : State := { awkward with ins := State.reset.ins }
    Ready awkward ∧ Ready idle ∧ Ready (cueLines .safe) ∧ (cueLines .safe).seq.state ≠ .idle ∧ awkward.seq.state = .idle ∧
      2 < (3#8 : Byte).toNat ∧ 12 < (13#8 : Byte).toNat ∧ num32 0#8 0#8 0#8 15#8 < 16 ∧
      4000000 < num32 0#8 0x3D#8 0x09#8 0x01#8 ∧ awkward.ins[0].fn ∉ [.general, .axisA, .axisB] ∧
      idle.ins[0].fn ∈ [InputFn.general, .axisA, .axisB] ∧ 100 ∈ boundSet idle ∧ num32 0#8 0#8 0#8 100#8 ≤ 100 ∧
      State.reset.axis.cfg.source = .timebase ∧ awkward.axis.cfg.source ≠ .timebase ∧
      AboveModuli awkward.axis 3600 ∧ ¬ AboveModuli awkward.axis 3599 ∧ awkward.ins[2].fn ∉ [.general, .index] :=
  ⟨ready_of rfl rfl rfl, ready_of rfl rfl rfl, ready_of rfl rfl rfl, by decide +kernel⟩

/-- The checks of CUE_PUT and CUE_CANCEL. -/
theorem test_premises_CueRefusals :
    Ready awkward ∧ Ready (cueLines .safe) ∧ (cueLines .safe).seq.state = .safe ∧ awkward.seq.state ≠ .safe ∧
      CueOutOfRange 0#16 0#8 16#8 0 0#8 0#8 ∧ CueOutOfRange 1#16 0#8 32#8 0 0#8 0#8 ∧
      ¬ CueOutOfRange 1#16 3#8 31#8 1 1#8 1#8 ∧ 2 < (3#8 : Byte).toNat ∧ AboveModuli awkward.axis 3600 ∧
      ¬ AboveModuli awkward.axis 3599 ∧ slotFree awkward.cues (255#8 : Byte).toFin = false ∧
      slotFree awkward.cues (0#8 : Byte).toFin = true ∧ NotCueOwned 0x8000#16 awkward :=
  ⟨ready_of rfl rfl rfl, ready_of rfl rfl rfl, by decide +kernel⟩

/-- The checks of CAPTURE_SETUP and GROUP_PUT. -/
theorem test_premises_CaptureAndGroupRefusals :
    let one := specificationsOf (specBytes 253#8)
    let twice := specificationsOf (specBytes 253#8 ++ specBytes 253#8)
    let late := specificationsOf [253#8, 0#8, 1#8, 0#8, 0#8, 0x3D#8, 0x09#8, 0x01#8, 0#8, 0#8, 0#8, 0#8, 0#8]
    let empty : State := { awkward with
      axis := Axis.reset, cues := { awkward.cues with queues := #v[[⟨0, .drop, []⟩], [], [], []] } }
    let full : State := { awkward with axis := Axis.reset }
    Ready awkward ∧ Ready empty ∧ Ready full ∧ 3 < (4#8 : Byte).toNat ∧ 8 < (9#8 : Byte).toNat ∧
      AboveModuli awkward.axis 3600 ∧ num32 0#8 0#8 0x0E#8 0x10#8 = 3600 ∧ awkward.cues.queues[3] ≠ [] ∧
      awkward.cues.queues[2] = [] ∧ awkward.ins[1].fn ∉ [.general, .capture 1] ∧ awkward.axis.staged ≠ none ∧
      full.axis.staged = none ∧ 31 < (32#8 : Byte).toNat ∧ 16 < (17#8 : Byte).toNat ∧
      full.capture.channels[2].cfg.enabled = false ∧ full.capture.channels[3].cfg.enabled = true ∧
      (∃ x ∈ late, 4000000 < x.offset) ∧ (∃ g ∈ queuedGroups full.cues, g.number.val = (7#8 : Byte).toNat) ∧
      (¬ ∃ g ∈ queuedGroups full.cues, g.number.val = (31#8 : Byte).toNat) ∧ 8 ≤ full.cues.queues[3].length ∧
      ¬ (8 ≤ empty.cues.queues[3].length) ∧ ¬ (twice.map (·.slot)).Nodup ∧ (one.map (·.slot)).Nodup ∧
      (∀ x ∈ one, slotFree empty.cues x.slot.toFin = true) ∧ ∃ x ∈ one, NotCueOwned x.lines empty :=
  ⟨ready_of rfl rfl rfl, ready_of rfl rfl rfl, ready_of rfl rfl rfl, by decide +kernel⟩

/-- The checks of CAM_LOAD, LINE_SETUP and INPUT_SETUP. -/
theorem test_premises_CamAndLineRefusals :
    Ready awkward ∧ Ready (inSeq .hold) ∧ (1#8 : Byte).getLsbD 0 = true ∧ (inSeq .hold).seq.state ≠ .idle ∧
      7 < (8#8 : Byte).toNat ∧ 1 < (2#8 : Byte).toNat ∧ 10000 < num16 0x27#8 0x11#8 ∧ 4 < (5#8 : Byte).toNat ∧
      [0#8, 0#8, 0#8, 5#8, 0#8, 0#8, 0x0E#8, (0x10#8 : Byte)].length = 8 * (1#8 : Byte).toNat ∧
      (∃ w ∈ windowsOf [0#8, 0#8, 0#8, 5#8, 0#8, 0#8, 0x0E#8, 0x10#8], AboveModuli awkward.axis w.off) ∧
      15 < (16#8 : Byte).toNat ∧ 10 < (11#8 : Byte).toNat ∧ 3 < (4#8 : Byte).toNat ∧
      awkward.ins[1].fn ∉ [.general, .freeze] ∧ (1#8 : Byte).toNat = (1 : Fin 8).val :=
  ⟨ready_of rfl rfl rfl, ready_of rfl rfl rfl, by decide +kernel⟩

theorem test_premises_Receiver :
    let s (r : Receiver) : State := { State.reset with stamp := 4000#32, link := { State.reset.link with rx := r } }
    (s .hunt).link.rx = .hunt ∧ (s .length).link.rx = .length ∧ (s (.body 250 [])).link.rx = .body 250 [] ∧
      (s (.check [0#8, 0#8] none)).link.rx = .check [0#8, 0#8] none ∧
      (s (.check [0#8, 2#8] (some 0#8))).link.rx = .check (0#8 :: 2#8 :: []) (some 0#8) ∧
      (s .length).link.rx ≠ .hunt ∧ reached (s .length).stamp ((s .length).link.lastChar + 4000#32) = true := by decide

theorem test_premises_Transmitter :
    let s (q : List Frame) : State :=
      { State.reset with link := { State.reset.link with tx := some ⟨⟨0#8, 0x82#8, []⟩, 0#32⟩, replies := q } }
    let e : EventUnit := { EventUnit.reset with recs := EventUnit.reset.recs.map fun r => { r with pending := true, enabled := true, count := 1#8 } }
    (s []).link.tx = some ⟨⟨0#8, 0x82#8, []⟩, 0#32⟩ ∧ (s [⟨1#8, 0x82#8, []⟩]).link.replies = [⟨1#8, 0x82#8, []⟩] ∧
      (s []).link.replies = [] ∧ (∀ n : Fin 28, due (s []).events.recs[n] = false) ∧
      (s []).link.restarting = false ∧
      (due e.recs[0] = true ∧ ∀ m : Fin 28, due e.recs[m] = true → m ≠ 0 →
        orderPlace e.order (groupOf 0) < orderPlace e.order (groupOf m) ∨ groupOf m = groupOf 0 ∧ (0 : Fin 28).val < m.val) ∧
      e.order.first ≠ e.order.second ∧ e.order.first ≠ e.order.third ∧ e.order.second ≠ e.order.third := by
  decide +kernel

/-- A capture, a miss, a fault and a store operation to summarise. -/
theorem test_premises_NoticeSummary :
    let r : CaptureRecord := ⟨3, ⟨0#16, 0⟩, .rising, 0#32, some 31⟩
    let c : Channel := { Channel.reset with latest := some r, lastMiss := some ⟨.nominal, some 31, 0xFFFF#16⟩ }
    let s : State := { inSafe .linkSilent 1#16 with
      capture := channel3 c, store := { State.reset.store with lastOp := some ⟨8, .failed⟩ } }
    (3 : Fin 28).val = (3 : Fin 4).val ∧ s.capture.channels[3].latest = some r ∧
      (7 : Fin 28).val = 4 + (3 : Fin 4).val ∧ s.capture.channels[3].lastMiss = some ⟨.nominal, some 31, 0xFFFF#16⟩ ∧
      s.faults.primary.map (·.kind) = some .linkSilent ∧ s.store.lastOp = some ⟨8, .failed⟩ ∧ 8 ≤ (25 : Fin 28).val := by
  decide +kernel

theorem test_premises_SilenceExpiry :
    let s (q : SeqState) : State :=
      { inSeq q with stamp := 60000000#32, link := { State.reset.link with silenceLimit := 60000 } }
    (∀ q ∈ [SeqState.idle, .armed], (s q).phase = .running ∧ (s q).link.silenceLimit ≠ 0 ∧
        (s q).link.silenceExpired = false ∧
        reached (s q).stamp ((s q).link.silenceStamp + BitVec.ofNat 32 (1000 * (s q).link.silenceLimit)) = true) ∧
      (s .idle).seq.state = .idle ∧ (s .armed).seq.state ≠ .idle := by decide +kernel

/-- The last character of a good frame with and without a beginning of LINK_SILENT waiting; and a fault that leaves IDLE while the
expired flag is set. -/
theorem test_premises_SilenceEndsAndBeginsLate :
    let s (inbox : List Report) : State := { State.reset with
      faults := { FaultMonitor.reset with present := { PresentSet.none with linkSilent := true }, inbox := inbox }
      link := { State.reset.link with silent := true, silenceExpired := true, rx := .check [0#8, 2#8] (some 0x82#8) } }
    let f : State := { reporting [plainReport .supplyLow true] State.reset with
      link := { State.reset.link with silenceExpired := true } }
    (s []).link.silent = true ∧ (s []).link.rx = .check (0#8 :: 2#8 :: []) (some 0x82#8) ∧
      Frame.check ⟨0#8, 2#8, []⟩ = 0x82#8 ++ 0xBE#8 ∧ reportWaits (s []) .linkSilent = false ∧
      reportWaits (s [plainReport .linkSilent true]) .linkSilent = true ∧
      nextReport f .supplyLow = some (plainReport .supplyLow true) ∧ f.seq.state = .idle ∧
      f.link.silenceExpired = true ∧ f.link.silent = false := by decide +kernel

theorem test_premises_RequestSentByBytes :
    (Instr.axisRun 255#8 []).wf = true ∧ (Instr.axisRun 255#8 []).frame = some ⟨255#8, 0x02#8, []⟩ ∧
      State.reset.phase = .running ∧ State.reset.link.rx = .hunt ∧ State.reset.link.inbound.length < 4 := by
  decide +kernel

/-- A request at the head of a full inbound queue is taken beside three replies; it waits behind four, after RESTART, and behind
another frame. -/
theorem test_premises_RequestTakenOrWaits :
    let f : Frame := ⟨255#8, 0x02#8, []⟩
    let s (inbound : List Frame) (replies : Nat) (restarting : Bool) : State := { State.reset with
      link := { State.reset.link with
        inbound := inbound, replies := List.replicate replies f, restarting := restarting, tx := some ⟨f, 0#32⟩ } }
    (s [f, f, f, f] 3 false).link.inbound = f :: [f, f, f] ∧ (s [f, f, f, f] 3 false).link.replies.length < 4 ∧
      (s [f, f, f, f] 3 false).link.restarting = false ∧ (s [f, f, f, f] 3 false).faults.inbox = [] ∧
      4 ≤ (s [] 4 false).link.replies.length ∧ (s [] 0 true).link.restarting = true ∧
      (s [⟨0#8, 0x7F#8, []⟩] 0 false).link.inbound.head? = some ⟨0#8, 0x7F#8, []⟩ ∧ (⟨0#8, 0x7F#8, []⟩ : Frame) ≠ f ∧
      ¬ (s [f, f, f, f] 4 false).link.inbound.length < 4 ∧ (s [] 4 false).link.inbound.length < 4 := by decide +kernel

/-- The part in HOLD with CUE-owned lines, one LISTED cue at the last position of the modulus, and one QUEUED group. -/
def held1 : State :=
  { cueLines .hold with cues := { queueOf .drop with list := [⟨oneShot 0, ⟨1#16, 3599⟩⟩] } }

theorem held1_goes_on : goesOn held1 := by
  refine ⟨tick held1, ?_⟩
  have h : dueCommand held1 = none := by decide +kernel
  have hp : held1.pending = [] := rfl
  simp only [step, h, hp]

/-- The premises of the statements about invariants: the invariant, and a step that goes on. -/
theorem test_premises_StepKeepsReasons : SeqInv held1 ∧ goesOn held1 :=
  ⟨by unfold SeqInv; decide +kernel, held1_goes_on⟩

theorem test_premises_StepKeepsRoom : RoomInv held1 ∧ goesOn held1 :=
  ⟨by unfold RoomInv; decide +kernel, held1_goes_on⟩

theorem test_premises_StepKeepsLineLevels : LineInv held1 ∧ goesOn held1 :=
  ⟨by unfold LineInv; decide +kernel, held1_goes_on⟩

theorem held1_fits : AxisFits held1 := by
  refine ⟨by unfold settingsFit; decide +kernel, by decide +kernel, by decide +kernel, by decide +kernel, ?_, ?_, ?_⟩
  · intro m h
    have h0 : held1.axis.staged = none := rfl
    rw [h0] at h
    cases h
  · intro c h
    have h0 : held1.store.blocks.axis = .empty := rfl
    rw [h0] at h
    cases h
  · intro o c h
    have h0 : held1.store.op = none := rfl
    rw [h0] at h
    cases h

theorem test_premises_StepKeepsPositions : AxisInv held1 ∧ goesOn held1 := ⟨⟨held1_fits, held1_fits⟩, held1_goes_on⟩

theorem test_premises_StepKeepsSlots : SlotInv held1 ∧ goesOn held1 :=
  ⟨by unfold SlotInv; decide +kernel, held1_goes_on⟩

end Sys2Proof.Tests
end

section
/-! CUE_PUT of a late key under policy REFUSE (R30, R32): what the rule answers once the checks of R30 have passed, and that a
good frame changes nothing those checks read. -/

namespace Sys2Proof.Machine

/-- The checks of R30 read the sequencer's state, the axis, the Cue Table and the owners of the lines, which hearing a frame
(R157) leaves as they are. -/
theorem cuePutPasses_heard {body : List Byte} {cue : Cue} {key : Key} {late : LatePolicy} {s : State} :
    CuePutPasses body cue key late (heard s) ↔ CuePutPasses body cue key late s := Iff.rfl

theorem slotFree_of_cuePutPasses {body : List Byte} {cue : Cue} {key : Key} {late : LatePolicy} {s : State}
    (h : CuePutPasses body cue key late s) : slotFree s.cues cue.slot = true := by
  obtain ⟨_, _, _, _, _, _, _, _, _, _, _, _, _, _, _, _, -, -, -, -, -, -, -, hfree, -⟩ := h
  exact hfree

theorem lines_cueOwned_of_cuePutPasses {body : List Byte} {cue : Cue} {key : Key} {late : LatePolicy} {s : State}
    (h : CuePutPasses body cue key late s) : cue.lines &&& ~~~ cueOwned s = 0#16 := by
  obtain ⟨_, _, _, _, _, _, _, _, _, _, _, _, _, _, _, _, -, -, -, -, -, -, -, -, howned⟩ := h
  exact howned

theorem belowModuli_iff (a : Axis) (p : Nat) :
    belowModuli a p = true ↔ p < a.cfg.modulus ∧ ∀ m, a.staged = some m → p < m := by
  cases h : a.staged <;> simp [belowModuli, h]

/-- A CUE_PUT body whose values are in range reaches `putCue` with the cue, the key and the policy it carries (R30). -/
theorem cuePutRule_of_passes {body : List Byte} {cue : Cue} {key : Key} {late : LatePolicy} {s : State}
    (h : CuePutPasses body cue key late s) : cuePutRule body s = putCue cue key late s := by
  obtain ⟨slot, l1, l0, action, c1, c0, p3, p2, p1, p0, options, w1, w0, count, period, policy, rfl, hcue, hlate, rfl,
    hsafe, hmodulus, hstaged, -, -⟩ := h
  have hbelow := (belowModuli_iff s.axis _).2 ⟨hmodulus, hstaged⟩
  simp only [cuePutRule, if_neg hsafe, hcue, hlate, if_pos hbelow]

/-- On a FREE slot and with CUE-owned lines, only the standing of the key and the policy decide (R31 to R34); a reached key under
REFUSE is answered with the lead point (R32). -/
theorem putCue_refuse_reached {cue : Cue} {key : Key} {s : State} (hfree : slotFree s.cues cue.slot = true)
    (howned : cue.lines &&& ~~~ cueOwned s = 0#16) (hreached : keyReached s.cues.lead key = true) :
    putCue cue key .refuse s = (s, lateReply s) := by
  simp [putCue, hfree, howned, hreached]

theorem cuePutRule_refuse_reached {body : List Byte} {cue : Cue} {key : Key} {s : State}
    (h : CuePutPasses body cue key .refuse s) (hreached : keyReached s.cues.lead key = true) :
    cuePutRule body s = (s, lateReply s) := by
  rw [cuePutRule_of_passes h,
    putCue_refuse_reached (slotFree_of_cuePutPasses h) (lines_cueOwned_of_cuePutPasses h) hreached]

/-- Settles O14: a key beyond the horizon is reached as well, so the rule answers LATE and keeps the state it was given; the
frame of a request carries that over to the part, whose Cue Table, and with it the slot and the list, stays as it was. -/
theorem cuePutLateIsRefused : Obligations.CuePutLateIsRefused := by
  intro tag body cue key s hready hpasses hlate
  have hreached : keyReached s.cues.lead key = true := hlate.elim id reached_of_beyondHorizon
  have hrule : cuePutRule body (heard s) = (heard s, lateReply (heard s)) :=
    cuePutRule_refuse_reached (cuePutPasses_heard.2 hpasses) hreached
  obtain ⟨hanswer, -, hkept⟩ := request_done tag 0x10#8 body (cuePutRule body) hready (by decide) hrule
    (KeptBut.refl [] (heard s)) (heard_errors s)
  have hcues : (serve ⟨tag, 0x10#8, body⟩ (cuePutRule body) s).cues = s.cues := hkept .cues (by simp)
  refine ⟨_, rfl, hanswer, ?_, ?_, hkept⟩
  · rw [hcues]
    exact slotFree_of_cuePutPasses hpasses
  · rw [hcues]

end Sys2Proof.Machine
end

section
/-! DISARM and HOLD (R51, R52): each either writes the Sequencer's state and hold reasons and answers them, or is refused; and
what follows elsewhere from the state that is left. -/

namespace Sys2Proof.Machine

/-! ## What the Sequencer's state decides elsewhere -/

theorem trackOutput_of_not_armed {s : State} (h : s.seq.state ≠ .armed) (n : Fin 8) : trackOutput s n = false := by
  simp [trackOutput, h]

theorem dividerRuns_of_hold {s : State} (h : s.seq.state = .hold) : dividerRuns s = false := by
  simp [dividerRuns, h]

/-- In IDLE a change of the freeze level is only noted (R54). -/
theorem changeFreeze_of_idle {s : State} (h : s.seq.state = .idle) (level : Bool) :
    changeFreeze level s = s.onSeq fun q => { q with freeze := level } := by
  simp only [changeFreeze, h]

/-- In IDLE neither condition of the axis stands reported at the end of a command (R19). -/
theorem settle_axis_of_idle {s : State} (hrun : s.phase = .running) (hidle : s.seq.state = .idle) :
    (settle s).axis.overspeed = false ∧ (settle s).axis.reversed = false := by
  have hinside : outsideIdle s = false := by simp [outsideIdle, hidle]
  obtain ⟨haxis, -⟩ := settle_decides hrun
  rw [haxis, judged_eq]
  simp [hinside]

/-! ## Requests that write the Sequencer's state and reasons -/

@[simp] theorem setSeq_seq (q : SeqState) (request pin : Bool) (s : State) :
    (setSeq q request pin s).seq = { s.seq with state := q, holdRequest := request, holdPin := pin } := rfl

@[simp] theorem setSeq_phase (q : SeqState) (request pin : Bool) (s : State) : (setSeq q request pin s).phase = s.phase := rfl

@[simp] theorem setSeq_link (q : SeqState) (request pin : Bool) (s : State) : (setSeq q request pin s).link = s.link := rfl

/-- The reply of a request that has run no catch-up (section 11.8). -/
theorem stateReply_setSeq (q : SeqState) (request pin : Bool) (s : State) :
    stateReply (setSeq q request pin s) (0, 0) =
      okay [seqStateByte q, byteOf (bitsByte [request, pin]), 0#8, 0#8, 0#8, 0#8] := rfl

/-- A request without a body whose rule writes the Sequencer's state and reasons and answers them: the reply, the write, and
nothing else. -/
theorem request_setSeq {s : State} {rule : State → State × Reply} {q : SeqState} {request pin : Bool} (tag kind : Byte)
    (hready : Ready s) (hkind : kind.toNat < 128)
    (hrule : rule (heard s) = (setSeq q request pin (heard s), stateReply (setSeq q request pin (heard s)) (0, 0))) :
    Answered tag kind .ok false [seqStateByte q, byteOf (bitsByte [request, pin]), 0#8, 0#8, 0#8, 0#8] s
        (serve ⟨tag, kind, []⟩ (noBody rule []) s) ∧
      (serve ⟨tag, kind, []⟩ (noBody rule []) s).seq =
        { s.seq with state := q, holdRequest := request, holdPin := pin } ∧
      KeptBut [.seq] s (serve ⟨tag, kind, []⟩ (noBody rule []) s) := by
  rw [stateReply_setSeq] at hrule
  obtain ⟨hanswer, hsame, hkept⟩ := request_done tag kind [] (noBody rule []) hready hkind hrule
    (setSeq_kept q request pin (heard s)) (heard_errors s)
  exact ⟨hanswer, hsame .seq (by simp), hkept⟩

/-- A request whose rule leaves the Sequencer in IDLE ends the conditions of the axis (R19). -/
theorem request_axis_of_idle {s : State} {rule : State → State × Reply} {request pin : Bool} {r : Reply} (f : Frame)
    (hready : Ready s) (hrule : rule (heard s) = (setSeq .idle request pin (heard s), r)) :
    (serve f rule s).axis.overspeed = false ∧ (serve f rule s).axis.reversed = false := by
  have hrun : s.phase = .running := hready.1
  rw [serve_ready f rule hready]
  apply settle_axis_of_idle
  · simp [answer, hrule, hrun]
  · simp [answer, hrule]

/-- A request without a body whose rule refuses it and keeps the state. -/
theorem request_refused {s : State} {rule : State → State × Reply} {c : Code} (tag kind : Byte) (hready : Ready s)
    (hkind : kind.toNat < 128) (hrule : rule (heard s) = (heard s, refuse c)) :
    Answered tag kind c false [] s (serve ⟨tag, kind, []⟩ (noBody rule []) s) ∧
      KeptBut [] s (serve ⟨tag, kind, []⟩ (noBody rule []) s) := by
  obtain ⟨hanswer, -, hkept⟩ := request_done tag kind [] (noBody rule []) hready hkind hrule
    (KeptBut.refl [] (heard s)) (heard_errors s)
  exact ⟨hanswer, hkept⟩

/-! ## DISARM (R51) -/

theorem disarmRule_taken {s : State} (h : s.seq.state = .armed ∨ s.seq.state = .hold) :
    disarmRule s = (setSeq .idle false false s, stateReply (setSeq .idle false false s) (0, 0)) := by
  rcases h with h | h <;> simp only [disarmRule, h]

theorem disarmRule_refused {s : State} (h : s.seq.state = .idle ∨ s.seq.state = .safe) :
    disarmRule s = (s, refuse .wrongState) := by
  rcases h with h | h <;> simp only [disarmRule, h]

/-- Settles O22: where DISARM is taken the part is left in IDLE, and the freeze level, the cam tracks and the conditions of the
axis follow from that state; where it is refused the rule keeps the state. -/
theorem disarmReturnsToIdle : Obligations.DisarmReturnsToIdle := by
  intro tag s hready
  constructor
  · intro hstate
    have hrule := disarmRule_taken (s := heard s) hstate
    obtain ⟨hanswer, hseq, hkept⟩ := request_setSeq tag 0x21#8 hready (by decide) hrule
    obtain ⟨hoverspeed, hreversed⟩ :=
      request_axis_of_idle (rule := noBody disarmRule []) ⟨tag, 0x21#8, []⟩ hready hrule
    have hidle : _ = SeqState.idle := congrArg Sequencer.state hseq
    refine ⟨_, rfl, hanswer, hseq, fun level => ?_, fun n => ?_, hoverspeed, hreversed, hkept⟩
    · rw [changeFreeze_of_idle hidle, State.onSeq_seq]
    · exact trackOutput_of_not_armed (by rw [hidle]; decide) n
  · intro hstate
    exact ⟨_, rfl, request_refused tag 0x21#8 hready (by decide) (disarmRule_refused (s := heard s) hstate)⟩

/-! ## HOLD (R52) -/

theorem holdRule_armed {s : State} (h : s.seq.state = .armed) :
    holdRule s = (setSeq .hold true false s, stateReply (setSeq .hold true false s) (0, 0)) := by
  simp only [holdRule, h]

theorem holdRule_hold {s : State} (h : s.seq.state = .hold) :
    holdRule s = (setSeq .hold true s.seq.holdPin s, stateReply (setSeq .hold true s.seq.holdPin s) (0, 0)) := by
  simp only [holdRule, h]

theorem holdRule_refused {s : State} (h : s.seq.state = .idle ∨ s.seq.state = .safe) :
    holdRule s = (s, refuse .wrongState) := by
  rcases h with h | h <;> simp only [holdRule, h]

/-- The reasons in HOLD with REQUEST present, as HOLD answers them (section 11.4). -/
theorem requestReasons_byte (pin : Bool) : byteOf (bitsByte [true, pin]) = if pin then 3#8 else 1#8 := by
  cases pin <;> rfl

/-- In HOLD adding REQUEST writes the reason and nothing else of the Sequencer. -/
theorem withRequest_of_hold {q : Sequencer} (h : q.state = .hold) :
    { q with state := .hold, holdRequest := true, holdPin := q.holdPin } = { q with holdRequest := true } := by
  rw [← h]

/-- REQUEST is in the hold reasons already: adding it changes nothing. -/
theorem withRequest_of_present {q : Sequencer} (h : q.holdRequest = true) : { q with holdRequest := true } = q := by
  rw [← h]

/-- Settles O23: HOLD writes HOLD and REQUEST, beside the PIN that stood in HOLD and alone in ARMED, where the tracks and the
divider stop with the state; where it is refused the rule keeps the state. -/
theorem holdAddsRequest : Obligations.HoldAddsRequest := by
  intro tag s hready
  refine ⟨fun harmed => ?_, fun hhold => ?_, fun hstate => ?_⟩
  · obtain ⟨hanswer, hseq, hkept⟩ :=
      request_setSeq tag 0x22#8 hready (by decide) (holdRule_armed (s := heard s) harmed)
    have hheld : _ = SeqState.hold := congrArg Sequencer.state hseq
    exact ⟨_, rfl, hanswer, hseq, trackOutput_of_not_armed (by rw [hheld]; decide), dividerRuns_of_hold hheld, hkept⟩
  · obtain ⟨hanswer, hseq, hkept⟩ :=
      request_setSeq tag 0x22#8 hready (by decide) (holdRule_hold (s := heard s) hhold)
    rw [heard_seq, requestReasons_byte] at hanswer
    rw [heard_seq, withRequest_of_hold hhold] at hseq
    exact ⟨_, rfl, hanswer, hseq, hkept, fun hpresent => hseq.trans (withRequest_of_present hpresent)⟩
  · exact ⟨_, rfl, request_refused tag 0x22#8 hready (by decide) (holdRule_refused (s := heard s) hstate)⟩

end Sys2Proof.Machine
end

section
/-! LINES_ENABLE (R118): what a masked write does to one line, the line set its reply carries, and the loading of the LINES
block, which writes the settings of a line and not its latch. -/

namespace Sys2Proof.Machine

/-! ## Line sets and masked writes -/

@[simp] theorem inSet_lineSetOf (f : Fin 16 → Bool) (n : Fin 16) : inSet (lineSetOf f) n = f n := by
  simp [inSet, lineSetOf]

@[simp] theorem inSet_empty (n : Fin 16) : inSet 0#16 n = false := by simp [inSet]

theorem mapMasked_line (mask : LineSet) (f : Fin 16 → OutLine → OutLine) (s : State) (n : Fin 16) :
    (mapMasked mask f s).outs.lines[n] = if inSet mask n then f n s.outs.lines[n] else s.outs.lines[n] := by
  simp only [mapMasked, State.onOuts_outs, ofFn_get]

/-- An empty mask changes nothing. -/
theorem mapMasked_empty (f : Fin 16 → OutLine → OutLine) (s : State) : mapMasked 0#16 f s = s := by
  have hlines : (mapMasked 0#16 f s).outs.lines = s.outs.lines :=
    Vector.ext fun i hi => by simpa using mapMasked_line 0#16 f s ⟨i, hi⟩
  calc mapMasked 0#16 f s
      = s.onOuts fun o => { o with lines := (mapMasked 0#16 f s).outs.lines } := rfl
    _ = s := by rw [hlines]; rfl

/-! ## The enable latches -/

/-- Each masked line takes its latch from the level set (R118). -/
def enableMasked (mask levels : LineSet) (s : State) : State :=
  mapMasked mask (fun n l => { l with enable := inSet levels n }) s

/-- The enable latches as a line set (R118). -/
def enableLatches (s : State) : LineSet := lineSetOf fun n => s.outs.lines[n].enable

theorem linesEnableRule_eq (m1 m0 l1 l0 : Byte) (s : State) :
    linesEnableRule [m1, m0, l1, l0] s =
      (enableMasked (word16 m1 m0) (word16 l1 l0) s,
        okay (be16 (enableLatches (enableMasked (word16 m1 m0) (word16 l1 l0) s)).toNat)) := rfl

/-- The latch is all that LINES_ENABLE writes of a line. -/
theorem enableMasked_line (mask levels : LineSet) (s : State) (n : Fin 16) :
    (enableMasked mask levels s).outs.lines[n] =
      { s.outs.lines[n] with enable := if inSet mask n then inSet levels n else s.outs.lines[n].enable } := by
  rw [enableMasked, mapMasked_line]
  split <;> rfl

theorem enableMasked_linesAre (mask levels : LineSet) (s : State) :
    LinesAre (fun n => { s.outs.lines[n] with
      enable := if inSet mask n then inSet levels n else s.outs.lines[n].enable }) (enableMasked mask levels s) := by
  intro n
  rw [enableMasked_line]

/-- What keeps the lines but for their mismatch states keeps the latches. -/
theorem enable_of_kept {s t : State} (h : KeptBut [] s t) (n : Fin 16) :
    t.outs.lines[n].enable = s.outs.lines[n].enable := by
  obtain ⟨-, hlines⟩ := h .lines (by simp)
  rw [hlines n]

/-- Loading the LINES block writes the settings of each line (R170) and leaves its latch. -/
theorem loadLines_enable (stored : Vector LineSettings 16) (s : State) (n : Fin 16) :
    (loadLines stored s).1.outs.lines[n].enable = s.outs.lines[n].enable := by
  simp only [loadLines, State.onOuts_outs, ofFn_get]

/-- Settles O33: the rule writes the masked latches of the part that has heard the frame and answers all sixteen; the request
then keeps that state but for the mismatch states, which `LinesAre` leaves open. -/
theorem linesEnableWritesMaskedLatches : Obligations.LinesEnableWritesMaskedLatches := by
  intro tag m1 m0 l1 l0 s hready
  refine ⟨?_, fun stored n => loadLines_enable stored s n⟩
  obtain ⟨hanswer, hsame, hkept⟩ := request_done tag 0x41#8 [m1, m0, l1, l0] (linesEnableRule [m1, m0, l1, l0]) hready
    (by decide) (linesEnableRule_eq m1 m0 l1 l0 (heard s)) (mapMasked_kept _ _ (heard s)) (heard_errors s)
  obtain ⟨harrivals, hlines⟩ := hsame .lines (by simp)
  refine ⟨_, rfl, (enableMasked_linesAre _ _ (heard s)).trans hlines, harrivals, ⟨_, fun n => ?_, hanswer⟩, ?_, hkept⟩
  · rw [enable_of_kept hsame n, enableLatches, inSet_lineSetOf]
  · intro hempty
    rw [hempty, enableMasked, mapMasked_empty] at hsame
    exact (heard_kept s).trans hsame

end Sys2Proof.Machine
end

section
/-! What a command can do, said once: a request reaches its rule through `serve`, every other command has one effect, which `settle`
ends, and an accepted edge may leave its stamp open. -/

namespace Sys2Proof.Machine

/-- The rule that a request reaches with its body.  A command that is no request has none: `badLength` stands in its place. -/
def requestRule : Instr → State → State × Reply
  | .axisSetup _ body => axisSetupRule body
  | .axisRun _ body => noBody (setRunning true) body
  | .axisHalt _ body => noBody (setRunning false) body
  | .axisZero _ body => noBody axisZeroRule body
  | .axisHome _ body => axisHomeRule body
  | .modulusStage _ body => modulusStageRule body
  | .axisRead _ body => noBody (fun s => (s, okay (axisReadData s.axis))) body
  | .cuePut _ body => cuePutRule body
  | .groupPut _ body => groupPutRule body
  | .cueCancel _ body => oneByte cueCancelRule body
  | .groupCancel _ body => oneByte groupCancelRule body
  | .cueRead _ body => oneByte (fun b s => (s, okay (cueReadData s.cues b.toFin))) body
  | .listRead _ body => oneByte (fun b s => (s, okay (listReadData s.cues b.toNat))) body
  | .marksSet _ body => marksSetRule body
  | .arm _ body => noBody armRule body
  | .disarm _ body => noBody disarmRule body
  | .hold _ body => noBody holdRule body
  | .release _ body => noBody releaseRule body
  | .seqRead _ body => noBody (fun s => (s, okay (seqReadData s))) body
  | .outcomesRead _ body => oneByte outcomesReadRule body
  | .captureSetup _ body => captureSetupRule body
  | .capturesRead _ body => oneByte capturesReadRule body
  | .camLoad _ body => camLoadRule body
  | .camRead _ body => oneByte camReadRule body
  | .lineSetup _ body => lineSetupRule body
  | .linesEnable _ body => linesEnableRule body
  | .linesSet _ body => linesSetRule body
  | .linesRead _ body => noBody (fun s => (s, okay (linesReadData s))) body
  | .inputSetup _ body => inputSetupRule body
  | .limitsSet _ body => limitsSetRule body
  | .faultRead _ body => noBody (fun s => (s, okay (faultReadData s))) body
  | .resume _ body => resumeRule body
  | .eventEnable _ body => eventEnableRule body
  | .eventRead _ body => noBody (fun s => (s, okay (eventReadData s))) body
  | .eventClear _ body => eventClearRule body
  | .noticeOrder _ body => noticeOrderRule body
  | .storeSave _ body => storeSaveRule body
  | .storeErase _ body => oneByte storeEraseRule body
  | .storeRead _ body => noBody storeReadRule body
  | .restart _ body => noBody restartRule body
  | .unknownKindRequest _ _ _ => fun s => (s, refuse .unknownKind)
  | _ => badLength

/-- What a command that is no request makes of a running part, before the end of the command, with the condition it needs. -/
inductive Effect : Instr → State → State → Prop
  | received (b : Byte) (h : Bool) (s : State) : Effect (.receiveCharacter b h) s (receive b h s)
  | gapped (s : State) : Effect .gapTimerExpiry s (dropFrame s)
  | sent (s : State) : Effect .frameSent s (s.onLink fun l => { l with tx := none })
  | restarted (s : State) : Effect .restartBegin s (startPart s.link.rate false s)
  | stored (s : State) : Effect .storeOperationEnd s (endOperation s)
  | rawTaken (n : Fin 8) (high : Bool) (s : State) : Effect (.inputRawChange n high) s (takeRawChange n high s)
  | counted (s : State) : Effect .timebaseCount s (countForward (s.onAxis fun a => { a with timebaseTaken := true }))
  | sampled (s : State) : Effect .speedSample s (recomputeCams (s.onAxis fun a =>
      { a with speed := a.netCount, netCount := 0, nextSample := after a.nextSample Config.sampleTime }))
  | leadArrived (a : Arrival) (rest : List Arrival) (s : State) (hs : s.cues.arrivals = a :: rest) :
      Effect .leadArrival s (takeLeadArrival (s.onCues fun c => { c with arrivals := rest }) a)
  | windowArrived (k : Key) (rest : List Key) (s : State) (hs : s.capture.arrivals = k :: rest) :
      Effect .windowArrival s (takeWindowArrival (s.onCapture fun c => { c with arrivals := rest }) k)
  | trailArrived (k : Key) (rest : List Key) (s : State) (hs : s.outs.arrivals = k :: rest) :
      Effect .trailArrival s (takeTrailArrival (s.onOuts fun o => { o with arrivals := rest }) k)
  | trailExpired (n : Fin 16) (s : State) :
      Effect (.trailExpiry n) s (s.onOuts fun o => { o with lines := updAt o.lines n endTrail })
  | swapped (n : Nat) (s : State) : Effect .profileSwap s (takeBoundary (s.onCams fun c => { c with boundaries := n }))
  | mismatched (n : Fin 16) (s : State) : Effect (.mismatchTimeout n) s
      (report (plainReport (.lineMismatch n) true)
        (s.onOuts fun o => { o with lines := updAt o.lines n fun l => { l with mismatch := .present } }))
  | silenced (s : State) : Effect .silenceExpiry s (s.onLink fun l => { l with silenceExpired := true })
  | began (cond : Condition) (r : Report) (s : State) (hr : nextReport s cond = some r) :
      Effect (.conditionBegin cond) s (takeBeginning r (dropReport cond s))
  | ended (cond : Condition) (s : State) : Effect (.conditionEnd cond) s (takeEnding cond s)

/-- What the pins and straps make of a part that may be held in reset, before the end of the command. -/
inductive PinEffect : Instr → State → State → Prop
  | fullReset (s : State) : PinEffect .fullReset s (resetBlocks .held s.link.rate (blocksAtReset s.store) s)
  | startedUp (cfg0 cfg1 cfg2 : Bool) (s : State) :
      PinEffect (.startUp cfg0 cfg1 cfg2) s (startPart (strapRate cfg1 cfg0) cfg2 s)
  | rawChanged (n : Fin 8) (high : Bool) (s : State) (hs : s.phase = .held) :
      PinEffect (.inputRawChange n high) s (s.onIns fun v => updAt v n fun i => { i with raw := high })
  | sampled (n : Fin 16) (high : Bool) (s : State) : PinEffect (.pinSampleChange n high) s
      (s.onOuts fun o => { o with lines := updAt o.lines n fun l => { l with sampled := high } })
  | supplied (mv : BitVec 16) (s : State) :
      PinEffect (.supplyCrossing mv) s (s.onSupply fun p => { p with millivolts := mv.toNat })

/-- What a command can leave of a state: the state itself, the state that has served a request, the settled effect of a command
that is no request, or the state after an accepted edge, whose stamp may stay open. -/
inductive Takes (c : Instr) (s : State) : State → Prop
  | nothing : Takes c s s
  | request {f : Frame} (hf : c.frame = some f) : Takes c s (serve f (requestRule c) s)
  | effect {u : State} (hs : s.phase = .running) (hu : Effect c s u) : Takes c s (settle u)
  | pins {u : State} (hu : PinEffect c s u) : Takes c s (settle u)
  | edge {n : Fin 8} (hc : c = .inputEdgeAccepted n) (hs : s.phase = .running) (hd : inputDue s n = true) :
      Takes c s (leaveOpen n s (settle (acceptInput n s)))

theorem event_takes {c : Instr} {enabled : Bool} {effect : State → State} {s u : State} (h : Effect c s u)
    (hu : effect s = u := by rfl) : ∃ t, event enabled effect s = .next t ∧ Takes c s t := by
  subst hu
  unfold event
  split
  · rename_i hs
    exact ⟨_, rfl, .effect hs.1 h⟩
  · exact ⟨_, rfl, .nothing⟩

/-- A request command serves its frame with its rule; one of unknown kind whose kind is known does nothing. -/
theorem exec_request {c : Instr} {f : Frame} (hf : c.frame = some f) (s : State) :
    exec c s = .next (serve f (requestRule c) s) ∨ c.wf = false ∧ exec c s = .next s := by
  cases c <;> cases hf
  case unknownKindRequest tag kind body =>
    simp only [exec, execUnknownKindRequest, Instr.wf]
    cases h : knownKinds.contains kind
    · exact .inl rfl
    · exact .inr ⟨by simp, rfl⟩
  all_goals exact .inl rfl

/-- A well-formed request command serves its frame with its rule. -/
theorem exec_request_wf {c : Instr} {f : Frame} (hw : c.wf = true) (hf : c.frame = some f) (s : State) :
    exec c s = .next (serve f (requestRule c) s) := by
  obtain h | ⟨h, -⟩ := exec_request hf s
  · exact h
  · rw [hw] at h
    cases h

/-- Every command goes on, and what it leaves is one of the five. -/
theorem exec_takes (c : Instr) (s : State) : ∃ t, exec c s = .next t ∧ Takes c s t := by
  cases hf : c.frame with
  | some f =>
    obtain h | ⟨-, h⟩ := exec_request hf s
    · exact ⟨_, h, .request hf⟩
    · exact ⟨_, h, .nothing⟩
  | none =>
    cases c
    case receiveCharacter b h => exact event_takes (.received b h s)
    case gapTimerExpiry => exact event_takes (.gapped s)
    case frameSent => exact event_takes (.sent s)
    case restartBegin => exact event_takes (.restarted s)
    case fullReset =>
      have hheld : (resetBlocks .held s.link.rate (blocksAtReset s.store) s).phase = .held := rfl
      exact ⟨_, rfl, settle_held hheld ▸ .pins (.fullReset s)⟩
    case startUp cfg0 cfg1 cfg2 =>
      simp only [exec, execStartUp]
      cases s.phase
      · exact ⟨_, rfl, .pins (.startedUp cfg0 cfg1 cfg2 s)⟩
      · exact ⟨_, rfl, .nothing⟩
    case storeOperationEnd => exact event_takes (.stored s)
    case inputRawChange n high =>
      simp only [exec, execInputRawChange]
      cases hs : s.phase
      · have hheld : (s.onIns fun v => updAt v n fun i => { i with raw := high }).phase = .held := hs
        exact ⟨_, rfl, settle_held hheld ▸ .pins (.rawChanged n high s hs)⟩
      · exact ⟨_, rfl, .effect hs (.rawTaken n high s)⟩
    case inputEdgeAccepted n =>
      simp only [exec, execInputEdgeAccepted]
      split
      · rename_i h
        exact ⟨_, rfl, .edge rfl h.1 h.2⟩
      · exact ⟨_, rfl, .nothing⟩
    case timebaseCount => exact event_takes (.counted s)
    case speedSample => exact event_takes (.sampled s)
    case leadArrival =>
      simp only [exec, execLeadArrival]
      split
      · exact ⟨_, rfl, .nothing⟩
      · rename_i a rest h
        exact event_takes (.leadArrived a rest s h)
    case windowArrival =>
      simp only [exec, execWindowArrival]
      split
      · exact ⟨_, rfl, .nothing⟩
      · rename_i k rest h
        exact event_takes (.windowArrived k rest s h)
    case trailArrival =>
      simp only [exec, execTrailArrival]
      split
      · exact ⟨_, rfl, .nothing⟩
      · rename_i k rest h
        exact event_takes (.trailArrived k rest s h)
    case trailExpiry n => exact event_takes (.trailExpired n s)
    case profileSwap =>
      simp only [exec, execProfileSwap]
      split
      · exact ⟨_, rfl, .nothing⟩
      · exact event_takes (.swapped _ s)
    case pinSampleChange n high => exact ⟨_, rfl, .pins (.sampled n high s)⟩
    case mismatchTimeout n => exact event_takes (.mismatched n s)
    case supplyCrossing mv => exact ⟨_, rfl, .pins (.supplied mv s)⟩
    case silenceExpiry => exact event_takes (.silenced s)
    case conditionBegin cond =>
      simp only [exec, execConditionBegin]
      split
      · rename_i r h
        exact event_takes (.began cond r s h)
      · exact ⟨_, rfl, .nothing⟩
    case conditionEnd cond =>
      simp only [exec, execConditionEnd]
      split
      · exact event_takes (.ended cond s)
      · exact ⟨_, rfl, .nothing⟩
    all_goals cases hf

theorem takes_of_exec {c : Instr} {s t : State} (h : exec c s = .next t) : Takes c s t := by
  obtain ⟨u, hu, htakes⟩ := exec_takes c s
  cases h.symm.trans hu
  exact htakes

end Sys2Proof.Machine
end

section
/-! Every command as a chain of guarded writes.  `Write` lists what a rule of a block can write and what guards it, `Change` adds
the link's queues; each shared operation is shown once to be a chain of them, so that a property which every write
keeps is kept by every command. -/

namespace Sys2Proof.Machine

/-! ## The writes -/

/-- What the Line Unit can make of one line while the Sequencer is in a state (R110, R113, R115, R117, R119, R170). -/
inductive LineWrite (q : SeqState) (l : OutLine) : OutLine → Prop
  | level {m : OutLine} (hcfg : m.cfg = l.cfg) (hdirect : m.direct = l.direct) (hcue : m.cue = l.cue)
      (htrail : m.trail = l.trail) : LineWrite q l m
  | ended : LineWrite q l (endTrail l)
  | acted {m : OutLine} (howner : l.cfg.owner = .cue) (hq : q ≠ .safe) (hcfg : m.cfg = l.cfg)
      (hdirect : m.direct = l.direct) : LineWrite q l m
  | driven (level : Bool) (howner : l.cfg.owner = .direct) : LineWrite q l { l with direct := level }
  | setup (cfg : LineSettings) : LineWrite q l (setupLine cfg l)
  | loaded (cfg : LineSettings) (hdirect : l.direct = false) (hcue : l.cue = false) (htrail : l.trail = none) :
      LineWrite q l { l with cfg := cfg }

/-- The slot and the position of a listed cue: what its firings keep (R61). -/
def place (x : Listed) : Fin 256 × Nat := (x.cue.slot, x.key.pos)

/-- The bounds of the active and the staged profile of a track (R10). -/
def trackBounds (t : Track) : List Nat :=
  profileBounds (slotProfile t t.active) ++ if t.staged then profileBounds (slotProfile t (otherSlot t.active)) else []

/-- A queue has lost groups or cues, and what is left stands in the order it had (R38, R86, R87). -/
def Thinned (old new : List Group) : Prop :=
  (new.map (·.number)).Sublist (old.map (·.number)) ∧ (new.flatMap (·.cues)).Sublist (old.flatMap (·.cues))

/-- A point stays below the modulus in force when the points and the home position of the axis lie below it (R6). -/
def PointFits (a : Axis) (k : Key) : Prop :=
  a.current.pos < a.cfg.modulus → a.lead.pos < a.cfg.modulus → a.cfg.home < a.cfg.modulus → k.pos < a.cfg.modulus

/-- Nothing is bound to the modulus but the home position, and both points are at position 0: a part at its reset values. -/
def Unbound (s : State) : Prop :=
  s.axis.current.pos = 0 ∧ s.axis.lead.pos = 0 ∧ s.axis.staged = none ∧ s.cues.list = [] ∧
    (∀ n : Fin 8, trackBounds s.cams.tracks[n] = []) ∧ ∀ ch : Fin 4, gatePositions s.capture.channels[ch].cfg.gate = []

/-- One guarded write of a block's rule. -/
inductive Write : State → State → Prop
  | clock (s : State) (stamp : Stamp) (freeIndex : Nat) (checkpoint : Option Checkpoint) :
      Write s { s with stamp := stamp, freeIndex := freeIndex, checkpoint := checkpoint }
  | events (s : State) (f : EventUnit → EventUnit) : Write s (s.onEvents f)
  | inputs (s : State) (f : Vector InLine 8 → Vector InLine 8) : Write s (s.onIns f)
  | supply (s : State) (f : Supply → Supply) : Write s (s.onSupply f)
  | faults (s : State) (f : FaultMonitor → FaultMonitor) (hflt : (f s.faults).flt = s.faults.flt) : Write s (s.onFaults f)
  | link (s : State) (f : Link → Link) (hinbound : (f s.link).inbound = s.link.inbound)
      (hreplies : (f s.link).replies = s.link.replies) (herrors : (f s.link).errors = s.link.errors) : Write s (s.onLink f)
  | points (s : State) (f : Axis → Axis) (hcfg : (f s.axis).cfg = s.axis.cfg) (hstaged : (f s.axis).staged = s.axis.staged)
      (hcurrent : PointFits s.axis (f s.axis).current) (hlead : PointFits s.axis (f s.axis).lead) : Write s (s.onAxis f)
  | cross (s : State) (hcurrent : s.axis.current.pos = 0) (hlead : s.axis.lead.pos = 0) : Write s (s.onAxis fun a =>
      { a with cfg := { a.cfg with modulus := a.staged.getD a.cfg.modulus }, staged := none })
  | setup (s : State) (f : Axis → Axis) (source : AxisSource) (k m : Nat)
      (hcfg : (f s.axis).cfg = { s.axis.cfg with source := source, k := k, modulus := m }) (hstaged : (f s.axis).staged = none)
      (hcurrent : (f s.axis).current = s.axis.current) (hlead : (f s.axis).lead = s.axis.lead) (hk : k ≤ 12)
      (hm : modulusInRange m = true) (hbound : ∀ b ∈ boundSet s, b < m) (hcpos : s.axis.current.pos < m)
      (hlpos : s.axis.lead.pos < m) : Write s (s.onAxis f)
  | home (s : State) (p : Nat) (homing : Bool) (hp : belowModuli s.axis p = true) :
      Write s (s.onAxis fun a => { a with cfg := { a.cfg with home := p }, homing := homing })
  | stage (s : State) (m : Nat) (hm : modulusInRange m = true) (hfree : modulusConflicts m s = false) :
      Write s (s.onAxis fun a => { a with staged := some m })
  | loadAxis (s : State) (c : AxisSettings) (hc : s.store.blocks.axis = .valid c) (hs : Unbound s) :
      Write s (s.onAxis fun a => { a with cfg := c })
  | store (s : State) (f : SettingStore → SettingStore)
      (hblock : ∀ c, (f s.store).blocks.axis = .valid c →
        s.store.blocks.axis = .valid c ∨ ∃ o, s.store.op = some o ∧ o.work = .writing (.axis c))
      (hop : ∀ o c, (f s.store).op = some o → o.work = .writing (.axis c) → s.store.op = some o ∨ c = s.axis.cfg) :
      Write s (s.onStore f)
  | log (s : State) (l : List OutcomeRecord) (hl : l.length ≤ max s.seq.log.length Config.outcomeRoom) :
      Write s (s.onSeq fun q => { q with log := l })
  | freeze (s : State) (level : Bool) : Write s (s.onSeq fun q => { q with freeze := level })
  | state (s : State) (q : SeqState) (request pin : Bool) (hs : s.seq.state ≠ .safe) (hq : q ≠ .safe)
      (hr : q = .hold ↔ (request || pin) = true) : Write s (setSeq q request pin s)
  | resume (s : State) : Write s ((setSeq .idle false false s).onFaults fun f => { f with flt := false })
  | safe (s : State) : Write s (((setSeq .safe false false s).onOuts fun o => { o with lines := o.lines.map endTrail }).onFaults
      fun f => { f with flt := true })
  | outs (s : State) (f : OutputLines → OutputLines)
      (hf : ∀ n : Fin 16, LineWrite s.seq.state s.outs.lines[n] (f s.outs).lines[n]) : Write s (s.onOuts f)
  | capture (s : State) (f : CaptureUnit → CaptureUnit)
      (hlog : ∀ ch : Fin 4, (f s.capture).channels[ch].log.length ≤ max s.capture.channels[ch].log.length Config.captureRoom)
      (hgate : ∀ ch : Fin 4, ∀ p ∈ gatePositions (f s.capture).channels[ch].cfg.gate,
        p ∈ gatePositions s.capture.channels[ch].cfg.gate ∨ belowModuli s.axis p = true) : Write s (s.onCapture f)
  | cams (s : State) (f : CamUnit → CamUnit)
      (hf : ∀ n : Fin 8, ∀ b ∈ trackBounds (f s.cams).tracks[n],
        b ∈ trackBounds s.cams.tracks[n] ∨ belowModuli s.axis b = true) : Write s (s.onCams f)
  | cueTable (s : State) (f : CueTable → CueTable) (hlist : (f s.cues).list = s.cues.list)
      (hqueues : (f s.cues).queues = s.cues.queues) : Write s (s.onCues f)
  | list (s : State) (l : List Listed) (hl : (l.map place).Subperm (s.cues.list.map place)) :
      Write s (s.onCues fun c => { c with list := l })
  | enter (s : State) (x : Listed) (hfree : slotFree s.cues x.cue.slot = true) (hpos : belowModuli s.axis x.key.pos = true) :
      Write s (enterCue x s)
  | put (s : State) (g : Group) (ch : Fin 4) (hnumber : ∀ h ∈ queuedGroups s.cues, h.number ≠ g.number)
      (hroom : s.cues.queues[ch].length < Config.queueRoom) (hfree : ∀ c ∈ g.cues, slotFree s.cues c.slot = true)
      (hslots : (g.cues.map (·.slot)).Nodup) (hstaged : s.axis.staged = none) :
      Write s (s.onCues fun c => { c with queues := updAt c.queues ch (· ++ [g]) })
  | thin (s : State) (f : Vector (List Group) 4 → Vector (List Group) 4)
      (hf : ∀ ch : Fin 4, Thinned s.cues.queues[ch] (f s.cues.queues)[ch]) :
      Write s (s.onCues fun c => { c with queues := f c.queues })
  | resolve (s : State) (ch : Fin 4) (g : Group) (gs : List Group) (entered l : List Listed)
      (hq : s.cues.queues[ch] = g :: gs) (hcues : (entered.map (·.cue)).Sublist g.cues)
      (hpos : ∀ x ∈ entered, 0 < s.axis.cfg.modulus → x.key.pos < s.axis.cfg.modulus)
      (hl : l.Perm (entered ++ s.cues.list)) :
      Write s (s.onCues fun c => { c with list := l, queues := updAt c.queues ch List.tail })

/-- A chain of writes. -/
abbrev Writes : State → State → Prop := Relation.ReflTransGen Write

/-- A write of a block, or a write of the link's queues and error count. -/
inductive Change : State → State → Prop
  | write {s t : State} (h : Write s t) : Change s t
  | link (s : State) (f : Link → Link) (hinbound : (f s.link).inbound.length ≤ max s.link.inbound.length Config.inboundRoom)
      (hreplies : (f s.link).replies.length ≤ max s.link.replies.length Config.replyRoom)
      (herrors : (f s.link).errors ≤ max s.link.errors 65535) : Change s (s.onLink f)

/-- A chain of changes. -/
abbrev Changes : State → State → Prop := Relation.ReflTransGen Change

theorem Write.chain {s t : State} (h : Write s t) : Writes s t := .single h

theorem Writes.changes {s t : State} (h : Writes s t) : Changes s t := h.lift id fun _ _ => .write

theorem Write.changes {s t : State} (h : Write s t) : Changes s t := h.chain.changes

/-- The last operation first, which fixes the state between the two. -/
theorem Writes.after {s t u : State} (h' : Writes t u) (h : Writes s t) : Writes s u := h.trans h'

theorem Writes.foldl {α : Type} (f : State → α → State) (h : ∀ s x, Writes s (f s x)) (l : List α) (s : State) :
    Writes s (l.foldl f s) := by
  induction l generalizing s with
  | nil => exact .refl
  | cons x l ih => exact (h s x).trans (ih _)

theorem Writes.repeated (f : State → State) (h : ∀ s, Writes s (f s)) (n : Nat) (s : State) :
    Writes s (Nat.repeat f n s) := by
  induction n with
  | zero => exact .refl
  | succ n ih => exact ih.trans (h _)

theorem Writes.ite {c : Prop} [Decidable c] {s t u : State} (ht : Writes s t) (hu : Writes s u) :
    Writes s (if c then t else u) := by
  split
  · exact ht
  · exact hu

/-- A write of the axis that leaves its settings and points. -/
theorem Writes.axisFlags {s : State} {f : Axis → Axis} (hcfg : (f s.axis).cfg = s.axis.cfg := by rfl)
    (hstaged : (f s.axis).staged = s.axis.staged := by rfl) (hcurrent : (f s.axis).current = s.axis.current := by rfl)
    (hlead : (f s.axis).lead = s.axis.lead := by rfl) : Writes s (s.onAxis f) :=
  (Write.points s f hcfg hstaged (by rw [hcurrent]; exact fun h _ _ => h) (by rw [hlead]; exact fun _ h _ => h)).chain

/-- A write of the lines that leaves every setting, direct level, cue level and trail. -/
theorem Writes.levels {s : State} {f : OutputLines → OutputLines}
    (h : ∀ n : Fin 16, (f s.outs).lines[n].cfg = s.outs.lines[n].cfg ∧ (f s.outs).lines[n].direct = s.outs.lines[n].direct ∧
      (f s.outs).lines[n].cue = s.outs.lines[n].cue ∧ (f s.outs).lines[n].trail = s.outs.lines[n].trail) :
    Writes s (s.onOuts f) :=
  (Write.outs s f fun n => .level (h n).1 (h n).2.1 (h n).2.2.1 (h n).2.2.2).chain

/-- A write of the Capture Unit that leaves the settings and logs of every channel. -/
theorem Writes.channels {s : State} {f : CaptureUnit → CaptureUnit}
    (h : ∀ ch : Fin 4, (f s.capture).channels[ch].cfg = s.capture.channels[ch].cfg ∧
      (f s.capture).channels[ch].log.length ≤ s.capture.channels[ch].log.length) : Writes s (s.onCapture f) :=
  (Write.capture s f (fun ch => (h ch).2.trans (le_max_left _ _)) fun ch p hp => .inl (by rwa [(h ch).1] at hp)).chain

/-! ## The end of a command -/

theorem raise_writes (x : EventSource) (s : State) : Writes s (raise x s) := (Write.events s _).chain

theorem report_writes (r : Report) (s : State) : Writes s (report r s) := (Write.faults s _ rfl).chain

theorem judgeLines_writes (s : State) : Writes s (judgeLines s) := by
  have hlines : Writes s (s.onOuts fun o => { o with lines := o.lines.map fun l => { l with mismatch := judgedMismatch s l } }) :=
    Writes.levels fun n => by simp only [map_get, and_self]
  exact hlines.trans (Write.faults _ (fun f => { f with inbox := f.inbox ++ _ }) rfl).chain

theorem judgeOverspeed_writes (s : State) : Writes s (judgeOverspeed s) := by
  unfold judgeOverspeed
  exact Writes.ite .refl ((Writes.axisFlags).trans (report_writes _ _))

theorem judgeReverse_writes (s : State) : Writes s (judgeReverse s) := by
  unfold judgeReverse
  exact Writes.ite .refl ((Writes.axisFlags).trans (report_writes _ _))

theorem judgeSilence_writes (s : State) : Writes s (judgeSilence s) :=
  Writes.ite ((Write.link s _ rfl rfl rfl).chain.trans (report_writes _ _)) .refl

theorem judgeSupply_writes (s : State) : Writes s (judgeSupply s) := by
  rw [judgeSupply_eq]
  exact Writes.ite .refl ((Write.supply s _).chain.trans (report_writes _ _))

/-- A write of the link that takes nothing into its queues and raises no error. -/
theorem Changes.linkShrinks {s : State} {f : Link → Link} (hinbound : (f s.link).inbound.length ≤ s.link.inbound.length)
    (hreplies : (f s.link).replies.length ≤ s.link.replies.length) (herrors : (f s.link).errors = s.link.errors) :
    Changes s (s.onLink f) :=
  .single (.link s f (hinbound.trans (le_max_left _ _)) (hreplies.trans (le_max_left _ _)) (herrors.le.trans (le_max_left _ _)))

theorem chooseFrame_changes (s : State) : Changes s (chooseFrame s) := by
  unfold chooseFrame
  split
  · exact .refl
  · split
    · rename_i f rest hr
      refine (Changes.linkShrinks le_rfl ?_ rfl).trans (Write.link _ _ rfl rfl rfl).changes
      simp [hr]
    · split
      · exact .refl
      · split
        · exact (Write.events s _).changes.trans (Write.link _ _ rfl rfl rfl).changes
        · exact .refl

theorem settle_changes (s : State) : Changes s (settle s) := by
  unfold settle
  split
  · exact .refl
  · have hjudged := (judgeLines_writes s).trans <| (judgeOverspeed_writes _).trans <| (judgeReverse_writes _).trans <|
      (judgeSilence_writes _).trans (judgeSupply_writes _)
    exact (Writes.changes hjudged).trans <| (chooseFrame_changes _).trans (Write.clock _ _ _ none).changes

/-! ## Firing (R59 to R65) -/

/-- The run of a firing, a catch-up or an expiry from one state to another: it touches the list, the outcome log, the lines and the
events; each cue it leaves listed has the slot and the position of a cue that was listed; the log stays in its room; and it acts
on lines that CUE owns, outside SAFE. -/
structure Fires (s t : State) : Prop where
  frame : t = { s with
    cues := { s.cues with list := t.cues.list }, seq := { s.seq with log := t.seq.log }
    outs := { s.outs with lines := t.outs.lines }, events := t.events }
  places : (t.cues.list.map place).Subperm (s.cues.list.map place)
  log : t.seq.log.length ≤ max s.seq.log.length Config.outcomeRoom
  lines : ∀ n : Fin 16, t.outs.lines[n] = s.outs.lines[n] ∨
    s.outs.lines[n].cfg.owner = .cue ∧ s.seq.state ≠ .safe ∧ t.outs.lines[n].cfg = s.outs.lines[n].cfg ∧
      t.outs.lines[n].direct = s.outs.lines[n].direct

namespace Fires

theorem refl (s : State) : Fires s s := ⟨rfl, .refl _, le_max_left _ _, fun _ => .inl rfl⟩

theorem cues {s t : State} (h : Fires s t) : t.cues = { s.cues with list := t.cues.list } := congrArg State.cues h.frame

theorem seq {s t : State} (h : Fires s t) : t.seq = { s.seq with log := t.seq.log } := congrArg State.seq h.frame

theorem trans {s t u : State} (h : Fires s t) (h' : Fires t u) : Fires s u := by
  refine ⟨?_, h'.places.trans h.places, ?_, fun n => ?_⟩
  · rw [h'.frame, h.frame]
  · exact h'.log.trans (max_le h.log (le_max_right _ _))
  · have hstate : t.seq.state = s.seq.state := congrArg (·.seq.state) h.frame
    rcases h.lines n with e | ⟨howner, hq, hcfg, hdirect⟩ <;> rcases h'.lines n with e' | ⟨howner', hq', hcfg', hdirect'⟩
    · exact .inl (e'.trans e)
    · rw [e] at howner' hcfg' hdirect'
      exact .inr ⟨howner', hstate ▸ hq', hcfg', hdirect'⟩
    · exact .inr ⟨howner, hq, by rw [e', hcfg], by rw [e', hdirect]⟩
    · exact .inr ⟨howner, hq, hcfg'.trans hcfg, hdirect'.trans hdirect⟩

theorem ite {c : Prop} [Decidable c] {s t u : State} (ht : Fires s t) (hu : Fires s u) : Fires s (if c then t else u) := by
  split
  · exact ht
  · exact hu

theorem writes {s t : State} (h : Fires s t) : Writes s t := by
  have hlist := (Write.list s t.cues.list h.places).chain
  have hlog := (Write.log (s.onCues fun c => { c with list := t.cues.list }) t.seq.log h.log).chain
  have hlines := (Write.outs ((s.onCues fun c => { c with list := t.cues.list }).onSeq fun q => { q with log := t.seq.log })
    (fun o => { o with lines := t.outs.lines }) fun n => by
      rcases h.lines n with e | ⟨howner, hq, hcfg, hdirect⟩
      · exact .level (congrArg _ e) (congrArg _ e) (congrArg _ e) (congrArg _ e)
      · exact .acted howner hq hcfg hdirect).chain
  have hall := (hlist.trans hlog).trans (hlines.trans (Write.events _ fun _ => t.events).chain)
  rw [h.frame]
  exact hall

end Fires

theorem raise_fires (x : EventSource) (s : State) : Fires s (raise x s) :=
  ⟨rfl, .refl _, le_max_left _ _, fun _ => .inl rfl⟩

theorem writeOutcome_fires (r : OutcomeRecord) (s : State) : Fires s (writeOutcome r s) := by
  unfold writeOutcome
  split
  · rename_i hroom
    exact ⟨rfl, .refl _, by simp; omega, fun _ => .inl rfl⟩
  · exact raise_fires _ _

theorem writeSkipped_fires (l : Key) (c : Cue) (k : Key) (m : Option Remaining) (n : Option Nat) (s : State) :
    Fires s (writeSkipped l c k m n s) := (writeOutcome_fires _ _).trans (raise_fires _ _)

theorem expire_fires (l : Key) (s : State) (x : Listed) : Fires s (expire l s x) :=
  (writeOutcome_fires _ _).trans (raise_fires _ _)

theorem appliedLines_owned {s : State} {ls : LineSet} {n : Fin 16} (h : inSet (appliedLines s ls) n = true) :
    s.outs.lines[n].cfg.owner = .cue ∧ s.seq.state ≠ .safe := by
  unfold appliedLines at h
  split at h
  · simp [inSet] at h
  · rename_i hq
    have hboth : inSet ls n = true ∧ inSet (cueOwned s) n = true := by
      simpa only [inSet, BitVec.getLsbD_and, Bool.and_eq_true] using h
    rw [cueOwned, inSet_lineSetOf, decide_eq_true_iff] at hboth
    exact ⟨hboth.2, hq⟩

theorem actOn_direct (a : Action) (t : Option Trail) (l : OutLine) : (actOn a t l).direct = l.direct := by cases a <;> rfl

theorem applyAction_line (c : Cue) (k : Key) (s : State) (n : Fin 16) : (applyAction c k s).outs.lines[n] =
    if inSet (appliedLines s c.lines) n then
      actOn c.action (c.width.map (pulseTrail s.axis.cfg.modulus s.stamp k)) s.outs.lines[n]
    else s.outs.lines[n] := by
  simp only [applyAction, State.onOuts_outs, mapIdx_get]
  rfl

theorem applyAction_fires (c : Cue) (k : Key) (s : State) : Fires s (applyAction c k s) := by
  refine ⟨rfl, .refl _, le_max_left _ _, fun n => ?_⟩
  rw [applyAction_line]
  split
  · rename_i hn
    obtain ⟨howner, hq⟩ := appliedLines_owned hn
    exact .inr ⟨howner, hq, actOn_cfg _ _ _, actOn_direct _ _ _⟩
  · exact .inl rfl

/-- Cues leave the list. -/
theorem filtered_fires (p : Listed → Bool) (s : State) : Fires s (s.onCues fun c => { c with list := c.list.filter p }) :=
  ⟨rfl, (List.filter_sublist.map place).subperm, le_max_left _ _, fun _ => .inl rfl⟩

theorem leaveList_fires (slot : Fin 256) (s : State) : Fires s (leaveList slot s) := filtered_fires _ s

theorem insertCue_perm (lead : Key) (x : Listed) (l : List Listed) : (insertCue lead x l).Perm (x :: l) := by
  induction l with
  | nil => exact .refl _
  | cons y ys ih =>
    unfold insertCue
    split
    · exact .refl _
    · exact (ih.cons y).trans (.swap x y ys)

/-- A cue that leaves the list and enters it again with its slot and position keeps the places of a list that has its own. -/
theorem place_reentered {l m : List Listed} {x : Listed} (hl : (l.map place).Subperm (m.map place))
    (hx : place x ∈ m.map place) :
    ((x :: l.filter fun y => decide (y.cue.slot ≠ x.cue.slot)).map place).Subperm (m.map place) := by
  have hout : ((l.filter fun y => decide (y.cue.slot ≠ x.cue.slot)).map place) =
      (l.map place).filter fun p => decide (p.1 ≠ x.cue.slot) := by
    rw [List.filter_map]; rfl
  have hfew : ((l.map place).filter fun p => decide (p.1 ≠ x.cue.slot)).Subperm
      ((m.map place).filter fun p => decide (p.1 ≠ x.cue.slot)) := hl.filter _
  have hin : place x ∈ (m.map place).filter fun p => !decide (p.1 ≠ x.cue.slot) := by
    simp only [List.mem_filter, hx, true_and]
    simp [place]
  rw [List.map_cons, hout]
  refine List.Subperm.trans ?_ (List.filter_append_perm (fun p => decide (p.1 ≠ x.cue.slot)) (m.map place)).subperm
  refine List.Subperm.trans ?_ List.perm_append_comm.subperm
  exact (List.singleton_subperm_iff.2 hin).append hfew

/-- A listed cue handed back at its position keeps the places of the list the run began with (R61). -/
theorem handBack_fires {s t : State} (h : Fires s t) {x : Listed} (hx : x ∈ s.cues.list) (r : Repetition) {key : Key}
    (hkey : key.pos = x.key.pos) (n : Remaining) : Fires s (handBack x r key n t) := by
  have henter : ∀ c : Cue, c.slot = x.cue.slot → Fires s (enterCue ⟨c, key⟩ (leaveList x.cue.slot t)) := by
    intro c hc
    have hplace : place ⟨c, key⟩ = place x := by rw [place, place, hc, hkey]
    have hgo : Fires s (leaveList x.cue.slot t) := h.trans (leaveList_fires _ _)
    refine ⟨?_, ?_, h.log, h.lines⟩
    · have hframe := hgo.frame
      simp only [enterCue, State.onCues] at hframe ⊢
      rw [hframe]
    · refine ((insertCue_perm _ _ _).map place).subperm.trans ?_
      have hback := place_reentered h.places (List.mem_map_of_mem hx)
      rw [List.map_cons] at hback ⊢
      rw [hplace]
      exact hback
  unfold handBack
  dsimp only
  split
  · exact h.trans (leaveList_fires _ _)
  all_goals exact henter _ rfl

theorem skipReached_pos (lead : Key) (period fuel : Nat) (key : Key) (t : Remaining) (n : Nat) :
    (skipReached lead period fuel key t n).1.pos = key.pos := by
  induction fuel generalizing key t n with
  | zero => rfl
  | succ fuel ih =>
    unfold skipReached
    split
    · split
      · rfl
      · exact ih _ _ _
      · exact ih _ _ _
    · rfl

theorem repeatRule_fires {s t : State} (h : Fires s t) {x : Listed} (hx : x ∈ s.cues.list) (l : Key) (r : Repetition) :
    Fires s (repeatRule l x r t) := by
  unfold repeatRule
  exact handBack_fires (Fires.ite h (h.trans (writeSkipped_fires _ _ _ _ _ _))) hx r
    (skipReached_pos _ _ _ (cyclesAfter x.key r.period) _ _) _

theorem fireOne_fires {s t : State} (h : Fires s t) {x : Listed} (hx : x ∈ s.cues.list) (fc : FiringCause) (l : Key) :
    Fires s (fireOne fc l t x) := by
  have hacted := h.trans (applyAction_fires x.cue (match fc with | .key => x.key | .catchUp => t.cues.lead) t)
  have hfired : Fires s (fired fc l t x) := Fires.ite (hacted.trans (writeOutcome_fires _ _)) hacted
  rw [fireOne_fired]
  split
  · exact hfired.trans (leaveList_fires _ _)
  · exact repeatRule_fires hfired hx _ _

theorem skipOne_fires {s t : State} (h : Fires s t) {x : Listed} (hx : x ∈ s.cues.list) (l : Key) :
    Fires s (skipOne l t x) := by
  have hskipped := fun n m => h.trans (writeSkipped_fires l x.cue x.key n m t)
  unfold skipOne
  split
  · exact (hskipped _ _).trans (leaveList_fires _ _)
  · rename_i r _
    exact handBack_fires (hskipped _ _) hx r (skipReached_pos _ _ _ (cyclesAfter x.key r.period) _ _) _

theorem catchUpOne_fires {s t : State} (h : Fires s t) {x : Listed} (hx : x ∈ s.cues.list) (l : Key) :
    Fires s (catchUpOne l t x) := by
  unfold catchUpOne
  split
  · exact fireOne_fires h hx _ _
  · exact skipOne_fires h hx _

/-- A run over cues that were listed when it began. -/
theorem Fires.run {s : State} {f : State → Listed → State}
    (hf : ∀ t x, Fires s t → x ∈ s.cues.list → Fires s (f t x)) (l : List Listed) {t : State} (h : Fires s t)
    (hl : ∀ x ∈ l, x ∈ s.cues.list) : Fires s (l.foldl f t) := by
  induction l generalizing t with
  | nil => exact h
  | cons x l ih => exact ih (hf t x h (hl x (by simp))) fun y hy => hl y (by simp [hy])

theorem mem_of_mem_reachedRun {c : CueTable} {x : Listed} (h : x ∈ reachedRun c) : x ∈ c.list :=
  (List.takeWhile_prefix _).subset h

theorem fireRun_fires (l : Key) (s : State) : Fires s (fireRun l s) :=
  Fires.run (fun _ _ h hx => fireOne_fires h hx _ _) _ (.refl s) fun _ => mem_of_mem_reachedRun

theorem catchUpRun_fires (s : State) : Fires s (catchUpRun s) :=
  Fires.run (fun _ _ h hx => catchUpOne_fires h hx _) _ (.refl s) fun _ => mem_of_mem_reachedRun

theorem expiryRun_fires (s : State) : Fires s (expiryRun s) := by
  have hexpire : ∀ (l : List Listed) (t : State), Fires t (l.foldl (expire s.cues.lead) t) := by
    intro l
    induction l with
    | nil => exact fun t => .refl t
    | cons x l ih => exact fun t => (expire_fires _ _ _).trans (ih _)
  exact (filtered_fires _ s).trans (hexpire _ _)

/-- The marks add events to what an event of the Cue Table does (R43, R44). -/
theorem withMarks_fires {f : State → State} {s : State} (h : Fires s (f s)) : Fires s (withMarks f s) := by
  have hlow := Fires.ite (c := s.cues.lowMark ≤ listedCount s.cues ∧ listedCount (f s).cues < s.cues.lowMark)
    (h.trans (raise_fires .listLow _)) h
  exact Fires.ite (hlow.trans (raise_fires _ _)) hlow

theorem withMarks_writes {f : State → State} {s : State} (h : Writes s (f s)) : Writes s (withMarks f s) := by
  have hlow := Writes.ite (c := s.cues.lowMark ≤ listedCount s.cues ∧ listedCount (f s).cues < s.cues.lowMark)
    (h.trans (raise_writes .listLow _)) h
  exact Writes.ite (hlow.trans (raise_writes _ _)) hlow

end Sys2Proof.Machine
end

section
/-! The operations of the blocks as chains of writes: the Cue Table and the Sequencer, the Capture Unit, the Cam Unit, the lines,
the axis, the inputs, the store and the Fault Monitor. -/

namespace Sys2Proof.Machine

/-! ## The Cue Table and the Sequencer -/

theorem enterArmed_writes {s : State} (h : s.seq.state ≠ .safe) : Writes s (enterArmed s) :=
  (Write.state s .armed false false h (by decide) (by decide)).chain.trans (withMarks_writes (catchUpRun_fires _).writes)

theorem takeLeadArrival_writes (s : State) (a : Arrival) : Writes s (takeLeadArrival s a) := by
  have hlead := (Write.cueTable s (fun c => { c with lead := a.key }) rfl rfl).chain
  have hboundary := Writes.ite (c := a.boundary = true) (hlead.trans (withMarks_writes (expiryRun_fires _).writes)) hlead
  exact Writes.ite (hboundary.trans (withMarks_writes (fireRun_fires _ _).writes)) hboundary

theorem foldl_insertCue_perm (lead : Key) (xs l : List Listed) :
    (xs.foldl (fun l x => insertCue lead x l) l).Perm (xs ++ l) := by
  induction xs generalizing l with
  | nil => exact .refl _
  | cons x xs ih => exact (ih _).trans (((insertCue_perm lead x l).append_left xs).trans List.perm_middle)

theorem logAfter_length_le (rs : List OutcomeRecord) (s : State) :
    (logAfter rs s).length ≤ max s.seq.log.length Config.outcomeRoom := by
  simp only [logAfter, List.length_append, List.length_take]
  omega

/-- The oldest group of a channel is resolved (R81, R92). -/
theorem resolveGroup_writes {s : State} {ch : Fin 4} {g : Group} {gs : List Group} (hq : s.cues.queues[ch] = g :: gs)
    (point lead : Key) : Writes s (resolveGroup g point lead (popGroup ch s)) := by
  obtain ⟨⟨ev, hcues⟩, -⟩ := resolveCues_spec point lead g.cues (popGroup ch s) _ rfl
  have hentered : Writes s (g.cues.foldl (resolveCue point lead) (popGroup ch s)) := by
    rw [hcues]
    refine (Write.resolve s ch g gs _ _ hq ?_ ?_ (foldl_insertCue_perm _ _ _)).chain.trans <|
      (Write.log _ _ (by exact logAfter_length_le _ (popGroup ch s))).chain.trans (Write.events _ fun _ => ev).chain
    · have hsub := (List.filter_sublist (p := fun x => !beyondHorizon (popGroup ch s).cues.lead x.key)
        (l := g.cues.map fun c => (⟨c, keyAfter (popGroup ch s).axis.cfg.modulus point (c.offset.getD 0)⟩ : Listed))).map
          (·.cue)
      simpa [Function.comp_def] using hsub
    · intro x hx hpos
      obtain ⟨c, -, rfl⟩ := List.mem_map.1 (List.mem_of_mem_filter hx)
      exact Nat.mod_lt _ hpos
  exact Writes.ite (hentered.trans (fireRun_fires _ _).writes) hentered

/-! ### Queues that lose groups and cues -/

theorem Thinned.refl (q : List Group) : Thinned q q := ⟨.refl _, .refl _⟩

theorem thinned_of_sublist {q r : List Group} (h : r.Sublist q) : Thinned q r := ⟨h.map _, h.flatMap _⟩

theorem thinned_updAt {v : Vector (List Group) 4} {f : List Group → List Group} (ch : Fin 4) (h : Thinned v[ch] (f v[ch]))
    (d : Fin 4) : Thinned v[d] (updAt v ch f)[d] := by
  rw [updAt_get]
  split
  · rename_i he
    subst he
    exact h
  · exact .refl _

/-- A slot's cue leaves the groups; a group that held only that cue goes (R38). -/
theorem thinned_withoutCue (slot : Fin 256) (q : List Group) : Thinned q (q.filterMap (withoutCue slot)) := by
  induction q with
  | nil => exact .refl _
  | cons g q ih =>
    obtain ⟨hnumbers, hcues⟩ := ih
    have hleft : (g.cues.filter fun c => decide (c.slot ≠ slot)).Sublist g.cues := List.filter_sublist
    rw [List.filterMap_cons, withoutCue]
    split
    · rename_i hnone
      exact ⟨hnumbers.cons _, hcues.trans (List.sublist_append_right _ _)⟩
    · rename_i h hsome
      have hkept : h.number = g.number ∧ h.cues.Sublist g.cues := by
        split at hsome
        · cases hsome
          exact ⟨rfl, .refl _⟩
        · split at hsome
          · cases hsome
          · cases hsome
            exact ⟨rfl, hleft⟩
      refine ⟨?_, hkept.2.append hcues⟩
      rw [List.map_cons, List.map_cons, hkept.1]
      exact hnumbers.cons_cons _

theorem popGroup_writes (ch : Fin 4) (s : State) : Writes s (popGroup ch s) :=
  (Write.thin s (fun v => updAt v ch List.tail) (thinned_updAt ch (thinned_of_sublist (List.tail_sublist _)))).chain

theorem claimCapture_writes (ch : Fin 4) (point : Key) (s : State) : Writes s (claimCapture ch point s).1 := by
  unfold claimCapture
  split
  · exact .refl
  · rename_i g gs hq
    exact withMarks_writes (f := fun s => resolveGroup g point s.cues.lead (popGroup ch s)) (resolveGroup_writes hq _ _)

theorem claimMiss_writes (ch : Fin 4) (nominal arrival : Key) (s : State) :
    Writes s (claimMiss ch nominal arrival s).1 := by
  unfold claimMiss
  split
  · exact .refl
  · rename_i g gs hq
    split
    · exact withMarks_writes (popGroup_writes ch s)
    · exact withMarks_writes (f := fun s => resolveGroup g nominal arrival (popGroup ch s)) (resolveGroup_writes hq _ _)

/-! ### The freeze level -/

theorem changeFreeze_writes (level : Bool) (s : State) : Writes s (changeFreeze level s) := by
  have hfreeze := (Write.freeze s level).chain
  unfold changeFreeze
  dsimp only
  split
  · rename_i hstate
    exact hfreeze.trans (Write.state _ .hold false true (by rw [State.onSeq_seq, hstate]; decide) (by decide) (by decide)).chain
  · rename_i hstate
    exact hfreeze.trans (Write.state _ .hold s.seq.holdRequest true (by rw [State.onSeq_seq, hstate]; decide) (by decide)
      (by simp)).chain
  · rename_i hstate
    have hsafe : (s.onSeq fun q => { q with freeze := false }).seq.state ≠ .safe := by
      rw [State.onSeq_seq, hstate]; decide
    exact Writes.ite (hfreeze.trans (Write.state _ .hold true false hsafe (by decide) (by decide)).chain)
      (hfreeze.trans (enterArmed_writes hsafe))
  · exact hfreeze

theorem judgeFreeze_writes (s : State) : Writes s (judgeFreeze s) := Writes.ite .refl (changeFreeze_writes _ _)

/-! ## The Capture Unit -/

/-- A write of one channel that leaves its settings and adds nothing to its log. -/
theorem onChannel_writes (ch : Fin 4) (f : Channel → Channel) (s : State) (hcfg : ∀ c, (f c).cfg = c.cfg := by intro; rfl)
    (hlog : ∀ c, (f c).log.length ≤ c.log.length := by intro; exact le_rfl) : Writes s (onChannel ch f s) := by
  refine Writes.channels fun d => ?_
  rw [updAt_get]
  split
  · rename_i he
    exact he ▸ ⟨hcfg _, hlog _⟩
  · exact ⟨rfl, le_rfl⟩

theorem logCapture_writes (r : CaptureRecord) (s : State) : Writes s (logCapture r s) := by
  unfold logCapture
  split
  · rename_i hroom
    refine (Write.capture s _ (fun d => ?_) fun d p hp => .inl ?_).chain
    · rw [updAt_get]
      split
      · rename_i he
        subst he
        simp only [List.length_append, List.length_singleton]
        omega
      · exact le_max_left _ _
    · rw [updAt_get] at hp
      split at hp
      · rename_i he
        exact he ▸ hp
      · exact hp
  · exact raise_writes _ _

theorem takeCapture_writes (ch : Fin 4) (e : Edge) (s : State) : Writes s (takeCapture ch e s) := by
  have hclaim : Writes s
      (if s.seq.state = .safe then (s, none) else claimCapture ch s.axis.current s : State × Option (Fin 32)).1 := by
    split
    · exact .refl
    · exact claimCapture_writes _ _ _
  unfold takeCapture
  exact (raise_writes _ _).after <| (logCapture_writes _ _).after <|
    (onChannel_writes _ _ _).after hclaim

theorem takeStray_writes (ch : Fin 4) (s : State) : Writes s (takeStray ch s) :=
  (raise_writes _ _).after (onChannel_writes _ _ _)

theorem captureEdge_writes (ch : Fin 4) (e : Edge) (s : State) : Writes s (captureEdge ch e s) := by
  unfold captureEdge
  dsimp only
  split
  · split
    · exact takeCapture_writes _ _ _
    · split
      · exact (takeCapture_writes _ _ _).after (onChannel_writes _ _ _)
      · exact takeStray_writes _ _
      · exact takeStray_writes _ _
  · exact .refl

theorem takeMiss_writes (ch : Fin 4) (c : Cycle) (n : Nat) (a : Key) (s : State) : Writes s (takeMiss ch c n a s) := by
  have hclaim : Writes s
      (if s.seq.state = .safe then (s, MissResult.suspended, none)
        else claimMiss ch ⟨c, n⟩ a s : State × MissResult × Option (Fin 32)).1 := by
    split
    · exact .refl
    · exact claimMiss_writes _ _ _ _
  unfold takeMiss
  exact (raise_writes _ _).after ((onChannel_writes _ _ _).after hclaim)

theorem windowAtArrival_writes (a : Key) (s : State) (ch : Fin 4) : Writes s (windowAtArrival a s ch) := by
  have hepisode : ∀ e : Episode, Writes s (onChannel ch (fun c => { c with episode := e }) s) :=
    fun _ => onChannel_writes _ _ _
  unfold windowAtArrival
  dsimp only
  split
  · split
    · exact Writes.ite (hepisode _) .refl
    · exact Writes.ite ((takeMiss_writes _ _ _ _ _).after (hepisode _)) .refl
    · exact Writes.ite (hepisode _) .refl
  · exact .refl

theorem takeWindowArrival_writes (s : State) (a : Key) : Writes s (takeWindowArrival s a) :=
  Writes.foldl _ (fun _ _ => windowAtArrival_writes _ _ _) _ _

theorem closeEpisodes_writes (s : State) : Writes s (closeEpisodes s) :=
  Writes.channels fun ch => by simp only [map_get, le_refl, and_self]

/-- The arrivals that wait at the Capture Unit are written. -/
theorem captureArrivals_writes (s : State) (l : List Key) : Writes s (s.onCapture fun c => { c with arrivals := l }) :=
  Writes.channels fun _ => ⟨rfl, le_rfl⟩

/-! ## The Cam Unit -/

theorem trackBounds_recompute (a : Axis) (t : Track) : trackBounds (recomputeTrack a t) = trackBounds t := rfl

theorem mem_trackBounds_swapTrack {t : Track} {b : Nat} (h : b ∈ trackBounds (swapTrack t)) : b ∈ trackBounds t := by
  unfold swapTrack at h
  split at h
  · rename_i hs
    simp only [trackBounds, hs, if_true, Bool.false_eq_true, if_false, List.append_nil, List.mem_append] at h ⊢
    exact .inr h
  · exact h

/-- A write of the tracks that adds no bound. -/
theorem Writes.tracks {s : State} {f : CamUnit → CamUnit}
    (h : ∀ n : Fin 8, ∀ b ∈ trackBounds (f s.cams).tracks[n], b ∈ trackBounds s.cams.tracks[n]) : Writes s (s.onCams f) :=
  (Write.cams s f fun n b hb => .inl (h n b hb)).chain

theorem recomputeCams_writes (s : State) : Writes s (recomputeCams s) :=
  Writes.tracks fun n b hb => by rwa [map_get, trackBounds_recompute] at hb

theorem takeBoundary_writes (s : State) : Writes s (takeBoundary s) := by
  unfold takeBoundary
  refine Writes.after (Writes.tracks fun n b hb => ?_) (Writes.repeated _ (raise_writes .camSwapped) _ s)
  rw [map_get, trackBounds_recompute] at hb
  exact mem_trackBounds_swapTrack hb

/-- The boundaries that wait at the Cam Unit are written. -/
theorem camBoundaries_writes (s : State) (n : Nat) : Writes s (s.onCams fun c => { c with boundaries := n }) :=
  Writes.tracks fun _ _ hb => hb

theorem takeBoundaries_writes (s : State) : Writes s (takeBoundaries s) :=
  Writes.ite .refl ((camBoundaries_writes _ _).trans (takeBoundary_writes _))

theorem slotProfile_congr {t u : Track} (ha : u.slotA = t.slotA) (hb : u.slotB = t.slotB) (x : ProfileSlot) :
    slotProfile u x = slotProfile t x := by
  cases x
  · exact ha
  · exact hb

theorem writeInactive_active (p : Profile) (t : Track) : (writeInactive p t).active = t.active := by
  cases h : t.active <;> simp [writeInactive, h]

/-- A load leaves the active profile and writes the other (R103). -/
theorem slotProfile_writeInactive (p : Profile) (t : Track) :
    slotProfile (writeInactive p t) t.active = slotProfile t t.active ∧
      slotProfile (writeInactive p t) (otherSlot t.active) = p := by
  cases h : t.active <;> simp [writeInactive, slotProfile, otherSlot, h]

theorem mem_trackBounds_loadTrack {immediate : Bool} {p : Profile} {lead : Nat} {t : Track} {b : Nat}
    (h : b ∈ trackBounds (loadTrack immediate p lead t)) : b ∈ trackBounds t ∨ b ∈ profileBounds p := by
  obtain ⟨hactive, hother⟩ := slotProfile_writeInactive p t
  have hslots : ∀ x, slotProfile (loadTrack immediate p lead t) x = slotProfile (writeInactive p t) x :=
    slotProfile_congr (by cases immediate <;> rfl) (by cases immediate <;> rfl)
  rw [trackBounds, hslots, hslots] at h
  cases immediate
  · have hsame : (loadTrack false p lead t).active = t.active := writeInactive_active p t
    rw [hsame, hactive, hother, List.mem_append] at h
    rw [trackBounds, List.mem_append]
    exact h.imp .inl id
  · have hsame : (loadTrack true p lead t).active = otherSlot t.active := congrArg otherSlot (writeInactive_active p t)
    have hstaged : (loadTrack true p lead t).staged = false := rfl
    rw [hsame, hother, hstaged, if_neg Bool.false_ne_true, List.append_nil] at h
    exact .inr h

theorem loadCam_writes {n : Fin 8} {immediate : Bool} {p : Profile} {lead : Nat} {s : State}
    (h : ∀ b ∈ profileBounds p, belowModuli s.axis b = true) : Writes s (loadCam n immediate p lead s).1 := by
  unfold loadCam
  dsimp only
  refine (Write.cams s _ fun m b hb => ?_).chain
  rw [updAt_get] at hb
  split at hb
  · rename_i he
    subst he
    rw [trackBounds_recompute] at hb
    exact (mem_trackBounds_loadTrack hb).imp_right (h b)
  · exact .inl hb

/-! ## The lines -/

/-- A write that ends the trails of some lines, or leaves them. -/
theorem endsTrails_writes {s : State} {f : OutLine → OutLine} (h : ∀ l, f l = endTrail l ∨ f l = l) :
    Writes s (s.onOuts fun o => { o with lines := o.lines.map f }) := by
  refine (Write.outs s _ fun n => ?_).chain
  rw [map_get]
  rcases h s.outs.lines[n] with e | e <;> rw [e]
  · exact .ended
  · exact .level rfl rfl rfl rfl

theorem takeTrailArrival_writes (s : State) (lead : Key) : Writes s (takeTrailArrival s lead) :=
  endsTrails_writes fun l => by
    unfold trailAtArrival
    split
    · split
      · exact .inl rfl
      · exact .inr rfl
    · exact .inr rfl

theorem endCountTrails_writes (s : State) : Writes s (endCountTrails s) :=
  endsTrails_writes fun l => by
    split
    · exact .inl rfl
    · exact .inr rfl

/-- The arrivals that wait at the Line Unit are written. -/
theorem lineArrivals_writes (s : State) (l : List Key) : Writes s (s.onOuts fun o => { o with arrivals := l }) :=
  Writes.levels fun _ => ⟨rfl, rfl, rfl, rfl⟩

/-- A write of one line. -/
theorem Writes.line {s : State} {f : OutLine → OutLine} (n : Fin 16)
    (h : LineWrite s.seq.state s.outs.lines[n] (f s.outs.lines[n])) :
    Writes s (s.onOuts fun o => { o with lines := updAt o.lines n f }) := by
  refine (Write.outs s _ fun m => ?_).chain
  rw [updAt_get]
  split
  · rename_i he
    subst he
    exact h
  · exact .level rfl rfl rfl rfl

theorem mapMasked_writes {mask : LineSet} {f : Fin 16 → OutLine → OutLine} {s : State}
    (h : ∀ n : Fin 16, inSet mask n = true → LineWrite s.seq.state s.outs.lines[n] (f n s.outs.lines[n])) :
    Writes s (mapMasked mask f s) := by
  refine (Write.outs s _ fun n => ?_).chain
  have hline := mapMasked_line mask f s n
  simp only [mapMasked, State.onOuts_outs] at hline
  rw [hline]
  split
  · rename_i hn
    exact h n hn
  · exact .level rfl rfl rfl rfl

/-! ## The axis -/

theorem handArrival_writes (a : Arrival) (s : State) : Writes s (handArrival a s) :=
  (Write.cueTable s (fun c => { c with arrivals := c.arrivals ++ [a] }) rfl rfl).chain.trans <|
    (captureArrivals_writes _ _).trans (lineArrivals_writes _ _)

theorem cycleBoundary_writes {s : State} (hcurrent : s.axis.current.pos = 0) (hlead : s.axis.lead.pos = 0) :
    Writes s (cycleBoundary s) :=
  (raise_writes _ _).after <| (Writes.tracks fun _ _ hb => hb).after (Write.cross s hcurrent hlead).chain

theorem arriveLead_writes {key : Key} {boundary : Bool} {s : State} (hcurrent : s.axis.current = key)
    (hpos : boundary = true → key.pos = 0) : Writes s (arriveLead key boundary s) := by
  have hlead : Writes s (s.onAxis fun a => { a with lead := key }) :=
    (Write.points s _ rfl rfl (fun h _ _ => h) (hcurrent ▸ fun h _ _ => h)).chain
  refine (handArrival_writes _ _).after ?_
  cases boundary
  · exact hlead
  · exact (cycleBoundary_writes (hcurrent ▸ hpos rfl) (hpos rfl)).after hlead

theorem takeBoundaries_axis (s : State) : (takeBoundaries s).axis = s.axis := by
  obtain ⟨⟨ev, tracks, hboundaries, -⟩, -⟩ := takeBoundaries_spec s
  rw [hboundaries]

theorem forwardKey_fits (a : Axis) : PointFits a (forwardKey a.cfg.modulus a.current) := by
  intro h _ _
  unfold forwardKey
  split
  · assumption
  · exact Nat.zero_lt_of_lt h

theorem backwardKey_fits (a : Axis) : PointFits a (backwardKey a.cfg.modulus a.current) := by
  intro h _ _
  unfold backwardKey
  split <;> dsimp only <;> omega

theorem forwardKey_pos_of_wraps {m : Nat} {k : Key} (h : m ≤ k.pos + 1) : (forwardKey m k).pos = 0 := by
  rw [forwardKey, if_neg (Nat.not_lt.2 h)]

/-- The current point takes a key under the modulus in force, behind the boundaries that wait at the Cam Unit (R6). -/
theorem countedPoint_writes {s : State} {f : Axis → Axis} (hcfg : (f s.axis).cfg = s.axis.cfg)
    (hstaged : (f s.axis).staged = s.axis.staged) (hlead : (f s.axis).lead = s.axis.lead)
    (hfits : PointFits s.axis (f s.axis).current) : Writes s ((takeBoundaries s).onAxis f) := by
  rw [← takeBoundaries_axis s] at hcfg hstaged hlead hfits
  exact (Write.points _ f hcfg hstaged hfits (by rw [hlead]; exact fun _ h _ => h)).chain.after (takeBoundaries_writes s)

theorem countForward_writes (s : State) : Writes s (countForward s) := by
  have hpoint := countedPoint_writes (s := s)
    (f := fun a => { a with current := forwardKey s.axis.cfg.modulus s.axis.current, netCount := a.netCount + 1 })
    rfl rfl rfl (forwardKey_fits s.axis)
  refine (recomputeCams_writes _).after (Writes.ite ((arriveLead_writes rfl fun hwraps => ?_).after hpoint) hpoint)
  exact forwardKey_pos_of_wraps (of_decide_eq_true hwraps)

theorem countBackward_writes (s : State) : Writes s (countBackward s) :=
  (recomputeCams_writes _).after (countedPoint_writes rfl rfl rfl (backwardKey_fits s.axis))

theorem decoderCount_writes (forward : Bool) (s : State) : Writes s (decoderCount forward s) :=
  Writes.ite (Writes.ite (countForward_writes s) (countBackward_writes s)) .refl

/-! ### Position jumps (R16) -/

/-- The arrivals that wait at the Cue Table are written. -/
theorem cueArrivals_writes (s : State) (l : List Arrival) : Writes s (s.onCues fun c => { c with arrivals := l }) :=
  (Write.cueTable s (fun c => { c with arrivals := l }) rfl rfl).chain

theorem takeArrivals_writes (s : State) : Writes s (takeArrivals s) :=
  (Writes.foldl _ takeWindowArrival_writes _ _).after <| (captureArrivals_writes _ _).after <|
    (Writes.foldl _ takeLeadArrival_writes _ _).after <| (cueArrivals_writes _ _).after <|
    (Writes.foldl _ takeTrailArrival_writes _ _).after <| (lineArrivals_writes _ _).after (takeBoundaries_writes s)

/-- What waits at the blocks is taken without a write of the axis. -/
theorem takeArrivals_axis (s : State) : AxisIs s.axis (takeArrivals s) := by
  have htrails : ∀ (l : List Key) t, KeptBut jumping.tail t (l.foldl takeTrailArrival t) :=
    KeptBut.foldl _ fun _ _ => (takeTrailArrival_kept _ _).mono (by simp)
  have hleads : ∀ (l : List Arrival) t, KeptBut jumping.tail t (l.foldl takeLeadArrival t) :=
    KeptBut.foldl _ fun _ _ => (takeLeadArrival_kept _ _).mono (by simp)
  have hwindows : ∀ (l : List Key) t, KeptBut jumping.tail t (l.foldl takeWindowArrival t) :=
    KeptBut.foldl _ fun _ _ => (takeWindowArrival_kept _ _).mono (by simp)
  have hall : KeptBut jumping.tail s (takeArrivals s) :=
    ((takeBoundaries_kept s).mono (by simp)).trans <| ((onOuts_kept _ _).mono (by simp)).trans <| (htrails _ _).trans <|
      ((onCues_kept _ _).mono (by simp)).trans <| (hleads _ _).trans <| ((onCapture_kept _ _).mono (by simp)).trans
        (hwindows _ _)
  exact hall .axis (by simp)

theorem jumpCues_writes (key : Key) (s : State) : Writes s (jumpCues key s) := by
  refine withMarks_writes ((expiryRun_fires _).writes.after ?_)
  have hperm := foldl_insertCue_perm key s.cues.list []
  rw [List.append_nil] at hperm
  have hlead := (Write.cueTable s (fun c => { c with lead := key }) rfl rfl).chain
  exact hlead.trans (Write.list _ (reorder key s.cues.list) (by exact (hperm.map place).subperm)).chain

theorem positionJump_writes {key : Key} {s : State} (hkey : key.pos = 0 ∨ key.pos = s.axis.cfg.home) :
    Writes s (positionJump key s) := by
  have hcfg : (takeArrivals s).axis.cfg = s.axis.cfg := by rw [takeArrivals_axis s]
  have hfits : PointFits (takeArrivals s).axis key := by
    intro hcurrent _ hhome
    rcases hkey with h | h
    · omega
    · rwa [h, ← hcfg]
  exact (endCountTrails_writes _).after <| (jumpCues_writes _ _).after <| (recomputeCams_writes _).after <|
    (closeEpisodes_writes _).after <| (Write.points _ _ rfl rfl hfits hfits).chain.after (takeArrivals_writes s)

/-! ### The requests on the axis -/

theorem releaseInput_writes (n : Fin 8) (s : State) : Writes s (releaseInput n s) := (Write.inputs s _).chain

theorem claimInput_writes (n : Fin 8) (fn : InputFn) (s : State) : Writes s (claimInput n fn s) := (Write.inputs s _).chain

theorem cancelHoming_writes (s : State) : Writes s (cancelHoming s) :=
  Writes.ite ((releaseInput_writes _ _).after Writes.axisFlags) .refl

theorem claimAxisInputs_writes (s : State) : Writes s (claimAxisInputs s) :=
  (claimInput_writes _ _ _).after <| (claimInput_writes _ _ _).after Writes.axisFlags

theorem releaseAxisInputs_writes (s : State) : Writes s (releaseAxisInputs s) := by
  have hfirst : Writes s (if s.ins[0].fn = .axisA then releaseInput 0 s else s) :=
    Writes.ite (releaseInput_writes _ _) .refl
  exact Writes.ite ((releaseInput_writes _ _).after hfirst) hfirst

/-- A homing wait is cancelled in the axis and at IN2 only. -/
theorem cancelHoming_eq (s : State) : ∃ ins, cancelHoming s = { s with axis := { s.axis with homing := false }, ins := ins } := by
  unfold cancelHoming
  split
  · exact ⟨_, rfl⟩
  · rename_i h
    refine ⟨s.ins, ?_⟩
    rw [Bool.not_eq_true] at h
    rw [← h]

theorem lt_of_not_modulusConflicts {m : Nat} {s : State} (h : modulusConflicts m s = false) :
    (∀ b ∈ boundSet s, b < m) ∧ queuedGroups s.cues = [] := by
  simpa [modulusConflicts] using h

theorem setupAxis_writes {source : AxisSource} {k m : Nat} {s : State} (hk : k ≤ 12) (hm : modulusInRange m = true)
    (hfree : modulusConflicts m s = false) (hcurrent : s.axis.current.pos < m) (hlead : s.axis.lead.pos < m) :
    Writes s (setupAxis source k m s) := by
  have hcancel := cancelHoming_writes s
  obtain ⟨ins, he⟩ := cancelHoming_eq s
  obtain ⟨hbound, -⟩ := lt_of_not_modulusConflicts hfree
  have hset := (Write.setup (cancelHoming s)
    (fun a => { a with
      cfg := { a.cfg with source := source, k := k, modulus := m }, staged := none, running := false
      takenA := false, takenB := false })
    source k m rfl rfl rfl rfl hk hm (by rw [he]; exact hbound) (by rw [he]; exact hcurrent)
    (by rw [he]; exact hlead)).chain.after hcancel
  unfold setupAxis
  refine (recomputeCams_writes _).after ?_
  cases source
  · exact (claimAxisInputs_writes _).after hset
  · exact (claimAxisInputs_writes _).after hset
  · exact (releaseAxisInputs_writes _).after hset

/-! ## The inputs -/

theorem inputEvent_writes (n : Fin 8) (e : Edge) (s : State) : Writes s (inputEvent n e s) :=
  Writes.ite (raise_writes _ _) .refl

theorem quadDecode_writes (a b : Bool) (s : State) : Writes s (quadDecode a b s) := by
  have hpair : Writes s (s.onAxis fun x => { x with pairA := a, pairB := b }) := Writes.axisFlags
  unfold quadDecode
  dsimp only
  split
  · exact hpair
  · exact (decoderCount_writes _ _).after hpair
  · exact (decoderCount_writes _ _).after hpair
  · exact (report_writes _ _).after hpair

theorem decode_writes (rising0 a b : Bool) (s : State) : Writes s (decode rising0 a b s) := by
  unfold decode
  split
  · exact quadDecode_writes _ _ _
  · exact Writes.ite (decoderCount_writes _ _) .refl
  · exact .refl

theorem acceptLevel_writes (n : Fin 8) (s : State) : Writes s (acceptLevel n s) := (Write.inputs s _).chain

theorem acceptAxis_writes (s : State) : Writes s (acceptAxis s) := by
  unfold acceptAxis
  have hfirst := Writes.ite (c := (inputDue s 0 && decide (s.ins[0].fn = .axisA)) = true) (acceptLevel_writes 0 s) .refl
  exact (decode_writes _ _ _ _).after <|
    Writes.after Writes.axisFlags (Writes.ite ((acceptLevel_writes 1 _).after hfirst) hfirst)

theorem homingJump_writes (s : State) : Writes s (homingJump s) :=
  (raise_writes _ _).after <| (releaseInput_writes _ _).after <| Writes.after Writes.axisFlags (positionJump_writes (.inr rfl))

theorem acceptInput_writes (n : Fin 8) (s : State) : Writes s (acceptInput n s) := by
  have hlevel := acceptLevel_writes n s
  unfold acceptInput
  dsimp only
  split
  · exact (inputEvent_writes _ _ _).after hlevel
  · exact (judgeFreeze_writes _).after ((inputEvent_writes _ _ _).after hlevel)
  · exact acceptAxis_writes s
  · exact acceptAxis_writes s
  · exact Writes.ite ((homingJump_writes _).after hlevel) hlevel
  · exact (captureEdge_writes _ _ _).after hlevel

end Sys2Proof.Machine
end

section
/-! The rules of the requests as chains of writes. -/

namespace Sys2Proof.Machine

/-! ## The Setting Store (R166, R167) -/

theorem axis_of_clearBlock {c : (α : Type) → Block α} (hc : ∀ a, c AxisSettings ≠ .valid a) {n : Fin 9} {b : Blocks}
    {a : AxisSettings} (h : (clearBlock c n b).axis = .valid a) : b.axis = .valid a := by
  unfold clearBlock at h
  split at h
  case h_3 => exact absurd h (hc a)
  all_goals exact h

theorem axis_of_writeBlock {x : Snapshot} {b : Blocks} {a : AxisSettings} (h : (writeBlock x b).axis = .valid a) :
    b.axis = .valid a ∨ x = .axis a := by
  cases x
  case axis c => exact .inr (congrArg Snapshot.axis (Block.valid.inj h))
  all_goals exact .inl h

theorem finishWork_op (w : StoreWork) (x : SettingStore) : (finishWork w x).op = none := by
  unfold finishWork
  split <;> rfl

theorem axis_of_finishWork {w : StoreWork} {x : SettingStore} {a : AxisSettings}
    (h : (finishWork w x).blocks.axis = .valid a) : x.blocks.axis = .valid a ∨ w = .writing (.axis a) := by
  unfold finishWork at h
  split at h
  · exact (axis_of_writeBlock h).imp_right fun hx => by cases hx
  · exact (axis_of_writeBlock h).imp_right (congrArg StoreWork.writing)
  · exact .inl (axis_of_clearBlock (fun _ hc => by cases hc) h)

theorem endOperation_writes (s : State) : Writes s (endOperation s) := by
  unfold endOperation
  split
  · exact .refl
  · rename_i o ho
    refine (raise_writes _ _).after (Write.store s _ (fun a ha => ?_) fun p a hp => ?_).chain
    · exact (axis_of_finishWork ha).imp_right fun hw => ⟨o, ho, hw⟩
    · rw [finishWork_op] at hp
      cases hp

theorem abortOperation_writes (s : State) : Writes s (abortOperation s) := by
  unfold abortOperation
  split
  · exact .refl
  · exact (raise_writes _ _).after (Write.store s _
      (fun a ha => .inl (axis_of_clearBlock (fun _ hc => by cases hc) ha)) fun o a ho => by cases ho).chain

theorem beginOperation_writes {w : StoreWork} {s : State} (h : ∀ c, w = .writing (.axis c) → c = s.axis.cfg) :
    Writes s (beginOperation w s) := by
  refine Writes.after (Write.clock _ s.stamp (s.freeIndex + 1) s.checkpoint).chain
    (Write.store s (fun x => { x with op := some ⟨w, s.stamp, s.freeIndex⟩ }) (fun c hc => .inl hc) ?_).chain
  intro o c ho hwork
  cases ho
  exact .inr (h c hwork)

theorem snapshot_axis {n : Fin 9} {limit : Nat} {s : State} {c : AxisSettings} (h : snapshot n limit s = .axis c) :
    c = s.axis.cfg := by
  unfold snapshot at h
  split at h <;> cases h
  rfl

theorem storeSaveRule_writes (body : List Byte) (s : State) : Writes s (storeSaveRule body s).1 := by
  unfold storeSaveRule
  split
  · split
    · exact .refl
    · split
      · exact .refl
      · split
        · exact .refl
        · exact beginOperation_writes fun c hc => snapshot_axis (StoreWork.writing.inj hc)
  · exact .refl

theorem storeEraseRule_writes (b : Byte) (s : State) : Writes s (storeEraseRule b s).1 := by
  unfold storeEraseRule
  split
  · exact .refl
  · split
    · exact .refl
    · exact beginOperation_writes fun c hc => by cases hc

theorem storeReadRule_state (s : State) : (storeReadRule s).1 = s := by
  unfold storeReadRule
  split <;> rfl

theorem restartRule_writes (s : State) : Writes s (restartRule s).1 := by
  unfold restartRule
  split
  · exact .refl
  · exact (Write.link s (fun l => { l with restarting := true }) rfl rfl rfl).chain

/-! ## The Fault Monitor -/

theorem markPresent_writes (c : Condition) (b : Bool) (s : State) : Writes s (markPresent c b s) :=
  (Write.faults s (fun f => { f with present := setPresent c b f.present }) rfl).chain

theorem dropReport_writes (c : Condition) (s : State) : Writes s (dropReport c s) :=
  (Write.faults s (fun f => { f with inbox := f.inbox.eraseP fun r => decide (r.cond = c) }) rfl).chain

theorem countFault_writes (s : State) : Writes s (countFault s) :=
  (raise_writes _ _).after (Write.faults s (fun f => { f with count := f.count + 1#16 }) rfl).chain

theorem recordByRank_flt (new : FaultRecord) (f : FaultMonitor) : (recordByRank new f).flt = f.flt := by
  unfold recordByRank
  split
  · rfl
  · split <;> rfl

/-- A fault outside SAFE: the records, then the entry into SAFE with FLT# (R132 to R134). -/
theorem faultOutsideSafe_writes (r : Report) (s : State) : Writes s (faultOutsideSafe r s) := by
  have hrecords := (Write.faults (countFault s)
    (fun f => { f with primary := some (faultRecord r s), secondary := 0#8 }) rfl).chain.after (countFault_writes s)
  have hsafe := (Write.safe _).chain.after hrecords
  unfold faultOutsideSafe enterSafe
  dsimp only
  split
  · exact Writes.after (Writes.axisFlags (f := fun a => { a with running := false })) hsafe
  all_goals exact hsafe

theorem takeFault_writes (r : Report) (s : State) : Writes s (takeFault r s) := by
  have hinside : Writes s (faultInSafe r s) :=
    (Write.faults _ _ (recordByRank_flt _ _)).chain.after (countFault_writes s)
  have htaken : Writes s (if s.seq.state = .safe then faultInSafe r s else faultOutsideSafe r s) :=
    Writes.ite hinside (faultOutsideSafe_writes r s)
  exact Writes.ite ((abortOperation_writes _).after htaken) htaken

theorem takeBeginning_writes (r : Report) (s : State) : Writes s (takeBeginning r s) :=
  Writes.ite ((takeFault_writes _ _).after (markPresent_writes _ _ _)) (markPresent_writes _ _ _)

theorem takeEnding_writes (c : Condition) (s : State) : Writes s (takeEnding c s) := by
  unfold takeEnding
  split
  · exact Writes.ite .refl ((markPresent_writes _ _ _).after (dropReport_writes _ _))
  · exact .refl

theorem judgeLimits_writes (s : State) : Writes s (judgeLimits s) :=
  (takeEnding_writes _ _).after <| (takeEnding_writes _ _).after <| (takeEnding_writes _ _).after <|
    (judgeSupply_writes _).after <| (judgeReverse_writes _).after (judgeOverspeed_writes s)

theorem limitsSetRule_writes (body : List Byte) (s : State) : Writes s (limitsSetRule body s).1 := by
  unfold limitsSetRule
  split
  · split
    · exact .refl
    · split
      · exact .refl
      · dsimp only
        exact (judgeLimits_writes _).after <| (Write.link _ _ rfl rfl rfl).chain.after <|
          (Write.supply _ _).chain.after Writes.axisFlags
  · exact .refl

theorem resumeRule_writes (body : List Byte) (s : State) : Writes s (resumeRule body s).1 := by
  unfold resumeRule
  dsimp only
  split
  · split
    · exact .refl
    · split
      · exact .refl
      · split
        · exact .refl
        · exact (Write.resume s).chain
  · exact .refl

/-! ## Requests on cues -/

theorem cueOf_slot {slot : Byte} {lines : LineSet} {action options count period : Byte} {width : Nat} {offset : Option Nat}
    {c : Cue} (h : cueOf slot lines action options width count period offset = some c) : c.slot = slot.toFin := by
  unfold cueOf at h
  split at h
  · split at h
    · cases h
    · cases h
      rfl
  · cases h

theorem nextKey_pos (lead : Key) (pos : Nat) : (nextKey lead pos).pos = pos := by
  unfold nextKey
  split <;> rfl

theorem listCue_writes {x : Listed} {s : State} (hfree : slotFree s.cues x.cue.slot = true)
    (hpos : belowModuli s.axis x.key.pos = true) : Writes s (listCue x s).1 :=
  withMarks_writes (Write.enter s x hfree hpos).chain

theorem putCue_writes {cue : Cue} {key : Key} {late : LatePolicy} {s : State} (hpos : belowModuli s.axis key.pos = true) :
    Writes s (putCue cue key late s).1 := by
  unfold putCue
  split
  · exact .refl
  · rename_i hslot
    have hfree : slotFree s.cues cue.slot = true := by simpa using hslot
    split
    · exact .refl
    · split
      · exact listCue_writes hfree hpos
      · split
        · exact .refl
        · split
          · exact .refl
          · split
            · exact withMarks_writes (f := fun s => fireRun s.cues.lead (enterCue ⟨cue, key⟩ s))
                ((fireRun_fires _ _).writes.after (Write.enter s ⟨cue, key⟩ hfree hpos).chain)
            · exact listCue_writes hfree hpos
        · exact listCue_writes hfree (by rw [nextKey_pos]; exact hpos)

theorem cuePutRule_writes (body : List Byte) (s : State) : Writes s (cuePutRule body s).1 := by
  unfold cuePutRule
  split
  · dsimp only
    split
    · exact .refl
    · split
      · split
        · rename_i hpos
          exact putCue_writes hpos
        · exact .refl
      · exact .refl
  · exact .refl

theorem putGroup_writes {g : Group} {ch : Fin 4} {s : State} (hstaged : s.axis.staged = none) :
    Writes s (putGroup g ch s).1 := by
  unfold putGroup
  split
  · exact .refl
  · rename_i hnumber
    split
    · exact .refl
    · rename_i hroom
      split
      · exact .refl
      · rename_i hslots
        split
        · exact .refl
        · obtain ⟨hfree, hnodup⟩ := not_or.1 hslots
          dsimp only
          refine withMarks_writes (Write.put s g ch ?_ (Nat.lt_of_not_le hroom) ?_ (not_not.1 hnodup) hstaged).chain
          · simpa using hnumber
          · simpa using hfree

theorem groupPutRule_writes (body : List Byte) (s : State) : Writes s (groupPutRule body s).1 := by
  unfold groupPutRule
  split
  · split
    · exact .refl
    · split
      · exact .refl
      · rename_i hstate
        split
        · split
          · exact .refl
          · refine putGroup_writes ?_
            simpa using (not_or.1 hstate).2
        · exact .refl
  · exact .refl

theorem cueCancelRule_writes (b : Byte) (s : State) : Writes s (cueCancelRule b s).1 := by
  unfold cueCancelRule
  dsimp only
  split
  · dsimp only
    exact withMarks_writes (leaveList_fires _ s).writes
  · split
    · dsimp only
      refine withMarks_writes (Write.thin s (fun v => v.map (List.filterMap (withoutCue b.toFin))) fun ch => ?_).chain
      rw [map_get]
      exact thinned_withoutCue _ _
    · exact .refl

theorem groupCancelRule_writes (b : Byte) (s : State) : Writes s (groupCancelRule b s).1 := by
  unfold groupCancelRule
  split
  · exact .refl
  · rename_i n _
    split
    · exact .refl
    · rename_i ch _
      dsimp only
      exact withMarks_writes (Write.thin s (fun v => updAt v ch (List.filter fun g => decide (g.number ≠ n)))
        (thinned_updAt ch (thinned_of_sublist List.filter_sublist))).chain

theorem marksSetRule_writes (body : List Byte) (s : State) : Writes s (marksSetRule body s).1 := by
  unfold marksSetRule
  split
  · split
    · exact .refl
    · dsimp only
      exact (Write.cueTable s _ (by rfl) (by rfl)).chain
  · exact .refl

/-! ## Requests on the axis, the channels and the tracks -/

theorem axisSetupRule_writes (body : List Byte) (s : State) : Writes s (axisSetupRule body s).1 := by
  unfold axisSetupRule
  split
  · dsimp only
    split
    · exact .refl
    · split
      · exact .refl
      · split
        · exact .refl
        · rename_i hrange
          split
          · exact .refl
          · split
            · exact .refl
            · rename_i hfree
              obtain ⟨hk, hm⟩ := not_or.1 hrange
              obtain ⟨hconflicts, hpoints⟩ := not_or.1 hfree
              obtain ⟨hcurrent, hlead⟩ := not_or.1 hpoints
              exact setupAxis_writes (Nat.le_of_not_lt hk) (by simpa using hm) (by simpa using hconflicts)
                (Nat.lt_of_not_le hcurrent) (Nat.lt_of_not_le hlead)
  · exact .refl

theorem setRunning_writes (b : Bool) (s : State) : Writes s (setRunning b s).1 := by
  unfold setRunning
  dsimp only
  exact Writes.axisFlags

theorem axisZeroRule_writes (s : State) : Writes s (axisZeroRule s).1 := by
  unfold axisZeroRule
  split
  · exact .refl
  · exact (positionJump_writes (.inl rfl)).after (cancelHoming_writes s)

theorem axisHomeRule_writes (body : List Byte) (s : State) : Writes s (axisHomeRule body s).1 := by
  unfold axisHomeRule
  split
  · dsimp only
    split
    · exact .refl
    · split
      · exact .refl
      · rename_i hpos
        split
        · exact .refl
        · exact (claimInput_writes _ _ _).after (Write.home s _ true (by simpa using hpos)).chain
  · exact .refl

theorem modulusStageRule_writes (body : List Byte) (s : State) : Writes s (modulusStageRule body s).1 := by
  unfold modulusStageRule
  split
  · dsimp only
    split
    · exact .refl
    · split
      · exact .refl
      · rename_i hm
        split
        · exact .refl
        · rename_i hfree
          exact (Write.stage s _ (by simpa using hm) (by simpa using hfree)).chain
  · exact .refl

theorem bindInput_writes (ch : Fin 4) (old new : Option (Fin 8)) (s : State) : Writes s (bindInput ch old new s) := by
  have hold : Writes s (match old with
      | some m => if new = some m then s else releaseInput m s
      | none => s) := by
    split
    · exact Writes.ite .refl (releaseInput_writes _ _)
    · exact .refl
  unfold bindInput
  dsimp only
  split
  · exact (claimInput_writes _ _ _).after hold
  · exact hold

theorem bindInput_ins (ch : Fin 4) (old new : Option (Fin 8)) (s : State) :
    ∃ ins, bindInput ch old new s = { s with ins := ins } := by
  rcases old with _ | m <;> rcases new with _ | n
  · exact ⟨_, rfl⟩
  · exact ⟨_, rfl⟩
  · exact ⟨_, rfl⟩
  · by_cases h : some n = some m
    · exact ⟨_, by simp only [bindInput, if_pos h]; rfl⟩
    · exact ⟨_, by simp only [bindInput, if_neg h]; rfl⟩

/-- The settings of a channel are written, with a gate below the moduli (R74, R170). -/
theorem channelSettings_writes {ch : Fin 4} {cfg : ChannelSettings} {f : Channel → Channel} {s : State}
    (hcfg : ∀ c, (f c).cfg = cfg) (hlog : ∀ c, (f c).log = c.log)
    (hgate : ∀ p ∈ gatePositions cfg.gate, belowModuli s.axis p = true) : Writes s (onChannel ch f s) := by
  refine (Write.capture s _ (fun d => ?_) fun d p hp => ?_).chain
  · rw [updAt_get]
    split
    · rename_i he
      rw [hlog, he]
      exact le_max_left _ _
    · exact le_max_left _ _
  · rw [updAt_get] at hp
    split at hp
    · rw [hcfg] at hp
      exact .inr (hgate p hp)
    · exact .inl hp

theorem setupChannel_writes {ch : Fin 4} {cfg : ChannelSettings} {s : State}
    (hgate : ∀ p ∈ gatePositions cfg.gate, belowModuli s.axis p = true) : Writes s (setupChannel ch cfg s).1 := by
  unfold setupChannel
  split
  · exact .refl
  · split
    · exact .refl
    · dsimp only
      refine (channelSettings_writes (cfg := cfg) (by intro; rfl) (by intro; rfl) ?_).after (bindInput_writes _ _ _ _)
      obtain ⟨ins, he⟩ := bindInput_ins ch s.capture.channels[ch].cfg.input cfg.input s
      rw [he]
      exact hgate

theorem belowModuli_of_gateFits {a : Axis} {g : Gate} (h : gateFits a g = true) :
    ∀ p ∈ gatePositions g, belowModuli a p = true :=
  List.all_eq_true.1 ((Bool.and_eq_true_iff).1 h).1

theorem captureSetupRule_writes (body : List Byte) (s : State) : Writes s (captureSetupRule body s).1 := by
  unfold captureSetupRule
  split
  · split
    · split
      · rename_i hfits
        exact setupChannel_writes (belowModuli_of_gateFits hfits)
      · exact .refl
    · exact .refl
  · exact .refl

theorem capturesReadRule_writes (b : Byte) (s : State) : Writes s (capturesReadRule b s).1 := by
  unfold capturesReadRule
  split
  · exact .refl
  · dsimp only
    exact onChannel_writes _ _ _ (by intro; rfl) (by intro; exact Nat.zero_le _)

theorem belowModuli_of_profileFits {a : Axis} {p : Profile} (h : profileFits a p = true) :
    ∀ b ∈ profileBounds p, belowModuli a b = true :=
  List.all_eq_true.1 ((Bool.and_eq_true_iff).1 h).1

theorem camLoadRule_writes (body : List Byte) (s : State) : Writes s (camLoadRule body s).1 := by
  unfold camLoadRule
  split
  · split
    · exact .refl
    · split
      · exact .refl
      · split
        · split
          · exact .refl
          · rename_i hrange
            exact loadCam_writes (belowModuli_of_profileFits (by simpa using (not_or.1 (not_or.1 hrange).2).2))
        · exact .refl
  · exact .refl

theorem camReadRule_state (b : Byte) (s : State) : (camReadRule b s).1 = s := by
  unfold camReadRule
  split <;> rfl

/-! ## Requests on the lines and the inputs -/

theorem setupLineAt_writes (n : Fin 16) (cfg : LineSettings) (s : State) : Writes s (setupLineAt n cfg s).1 := by
  have hset : Writes s (s.onOuts fun o => { o with lines := updAt o.lines n (setupLine cfg) }) :=
    Writes.line n (.setup cfg)
  exact (judgeLines_writes _).after (Writes.ite ((report_writes _ _).after hset) hset)

theorem lineSetupRule_writes (body : List Byte) (s : State) : Writes s (lineSetupRule body s).1 := by
  unfold lineSetupRule
  split
  · split
    · exact setupLineAt_writes _ _ _
    · exact .refl
  · exact .refl

theorem linesEnableRule_writes (body : List Byte) (s : State) : Writes s (linesEnableRule body s).1 := by
  unfold linesEnableRule
  split
  · dsimp only
    exact mapMasked_writes fun n _ => .level rfl rfl rfl rfl
  · exact .refl

theorem linesSetRule_writes (body : List Byte) (s : State) : Writes s (linesSetRule body s).1 := by
  unfold linesSetRule
  split
  · dsimp only
    split
    · exact .refl
    · rename_i howned
      dsimp only
      refine mapMasked_writes fun n hn => .driven _ ?_
      have hnone := congrArg (BitVec.getLsbD · n.val) (not_not.1 howned)
      rw [inSet] at hn
      have hdirect : inSet (lineSetOf fun n => decide (s.outs.lines[n].cfg.owner = .direct)) n = true := by
        simpa [inSet, hn, n.isLt] using hnone
      rw [inSet_lineSetOf] at hdirect
      exact of_decide_eq_true hdirect
  · exact .refl

theorem inputSetupRule_writes (body : List Byte) (s : State) : Writes s (inputSetupRule body s).1 := by
  unfold inputSetupRule
  split
  · split
    · split
      · exact .refl
      · exact (judgeFreeze_writes _).after (Write.inputs s _).chain
    · exact .refl
  · exact .refl

/-! ## Requests on the Sequencer and the events -/

theorem armRule_writes (s : State) : Writes s (armRule s).1 := by
  unfold armRule
  split
  · exact .refl
  · rename_i hidle
    have hsafe : s.seq.state ≠ .safe := by
      rw [not_not.1 (not_or.1 hidle).1]; decide
    split
    · exact (Write.state s .hold false true hsafe (by decide) (by decide)).chain
    · exact enterArmed_writes hsafe

theorem disarmRule_writes (s : State) : Writes s (disarmRule s).1 := by
  unfold disarmRule
  split
  · rename_i hq
    exact (Write.state s .idle false false (by rw [hq]; decide) (by decide) (by decide)).chain
  · rename_i hq
    exact (Write.state s .idle false false (by rw [hq]; decide) (by decide) (by decide)).chain
  all_goals exact .refl

theorem holdRule_writes (s : State) : Writes s (holdRule s).1 := by
  unfold holdRule
  split
  · rename_i hq
    exact (Write.state s .hold true false (by rw [hq]; decide) (by decide) (by decide)).chain
  · rename_i hq
    exact (Write.state s .hold true _ (by rw [hq]; decide) (by decide) (by simp)).chain
  all_goals exact .refl

theorem releaseRule_writes (s : State) : Writes s (releaseRule s).1 := by
  unfold releaseRule
  split
  · exact .refl
  · rename_i hq
    have hsafe : s.seq.state ≠ .safe := by rw [hq]; decide
    split
    · exact (Write.state s .hold false true hsafe (by decide) (by decide)).chain
    · exact enterArmed_writes hsafe
  all_goals exact .refl

theorem outcomesReadRule_writes (b : Byte) (s : State) : Writes s (outcomesReadRule b s).1 := by
  unfold outcomesReadRule
  split
  · exact .refl
  · refine (Write.log s (s.seq.log.drop b.toNat) ?_).chain
    exact (List.length_drop ▸ Nat.sub_le _ _).trans (le_max_left _ _)

theorem eventEnableRule_writes (body : List Byte) (s : State) : Writes s (eventEnableRule body s).1 := by
  unfold eventEnableRule
  split
  · dsimp only
    split
    · exact .refl
    · dsimp only
      exact (Write.events s _).chain
  · exact .refl

theorem eventClearRule_writes (body : List Byte) (s : State) : Writes s (eventClearRule body s).1 := by
  unfold eventClearRule
  split
  · split
    · exact .refl
    · dsimp only
      split
      · split
        · dsimp only
          exact (Write.events s _).chain
        · exact .refl
      · exact .refl
  · exact .refl

theorem noticeOrderRule_writes (body : List Byte) (s : State) : Writes s (noticeOrderRule body s).1 := by
  unfold noticeOrderRule
  split
  · split
    · exact .refl
    · dsimp only
      exact (Write.events s _).chain
  · exact .refl

/-! ## Every request -/

theorem noBody_writes {rule : State → State × Reply} {s : State} (h : Writes s (rule s).1) (body : List Byte) :
    Writes s (noBody rule body s).1 := by
  unfold noBody
  split
  · exact h
  · exact .refl

theorem oneByte_writes {rule : Byte → State → State × Reply} {s : State} (h : ∀ b, Writes s (rule b s).1)
    (body : List Byte) : Writes s (oneByte rule body s).1 := by
  unfold oneByte
  split
  · exact h _
  · exact .refl

theorem Writes.of_eq {s t : State} (h : t = s) : Writes s t := h ▸ .refl

theorem requestRule_writes (c : Instr) (s : State) : Writes s (requestRule c s).1 := by
  cases c
  case axisSetup => exact axisSetupRule_writes _ _
  case axisRun => exact noBody_writes (setRunning_writes _ _) _
  case axisHalt => exact noBody_writes (setRunning_writes _ _) _
  case axisZero => exact noBody_writes (axisZeroRule_writes _) _
  case axisHome => exact axisHomeRule_writes _ _
  case modulusStage => exact modulusStageRule_writes _ _
  case axisRead => exact noBody_writes .refl _
  case cuePut => exact cuePutRule_writes _ _
  case groupPut => exact groupPutRule_writes _ _
  case cueCancel => exact oneByte_writes (cueCancelRule_writes · _) _
  case groupCancel => exact oneByte_writes (groupCancelRule_writes · _) _
  case cueRead => exact oneByte_writes (fun _ => .refl) _
  case listRead => exact oneByte_writes (fun _ => .refl) _
  case marksSet => exact marksSetRule_writes _ _
  case arm => exact noBody_writes (armRule_writes _) _
  case disarm => exact noBody_writes (disarmRule_writes _) _
  case hold => exact noBody_writes (holdRule_writes _) _
  case release => exact noBody_writes (releaseRule_writes _) _
  case seqRead => exact noBody_writes .refl _
  case outcomesRead => exact oneByte_writes (outcomesReadRule_writes · _) _
  case captureSetup => exact captureSetupRule_writes _ _
  case capturesRead => exact oneByte_writes (capturesReadRule_writes · _) _
  case camLoad => exact camLoadRule_writes _ _
  case camRead => exact oneByte_writes (fun _ => .of_eq (camReadRule_state _ _)) _
  case lineSetup => exact lineSetupRule_writes _ _
  case linesEnable => exact linesEnableRule_writes _ _
  case linesSet => exact linesSetRule_writes _ _
  case linesRead => exact noBody_writes .refl _
  case inputSetup => exact inputSetupRule_writes _ _
  case limitsSet => exact limitsSetRule_writes _ _
  case faultRead => exact noBody_writes .refl _
  case resume => exact resumeRule_writes _ _
  case eventEnable => exact eventEnableRule_writes _ _
  case eventRead => exact noBody_writes .refl _
  case eventClear => exact eventClearRule_writes _ _
  case noticeOrder => exact noticeOrderRule_writes _ _
  case storeSave => exact storeSaveRule_writes _ _
  case storeErase => exact oneByte_writes (storeEraseRule_writes · _) _
  case storeRead => exact noBody_writes (.of_eq (storeReadRule_state _)) _
  case restart => exact noBody_writes (restartRule_writes _) _
  all_goals exact .refl

end Sys2Proof.Machine
end

section
/-! Every command as a chain of changes, from the state it finds, from that state with the edge of the decoder taken back, or from
the reset values. -/

namespace Sys2Proof.Machine

/-! ## The link -/

theorem Changes.after {s t u : State} (h' : Changes t u) (h : Changes s t) : Changes s u := h.trans h'

theorem Changes.ite {c : Prop} [Decidable c] {s t u : State} (ht : Changes s t) (hu : Changes s u) :
    Changes s (if c then t else u) := by
  split
  · exact ht
  · exact hu

theorem Changes.foldl {α : Type} (f : State → α → State) (l : List α) (h : ∀ x ∈ l, ∀ s, Changes s (f s x)) (s : State) :
    Changes s (l.foldl f s) := by
  induction l generalizing s with
  | nil => exact .refl
  | cons x l ih => exact (h x (by simp) s).trans (ih (fun y hy => h y (by simp [hy])) _)

/-- The rules leave the link's queues and its error count. -/
theorem Writes.queues {s t : State} (h : Writes s t) : t.link.inbound = s.link.inbound ∧
    t.link.replies = s.link.replies ∧ t.link.errors = s.link.errors := by
  induction h with
  | refl => exact ⟨rfl, rfl, rfl⟩
  | tail _ hw ih =>
    obtain ⟨hinbound, hreplies, herrors⟩ := ih
    rw [← hinbound, ← hreplies, ← herrors]
    cases hw
    case link f hi hr he => exact ⟨hi, hr, he⟩
    all_goals exact ⟨rfl, rfl, rfl⟩

theorem countError_changes (s : State) : Changes s (countError s) :=
  .single (.link s _ (le_max_left _ _) (le_max_left _ _) ((min_le_right _ _).trans (le_max_right _ _)))

theorem setRx_writes (r : Receiver) (s : State) : Writes s (setRx r s) :=
  (Write.link s (fun l => { l with rx := r }) rfl rfl rfl).chain

theorem dropFrame_changes (s : State) : Changes s (dropFrame s) :=
  (countError_changes _).after (setRx_writes _ s).changes

theorem endSilence_writes (s : State) : Writes s (endSilence s) := by
  have hsilent := (Write.link s (fun l => { l with silent := false }) rfl rfl rfl).chain
  exact Writes.ite ((report_writes _ _).after hsilent) ((Write.faults _ _ (by rfl)).chain.after hsilent)

theorem goodFrame_changes (f : Frame) (s : State) : Changes s (goodFrame f s) := by
  have htimer := (Write.link s (fun l => { l with silenceStamp := s.stamp, silenceExpired := false }) rfl rfl rfl).chain
  have hoffered : ∀ t, Changes t (if t.link.inbound.length < Config.inboundRoom then
      t.onLink fun l => { l with inbound := l.inbound ++ [f] } else countError t) := by
    intro t
    split
    · refine .single (.link t _ ?_ (le_max_left _ _) (le_max_left _ _))
      simp only [List.length_append, List.length_singleton]
      omega
    · exact countError_changes t
  exact (hoffered _).after (Writes.ite ((endSilence_writes _).after htimer) htimer).changes

theorem popInbound_changes (s : State) : Changes s (popInbound s) :=
  Changes.linkShrinks (by simp) le_rfl rfl

theorem answer_changes {f : Frame} {rule : State → State × Reply} {s : State} (hrule : Writes s (rule s).1)
    (hroom : s.link.replies.length < Config.replyRoom) : Changes s (answer f rule s) := by
  unfold answer
  refine Changes.after (.single (.link _ _ (le_max_left _ _) ?_ (le_max_left _ _))) hrule.changes
  obtain ⟨-, hreplies, -⟩ := hrule.queues
  simp only [hreplies, List.length_append, List.length_singleton]
  omega

theorem replies_of_canTake {s : State} (h : canTake s = true) : s.link.replies.length < Config.replyRoom := by
  simp only [canTake, Bool.and_eq_true, decide_eq_true_eq] at h
  exact h.1.1.2

theorem serve_changes {f : Frame} {rule : State → State × Reply} {s : State} (hrule : ∀ t, Writes t (rule t).1) :
    Changes s (serve f rule s) := by
  have htaken : ∀ t, canTake t = true → Changes t (settle (answer f rule (popInbound t))) := fun t h =>
    (settle_changes _).after ((answer_changes (hrule _) (by exact replies_of_canTake (s := t) h)).after (popInbound_changes t))
  unfold serve
  split
  · exact .refl
  · split
    · rename_i h
      exact htaken s h.2
    · dsimp only
      split
      · rename_i h
        exact (htaken _ h.2).after (goodFrame_changes f s)
      · exact (settle_changes _).after (goodFrame_changes f s)

theorem checkFrame_changes (counted : List Byte) (high low : Byte) (s : State) : Changes s (checkFrame counted high low s) := by
  unfold checkFrame
  split
  · exact Changes.ite ((goodFrame_changes _ _).after (setRx_writes _ s).changes) (dropFrame_changes s)
  · exact dropFrame_changes s

theorem receiveByte_changes (b : Byte) (s : State) : Changes s (receiveByte b s) := by
  have hrx : ∀ r, Changes s (setRx r s) := fun r => (setRx_writes r s).changes
  unfold receiveByte
  split
  · exact Changes.ite (hrx _) .refl
  · exact Changes.ite (hrx _) (dropFrame_changes s)
  · exact Changes.ite (hrx _) (hrx _)
  · exact hrx _
  · exact checkFrame_changes _ _ _ _

theorem receive_changes (b : Byte) (stopHigh : Bool) (s : State) : Changes s (receive b stopHigh s) := by
  have hchar := (Write.link s (fun l => { l with lastChar := s.stamp }) rfl rfl rfl).changes
  exact Changes.ite ((receiveByte_changes _ _).after hchar) ((dropFrame_changes _).after hchar)

/-! ## The autoload (R169, R170) -/

/-- A part at the values that the autoload finds: nothing bound, and no level and no trail at a line. -/
structure Cleared (s : State) : Prop where
  unbound : Unbound s
  lines : ∀ n : Fin 16, s.outs.lines[n].direct = false ∧ s.outs.lines[n].cue = false ∧ s.outs.lines[n].trail = none

theorem cleared_resetBlocks (phase : Phase) (rate : LinkRate) (blocks : Blocks) (s : State) :
    Cleared (resetBlocks phase rate blocks s) := by
  refine ⟨⟨rfl, rfl, rfl, rfl, fun n => ?_, fun ch => ?_⟩, fun n => ?_⟩
  · have htrack : CamUnit.reset.tracks[n] = Track.reset := by simp [CamUnit.reset]
    show trackBounds CamUnit.reset.tracks[n] = []
    rw [htrack]
    rfl
  · have hchannel : CaptureUnit.reset.channels[ch] = Channel.reset := by simp [CaptureUnit.reset]
    show gatePositions CaptureUnit.reset.channels[ch].cfg.gate = []
    rw [hchannel]
    rfl
  · simp only [resetBlocks, map_get]
    exact ⟨rfl, rfl, rfl⟩

theorem applyBlock_writes {α : Type} {b : Block α} {load : α → State → State × Bool} {s : State}
    (h : ∀ c, b = .valid c → Writes s (load c s).1) : Writes s (applyBlock b load s).1 := by
  unfold applyBlock
  split
  · exact .refl
  · exact .refl
  · exact h _ rfl

/-- What the loading of a block keeps, the block keeps in any condition. -/
theorem applyBlock_keeps {α : Type} {b : Block α} {load : α → State → State × Bool} {s : State} (p : State → Prop) (hs : p s)
    (h : ∀ c, p (load c s).1) : p (applyBlock b load s).1 := by
  unfold applyBlock
  split
  · exact hs
  · exact hs
  · exact h _

theorem loadAxis_writes {c : AxisSettings} {s : State} (hc : s.store.blocks.axis = .valid c) (hs : Unbound s) :
    Writes s (loadAxis c s).1 := by
  have hset := (Write.loadAxis s c hc hs).chain
  unfold loadAxis
  dsimp only
  split
  · exact hset
  · exact (claimAxisInputs_writes _).after hset
  · exact (claimAxisInputs_writes _).after hset

theorem loadLimits_writes (c : LimitSettings) (s : State) : Writes s (loadLimits c s).1 := by
  unfold loadLimits
  dsimp only
  exact (Write.link _ _ rfl rfl rfl).chain.after <| (Write.supply _ _).chain.after Writes.axisFlags

theorem loadLines_writes {w : Vector LineSettings 16} {s : State}
    (h : ∀ n : Fin 16, s.outs.lines[n].direct = false ∧ s.outs.lines[n].cue = false ∧ s.outs.lines[n].trail = none) :
    Writes s (loadLines w s).1 := by
  unfold loadLines
  dsimp only
  refine (Write.outs s _ fun n => ?_).chain
  rw [ofFn_get]
  obtain ⟨hdirect, hcue, htrail⟩ := h n
  exact .loaded _ hdirect hcue htrail

theorem loadInputs_writes (w : Vector InputSettings 8) (s : State) : Writes s (loadInputs w s).1 := by
  unfold loadInputs
  dsimp only
  exact (judgeFreeze_writes _).after (Write.inputs s _).chain

theorem belowModuli_of_unstaged {a : Axis} (h : a.staged = none) {p : Nat} (hp : p < a.cfg.modulus) : belowModuli a p = true :=
  (belowModuli_iff a p).2 ⟨hp, by simp [h]⟩

theorem loadChannel_writes {w : Vector ChannelSettings 4} {p : State × Bool} {ch : Fin 4} (h : p.1.axis.staged = none) :
    Writes p.1 (loadChannel w p ch).1 ∧ (loadChannel w p ch).1.axis.staged = none := by
  obtain ⟨ins, hbind⟩ := bindInput_ins ch none w[ch].input p.1
  unfold loadChannel
  split
  · rename_i hloads
    have hgate : ∀ q ∈ gatePositions w[ch].gate, belowModuli p.1.axis q = true := fun q hq =>
      belowModuli_of_unstaged h (of_decide_eq_true (List.all_eq_true.1 (Bool.and_eq_true_iff.1 hloads).1 q hq))
    refine ⟨(channelSettings_writes (cfg := w[ch]) (by intro; rfl) (by intro; rfl) ?_).after (bindInput_writes _ _ _ _), ?_⟩
    · rw [hbind]
      exact hgate
    · rw [hbind]
      exact h
  · exact ⟨.refl, h⟩

theorem loadCapture_writes {w : Vector ChannelSettings 4} {s : State} (h : s.axis.staged = none) :
    Writes s (loadCapture w s).1 ∧ (loadCapture w s).1.axis.staged = none := by
  have hfold : ∀ (l : List (Fin 4)) (p : State × Bool), p.1.axis.staged = none →
      Writes p.1 (l.foldl (loadChannel w) p).1 ∧ (l.foldl (loadChannel w) p).1.axis.staged = none := by
    intro l
    induction l with
    | nil => exact fun p hp => ⟨.refl, hp⟩
    | cons ch l ih =>
      intro p hp
      obtain ⟨hwrites, hstaged⟩ := loadChannel_writes (w := w) (ch := ch) hp
      obtain ⟨hrest, hend⟩ := ih _ hstaged
      exact ⟨hwrites.trans hrest, hend⟩
  exact hfold _ (s, false) h

theorem loadCams_writes {w : Vector TrackSettings 8} {s : State} (h : s.axis.staged = none) :
    Writes s (loadCams w s).1 := by
  unfold loadCams
  dsimp only
  refine (Write.cams s _ fun n b hb => .inr ?_).chain
  rw [map_get] at hb
  split at hb
  · rename_i hloads
    have hbounds : b ∈ profileBounds w[n].profile := by simpa [trackBounds, slotProfile, Track.reset] using hb
    exact belowModuli_of_unstaged h (of_decide_eq_true (List.all_eq_true.1 hloads b hbounds))
  · simp [trackBounds, slotProfile, Track.reset, profileBounds] at hb

theorem loadEvents_writes (w : EventSettings) (s : State) : Writes s (loadEvents w s).1 := by
  unfold loadEvents
  dsimp only
  exact (Write.events s _).chain

/-- A write of the store that leaves its blocks and the operation in flight. -/
theorem storeMarks_writes {s : State} {f : SettingStore → SettingStore} (hblocks : (f s.store).blocks = s.store.blocks)
    (hop : (f s.store).op = s.store.op) : Writes s (s.onStore f) :=
  (Write.store s f (fun _ hc => .inl (by rwa [hblocks] at hc)) fun _ _ ho _ => .inl (by rwa [hop] at ho)).chain

theorem loadAxis_keeps (c : AxisSettings) (s : State) :
    (loadAxis c s).1.outs = s.outs ∧ (loadAxis c s).1.axis.staged = s.axis.staged := by
  unfold loadAxis
  dsimp only
  split <;> exact ⟨rfl, rfl⟩

theorem loadInputs_staged (w : Vector InputSettings 8) (s : State) :
    (loadInputs w s).1.axis.staged = s.axis.staged := by
  have haxis : AxisIs s.axis (loadInputs w s).1 := judgeFreeze_kept (s.onIns _) .axis (by simp)
  rw [haxis]

theorem applySettings_writes {s : State} (h : Cleared s) : Writes s (applySettings s) := by
  obtain ⟨s1, h1⟩ : ∃ t, t = (applyBlock s.store.blocks.link loadLink s).1 := ⟨_, rfl⟩
  obtain ⟨s2, h2⟩ : ∃ t, t = (applyBlock s.store.blocks.axis loadAxis s1).1 := ⟨_, rfl⟩
  obtain ⟨s3, h3⟩ : ∃ t, t = (applyBlock s.store.blocks.limits loadLimits s2).1 := ⟨_, rfl⟩
  obtain ⟨s4, h4⟩ : ∃ t, t = (applyBlock s.store.blocks.lines loadLines s3).1 := ⟨_, rfl⟩
  obtain ⟨s5, h5⟩ : ∃ t, t = (applyBlock s.store.blocks.inputs loadInputs s4).1 := ⟨_, rfl⟩
  obtain ⟨s6, h6⟩ : ∃ t, t = (applyBlock s.store.blocks.capture loadCapture s5).1 := ⟨_, rfl⟩
  obtain ⟨s7, h7⟩ : ∃ t, t = (applyBlock s.store.blocks.cams loadCams s6).1 := ⟨_, rfl⟩
  have hstart : ∃ l, s1 = { s with link := l } :=
    h1 ▸ applyBlock_keeps (fun t => ∃ l, t = { s with link := l }) ⟨_, rfl⟩ fun _ => ⟨_, rfl⟩
  have hblank : s3.outs = s.outs ∧ s3.axis.staged = none := by
    have hlinked : s1.outs = s.outs ∧ s1.axis.staged = none := by
      obtain ⟨l, rfl⟩ := hstart
      exact ⟨rfl, h.unbound.2.2.1⟩
    have haxis : s2.outs = s.outs ∧ s2.axis.staged = none :=
      h2 ▸ applyBlock_keeps (fun t => t.outs = s.outs ∧ t.axis.staged = none) hlinked fun c => by
        obtain ⟨houts, hstaged⟩ := loadAxis_keeps c s1
        exact ⟨houts.trans hlinked.1, hstaged.trans hlinked.2⟩
    exact h3 ▸ applyBlock_keeps (fun t => t.outs = s.outs ∧ t.axis.staged = none) haxis fun _ => haxis
  have hstaged4 : s4.axis.staged = none := h4 ▸ applyBlock_keeps (fun t => t.axis.staged = none) hblank.2 fun _ => hblank.2
  have hstaged5 : s5.axis.staged = none :=
    h5 ▸ applyBlock_keeps (fun t => t.axis.staged = none) hstaged4 fun w => (loadInputs_staged w s4).trans hstaged4
  have hstaged6 : s6.axis.staged = none :=
    h6 ▸ applyBlock_keeps (fun t => t.axis.staged = none) hstaged5 fun _ => (loadCapture_writes hstaged5).2
  have w1 : Writes s s1 := h1 ▸ applyBlock_writes fun c _ => (Write.link s (fun l => { l with rate := c }) rfl rfl rfl).chain
  have w2 : Writes s1 s2 := by
    obtain ⟨l, rfl⟩ := hstart
    exact h2 ▸ applyBlock_writes fun c hc => loadAxis_writes hc h.unbound
  have w3 : Writes s2 s3 := h3 ▸ applyBlock_writes fun _ _ => loadLimits_writes _ _
  have w4 : Writes s3 s4 := h4 ▸ applyBlock_writes fun _ _ => loadLines_writes (hblank.1 ▸ h.lines)
  have w5 : Writes s4 s5 := h5 ▸ applyBlock_writes fun _ _ => loadInputs_writes _ _
  have w6 : Writes s5 s6 := h6 ▸ applyBlock_writes fun _ _ => (loadCapture_writes hstaged5).1
  have w7 : Writes s6 s7 := h7 ▸ applyBlock_writes fun _ _ => loadCams_writes hstaged6
  have w8 : Writes s7 (applyBlock s.store.blocks.events loadEvents s7).1 := applyBlock_writes fun _ _ => loadEvents_writes _ _
  have hall := w1.trans <| w2.trans <| w3.trans <| w4.trans <| w5.trans <| w6.trans <| w7.trans w8
  subst h1 h2 h3 h4 h5 h6 h7
  unfold applySettings
  exact Writes.after (storeMarks_writes (by rfl) (by rfl)) hall

theorem autoload_writes {skip : Bool} {s : State} (h : Cleared s) : Writes s (autoload skip s) := by
  unfold autoload
  split
  · split
    · rename_i c _ _
      have hlimit : Writes s (s.onStore fun x => { x with limit := c.limit }) := storeMarks_writes rfl rfl
      have hcleared : Cleared (s.onStore fun x => { x with limit := c.limit }) := ⟨h.unbound, h.lines⟩
      exact Writes.ite hlimit ((applySettings_writes hcleared).after hlimit)
    · exact .refl
  all_goals exact .refl

theorem startPart_writes (rate : LinkRate) (skip : Bool) (s : State) :
    Writes (resetBlocks .running rate s.store.blocks s) (startPart rate skip s) := by
  have hload := autoload_writes (skip := skip) (cleared_resetBlocks .running rate s.store.blocks s)
  have hsample : ∀ t (x : Stamp), Writes t (t.onAxis fun a => { a with nextSample := x }) := fun _ _ => Writes.axisFlags
  have hsilence : ∀ t (x : Stamp), Writes t (t.onLink fun l => { l with silenceStamp := x }) := fun t x =>
    (Write.link t _ rfl rfl rfl).chain
  exact (Write.clock _ _ (s.freeIndex + 1) _).chain.after <| (recomputeCams_writes _).after <|
    (Write.clock _ (autoloadEnd s.freeIndex) _ _).chain.after <| (hsilence _ _).after <| (hsample _ _).after hload

/-! ## The stamp of an edge (notes/assumptions/6) -/

theorem leaveOpen_writes (n : Fin 8) (s t : State) : Writes t (leaveOpen n s t) :=
  Writes.ite (Write.clock t t.stamp t.freeIndex _).chain .refl

theorem tick_writes (s : State) : Writes s (tick s) := by
  unfold tick
  split
  · exact .refl
  · have hflags : Writes s (s.onAxis fun a => { a with takenA := false, takenB := false, timebaseTaken := false }) :=
      Writes.axisFlags
    exact (Write.clock _ (s.stamp + 1#32) s.freeIndex none).chain.after hflags

theorem edge_changes (n : Fin 8) (s : State) : Changes s (leaveOpen n s (settle (acceptInput n s))) :=
  (leaveOpen_writes n s _).changes.after ((settle_changes _).after (acceptInput_writes n s).changes)

theorem passStamp_changes (s : State) : Changes s (passStamp s) := by
  refine (tick_writes _).changes.after (Changes.foldl _ _ (fun c hc s => ?_) s)
  simp only [timedCommands, List.mem_append, List.mem_map, List.mem_cons, List.not_mem_nil, or_false] at hc
  rcases hc with (((⟨n, -, rfl⟩ | rfl) | ⟨n, -, rfl⟩) | ⟨n, -, rfl⟩) | rfl | rfl
  · exact Changes.ite (edge_changes n s) .refl
  · exact Changes.ite ((settle_changes _).after (Writes.after (recomputeCams_writes _) Writes.axisFlags).changes) .refl
  · exact Changes.ite ((settle_changes _).after (Writes.line n .ended).changes) .refl
  · exact Changes.ite ((settle_changes _).after ((report_writes _ _).after (Writes.line n (.level rfl rfl rfl rfl))).changes)
      .refl
  · exact Changes.ite ((settle_changes _).after (dropFrame_changes s)) .refl
  · exact Changes.ite ((settle_changes _).after (Write.link s _ (by rfl) (by rfl) (by rfl)).changes) .refl

/-! ## Every command -/

/-- Where the chain of a command begins: the state it finds, that state with the edge of the decoder taken back, or the reset
values. -/
inductive Start (s : State) : State → Prop
  | same : Start s s
  | back (c : Checkpoint) (h : s.checkpoint = some c) : Start s (backTo c s)
  | reset (phase : Phase) (rate : LinkRate) (blocks : Blocks)
      (hblocks : ∀ c, blocks.axis = .valid c → s.store.blocks.axis = .valid c) : Start s (resetBlocks phase rate blocks s)

theorem takeRawChange_changes (n : Fin 8) (high : Bool) (s : State) :
    ∃ v, Start s v ∧ v.phase = s.phase ∧ Changes v (takeRawChange n high s) := by
  have hraw : ∀ u, Writes u (u.onIns fun v => updAt v n (rawChange u.stamp high)) := fun u => (Write.inputs u _).chain
  unfold takeRawChange
  dsimp only
  split
  · split
    · rename_i c hc
      exact ⟨_, .back c hc, rfl, (hraw _).changes⟩
    · exact ⟨_, .same, rfl, (hraw _).changes.after (passStamp_changes s)⟩
  · exact ⟨_, .same, rfl, (hraw _).changes⟩

theorem effect_changes {c : Instr} {s u : State} (hs : s.phase = .running) (hu : Effect c s u) :
    ∃ v, Start s v ∧ v.phase = .running ∧ Changes v u := by
  have hsame : ∀ {u}, Changes s u → ∃ v, Start s v ∧ v.phase = .running ∧ Changes v u := fun h => ⟨s, .same, hs, h⟩
  cases hu
  case received b h => exact hsame (receive_changes _ _ _)
  case gapped => exact hsame (dropFrame_changes s)
  case sent => exact hsame (Write.link s _ (by rfl) (by rfl) (by rfl)).changes
  case restarted => exact ⟨_, .reset .running _ _ fun _ h => h, rfl, (startPart_writes _ _ s).changes⟩
  case stored => exact hsame (endOperation_writes s).changes
  case rawTaken n high =>
    obtain ⟨v, hv, hphase, hchanges⟩ := takeRawChange_changes n high s
    exact ⟨v, hv, hphase.trans hs, hchanges⟩
  case counted => exact hsame ((countForward_writes _).after Writes.axisFlags).changes
  case sampled => exact hsame (Writes.after (recomputeCams_writes _) Writes.axisFlags).changes
  case leadArrived a rest _ => exact hsame ((takeLeadArrival_writes _ _).after (cueArrivals_writes s rest)).changes
  case windowArrived k rest _ => exact hsame ((takeWindowArrival_writes _ _).after (captureArrivals_writes s rest)).changes
  case trailArrived k rest _ => exact hsame ((takeTrailArrival_writes _ _).after (lineArrivals_writes s rest)).changes
  case trailExpired n => exact hsame (Writes.line n .ended).changes
  case swapped n => exact hsame ((takeBoundary_writes _).after (camBoundaries_writes s n)).changes
  case mismatched n => exact hsame ((report_writes _ _).after (Writes.line n (.level rfl rfl rfl rfl))).changes
  case silenced => exact hsame (Write.link s _ (by rfl) (by rfl) (by rfl)).changes
  case began cond r _ => exact hsame ((takeBeginning_writes _ _).after (dropReport_writes cond s)).changes
  case ended cond => exact hsame (takeEnding_writes cond s).changes

theorem axis_of_blocksAtReset {x : SettingStore} {c : AxisSettings} (h : (blocksAtReset x).axis = .valid c) :
    x.blocks.axis = .valid c := by
  unfold blocksAtReset at h
  split at h
  · exact axis_of_clearBlock (fun _ hc => by cases hc) h
  · exact h

theorem pinEffect_changes {c : Instr} {s u : State} (hu : PinEffect c s u) : ∃ v, Start s v ∧ Changes v u := by
  cases hu
  case fullReset => exact ⟨_, .reset _ _ _ fun _ => axis_of_blocksAtReset, .refl⟩
  case startedUp => exact ⟨_, .reset .running _ _ fun _ h => h, (startPart_writes _ _ s).changes⟩
  case rawChanged => exact ⟨s, .same, (Write.inputs s _).changes⟩
  case sampled n high => exact ⟨s, .same, (Writes.line n (.level rfl rfl rfl rfl)).changes⟩
  case supplied => exact ⟨s, .same, (Write.supply s _).changes⟩

theorem takes_changes {c : Instr} {s t : State} (h : Takes c s t) : ∃ v, Start s v ∧ Changes v t := by
  cases h with
  | nothing => exact ⟨s, .same, .refl⟩
  | request => exact ⟨s, .same, serve_changes (requestRule_writes c)⟩
  | effect hs hu =>
    obtain ⟨v, hv, -, hchanges⟩ := effect_changes hs hu
    exact ⟨v, hv, (settle_changes _).after hchanges⟩
  | pins hu =>
    obtain ⟨v, hv, hchanges⟩ := pinEffect_changes hu
    exact ⟨v, hv, (settle_changes _).after hchanges⟩
  | edge => exact ⟨s, .same, edge_changes _ s⟩

end Sys2Proof.Machine
end

section
/-! What every step keeps: the hold reasons and FLT#, the room of logs and queues, and the levels and trails of the lines. -/

namespace Sys2Proof.Machine

/-- A property that the start and every change of a command keep, and that does not speak of the waiting commands, is kept by
every step. -/
theorem keptByStep_of_changes {inv : State → Prop} (hpending : ∀ s l, inv s → inv { s with pending := l })
    (hstart : ∀ s v, inv s → Start s v → inv v) (hchange : ∀ s t, inv s → Change s t → inv t) : KeptByStep inv := by
  have hchanges : ∀ {s t}, inv s → Changes s t → inv t := by
    intro s t hs h
    induction h with
    | refl => exact hs
    | tail _ hc ih => exact hchange _ _ ih hc
  have hexec : ∀ {c s t}, inv s → exec c s = .next t → inv t := by
    intro c s t hs h
    obtain ⟨v, hv, hchain⟩ := takes_changes (takes_of_exec h)
    exact hchanges (hstart s v hs hv) hchain
  intro s t hs h
  unfold step at h
  split at h
  · exact hexec (hpending s _ hs) h
  · split at h
    · exact hexec hs h
    · cases h
      exact hchanges hs (tick_writes s).changes

/-! ## The hold reasons and FLT# (R48, R134) -/

theorem seqInv_of_write {s t : State} (h : Write s t) (hs : SeqInv s) : SeqInv t := by
  obtain ⟨hreasons, hpin⟩ := hs
  cases h
  case faults f hflt => exact ⟨hreasons, by rw [State.onFaults_faults, hflt]; exact hpin⟩
  case state q request pin hsafe hq hr =>
    refine ⟨hr, ?_⟩
    have hoff : s.faults.flt ≠ true := fun h => hsafe (hpin.2 h)
    exact ⟨fun h => absurd h hq, fun h => absurd h hoff⟩
  case resume => exact ⟨by simp, by simp⟩
  case safe => exact ⟨by simp, by simp⟩
  all_goals exact ⟨hreasons, hpin⟩

theorem seqInv_of_start {s v : State} (hs : SeqInv s) (h : Start s v) : SeqInv v := by
  cases h
  case reset => exact ⟨by simp [resetBlocks, Sequencer.reset], by simp [resetBlocks, Sequencer.reset, FaultMonitor.reset]⟩
  all_goals exact hs

/-- Settles O56: the writes of the Sequencer's state are those of its requests, with reasons for HOLD alone, the entry into SAFE
with FLT#, and RESUME; no other write touches the state, the reasons or the pin. -/
theorem stepKeepsReasonsAndFaultPin : Obligations.StepKeepsReasonsAndFaultPin :=
  keptByStep_of_changes (fun _ _ hs => hs) (fun _ _ => seqInv_of_start) fun _ _ hs h => by
    cases h with
    | write h => exact seqInv_of_write h hs
    | link => exact hs

/-! ## The room of logs and queues (R67, R82, R83, R157, R158) -/

theorem thinned_length {q r : List Group} (h : Thinned q r) : r.length ≤ q.length := by
  simpa using h.1.length_le

theorem roomInv_of_write {s t : State} (h : Write s t) (hs : RoomInv s) : RoomInv t := by
  obtain ⟨hlog, hcaptures, hqueues, hinbound, hreplies, herrors⟩ := hs
  have hkeep : ∀ {u : State}, u.seq.log = s.seq.log → u.capture = s.capture → u.cues.queues = s.cues.queues →
      u.link.inbound = s.link.inbound → u.link.replies = s.link.replies → u.link.errors = s.link.errors → RoomInv u := by
    intro u e1 e2 e3 e4 e5 e6
    rw [RoomInv, e1, e2, e3, e4, e5, e6]
    exact ⟨hlog, hcaptures, hqueues, hinbound, hreplies, herrors⟩
  cases h
  case link f hi hr he => exact hkeep rfl rfl rfl hi hr he
  case log l hl => exact ⟨hl.trans (max_le hlog le_rfl), hcaptures, hqueues, hinbound, hreplies, herrors⟩
  case capture f hroom _ =>
    exact ⟨hlog, fun ch => (hroom ch).trans (max_le (hcaptures ch) le_rfl), hqueues, hinbound, hreplies, herrors⟩
  case cueTable f _ hq => exact hkeep rfl rfl hq rfl rfl rfl
  case put g ch _ hroom _ _ _ =>
    refine ⟨hlog, hcaptures, fun d => ?_, hinbound, hreplies, herrors⟩
    simp only [State.onCues_cues, updAt_get]
    split
    · rw [List.length_append, List.length_singleton]
      exact hroom
    · exact hqueues d
  case thin f hf =>
    exact ⟨hlog, hcaptures, fun ch => (thinned_length (hf ch)).trans (hqueues ch), hinbound, hreplies, herrors⟩
  case resolve ch g gs entered l _ _ _ _ =>
    refine ⟨hlog, hcaptures, fun d => ?_, hinbound, hreplies, herrors⟩
    exact (thinned_length (thinned_updAt ch (thinned_of_sublist (List.tail_sublist _)) d)).trans (hqueues d)
  all_goals exact hkeep rfl rfl rfl rfl rfl rfl

theorem roomInv_of_start {s v : State} (hs : RoomInv s) (h : Start s v) : RoomInv v := by
  cases h
  case reset =>
    refine ⟨Nat.zero_le _, fun ch => ?_, fun ch => ?_, Nat.zero_le _, Nat.zero_le _, Nat.zero_le _⟩
    · simp [resetBlocks, CaptureUnit.reset, Channel.reset]
    · simp [resetBlocks, CueTable.reset]
  all_goals exact hs

/-- Settles O57: what enters a log or a queue has found room in it, and the error count stays at its largest value. -/
theorem stepKeepsLogsAndQueuesInRoom : Obligations.StepKeepsLogsAndQueuesInRoom :=
  keptByStep_of_changes (fun _ _ hs => hs) (fun _ _ => roomInv_of_start) fun _ _ hs h => by
    cases h with
    | write h => exact roomInv_of_write h hs
    | link f hi hr he =>
      obtain ⟨hlog, hcaptures, hqueues, hinbound, hreplies, herrors⟩ := hs
      exact ⟨hlog, hcaptures, hqueues, hi.trans (max_le hinbound le_rfl), hr.trans (max_le hreplies le_rfl),
        he.trans (max_le herrors le_rfl)⟩

/-! ## The levels and trails of the lines (R110, R117, R133) -/

/-- The levels and the trail of one line are in accord with its owner and the sequencer state. -/
def LineFits (q : SeqState) (l : OutLine) : Prop :=
  (l.cfg.owner ≠ .cue → l.cue = false ∧ l.trail = none) ∧ (l.cfg.owner ≠ .direct → l.direct = false) ∧
    (q = .safe → l.trail = none ∧ l.cue = false)

theorem lineInv_iff (s : State) : LineInv s ↔ ∀ n : Fin 16, LineFits s.seq.state s.outs.lines[n] := Iff.rfl

theorem lineFits_endTrail {q : SeqState} {l : OutLine} (h : LineFits q l) (r : SeqState) : LineFits r (endTrail l) :=
  ⟨fun _ => ⟨rfl, rfl⟩, h.2.1, fun _ => ⟨rfl, rfl⟩⟩

theorem lineFits_setupLine {q : SeqState} {l : OutLine} (h : LineFits q l) (cfg : LineSettings) :
    LineFits q (setupLine cfg l) := by
  obtain ⟨hcue, hdirect, hsafe⟩ := h
  by_cases howner : cfg.owner = l.cfg.owner
  · have hsame : setupLine cfg l = { l with cfg := cfg, mismatch := .agree } := by simp [setupLine, howner]
    rw [hsame]
    exact ⟨fun h => hcue (howner ▸ h), fun h => hdirect (howner ▸ h), hsafe⟩
  · refine ⟨fun h => ?_, fun h => ?_, fun h => ?_⟩
    · by_cases hleft : l.cfg.owner = .cue
      · simp [setupLine, hleft] at h ⊢
        simp [h]
      · have hnew : cfg.owner ≠ .cue := h
        simp [setupLine, hleft, hnew, hcue hleft]
    · by_cases hleft : l.cfg.owner = .direct
      · simp [setupLine, hleft] at h ⊢
        intro hd
        exact absurd hd h
      · simp [setupLine, hleft, hdirect hleft]
    · obtain ⟨htrail, hlevel⟩ := hsafe h
      simp [setupLine, htrail, hlevel]

theorem lineFits_of_lineWrite {q : SeqState} {l m : OutLine} (h : LineWrite q l m) (hl : LineFits q l) : LineFits q m := by
  cases h with
  | level hcfg hdirect hcue htrail => rwa [LineFits, hcfg, hdirect, hcue, htrail]
  | ended => exact lineFits_endTrail hl q
  | acted howner hq hcfg hdirect =>
    refine ⟨fun h => absurd (hcfg ▸ howner) h, fun _ => ?_, fun h => absurd h hq⟩
    rw [hdirect]
    exact hl.2.1 (by rw [howner]; decide)
  | driven level howner => exact ⟨hl.1, fun h => absurd howner h, hl.2.2⟩
  | setup cfg => exact lineFits_setupLine hl cfg
  | loaded cfg hdirect hcue htrail => exact ⟨fun _ => ⟨hcue, htrail⟩, fun _ => hdirect, fun _ => ⟨htrail, hcue⟩⟩

theorem lineInv_of_write {s t : State} (h : Write s t) (hs : LineInv s) : LineInv t := by
  have hleave : ∀ {q : SeqState}, q ≠ .safe → ∀ n : Fin 16, LineFits q s.outs.lines[n] := fun hq n =>
    ⟨(hs n).1, (hs n).2.1, fun h => absurd h hq⟩
  cases h
  case state q request pin _ hq _ => exact hleave hq
  case resume => exact hleave (q := .idle) (by decide)
  case safe =>
    intro n
    simp only [State.onFaults_outs, State.onOuts_outs, map_get]
    exact lineFits_endTrail (hs n) .safe
  case outs f hf => exact fun n => lineFits_of_lineWrite (hf n) (hs n)
  all_goals exact hs

theorem lineInv_of_start {s v : State} (hs : LineInv s) (h : Start s v) : LineInv v := by
  cases h
  case same => exact hs
  case back =>
    intro n
    simp only [backTo, ofFn_get]
    exact hs n
  case reset =>
    intro n
    simp only [resetBlocks, map_get]
    exact ⟨fun _ => ⟨rfl, rfl⟩, fun _ => rfl, fun _ => ⟨rfl, rfl⟩⟩

/-- Settles O58: a line is acted on by cues only under CUE and outside SAFE and set only under DIRECT, a change of owner clears what
the owner left had, and the entry into SAFE ends every trail. -/
theorem stepKeepsLineLevels : Obligations.StepKeepsLineLevels :=
  keptByStep_of_changes (fun _ _ hs => hs) (fun _ _ => lineInv_of_start) fun _ _ hs h => by
    cases h with
    | write h => exact lineInv_of_write h hs
    | link => exact hs

end Sys2Proof.Machine
end

section
/-! What every step keeps of the slots and the group numbers. -/

namespace Sys2Proof.Machine

/-! ## The queues as one list -/

/-- One entry of a bank of lists beside the others. -/
theorem flatten_set_perm {α : Type} (l : List (List α)) (i : Nat) (hi : i < l.length) :
    ∃ others : List α, l.flatten.Perm (l[i] ++ others) ∧ ∀ q, (l.set i q).flatten.Perm (q ++ others) := by
  induction l generalizing i with
  | nil => exact absurd hi (Nat.not_lt_zero i)
  | cons x l ih =>
    cases i with
    | zero => exact ⟨l.flatten, .refl _, fun _ => .refl _⟩
    | succ i =>
      obtain ⟨others, hold, hnew⟩ := ih i (Nat.lt_of_succ_lt_succ hi)
      have hswap : ∀ q, (x ++ (q ++ others)).Perm (q ++ (x ++ others)) := fun q => by
        rw [← List.append_assoc, ← List.append_assoc]
        exact List.perm_append_comm.append_right others
      exact ⟨x ++ others, (hold.append_left x).trans (hswap _), fun q => ((hnew q).append_left x).trans (hswap q)⟩

/-- The queue of one channel beside the others. -/
theorem queuedGroups_updAt (c : CueTable) (ch : Fin 4) : ∃ others : List Group,
    (queuedGroups c).Perm (c.queues[ch] ++ others) ∧
      ∀ f, (queuedGroups { c with queues := updAt c.queues ch f }).Perm (f c.queues[ch] ++ others) := by
  obtain ⟨others, hold, hnew⟩ := flatten_set_perm c.queues.toList ch.val (by simp)
  refine ⟨others, by simpa [queuedGroups] using hold, fun f => ?_⟩
  simpa [queuedGroups, updAt, Vector.toList_set] using hnew (f c.queues[ch])

theorem flatten_sublist {α β : Type} {f : List α → List β} {l m : List (List α)} (hlength : m.length = l.length)
    (h : ∀ i (hm : i < m.length) (hl : i < l.length), (f m[i]).Sublist (f l[i])) :
    ((m.map f).flatten).Sublist ((l.map f).flatten) := by
  induction l generalizing m with
  | nil => rw [List.length_eq_zero_iff.1 hlength]
  | cons x l ih =>
    cases m with
    | nil => cases hlength
    | cons y m =>
      refine (h 0 (by simp) (by simp)).append (ih (Nat.succ.inj hlength) fun i hm hl => ?_)
      exact h (i + 1) (Nat.succ_lt_succ hm) (Nat.succ_lt_succ hl)

/-- Queues that lose groups and cues, taken together. -/
theorem queuedGroups_thinned {c d : CueTable} (h : ∀ ch : Fin 4, Thinned c.queues[ch] d.queues[ch]) :
    ((queuedGroups d).map (·.number)).Sublist ((queuedGroups c).map (·.number)) ∧
      (waitingCues d).Sublist (waitingCues c) := by
  have hlength : d.queues.toList.length = c.queues.toList.length := by simp
  have hthinned : ∀ i (_ : i < d.queues.toList.length) (_ : i < c.queues.toList.length),
      Thinned c.queues.toList[i] d.queues.toList[i] := by
    intro i hd hc
    simpa using h ⟨i, by simpa using hd⟩
  have hcues : ∀ l : List (List Group), l.flatten.flatMap (·.cues) = (l.map (·.flatMap (·.cues))).flatten := by
    intro l
    induction l with
    | nil => rfl
    | cons q l ih => rw [List.flatten_cons, List.flatMap_append, ih, List.map_cons, List.flatten_cons]
  unfold waitingCues queuedGroups
  rw [List.map_flatten, List.map_flatten, hcues, hcues]
  exact ⟨flatten_sublist hlength fun i hd hc => (hthinned i hd hc).1,
    flatten_sublist hlength fun i hd hc => (hthinned i hd hc).2⟩

/-! ## Slots and group numbers (R22, R25, R83) -/

/-- The slots of the listed and the waiting cues. -/
def heldSlots (c : CueTable) : List (Fin 256) := c.list.map (·.cue.slot) ++ (waitingCues c).map (·.slot)

/-- The numbers of the queued groups. -/
def heldNumbers (c : CueTable) : List (Fin 32) := (queuedGroups c).map (·.number)

theorem slotInv_iff (s : State) : SlotInv s ↔ (heldSlots s.cues).Nodup ∧ (heldNumbers s.cues).Nodup := Iff.rfl

theorem nodup_of_subperm {α : Type} {l m : List α} (h : l.Subperm m) (hm : m.Nodup) : l.Nodup := by
  obtain ⟨k, hperm, hsub⟩ := h
  exact hperm.nodup_iff.1 (hm.sublist hsub)

theorem subperm_map {α β : Type} (f : α → β) {l m : List α} (h : l.Subperm m) : (l.map f).Subperm (m.map f) := by
  obtain ⟨k, hperm, hsub⟩ := h
  exact ⟨k.map f, hperm.map f, hsub.map f⟩

theorem slotFree_iff (c : CueTable) (slot : Fin 256) : slotFree c slot = true ↔ slot ∉ heldSlots c := by
  simp [slotFree, heldSlots]

theorem heldSlots_enter (lead : Key) (x : Listed) (c : CueTable) :
    (heldSlots { c with list := insertCue lead x c.list }).Perm (x.cue.slot :: heldSlots c) :=
  ((insertCue_perm lead x c.list).map _).append_right _

/-- A group behind its queue. -/
theorem held_put (c : CueTable) (ch : Fin 4) (g : Group) :
    (heldSlots { c with queues := updAt c.queues ch (· ++ [g]) }).Perm (g.cues.map (·.slot) ++ heldSlots c) ∧
      (heldNumbers { c with queues := updAt c.queues ch (· ++ [g]) }).Perm (g.number :: heldNumbers c) := by
  obtain ⟨others, hold, hnew⟩ := queuedGroups_updAt c ch
  have hall : (queuedGroups { c with queues := updAt c.queues ch (· ++ [g]) }).Perm (g :: queuedGroups c) := by
    refine (hnew _).trans (.trans ?_ (hold.symm.cons g))
    rw [List.append_assoc]
    exact List.perm_middle
  refine ⟨?_, hall.map _⟩
  have hwaiting : (waitingCues { c with queues := updAt c.queues ch (· ++ [g]) }).Perm (g.cues ++ waitingCues c) :=
    hall.flatMap_right _
  refine ((hwaiting.map (·.slot)).append_left _).trans ?_
  rw [List.map_append, heldSlots, ← List.append_assoc, ← List.append_assoc]
  exact List.perm_append_comm.append_right _

/-- The oldest group out of its queue. -/
theorem held_popped {c : CueTable} {ch : Fin 4} {g : Group} {gs : List Group} (hq : c.queues[ch] = g :: gs) :
    (waitingCues c).Perm (g.cues ++ waitingCues { c with queues := updAt c.queues ch List.tail }) ∧
      (heldNumbers c).Perm (g.number :: heldNumbers { c with queues := updAt c.queues ch List.tail }) := by
  obtain ⟨others, hold, hnew⟩ := queuedGroups_updAt c ch
  have hall : (queuedGroups c).Perm (g :: queuedGroups { c with queues := updAt c.queues ch List.tail }) := by
    refine hold.trans (.trans ?_ ((hnew List.tail).symm.cons g))
    rw [hq]
    exact .refl _
  exact ⟨hall.flatMap_right _, hall.map _⟩

/-- The cues of a resolved group have left the waiting ones for the list. -/
theorem heldSlots_resolved {c : CueTable} {ch : Fin 4} {g : Group} {gs : List Group} {entered l : List Listed}
    (hq : c.queues[ch] = g :: gs) (hcues : (entered.map (·.cue)).Sublist g.cues) (hl : l.Perm (entered ++ c.list)) :
    (heldSlots { c with list := l, queues := updAt c.queues ch List.tail }).Subperm (heldSlots c) := by
  have hslots : (l.map (·.cue.slot)).Subperm (g.cues.map (·.slot) ++ c.list.map (·.cue.slot)) := by
    have hentered : (entered.map (·.cue.slot)).Sublist (g.cues.map (·.slot)) := by
      simpa [Function.comp_def] using hcues.map (·.slot)
    refine (hl.map _).subperm.trans ?_
    rw [List.map_append]
    exact (hentered.append_right _).subperm
  have hwaiting := (held_popped hq).1.map (·.slot)
  rw [List.map_append] at hwaiting
  refine (hslots.append (List.Subperm.refl _)).trans (List.Perm.subperm ?_)
  refine .trans ?_ (hwaiting.symm.append_left _)
  rw [List.append_assoc, ← List.append_assoc, ← List.append_assoc]
  exact List.perm_append_comm.append_right _

theorem slotInv_of_write {s t : State} (h : Write s t) (hs : SlotInv s) : SlotInv t := by
  rw [slotInv_iff] at hs ⊢
  obtain ⟨hslots, hnumbers⟩ := hs
  cases h
  case cueTable f hlist hqueues =>
    have hsame : heldSlots (f s.cues) = heldSlots s.cues ∧ heldNumbers (f s.cues) = heldNumbers s.cues := by
      simp only [heldSlots, heldNumbers, waitingCues, queuedGroups, hlist, hqueues, and_self]
    exact ⟨hsame.1.symm ▸ hslots, hsame.2.symm ▸ hnumbers⟩
  case list l hl =>
    have hsub : (l.map (·.cue.slot)).Subperm (s.cues.list.map (·.cue.slot)) := by
      simpa [Function.comp_def, place] using subperm_map Prod.fst hl
    exact ⟨nodup_of_subperm (hsub.append (List.Subperm.refl _)) hslots, hnumbers⟩
  case enter x hfree _ =>
    refine ⟨(heldSlots_enter _ x s.cues).nodup_iff.2 (List.nodup_cons.2 ⟨?_, hslots⟩), hnumbers⟩
    exact (slotFree_iff _ _).1 hfree
  case put g ch hnumber _ hfree hnew _ =>
    obtain ⟨hputSlots, hputNumbers⟩ := held_put s.cues ch g
    refine ⟨hputSlots.nodup_iff.2 (List.nodup_append'.2 ⟨hnew, hslots, ?_⟩), hputNumbers.nodup_iff.2 (List.nodup_cons.2 ⟨?_, hnumbers⟩)⟩
    · intro slot hslot
      obtain ⟨c, hc, rfl⟩ := List.mem_map.1 hslot
      exact (slotFree_iff _ _).1 (hfree c hc)
    · intro hmem
      obtain ⟨h, hh, he⟩ := List.mem_map.1 hmem
      exact hnumber h hh he
  case thin f hf =>
    obtain ⟨hthinned, hwaiting⟩ := queuedGroups_thinned (c := s.cues) (d := { s.cues with queues := f s.cues.queues }) hf
    exact ⟨hslots.sublist ((List.Sublist.refl _).append (hwaiting.map _)), hnumbers.sublist hthinned⟩
  case resolve ch g gs entered l hq hcues _ hl =>
    refine ⟨nodup_of_subperm (heldSlots_resolved hq hcues hl) hslots, ?_⟩
    exact (List.nodup_cons.1 ((held_popped hq).2.nodup_iff.1 hnumbers)).2
  all_goals exact ⟨hslots, hnumbers⟩

theorem slotInv_of_start {s v : State} (hs : SlotInv s) (h : Start s v) : SlotInv v := by
  cases h
  case reset =>
    show (heldSlots CueTable.reset).Nodup ∧ (heldNumbers CueTable.reset).Nodup
    decide
  all_goals exact hs

/-- Settles O60: a cue enters on a free slot, a group with a free number and free slots, a resolved group carries its cues from its
queue to the list, and every other write takes cues and groups away or hands a cue back on its own slot. -/
theorem stepKeepsSlotsInOnePlace : Obligations.StepKeepsSlotsInOnePlace :=
  keptByStep_of_changes (fun _ _ hs => hs) (fun _ _ => slotInv_of_start) fun _ _ hs h => by
    cases h with
    | write h => exact slotInv_of_write h hs
    | link => exact hs

end Sys2Proof.Machine
end

section
/-! What every step keeps of the axis and what is bound to its moduli, and of the part as the first edge of the decoder at a stamp
would find it again. -/

namespace Sys2Proof.Machine

/-! ## The bound set (R10) -/

theorem mem_boundSet {s : State} {b : Nat} : b ∈ boundSet s ↔ (∃ x ∈ s.cues.list, x.key.pos = b) ∨ b = s.axis.cfg.home ∨
    (∃ n : Fin 8, b ∈ trackBounds s.cams.tracks[n]) ∨
      ∃ ch : Fin 4, b ∈ gatePositions s.capture.channels[ch].cfg.gate := by
  have htracks : (∃ t ∈ s.cams.tracks.toList, b ∈ trackBounds t) ↔ ∃ n : Fin 8, b ∈ trackBounds s.cams.tracks[n] := by
    constructor
    · rintro ⟨t, ht, hb⟩
      obtain ⟨i, hi, rfl⟩ := Vector.mem_iff_getElem.1 (Vector.mem_toList_iff.1 ht)
      exact ⟨⟨i, hi⟩, hb⟩
    · rintro ⟨n, hb⟩
      exact ⟨_, Vector.mem_toList_iff.2 (Vector.getElem_mem n.isLt), hb⟩
  have hgates : (∃ c ∈ s.capture.channels.toList, b ∈ gatePositions c.cfg.gate) ↔
      ∃ ch : Fin 4, b ∈ gatePositions s.capture.channels[ch].cfg.gate := by
    constructor
    · rintro ⟨c, hc, hb⟩
      obtain ⟨i, hi, rfl⟩ := Vector.mem_iff_getElem.1 (Vector.mem_toList_iff.1 hc)
      exact ⟨⟨i, hi⟩, hb⟩
    · rintro ⟨ch, hb⟩
      exact ⟨_, Vector.mem_toList_iff.2 (Vector.getElem_mem ch.isLt), hb⟩
  rw [← htracks, ← hgates]
  simp only [boundSet, trackBounds, List.mem_append, List.mem_map, List.mem_singleton, List.mem_flatMap, or_assoc]

theorem home_mem_boundSet (s : State) : s.axis.cfg.home ∈ boundSet s := mem_boundSet.2 (.inr (.inl rfl))

theorem mem_queuedGroups {c : CueTable} {g : Group} : g ∈ queuedGroups c ↔ ∃ ch : Fin 4, g ∈ c.queues[ch] := by
  unfold queuedGroups
  rw [List.mem_flatten]
  constructor
  · rintro ⟨q, hq, hg⟩
    obtain ⟨i, hi, rfl⟩ := Vector.mem_iff_getElem.1 (Vector.mem_toList_iff.1 hq)
    exact ⟨⟨i, hi⟩, hg⟩
  · rintro ⟨ch, hg⟩
    exact ⟨_, Vector.mem_toList_iff.2 (Vector.getElem_mem ch.isLt), hg⟩

/-! ## The axis and its moduli (R10, R11) -/

/-- The stored axis settings, and those a save in flight will store, are in range. -/
def StoreFits (x : SettingStore) : Prop :=
  (∀ c, x.blocks.axis = .valid c → settingsFit c) ∧ ∀ o c, x.op = some o → o.work = .writing (.axis c) → settingsFit c

/-- The settings and points of the axis, and a bound set under the modulus in force and a staged one. -/
def ModuliFit (a : Axis) (queued : List Group) (bounds : List Nat) : Prop :=
  settingsFit a.cfg ∧ a.current.pos < a.cfg.modulus ∧ a.lead.pos < a.cfg.modulus ∧ (∀ b ∈ bounds, b < a.cfg.modulus) ∧
    ∀ m, a.staged = some m → 16 ≤ m ∧ m ≤ 4000000 ∧ queued = [] ∧ ∀ b ∈ bounds, b < m

theorem axisFits_iff (s : State) : AxisFits s ↔ ModuliFit s.axis (queuedGroups s.cues) (boundSet s) ∧ StoreFits s.store := by
  simp only [AxisFits, ModuliFit, StoreFits, and_assoc]

theorem mem_of_thinned {q r : List Group} {g : Group} (h : Thinned q r) (hg : g ∈ r) : ∃ k, k ∈ q := by
  obtain ⟨k, hk, -⟩ := List.mem_map.1 (h.1.subset (List.mem_map_of_mem hg))
  exact ⟨k, hk⟩

/-- No group comes into queues that are thinned. -/
theorem queuedGroups_of_thinned {c d : CueTable} (h : ∀ ch : Fin 4, Thinned c.queues[ch] d.queues[ch])
    (hc : queuedGroups c = []) : queuedGroups d = [] := by
  rw [List.eq_nil_iff_forall_not_mem]
  intro g hg
  obtain ⟨ch, hch⟩ := mem_queuedGroups.1 hg
  obtain ⟨k, hk⟩ := mem_of_thinned (h ch) hch
  have hmem : k ∈ queuedGroups c := mem_queuedGroups.2 ⟨ch, hk⟩
  rw [hc] at hmem
  cases hmem

/-- The settings in force and a staged modulus stay, the points stay below them, and what comes into the bound set lies below
both. -/
theorem ModuliFit.mono {a b : Axis} {queued queued' : List Group} {bounds bounds' : List Nat} (h : ModuliFit a queued bounds)
    (hcfg : b.cfg = a.cfg) (hstaged : b.staged = a.staged) (hcurrent : b.current.pos < a.cfg.modulus)
    (hlead : b.lead.pos < a.cfg.modulus) (hqueued : ∀ m, a.staged = some m → queued = [] → queued' = [])
    (hbounds : ∀ p ∈ bounds', p ∈ bounds ∨ belowModuli a p = true) : ModuliFit b queued' bounds' := by
  obtain ⟨hfit, -, -, hbelow, hnext⟩ := h
  rw [ModuliFit, hcfg, hstaged]
  refine ⟨hfit, hcurrent, hlead, fun p hp => ?_, fun m hm => ?_⟩
  · exact (hbounds p hp).elim (hbelow p) fun h => ((belowModuli_iff a p).1 h).1
  · obtain ⟨hlow, hhigh, hnone, hunder⟩ := hnext m hm
    exact ⟨hlow, hhigh, hqueued m hm hnone, fun p hp =>
      (hbounds p hp).elim (hunder p) fun h => ((belowModuli_iff a p).1 h).2 m hm⟩

/-- A write beside the axis. -/
theorem ModuliFit.beside {s t : State} (h : ModuliFit s.axis (queuedGroups s.cues) (boundSet s)) (haxis : t.axis = s.axis)
    (hqueued : ∀ m, s.axis.staged = some m → queuedGroups s.cues = [] → queuedGroups t.cues = [])
    (hbounds : ∀ p ∈ boundSet t, p ∈ boundSet s ∨ belowModuli s.axis p = true) :
    ModuliFit t.axis (queuedGroups t.cues) (boundSet t) :=
  h.mono (by rw [haxis]) (by rw [haxis]) (by rw [haxis]; exact h.2.1) (by rw [haxis]; exact h.2.2.1) hqueued hbounds

/-- The staged modulus comes into force at position 0 (R11). -/
theorem ModuliFit.crossed {a : Axis} {queued : List Group} {bounds : List Nat} (h : ModuliFit a queued bounds)
    (hhome : a.cfg.home ∈ bounds) (hcurrent : a.current.pos = 0) (hlead : a.lead.pos = 0) :
    ModuliFit { a with cfg := { a.cfg with modulus := a.staged.getD a.cfg.modulus }, staged := none } queued bounds := by
  obtain ⟨⟨hk, hmin, hmax, hunder⟩, hc, hl, hbelow, hnext⟩ := h
  cases hstaged : a.staged with
  | none => exact ⟨⟨hk, hmin, hmax, hunder⟩, hc, hl, hbelow, by rintro m ⟨⟩⟩
  | some m =>
    obtain ⟨hlow, hhigh, -, hunder'⟩ := hnext m hstaged
    have hpos : 0 < m := by omega
    exact ⟨⟨hk, hlow, hhigh, hunder' _ hhome⟩, hcurrent ▸ hpos, hlead ▸ hpos, hunder', by rintro m ⟨⟩⟩

theorem modulusInRange_iff (m : Nat) : modulusInRange m = true ↔ 16 ≤ m ∧ m ≤ 4000000 := by
  simp [modulusInRange]

/-- The bound set when one of the blocks it is taken from has been written. -/
theorem boundSet_subset {s t : State} (hhome : t.axis.cfg.home = s.axis.cfg.home)
    (hlist : ∀ x ∈ t.cues.list, (∃ y ∈ s.cues.list, y.key.pos = x.key.pos) ∨ belowModuli s.axis x.key.pos = true)
    (htracks : ∀ n : Fin 8, ∀ b ∈ trackBounds t.cams.tracks[n],
      b ∈ trackBounds s.cams.tracks[n] ∨ belowModuli s.axis b = true)
    (hgates : ∀ ch : Fin 4, ∀ b ∈ gatePositions t.capture.channels[ch].cfg.gate,
      b ∈ gatePositions s.capture.channels[ch].cfg.gate ∨ belowModuli s.axis b = true) :
    ∀ b ∈ boundSet t, b ∈ boundSet s ∨ belowModuli s.axis b = true := by
  intro b hb
  rcases mem_boundSet.1 hb with ⟨x, hx, rfl⟩ | rfl | ⟨n, hn⟩ | ⟨ch, hch⟩
  · exact (hlist x hx).imp_left fun h => mem_boundSet.2 (.inl h)
  · exact .inl (mem_boundSet.2 (.inr (.inl hhome)))
  · exact (htracks n b hn).imp_left fun h => mem_boundSet.2 (.inr (.inr (.inl ⟨n, h⟩)))
  · exact (hgates ch b hch).imp_left fun h => mem_boundSet.2 (.inr (.inr (.inr ⟨ch, h⟩)))

/-- A home position below the moduli (R14). -/
theorem moduliFit_home {s : State} {p : Nat} (homing : Bool) (hp : belowModuli s.axis p = true)
    (hs : ModuliFit s.axis (queuedGroups s.cues) (boundSet s)) :
    ModuliFit { s.axis with cfg := { s.axis.cfg with home := p }, homing := homing } (queuedGroups s.cues)
      (boundSet (s.onAxis fun a => { a with cfg := { a.cfg with home := p }, homing := homing })) := by
  obtain ⟨⟨hk, hmin, hmax, -⟩, hcurrent, hlead, hbelow, hnext⟩ := hs
  have hbounds : ∀ b ∈ boundSet (s.onAxis fun a => { a with cfg := { a.cfg with home := p }, homing := homing }),
      b ∈ boundSet s ∨ b = p := by
    intro b hb
    rcases mem_boundSet.1 hb with h | h | h
    · exact .inl (mem_boundSet.2 (.inl h))
    · exact .inr h
    · exact .inl (mem_boundSet.2 (.inr (.inr h)))
  obtain ⟨hpos, hposNext⟩ := (belowModuli_iff _ _).1 hp
  refine ⟨⟨hk, hmin, hmax, hpos⟩, hcurrent, hlead, fun b hb => ?_, fun m hm => ?_⟩
  · exact (hbounds b hb).elim (hbelow b) fun h => h ▸ hpos
  · obtain ⟨hlow, hhigh, hnone, hunder⟩ := hnext m hm
    exact ⟨hlow, hhigh, hnone, fun b hb => (hbounds b hb).elim (hunder b) fun h => h ▸ hposNext m hm⟩

/-- A modulus without a conflict is staged (R11). -/
theorem ModuliFit.stage {a : Axis} {queued : List Group} {bounds : List Nat} {m : Nat} (h : ModuliFit a queued bounds)
    (hm : modulusInRange m = true) (hqueued : queued = []) (hbound : ∀ b ∈ bounds, b < m) :
    ModuliFit { a with staged := some m } queued bounds := by
  obtain ⟨hfit, hcurrent, hlead, hbelow, -⟩ := h
  obtain ⟨hmin, hmax⟩ := (modulusInRange_iff m).1 hm
  refine ⟨hfit, hcurrent, hlead, hbelow, fun n hn => ?_⟩
  cases hn
  exact ⟨hmin, hmax, hqueued, hbound⟩

theorem home_of_mem_boundSet {s : State} (h : Unbound s) {b : Nat} (hb : b ∈ boundSet s) : b = s.axis.cfg.home := by
  obtain ⟨-, -, -, hempty, htracks, hgates⟩ := h
  rcases mem_boundSet.1 hb with ⟨x, hx, -⟩ | rfl | ⟨n, hn⟩ | ⟨ch, hch⟩
  · rw [hempty] at hx
    cases hx
  · rfl
  · rw [htracks] at hn
    cases hn
  · rw [hgates] at hch
    cases hch

/-- Settings in range on an axis at its origin to which nothing is bound (R170). -/
theorem moduliFit_unbound {s : State} (h : Unbound s) (hfit : settingsFit s.axis.cfg) :
    ModuliFit s.axis (queuedGroups s.cues) (boundSet s) := by
  obtain ⟨hcurrent, hlead, hstaged, -⟩ := id h
  have hpos : 0 < s.axis.cfg.modulus := Nat.zero_lt_of_lt hfit.2.2.2
  refine ⟨hfit, hcurrent ▸ hpos, hlead ▸ hpos, fun b hb => ?_, fun m hm => ?_⟩
  · rw [home_of_mem_boundSet h hb]
    exact hfit.2.2.2
  · rw [hstaged] at hm
    cases hm

theorem moduliFit_setup {s : State} {f : Axis → Axis} {source : AxisSource} {k m : Nat}
    (hcfg : (f s.axis).cfg = { s.axis.cfg with source := source, k := k, modulus := m }) (hstaged : (f s.axis).staged = none)
    (hk : k ≤ 12) (hm : modulusInRange m = true) (hbound : ∀ b ∈ boundSet s, b < m) (hcurrent : (f s.axis).current.pos < m)
    (hlead : (f s.axis).lead.pos < m) : ModuliFit (f s.axis) (queuedGroups s.cues) (boundSet (s.onAxis f)) := by
  obtain ⟨hmin, hmax⟩ := (modulusInRange_iff m).1 hm
  have hbounds : boundSet (s.onAxis f) = boundSet s := by simp only [boundSet, State.onAxis_axis, hcfg]; rfl
  rw [hbounds, ModuliFit, hcfg, hstaged]
  exact ⟨⟨hk, hmin, hmax, hbound _ (home_mem_boundSet s)⟩, hcurrent, hlead, hbound, nofun⟩

/-- A cue whose key lies below the moduli enters the list. -/
theorem moduliFit_enterCue {s : State} {x : Listed} (hpos : belowModuli s.axis x.key.pos = true)
    (hs : ModuliFit s.axis (queuedGroups s.cues) (boundSet s)) :
    ModuliFit (enterCue x s).axis (queuedGroups (enterCue x s).cues) (boundSet (enterCue x s)) := by
  refine hs.beside rfl (fun _ _ h => h) (boundSet_subset rfl (fun y hy => ?_) (fun _ _ => .inl) fun _ _ => .inl)
  rcases (mem_insertCue _ _ _ _).1 hy with h | h
  · exact .inr (by rw [h]; exact hpos)
  · exact .inl ⟨y, h, rfl⟩

theorem moduliFit_of_write {s t : State} (h : Write s t) (hs : ModuliFit s.axis (queuedGroups s.cues) (boundSet s))
    (hstore : StoreFits s.store) : ModuliFit t.axis (queuedGroups t.cues) (boundSet t) := by
  have hsame : ∀ {u : State}, u.axis = s.axis → queuedGroups u.cues = queuedGroups s.cues →
      (∀ b ∈ boundSet u, b ∈ boundSet s ∨ belowModuli s.axis b = true) →
      ModuliFit u.axis (queuedGroups u.cues) (boundSet u) := fun haxis hqueued hbounds =>
    hs.beside haxis (fun _ _ => hqueued.trans) hbounds
  have hlist : ∀ l : List Listed,
      (∀ x ∈ l, (∃ y ∈ s.cues.list, y.key.pos = x.key.pos) ∨ belowModuli s.axis x.key.pos = true) →
      ∀ q, ∀ b ∈ boundSet (s.onCues fun c => { c with list := l, queues := q }),
        b ∈ boundSet s ∨ belowModuli s.axis b = true := fun l hl q =>
    boundSet_subset rfl hl (fun _ _ => .inl) fun _ _ => .inl
  obtain ⟨hfit, hcurrent, hlead, -, hnext⟩ := id hs
  cases h
  case points f hcfg hstaged hc hl =>
    refine hs.mono hcfg hstaged (hc hcurrent hlead hfit.2.2.2) (hl hcurrent hlead hfit.2.2.2) (fun _ _ => id) ?_
    exact boundSet_subset (congrArg (·.home) hcfg) (fun x hx => .inl ⟨x, hx, rfl⟩) (fun _ _ => .inl) fun _ _ => .inl
  case cross hc hl => exact hs.crossed (home_mem_boundSet s) hc hl
  case setup f source k m hcfg hstaged hc hl hk hm hbound hcpos hlpos =>
    exact moduliFit_setup hcfg hstaged hk hm hbound (hc ▸ hcpos) (hl ▸ hlpos)
  case home p homing hp => exact moduliFit_home homing hp hs
  case stage m hm hfree =>
    obtain ⟨hbound, hqueued⟩ := lt_of_not_modulusConflicts hfree
    exact hs.stage hm hqueued hbound
  case loadAxis c hc hunbound =>
    exact moduliFit_unbound (s := s.onAxis fun a => { a with cfg := c }) hunbound (hstore.1 c hc)
  case capture f _ hgate =>
    exact hsame rfl rfl (boundSet_subset rfl (fun x hx => .inl ⟨x, hx, rfl⟩) (fun _ _ => .inl) hgate)
  case cams f hf =>
    exact hsame rfl rfl (boundSet_subset rfl (fun x hx => .inl ⟨x, hx, rfl⟩) hf fun _ _ => .inl)
  case cueTable f hl hq =>
    refine hsame rfl (by simp only [queuedGroups, State.onCues_cues, hq]) (boundSet_subset rfl (fun x hx => .inl ⟨x, ?_, rfl⟩)
      (fun _ _ => .inl) fun _ _ => .inl)
    rwa [State.onCues_cues, hl] at hx
  case list l hl =>
    refine hsame rfl rfl (hlist l (fun x hx => .inl ?_) _)
    obtain ⟨y, hy, he⟩ := List.mem_map.1 (hl.subset (List.mem_map_of_mem hx))
    exact ⟨y, hy, congrArg Prod.snd he⟩
  case enter x _ hpos => exact moduliFit_enterCue hpos hs
  case put g ch _ _ _ _ hstaged =>
    refine hs.beside rfl (fun m hm => ?_) (hlist _ (fun x hx => .inl ⟨x, hx, rfl⟩) _)
    rw [hstaged] at hm
    cases hm
  case thin f hf =>
    exact hs.beside rfl (fun _ _ => queuedGroups_of_thinned hf) (hlist _ (fun x hx => .inl ⟨x, hx, rfl⟩) _)
  case resolve ch g gs entered l hq _ hpos hl =>
    have hmem : g ∈ queuedGroups s.cues := mem_queuedGroups.2 ⟨ch, by rw [hq]; exact List.mem_cons_self⟩
    have hstaged : s.axis.staged = none := by
      cases he : s.axis.staged with
      | none => rfl
      | some m =>
        obtain ⟨-, -, hnone, -⟩ := hnext m he
        rw [hnone] at hmem
        cases hmem
    refine hs.beside rfl (fun m hm => ?_) (hlist _ (fun x hx => ?_) _)
    · rw [hstaged] at hm
      cases hm
    · rcases List.mem_append.1 (hl.subset hx) with h | h
      · exact .inr (belowModuli_of_unstaged hstaged (hpos x h (Nat.zero_lt_of_lt hcurrent)))
      · exact .inl ⟨x, h, rfl⟩
  all_goals exact hs

theorem storeFits_of_write {s t : State} (h : Write s t) (hfit : settingsFit s.axis.cfg) (hs : StoreFits s.store) :
    StoreFits t.store := by
  cases h
  case store f hblock hop =>
    refine ⟨fun c hc => ?_, fun o c ho hw => ?_⟩
    · rcases hblock c hc with h | ⟨o, ho, hw⟩
      · exact hs.1 c h
      · exact hs.2 o c ho hw
    · rcases hop o c ho hw with h | rfl
      · exact hs.2 o c h hw
      · exact hfit
  all_goals exact hs

theorem axisFits_of_change {s t : State} (h : Change s t) (hs : AxisFits s) : AxisFits t := by
  cases h with
  | link => exact hs
  | write h =>
    rw [axisFits_iff] at hs ⊢
    exact ⟨moduliFit_of_write h hs.1 hs.2, storeFits_of_write h hs.1.1 hs.2⟩

theorem axisFits_of_changes {s t : State} (h : Changes s t) (hs : AxisFits s) : AxisFits t := by
  induction h with
  | refl => exact hs
  | tail _ hc ih => exact axisFits_of_change hc ih

theorem axisFits_resetBlocks {s : State} (hs : AxisFits s) (phase : Phase) (rate : LinkRate) {blocks : Blocks}
    (hblocks : ∀ c, blocks.axis = .valid c → s.store.blocks.axis = .valid c) :
    AxisFits (resetBlocks phase rate blocks s) := by
  obtain ⟨hunbound, -⟩ := cleared_resetBlocks phase rate blocks s
  have hfit : settingsFit Axis.reset.cfg := by
    unfold settingsFit
    decide
  rw [axisFits_iff] at hs ⊢
  exact ⟨moduliFit_unbound hunbound hfit, fun c hc => hs.2.1 c (hblocks c hc), fun o c ho => by cases ho⟩

/-! ## The part with the first edge of a stamp taken again (notes/assumptions/6) -/

/-- What a command keeps of the parts that the axis is bound to keeps the axis fit. -/
theorem axisFits_of_kept {s t : State} (h : KeptBut [] s t) (hs : AxisFits s) : AxisFits t := by
  have haxis : AxisIs s.axis t := h .axis (by simp)
  have hcues : t.cues = s.cues := h .cues (by simp)
  have hcapture : t.capture = s.capture := h .capture (by simp)
  have hcams : t.cams = s.cams := h .cams (by simp)
  have hstore : t.store = s.store := h .store (by simp)
  have hbounds : boundSet t = boundSet s := by
    rw [boundSet, hcues, hcapture, hcams, haxis]
    rfl
  rw [axisFits_iff] at hs ⊢
  rw [hbounds, hcues, hstore, haxis]
  exact hs

theorem axisInv_of_fits {t : State} (h : AxisFits t) (hnone : t.checkpoint = none) : AxisInv t :=
  ⟨h, by rwa [reopened_of_none hnone]⟩

theorem axisFits_of_start {s v : State} (hs : AxisInv s) (h : Start s v) : AxisFits v := by
  obtain ⟨hfits, hopen⟩ := hs
  cases h with
  | same => exact hfits
  | back c hc => simpa only [reopened, hc] using hopen
  | reset phase rate blocks hblocks => exact axisFits_resetBlocks hfits phase rate hblocks

/-- An edge of the decoder moves nothing but what the checkpoint holds. -/
theorem decoderCount_restored (forward : Bool) (s : State) :
    (decoderCount forward s).cues = { s.cues with arrivals := (decoderCount forward s).cues.arrivals } ∧
      (decoderCount forward s).capture = { s.capture with arrivals := (decoderCount forward s).capture.arrivals } ∧
      LinesAre (fun n => s.outs.lines[n]) (decoderCount forward s) := by
  cases hrun : s.axis.running
  · rw [show decoderCount forward s = s by simp [decoderCount, hrun]]
    exact ⟨rfl, rfl, fun _ => rfl⟩
  · obtain ⟨-, -, -, hcues, hcapture, -, hlines, -⟩ := decoderCount_spec forward s hrun
    exact ⟨by rw [hcues], by rw [hcapture], hlines⟩

theorem decode_restored (rising0 a b : Bool) (s : State) :
    (decode rising0 a b s).cues = { s.cues with arrivals := (decode rising0 a b s).cues.arrivals } ∧
      (decode rising0 a b s).capture = { s.capture with arrivals := (decode rising0 a b s).capture.arrivals } ∧
      LinesAre (fun n => s.outs.lines[n]) (decode rising0 a b s) := by
  unfold decode
  split
  · unfold quadDecode
    dsimp only
    split
    · exact ⟨rfl, rfl, fun _ => rfl⟩
    · exact decoderCount_restored true (s.onAxis _)
    · exact decoderCount_restored false (s.onAxis _)
    · exact ⟨rfl, rfl, fun _ => rfl⟩
  · split
    · exact decoderCount_restored b s
    · exact ⟨rfl, rfl, fun _ => rfl⟩
  · exact ⟨rfl, rfl, fun _ => rfl⟩

/-- The levels accepted and the marks of the stamp are written before the decoder acts. -/
theorem acceptAxis_eq (s : State) : ∃ ins axis rising0 a b, acceptAxis s = decode rising0 a b { s with ins := ins, axis := axis } := by
  unfold acceptAxis
  dsimp only
  split <;> split <;> exact ⟨_, _, _, _, _, rfl⟩

theorem acceptInput_of_axisHolds {n : Fin 8} {s : State} (h : axisHolds s.ins[n] = true) : acceptInput n s = acceptAxis s := by
  have hfn : s.ins[n].fn = .axisA ∨ s.ins[n].fn = .axisB := by simpa [axisHolds] using h
  unfold acceptInput
  rcases hfn with hfn | hfn <;> simp only [hfn]

/-- The part before an edge of the decoder comes back whole from the state after it. -/
theorem edge_reopens {n : Fin 8} {s : State} (h : axisHolds s.ins[n] = true) :
    KeptBut [] s (backTo (checkpointOf s) (settle (acceptInput n s))) := by
  rw [acceptInput_of_axisHolds h]
  have hsettle := settle_kept (acceptAxis s)
  have hkept : KeptBut [.axis, .inputs, .cams, .cues, .capture, .lines, .events] s (settle (acceptAxis s)) :=
    settled_kept ((acceptAxis_kept s).mono (by simp))
  obtain ⟨ins, axis, rising0, a, b, he⟩ := acceptAxis_eq s
  obtain ⟨hcues, hcapture, hlines⟩ := decode_restored rising0 a b { s with ins := ins, axis := axis }
  rw [← he] at hcues hcapture hlines
  refine backTo_kept hkept ?_ ?_ (hlines.trans (hsettle .lines (by simp)).2)
  · rw [settle_cues, hcues]
  · rw [settle_capture, hcapture]

/-! ## Every command -/

theorem phase_of_changes {s t : State} (h : Changes s t) : t.phase = s.phase := by
  induction h with
  | refl => rfl
  | tail _ hc ih =>
    rw [← ih]
    cases hc with
    | link => rfl
    | write hw => cases hw <;> rfl

theorem serve_checkpoint {f : Frame} {rule : State → State × Reply} {s : State} (hrule : ∀ t, Writes t (rule t).1)
    (hrun : s.phase = .running) : (serve f rule s).checkpoint = none := by
  have hphase : (serve f rule s).phase = .running := (phase_of_changes (serve_changes hrule)).trans hrun
  have hsettled : ∃ u, serve f rule s = settle u := by
    unfold serve
    rw [if_neg (by rw [hrun]; decide)]
    split
    · exact ⟨_, rfl⟩
    · dsimp only
      split <;> exact ⟨_, rfl⟩
  obtain ⟨u, hu⟩ := hsettled
  rw [hu] at hphase ⊢
  exact settle_checkpoint (by rwa [settle_phase] at hphase)

theorem serve_held {f : Frame} {rule : State → State × Reply} {s : State} (h : s.phase = .held) : serve f rule s = s := by
  unfold serve
  rw [if_pos h]

/-- A pin that moves while the part is held is beside the axis and what it is bound to, and leaves the checkpoint. -/
theorem axisInv_of_pins {s t : State} (hopen : AxisFits (reopened s)) (hfits : AxisFits t) (hcheck : t.checkpoint = s.checkpoint)
    (hbounds : ∀ c, s.checkpoint = some c → boundSet (backTo c t) = boundSet (backTo c s))
    (hstore : ∀ c, s.checkpoint = some c → ((backTo c t).cues, (backTo c t).store) = ((backTo c s).cues, (backTo c s).store)) :
    AxisInv t := by
  refine ⟨hfits, ?_⟩
  cases hc : s.checkpoint with
  | none => rwa [reopened_of_none (hcheck.trans hc)]
  | some c =>
    obtain ⟨hcues, hstore⟩ := Prod.mk.inj (hstore c hc)
    have hback : reopened s = backTo c s := by simp only [reopened, hc]
    have hagain : reopened t = backTo c t := by simp only [reopened, hcheck, hc]
    rw [hback, axisFits_iff] at hopen
    rw [hagain, axisFits_iff, hbounds c hc, hcues, hstore]
    exact hopen

/-- What the pins make of a part: a part without a checkpoint, or one that has it as it was and is otherwise written only where
the axis is not bound. -/
theorem axisInv_of_pinEffect {c : Instr} {s u : State} (hs : AxisInv s) (hu : PinEffect c s u) : AxisInv (settle u) := by
  obtain ⟨v, hv, hchanges⟩ := pinEffect_changes hu
  have hfits : AxisFits (settle u) := axisFits_of_changes (hchanges.trans (settle_changes u)) (axisFits_of_start hs hv)
  cases hphase : u.phase with
  | running => exact axisInv_of_fits hfits (settle_checkpoint hphase)
  | held =>
    rw [settle_held hphase] at hfits ⊢
    cases hu
    case fullReset => exact axisInv_of_fits hfits rfl
    case startedUp cfg0 cfg1 cfg2 =>
      have hrun : (startPart (strapRate cfg1 cfg0) cfg2 s).phase = .running :=
        phase_of_changes (startPart_writes _ _ s).changes
      rw [hrun] at hphase
      cases hphase
    all_goals
      exact axisInv_of_pins hs.2 hfits (by rfl) (fun _ _ => by rfl) (fun _ _ => by rfl)

theorem axisInv_of_takes {c : Instr} {s t : State} (hs : AxisInv s) (h : Takes c s t) : AxisInv t := by
  have hfits : AxisFits t := by
    obtain ⟨v, hv, hchanges⟩ := takes_changes h
    exact axisFits_of_changes hchanges (axisFits_of_start hs hv)
  cases h with
  | nothing => exact hs
  | request hf =>
    cases hphase : s.phase with
    | held => rwa [serve_held hphase]
    | running => exact axisInv_of_fits hfits (serve_checkpoint (requestRule_writes c) hphase)
  | effect hrun hu =>
    obtain ⟨v, -, hphase, hchanges⟩ := effect_changes hrun hu
    exact axisInv_of_fits hfits (settle_checkpoint ((phase_of_changes hchanges).trans hphase))
  | pins hu => exact axisInv_of_pinEffect hs hu
  | @edge n hc hrun hd =>
    have hphase : (acceptInput n s).phase = .running := (phase_of_changes (acceptInput_writes n s).changes).trans hrun
    unfold leaveOpen at hfits ⊢
    split
    · rename_i hopen
      rw [if_pos hopen] at hfits
      simp only [Bool.and_eq_true] at hopen
      exact ⟨hfits, axisFits_of_kept (edge_reopens hopen.1.1) hs.1⟩
    · rename_i hshut
      rw [if_neg hshut] at hfits
      exact axisInv_of_fits hfits (settle_checkpoint hphase)

theorem axisInv_withPending {s : State} (hs : AxisInv s) (rest : List Instr) : AxisInv { s with pending := rest } := by
  obtain ⟨hfits, hopen⟩ := hs
  exact axisInv_of_pins hopen hfits rfl (fun _ _ => rfl) fun _ _ => rfl

/-- Settles O59: every write keeps the points, the bound set and the stored settings below the modulus in force and a staged one;
a command that ends in a running part leaves no checkpoint, but for the first edge of the decoder at a stamp, whose checkpoint
gives back the part as it was. -/
theorem stepKeepsPositionsBelowModuli : Obligations.StepKeepsPositionsBelowModuli := by
  intro s t hs h
  unfold step at h
  split at h
  · rename_i c rest _
    exact axisInv_of_takes (axisInv_withPending hs rest) (takes_of_exec h)
  · split at h
    · exact axisInv_of_takes hs (takes_of_exec h)
    · cases h
      unfold tick
      split
      · exact hs
      · exact axisInv_of_fits hs.1 rfl

end Sys2Proof.Machine
end

section
/-! The step, and that every command goes on; the state after a full reset. -/

namespace Sys2Proof.Machine

/-- Settles O1. -/
theorem stepRunsFrontCommand : Obligations.StepRunsFrontCommand := by
  intro c rest s h
  simp only [step, h]

/-- Settles O2: the two branches of a step on an empty queue, and the two phases of the tick. -/
theorem emptyQueueStepTakesDueCommandOrPassesTime : Obligations.EmptyQueueStepTakesDueCommandOrPassesTime := by
  intro s hpending
  refine ⟨fun c hdue => ?_, fun hdue => ?_⟩
  · simp only [step, hpending, hdue]
  · have hstep : step s = .next (tick s) := by simp only [step, hpending, hdue]
    rw [hstep, tick]
    obtain ⟨_, phase, _⟩ := s
    cases phase <;> rfl

/-! ## The queue of commands is not a command's to change -/

theorem pending_of_write {s t : State} (h : Write s t) : t.pending = s.pending := by
  cases h <;> rfl

theorem pending_of_changes {s t : State} (h : Changes s t) : t.pending = s.pending := by
  induction h with
  | refl => rfl
  | tail _ hc ih =>
    rw [← ih]
    cases hc with
    | link => rfl
    | write hw => exact pending_of_write hw

theorem pending_of_start {s v : State} (h : Start s v) : v.pending = s.pending := by
  cases h <;> rfl

/-- Settles O3: a command leaves a next state, which follows by writes from where the command starts, and none of them writes the
queue. -/
theorem everyCommandGoesOn : Obligations.EveryCommandGoesOn := by
  intro c s
  obtain ⟨t, ht, htakes⟩ := exec_takes c s
  obtain ⟨v, hstart, hchanges⟩ := takes_changes htakes
  exact ⟨t, ht, (pending_of_changes hchanges).trans (pending_of_start hstart)⟩

/-! ## The reset state -/

theorem seqInv_reset : SeqInv State.reset := by
  unfold SeqInv
  decide

theorem roomInv_reset : RoomInv State.reset := by
  unfold RoomInv
  decide

theorem lineInv_reset : LineInv State.reset := by
  unfold LineInv
  decide

theorem settingsFit_reset : settingsFit Axis.reset.cfg := by
  unfold settingsFit
  decide

theorem unbound_reset : Unbound State.reset := by
  unfold Unbound
  decide

theorem axisFits_reset : AxisFits State.reset :=
  (axisFits_iff _).2 ⟨moduliFit_unbound unbound_reset settingsFit_reset, nofun, nofun⟩

theorem slotInv_reset : SlotInv State.reset := by
  unfold SlotInv
  decide

/-- Settles O55: no checkpoint stands at reset, nothing is bound to the axis, and every block is at the values of its definition. -/
theorem resetStateMeetsInvariants : Obligations.ResetStateMeetsInvariants := by
  refine ⟨seqInv_reset, roomInv_reset, lineInv_reset, axisInv_of_fits axisFits_reset rfl, slotInv_reset, rfl, rfl, rfl, rfl, rfl, rfl,
    rfl, by decide, by decide, rfl, rfl, rfl, rfl, rfl, rfl, rfl, rfl, rfl, rfl, rfl, rfl, rfl, rfl, by decide, rfl, by decide,
    fun _ => rfl, by decide, fun _ => rfl, by decide, rfl, by decide, rfl, fun _ _ => rfl, fun _ => rfl⟩

end Sys2Proof.Machine
end

section
/-! Keys and the order of the cue list (R8, R25), and the level of a cam track (R98, R99). -/

namespace Sys2Proof.Machine

/-! ## Keys (R8) -/

/-- The signed cycle distance of a key is its unsigned one up to half of the range. -/
theorem toInt_cycle (d : BitVec 16) : d.toInt = if d.toNat < 32768 then (d.toNat : Int) else d.toNat - 65536 := by
  rw [BitVec.toInt_eq_toNat_cond]
  split <;> split <;> omega

theorem keyBefore_of_reached_ahead {lead a b : Key} (ha : keyReached lead a = true) (hb : keyReached lead b = false) :
    keyBefore lead a b = true ∧ keyBefore lead b a = false := by
  rw [keyReached_iff] at ha
  rw [Bool.eq_false_iff, ne_eq, keyReached_iff] at hb
  rw [Bool.eq_false_iff, ne_eq, keyBefore_iff, keyBefore_iff, toInt_cycle, toInt_cycle]
  have hd := (b.cycle - lead.cycle).isLt
  constructor <;> split <;> split <;> omega

/-- The cycle distance from one lead point tells cycles apart. -/
theorem cycle_eq_of_distance {lead a b : Key} (h : (a.cycle - lead.cycle).toInt = (b.cycle - lead.cycle).toInt) :
    a.cycle = b.cycle := by
  have hd := BitVec.eq_of_toInt_eq h
  exact (BitVec.sub_left_inj _).1 hd

theorem key_eq_of_not_before {lead a b : Key} (hab : keyBefore lead a b = false) (hba : keyBefore lead b a = false) :
    a = b := by
  rw [Bool.eq_false_iff, ne_eq, keyBefore_iff] at hab hba
  have hcycle : a.cycle = b.cycle := cycle_eq_of_distance (lead := lead) (by omega)
  have hpos : a.pos = b.pos := by
    rw [hcycle] at hab hba
    omega
  cases a
  cases b
  congr

theorem not_keyBefore_self (lead a : Key) : keyBefore lead a a = false := by
  rw [Bool.eq_false_iff, ne_eq, keyBefore_iff]
  omega

/-- A reached key within the horizon stays reached one count and one cycle on (R8, R28). -/
theorem reached_stays {lead a : Key} (hreached : keyReached lead a = true) (hnear : beyondHorizon lead a = false) :
    keyReached ⟨lead.cycle, lead.pos + 1⟩ a = true ∧ keyReached ⟨lead.cycle + 1#16, 0⟩ a = true := by
  rw [keyReached_iff] at hreached
  rw [Bool.eq_false_iff, ne_eq, beyondHorizon_iff] at hnear
  rw [keyReached_iff, keyReached_iff]
  have hnext : (a.cycle - (lead.cycle + 1#16)).toNat = ((a.cycle - lead.cycle).toNat + 65535) % 65536 := by bv_omega
  constructor
  · dsimp only
    omega
  · dsimp only
    omega

/-- Settles O11: R8 read off the cycle distance, a number below 65,536 for being reached and its signed reading for the order. -/
theorem keysAreReachedOrAheadAndInKeyOrder : Obligations.KeysAreReachedOrAheadAndInKeyOrder := by
  intro lead a b
  refine ⟨keyReached_iff lead a, ?_, keyBefore_of_reached_ahead, keyBefore_iff lead a b, ⟨fun h => ?_, ?_⟩, reached_stays⟩
  · rw [Bool.eq_false_iff, ne_eq, keyReached_iff]
    omega
  · exact key_eq_of_not_before h.1 h.2
  · rintro rfl
    exact ⟨not_keyBefore_self lead a, not_keyBefore_self lead a⟩

/-! ## Entry into the cue list (R25) -/

theorem insertCue_split (lead : Key) (x : Listed) (l : List Listed) :
    ∃ before behind, l = before ++ behind ∧ insertCue lead x l = before ++ x :: behind ∧
      (∀ y ∈ before, keyBefore lead x.key y.key = false) ∧
      ∀ y, behind.head? = some y → keyBefore lead x.key y.key = true := by
  induction l with
  | nil => exact ⟨[], [], rfl, rfl, nofun, nofun⟩
  | cons y ys ih =>
    cases hy : keyBefore lead x.key y.key with
    | true =>
      refine ⟨[], y :: ys, rfl, by simp [insertCue, hy], nofun, fun z hz => ?_⟩
      cases hz
      exact hy
    | false =>
      obtain ⟨before, behind, hl, hinsert, hbefore, hhead⟩ := ih
      refine ⟨y :: before, behind, by rw [hl]; rfl, by simp [insertCue, hy, hinsert], ?_, hhead⟩
      exact List.forall_mem_cons.2 ⟨hy, hbefore⟩

/-- Settles O12. -/
theorem cueEntersBehindEqualKeys : Obligations.CueEntersBehindEqualKeys := fun lead x l =>
  ⟨insertCue_split lead x l, fun h => (insertCue_spec lead x l h).2.1⟩

/-! ## The level of a track (R98, R99) -/

theorem inWindow_iff (w : Window) (p : Nat) :
    inWindow w p = true ↔ if w.on < w.off then w.on ≤ p ∧ p < w.off else w.on ≤ p ∨ p < w.off := by
  unfold inWindow
  split <;> simp

theorem inProfile_iff (x : Profile) (p : Nat) : inProfile x p = true ↔
    match x with
    | .empty => False
    | .full => True
    | .windows ws => ∃ w ∈ ws, if w.on < w.off then w.on ≤ p ∧ p < w.off else w.on ≤ p ∨ p < w.off := by
  cases x with
  | empty => simp [inProfile]
  | full => simp [inProfile]
  | windows ws => simp only [inProfile, List.any_eq_true, inWindow_iff]

theorem slotProfile_eq (t : Track) (x : ProfileSlot) : slotProfile t x = if x = .a then t.slotA else t.slotB := by
  cases x <;> rfl

/-- The advanced position lies below the modulus and is the position plus the advance modulo it. -/
theorem advancedPos_spec {modulus : Nat} (hm : 0 < modulus) (pos : Nat) (advance : Int) :
    advancedPos modulus pos advance < modulus ∧
      (advancedPos modulus pos advance : Int) % modulus = ((pos : Int) + advance) % modulus := by
  have hpos : (0 : Int) < modulus := by exact_mod_cast hm
  have hlow : 0 ≤ ((pos : Int) + advance).emod modulus := Int.emod_nonneg _ hpos.ne'
  have hhigh : ((pos : Int) + advance).emod modulus < modulus := Int.emod_lt_of_pos _ hpos
  have hcast : (advancedPos modulus pos advance : Int) = ((pos : Int) + advance).emod modulus := Int.toNat_of_nonneg hlow
  refine ⟨by omega, ?_⟩
  rw [hcast]
  exact Int.emod_emod_of_dvd _ dvd_rfl

/-- Settles O29. -/
theorem trackLevelFollowsAdvancedPosition : Obligations.TrackLevelFollowsAdvancedPosition := by
  intro a t hm
  obtain ⟨hlt, hmod⟩ := advancedPos_spec hm a.current.pos (advanceOf a.speed t.leadTime)
  refine ⟨_, hlt, hmod, rfl, ?_⟩
  rw [← slotProfile_eq]
  exact inProfile_iff _ _

end Sys2Proof.Machine
end

section
/-! The requests on the machine axis that move no point: AXIS_RUN and AXIS_HALT (R5), AXIS_SETUP (R12), AXIS_HOME (R14) and
MODULUS_STAGE (R11); and the frame of a request that is refused or only read. -/

namespace Sys2Proof.Machine

/-! ## Requests that keep the part -/

/-- A request whose rule keeps the state it is given: its reply, and nothing else. -/
theorem request_kept {s : State} {rule : State → State × Reply} {r : Reply} (tag kind : Byte) (body : List Byte)
    (hready : Ready s) (hkind : kind.toNat < 128) (hrule : rule (heard s) = (heard s, r)) :
    Answered tag kind r.code r.replaced r.data s (serve ⟨tag, kind, body⟩ rule s) ∧
      KeptBut [] s (serve ⟨tag, kind, body⟩ rule s) := by
  obtain ⟨hanswer, -, hkept⟩ := request_done tag kind body rule hready hkind hrule (KeptBut.refl [] (heard s)) (heard_errors s)
  exact ⟨hanswer, hkept⟩

theorem errors_of_kept {ps : List Part} {s t : State} (h : KeptBut ps s t) (hlink : Part.link ∉ ps) :
    t.link.errors = s.link.errors := by
  have hl : LinkIs s.link t := h .link hlink
  rw [hl]

/-- A request whose rule leaves the link alone: its reply, what the rule leaves, and what it keeps. -/
theorem request_writes {s u : State} {rule : State → State × Reply} {r : Reply} {ps : List Part} (tag kind : Byte)
    (body : List Byte) (hready : Ready s) (hkind : kind.toNat < 128) (hrule : rule (heard s) = (u, r))
    (hu : KeptBut ps (heard s) u) (hlink : Part.link ∉ ps) :
    Answered tag kind r.code r.replaced r.data s (serve ⟨tag, kind, body⟩ rule s) ∧
      KeptBut [] u (serve ⟨tag, kind, body⟩ rule s) ∧ KeptBut ps s (serve ⟨tag, kind, body⟩ rule s) :=
  request_done tag kind body rule hready hkind hrule hu ((errors_of_kept hu hlink).trans (heard_errors s))

/-- The axis after a request is the axis its rule left. -/
theorem axisIs_of_kept {s t : State} (h : KeptBut [] s t) : AxisIs s.axis t := h .axis (by simp)

theorem cams_of_kept {s t : State} (h : KeptBut [] s t) : t.cams = s.cams := h .cams (by simp)

theorem ins_of_kept {s t : State} (h : KeptBut [] s t) : t.ins = s.ins := h .inputs (by simp)

theorem cues_of_kept {s t : State} (h : KeptBut [] s t) : t.cues = s.cues := h .cues (by simp)

theorem seq_of_kept {s t : State} (h : KeptBut [] s t) : t.seq = s.seq := h .seq (by simp)

theorem capture_of_kept {s t : State} (h : KeptBut [] s t) : t.capture = s.capture := h .capture (by simp)

theorem arrivals_of_kept {s t : State} (h : KeptBut [] s t) : t.outs.arrivals = s.outs.arrivals := (h .lines (by simp)).1

theorem lines_of_kept {s t : State} (h : KeptBut [] s t) : LinesAre (fun n => s.outs.lines[n]) t := (h .lines (by simp)).2

theorem raised_of_kept {s t u : State} {xs : List EventSource} (h : KeptBut [] s t) (hs : Raised xs u s) : Raised xs u t :=
  hs.trans_none (h .events (by simp))

/-- The level of a track does not read which conditions of the axis stand reported. -/
theorem recomputeTrack_axisIs {a : Axis} {t : State} (h : AxisIs a t) (x : Track) :
    recomputeTrack t.axis x = recomputeTrack a x := by
  rw [h]
  rfl

/-! ## The inputs written -/

theorem releaseInput_in (n m : Fin 8) (s : State) :
    (releaseInput n s).ins[m] = if n = m then released s.ins[n] else s.ins[m] := updAt_get _ _ _ _

theorem claimInput_in (n m : Fin 8) (fn : InputFn) (s : State) :
    (claimInput n fn s).ins[m] = if n = m then { s.ins[n] with fn := fn } else s.ins[m] := updAt_get _ _ _ _

/-! ## AXIS_RUN and AXIS_HALT (R5) -/

/-- Settles O4. -/
theorem axisRunAndHaltSetRunState : Obligations.AxisRunAndHaltSetRunState := by
  intro tag s hready
  have hset : ∀ (kind : Byte) (b : Bool), kind.toNat < 128 →
      Answered tag kind .ok false [] s (serve ⟨tag, kind, []⟩ (noBody (setRunning b) []) s) ∧
        AxisIs { s.axis with running := b } (serve ⟨tag, kind, []⟩ (noBody (setRunning b) []) s) ∧
        KeptBut [.axis] s (serve ⟨tag, kind, []⟩ (noBody (setRunning b) []) s) := by
    intro kind b hkind
    obtain ⟨hanswer, hsame, hkept⟩ := request_done tag kind [] (noBody (setRunning b) []) hready hkind rfl
      (onAxis_kept (heard s) fun a => { a with running := b }) (heard_errors s)
    exact ⟨hanswer, axisIs_of_kept hsame, hkept⟩
  exact ⟨⟨_, rfl, hset 0x02#8 true (by decide)⟩, ⟨_, rfl, hset 0x03#8 false (by decide)⟩⟩

/-! ## AXIS_HOME (R14) -/

theorem axisHomeRule_passes {s : State} {p3 p2 p1 p0 : Byte} (hidle : s.seq.state = .idle)
    (hsource : s.axis.cfg.source ≠ .timebase) (hbelow : belowModuli s.axis (num32 p3 p2 p1 p0) = true)
    (hfree : s.ins[2].fn = .general ∨ s.ins[2].fn = .index) : axisHomeRule [p3, p2, p1, p0] s =
      (claimInput 2 .index
          (s.onAxis fun a => { a with cfg := { a.cfg with home := num32 p3 p2 p1 p0 }, homing := true }),
        okayReplaced s.axis.homing []) := by
  have hstate : ¬ (s.seq.state ≠ .idle ∨ s.axis.cfg.source = .timebase) := by simp [hidle, hsource]
  simp only [axisHomeRule, if_neg hstate, hbelow, Bool.not_true, Bool.false_eq_true, if_false, if_neg (not_not.2 hfree)]

/-- Settles O7. -/
theorem axisHomeEntersHomingWait : Obligations.AxisHomeEntersHomingWait := by
  intro tag p3 p2 p1 p0 s hready hidle hsource hmodulus hstaged hfree
  have hrule := axisHomeRule_passes (s := heard s) hidle hsource ((belowModuli_iff _ _).2 ⟨hmodulus, hstaged⟩) hfree
  obtain ⟨hanswer, hsame, hkept⟩ := request_writes (ps := [.axis, .inputs]) tag 0x05#8 [p3, p2, p1, p0] hready (by decide) hrule
    (KeptBut.then_mono (onAxis_kept _ _) (claimInput_kept _ _ _) (by simp) (by simp)) (by simp)
  refine ⟨_, rfl, hanswer, axisIs_of_kept hsame, ?_, fun n hn => ?_, hkept⟩
  · rw [ins_of_kept hsame]
    exact claimInput_in 2 2 _ _
  · rw [ins_of_kept hsame]
    exact (claimInput_in 2 n _ _).trans (if_neg (Ne.symm hn))

/-! ## MODULUS_STAGE (R11) -/

theorem modulusInRange_eq_false (m : Nat) : (!modulusInRange m) = true ↔ m < 16 ∨ 4000000 < m := by
  simp only [modulusInRange, Bool.not_eq_true', Bool.and_eq_false_iff, decide_eq_false_iff_not, not_le]

theorem modulusConflicts_iff (m : Nat) (s : State) :
    modulusConflicts m s = true ↔ (∃ b ∈ boundSet s, m ≤ b) ∨ queuedGroups s.cues ≠ [] := by
  simp [modulusConflicts]

/-- Settles O8: the rule's checks are those of the statement, one after another. -/
theorem modulusStageStagesOrRefuses : Obligations.ModulusStageStagesOrRefuses := by
  intro tag m3 m2 m1 m0 m s hready hm
  have hrule : modulusStageRule [m3, m2, m1, m0] (heard s) =
      if s.seq.state = .safe then (heard s, refuse .wrongState)
      else if m < 16 ∨ 4000000 < m then (heard s, refuse .badValue)
      else if (∃ b ∈ boundSet s, m ≤ b) ∨ queuedGroups s.cues ≠ [] then (heard s, refuse .conflict)
      else ((heard s).onAxis fun a => { a with staged := some m }, okayReplaced s.axis.staged.isSome []) := by
    subst hm
    simp only [modulusStageRule, modulusInRange_eq_false, modulusConflicts_iff]
    rfl
  refine ⟨_, rfl, ?_⟩
  split
  · rename_i hsafe
    rw [if_pos hsafe] at hrule
    exact request_kept tag 0x06#8 _ hready (by decide) hrule
  rename_i hsafe
  rw [if_neg hsafe] at hrule
  split
  · rename_i hrange
    rw [if_pos hrange] at hrule
    exact request_kept tag 0x06#8 _ hready (by decide) hrule
  rename_i hrange
  rw [if_neg hrange] at hrule
  split
  · rename_i hconflict
    rw [if_pos hconflict] at hrule
    exact request_kept tag 0x06#8 _ hready (by decide) hrule
  · rename_i hconflict
    rw [if_neg hconflict] at hrule
    obtain ⟨hanswer, hsame, hkept⟩ := request_done tag 0x06#8 [m3, m2, m1, m0] _ hready (by decide) hrule
      (onAxis_kept _ _) (heard_errors s)
    exact ⟨hanswer, axisIs_of_kept hsame, hkept⟩

/-! ## AXIS_SETUP (R12) -/

theorem axisSetupRule_passes {s : State} {source k m3 m2 m1 m0 : Byte} {src : AxisSource} {m : Nat}
    (hidle : s.seq.state = .idle) (hsource : axisSourceOf source = some src) (hk : k.toNat ≤ 12)
    (hm : m = num32 m3 m2 m1 m0) (hlow : 16 ≤ m) (hhigh : m ≤ 4000000)
    (hfree : src = .timebase ∨ axisInputFree s.ins[0] = true ∧ axisInputFree s.ins[1] = true)
    (hbound : ∀ b ∈ boundSet s, b < m) (hqueued : queuedGroups s.cues = []) (hcurrent : s.axis.current.pos < m)
    (hlead : s.axis.lead.pos < m) :
    axisSetupRule [source, k, m3, m2, m1, m0] s = (setupAxis src k.toNat m s, okay []) := by
  subst hm
  have hrange : ¬ (12 < k.toNat ∨ modulusInRange (num32 m3 m2 m1 m0) = false) := by
    rw [(modulusInRange_iff _).2 ⟨hlow, hhigh⟩]
    simpa using hk
  have hinputs : ¬ (src ≠ .timebase ∧ (axisInputFree s.ins[0] && axisInputFree s.ins[1]) = false) := by
    rintro ⟨hne, hheld⟩
    obtain h | ⟨h0, h1⟩ := hfree
    · exact hne h
    · rw [h0, h1] at hheld
      cases hheld
  have hconflict : ¬ (modulusConflicts (num32 m3 m2 m1 m0) s = true ∨ num32 m3 m2 m1 m0 ≤ s.axis.current.pos ∨
      num32 m3 m2 m1 m0 ≤ s.axis.lead.pos) := by
    rw [modulusConflicts_iff]
    rintro ((⟨b, hb, hle⟩ | h) | h | h)
    · exact absurd (hbound b hb) (not_lt.2 hle)
    · exact h hqueued
    · omega
    · omega
  simp only [axisSetupRule, hidle, ne_eq, not_true_eq_false, if_false, hsource]
  rw [if_neg hrange, if_neg hinputs, if_neg hconflict]

theorem cancelHoming_in (s : State) (n : Fin 8) :
    (cancelHoming s).ins[n] = if 2 = n ∧ s.axis.homing = true then released s.ins[2] else s.ins[n] := by
  unfold cancelHoming
  by_cases hhoming : s.axis.homing = true
  · rw [if_pos hhoming, releaseInput_in]
    by_cases hn : 2 = n
    · rw [if_pos hn, if_pos ⟨hn, hhoming⟩, State.onAxis_ins]
      rfl
    · rw [if_neg hn, if_neg fun h => hn h.1, State.onAxis_ins]
  · rw [if_neg hhoming, if_neg fun h => hhoming h.2]

theorem cancelHoming_axis (s : State) : (cancelHoming s).axis = { s.axis with homing := false } := by
  obtain ⟨ins, he⟩ := cancelHoming_eq s
  rw [he]

theorem claimAxisInputs_axis (s : State) :
    (claimAxisInputs s).axis = { s.axis with pairA := s.ins[0].accepted, pairB := s.ins[1].accepted } := rfl

theorem claimAxisInputs_in (s : State) (n : Fin 8) : (claimAxisInputs s).ins[n] =
    if n = 0 then { s.ins[0] with fn := .axisA } else if n = 1 then { s.ins[1] with fn := .axisB } else s.ins[n] := by
  unfold claimAxisInputs
  rw [claimInput_in, claimInput_in, claimInput_in]
  by_cases h0 : n = 0
  · subst h0
    rfl
  by_cases h1 : n = 1
  · subst h1
    rfl
  rw [if_neg (Ne.symm h1), if_neg (Ne.symm h0), if_neg h0, if_neg h1]
  rfl

theorem releaseAxisInputs_axis (s : State) : (releaseAxisInputs s).axis = s.axis := by
  unfold releaseAxisInputs
  dsimp only
  split <;> split <;> rfl

theorem releaseAxisInputs_in (s : State) (n : Fin 8) : (releaseAxisInputs s).ins[n] =
    if n = 0 ∧ s.ins[0].fn = .axisA ∨ n = 1 ∧ s.ins[1].fn = .axisB then released s.ins[n] else s.ins[n] := by
  have hfirst : (if s.ins[0].fn = .axisA then releaseInput 0 s else s).ins[n] =
      if n = 0 ∧ s.ins[0].fn = .axisA then released s.ins[n] else s.ins[n] := by
    by_cases h : s.ins[0].fn = .axisA
    · rw [if_pos h, releaseInput_in]
      by_cases hn : n = 0
      · subst hn
        simp [h]
      · simp [hn, Ne.symm hn]
    · simp [h]
  unfold releaseAxisInputs
  dsimp only
  by_cases h : s.ins[1].fn = .axisB
  · rw [if_pos h, releaseInput_in]
    by_cases hn : n = 1
    · subst hn
      rw [if_pos rfl, hfirst, if_pos (Or.inr ⟨rfl, h⟩), if_neg fun h => absurd h.1 (by decide)]
    · rw [if_neg (Ne.symm hn), hfirst]
      simp [hn]
  · rw [if_neg h, hfirst]
    simp [h]

/-- The axis after its settings have been written (R12). -/
theorem setupAxis_axis (src : AxisSource) (k m : Nat) (s : State) : (setupAxis src k m s).axis = { s.axis with
    cfg := ⟨src, k, m, s.axis.cfg.home⟩, staged := none, running := false, homing := false
    takenA := false, takenB := false
    pairA := if src = .timebase then s.axis.pairA else s.ins[0].accepted
    pairB := if src = .timebase then s.axis.pairB else s.ins[1].accepted } := by
  have h0 : (cancelHoming s).ins[0] = s.ins[0] := cancelHoming_in s 0
  have h1 : (cancelHoming s).ins[1] = s.ins[1] := cancelHoming_in s 1
  cases src <;>
    simp [setupAxis, recomputeCams, claimAxisInputs_axis, releaseAxisInputs_axis, cancelHoming_axis, h0, h1]

/-- The inputs after the settings of the axis have been written: IN0 and IN1 claimed or released, IN2 released by a cancelled
homing wait (R12). -/
theorem setupAxis_in (src : AxisSource) (k m : Nat) (s : State) (n : Fin 8) : (setupAxis src k m s).ins[n] =
    if src = .timebase then
      if n = 0 ∧ s.ins[0].fn = .axisA ∨ n = 1 ∧ s.ins[1].fn = .axisB then released s.ins[n] else (cancelHoming s).ins[n]
    else if n = 0 then { s.ins[0] with fn := .axisA } else if n = 1 then { s.ins[1] with fn := .axisB }
    else (cancelHoming s).ins[n] := by
  have h0 : (cancelHoming s).ins[0] = s.ins[0] := cancelHoming_in s 0
  have h1 : (cancelHoming s).ins[1] = s.ins[1] := cancelHoming_in s 1
  cases src
  · simp only [setupAxis, recomputeCams, State.onCams_ins, claimAxisInputs_in, State.onAxis_ins, h0, h1]
    rfl
  · simp only [setupAxis, recomputeCams, State.onCams_ins, claimAxisInputs_in, State.onAxis_ins, h0, h1]
    rfl
  · simp only [setupAxis, recomputeCams, State.onCams_ins, releaseAxisInputs_in, State.onAxis_ins, h0, h1, if_true]
    split
    · rename_i h
      obtain ⟨rfl, -⟩ | ⟨rfl, -⟩ := h
      · exact congrArg released h0
      · exact congrArg released h1
    · rfl

theorem setupAxis_cams (src : AxisSource) (k m : Nat) (s : State) :
    (setupAxis src k m s).cams =
      { s.cams with tracks := s.cams.tracks.map (recomputeTrack (setupAxis src k m s).axis) } := by
  have hcancel : (cancelHoming s).cams = s.cams := (cancelHoming_kept s) .cams (by simp)
  have hrelease : ∀ t, (releaseAxisInputs t).cams = t.cams := fun t => (releaseAxisInputs_kept t) .cams (by simp)
  have hclaim : ∀ t, (claimAxisInputs t).cams = t.cams := fun t => (claimAxisInputs_kept t) .cams (by simp)
  cases src <;> simp [setupAxis, recomputeCams, hcancel, hrelease, hclaim]

/-- Settles O5. -/
theorem axisSetupWritesSettings : Obligations.AxisSetupWritesSettings := by
  intro tag source k m3 m2 m1 m0 src m s hready hidle hsource hk hm hlow hhigh hfree hbound hqueued hcurrent hlead
  have hrule := axisSetupRule_passes (s := heard s) hidle hsource hk hm hlow hhigh hfree hbound hqueued hcurrent hlead
  obtain ⟨hanswer, hsame, hkept⟩ := request_writes tag 0x01#8 [source, k, m3, m2, m1, m0] hready (by decide) hrule
    (setupAxis_kept _ _ _ _) (by simp)
  have haxis := axisIs_of_kept hsame
  have hcams := cams_of_kept hsame
  have hin : ∀ n : Fin 8, _ = (setupAxis src k.toNat m (heard s)).ins[n] := fun n =>
    congrArg (fun v : Vector InLine 8 => v[n]) (ins_of_kept hsame)
  have hcancel : ∀ n : Fin 8, n ≠ 2 → (cancelHoming (heard s)).ins[n] = s.ins[n] := fun n hn =>
    (cancelHoming_in (heard s) n).trans (if_neg fun h => hn h.1.symm)
  refine ⟨_, rfl, hanswer, ?_, ?_, ?_, ?_, fun n hn => ?_, fun n => ?_, ?_, hkept⟩
  · rw [setupAxis_axis] at haxis
    exact haxis
  · refine (hin 0).trans ((setupAxis_in _ _ _ _ 0).trans ?_)
    cases src <;> simp [hcancel 0 (by decide), released]
  · refine (hin 1).trans ((setupAxis_in _ _ _ _ 1).trans ?_)
    cases src <;> simp [hcancel 1 (by decide), released]
  · have h2 : (cancelHoming (heard s)).ins[2] = if s.axis.homing = true then released s.ins[2] else s.ins[2] := by
      simpa using cancelHoming_in (heard s) 2
    refine (hin 2).trans ((setupAxis_in _ _ _ _ 2).trans ?_)
    cases src <;> simp [h2, released]
  · have h0 : n ≠ 0 := by omega
    have h1 : n ≠ 1 := by omega
    rw [hin, setupAxis_in, hcancel n (by omega)]
    simp [h0, h1]
  · rw [hcams, setupAxis_cams, map_get, recomputeTrack_axisIs haxis]
    rfl
  · rw [hcams, setupAxis_cams]
    rfl

end Sys2Proof.Machine
end

section
/-! Position jumps (R16): what the blocks take before a jump in IDLE, and the jump itself; AXIS_ZERO (R13). -/

namespace Sys2Proof.Machine

/-! ## What waits, taken in IDLE -/

/-- The Cue Table and the Capture Unit have taken what waited for them in IDLE: the lead point, the list and the queues, the
outcome log, the channels and the events may differ. -/
def QuietTo (s t : State) : Prop := ∃ lead list queues log channels ev, t = { s with
  cues := { s.cues with lead := lead, list := list, queues := queues }, seq := { s.seq with log := log }
  capture := { s.capture with channels := channels }, events := ev }

theorem QuietTo.refl (s : State) : QuietTo s s := ⟨_, _, _, _, _, _, rfl⟩

theorem QuietTo.trans {s t u : State} (h : QuietTo s t) (h' : QuietTo t u) : QuietTo s u := by
  obtain ⟨_, _, _, _, _, _, rfl⟩ := h
  obtain ⟨_, _, _, _, _, _, rfl⟩ := h'
  exact ⟨_, _, _, _, _, _, rfl⟩

theorem QuietTo.idle {s t : State} (h : QuietTo s t) (hidle : s.seq.state = .idle) : t.seq.state = .idle := by
  obtain ⟨_, _, _, _, _, _, rfl⟩ := h
  exact hidle

/-- The marks are judged by occurrences alone. -/
theorem withMarks_frame (f : State → State) (s : State) : ∃ ev, withMarks f s = { f s with events := ev } := by
  unfold withMarks
  dsimp only
  split <;> split <;> exact ⟨_, rfl⟩

theorem QuietTo.withMarks {f : State → State} {s : State} (h : QuietTo s (f s)) : QuietTo s (withMarks f s) := by
  obtain ⟨ev, he⟩ := withMarks_frame f s
  rw [he]
  exact h.trans ⟨_, _, _, _, _, _, rfl⟩

theorem QuietTo.foldl {α : Type} {f : State → α → State} (h : ∀ s x, s.seq.state = .idle → QuietTo s (f s x)) (l : List α)
    (s : State) (hidle : s.seq.state = .idle) : QuietTo s (l.foldl f s) := by
  induction l generalizing s with
  | nil => exact .refl s
  | cons x l ih => exact (h s x hidle).trans (ih _ ((h s x hidle).idle hidle))

/-- Expiry takes the cues beyond the horizon from the list and writes their records (R45). -/
theorem expiryRun_spec {s : State} {gone : List Listed}
    (hgone : gone = s.cues.list.filter fun x => beyondHorizon s.cues.lead x.key) :
    (∃ ev, expiryRun s = { s with
      cues := { s.cues with list := s.cues.list.filter fun x => !beyondHorizon s.cues.lead x.key }
      seq := { s.seq with log := logAfter (gone.map (expiredRecord s.cues.lead s)) s }, events := ev }) ∧
      Raised (expiryRaised gone.length s) s (expiryRun s) := by
  obtain ⟨⟨ev, he⟩, hraised⟩ := expire_foldl s.cues.lead gone
    (s.onCues fun c => { c with list := c.list.filter fun x => !beyondHorizon c.lead x.key })
  subst hgone
  exact ⟨⟨ev, he⟩, hraised⟩

theorem takeLeadArrival_idle (s : State) (a : Arrival) (hidle : s.seq.state = .idle) : QuietTo s (takeLeadArrival s a) := by
  have hlead : QuietTo s (s.onCues fun c => { c with lead := a.key }) := ⟨_, _, _, _, _, _, rfl⟩
  have hexpiry : QuietTo (s.onCues fun c => { c with lead := a.key })
      (withMarks expiryRun (s.onCues fun c => { c with lead := a.key })) := by
    obtain ⟨⟨ev, he⟩, -⟩ := expiryRun_spec (s := s.onCues fun c => { c with lead := a.key }) rfl
    exact .withMarks ⟨_, _, _, _, _, _, he⟩
  have hboundary : QuietTo s (if a.boundary = true then
      withMarks expiryRun (s.onCues fun c => { c with lead := a.key }) else s.onCues fun c => { c with lead := a.key }) := by
    split
    · exact hlead.trans hexpiry
    · exact hlead
  unfold takeLeadArrival
  dsimp only
  rw [if_neg (by rw [hboundary.idle hidle]; decide)]
  exact hboundary

theorem onChannel_quiet (ch : Fin 4) (f : Channel → Channel) (s : State) : QuietTo s (onChannel ch f s) :=
  ⟨_, _, _, _, _, _, rfl⟩

theorem popGroup_quiet (ch : Fin 4) (s : State) : QuietTo s (popGroup ch s) := ⟨_, _, _, _, _, _, rfl⟩

theorem raise_quiet (x : EventSource) (s : State) : QuietTo s (raise x s) := ⟨_, _, _, _, _, _, rfl⟩

theorem resolveGroup_idle (g : Group) (point lead : Key) (s : State) (hidle : s.seq.state = .idle) :
    QuietTo s (resolveGroup g point lead s) := by
  obtain ⟨⟨ev, he⟩, -⟩ := resolveCues_spec point lead g.cues s _ rfl
  have hcues : QuietTo s (g.cues.foldl (resolveCue point lead) s) := ⟨_, _, _, _, _, _, he⟩
  unfold resolveGroup
  dsimp only
  rw [if_neg (by rw [hcues.idle hidle]; decide)]
  exact hcues

theorem claimMiss_idle (ch : Fin 4) (nominal arrival : Key) (s : State) (hidle : s.seq.state = .idle) :
    QuietTo s (claimMiss ch nominal arrival s).1 := by
  unfold claimMiss
  split
  · exact .refl s
  · split
    · exact .withMarks (popGroup_quiet ch s)
    · have hresolved := fun g : Group =>
        (popGroup_quiet ch s).trans (resolveGroup_idle g nominal arrival _ ((popGroup_quiet ch s).idle hidle))
      exact (hresolved _).withMarks (f := fun s => resolveGroup _ nominal arrival (popGroup ch s))

theorem takeMiss_idle (ch : Fin 4) (cycle : Cycle) (nominal : Nat) (arrival : Key) (s : State) (hidle : s.seq.state = .idle) :
    QuietTo s (takeMiss ch cycle nominal arrival s) := by
  unfold takeMiss
  rw [if_neg (by rw [hidle]; decide)]
  exact ((claimMiss_idle ch _ arrival s hidle).trans (onChannel_quiet ch _ _)).trans (raise_quiet _ _)

theorem windowAtArrival_idle (arrival : Key) (s : State) (ch : Fin 4) (hidle : s.seq.state = .idle) :
    QuietTo s (windowAtArrival arrival s ch) := by
  have hclosed : QuietTo s (onChannel ch (fun c => { c with episode := .closed }) s) := onChannel_quiet ch _ s
  unfold windowAtArrival
  dsimp only
  split
  · split
    · split
      · exact onChannel_quiet ch _ s
      · exact .refl s
    · split
      · exact hclosed.trans (takeMiss_idle _ _ _ _ _ hidle)
      · exact .refl s
    · split
      · exact hclosed
      · exact .refl s
  · exact .refl s

theorem takeWindowArrival_idle (s : State) (arrival : Key) (hidle : s.seq.state = .idle) :
    QuietTo s (takeWindowArrival s arrival) :=
  QuietTo.foldl (fun t ch h => windowAtArrival_idle arrival t ch h) _ s hidle

/-! ## The lines at arrivals (R115) -/

theorem takeTrailArrivals_eq (ks : List Key) (s : State) : ∃ lines, ks.foldl takeTrailArrival s =
    { s with outs := { s.outs with lines := lines } } ∧
      ∀ n : Fin 16, lines[n] = ks.foldl (fun l k => trailAtArrival k l) s.outs.lines[n] := by
  induction ks generalizing s with
  | nil => exact ⟨_, rfl, fun _ => rfl⟩
  | cons k ks ih =>
    obtain ⟨lines, he, hlines⟩ := ih (takeTrailArrival s k)
    refine ⟨lines, he, fun n => ?_⟩
    rw [hlines n, takeTrailArrival, State.onOuts_outs, map_get, List.foldl_cons]

/-- A line on which a trail to a key has ended (R115). -/
def countTrailEnded (l : OutLine) : OutLine :=
  match l.trail with
  | some (.counts _) => endTrail l
  | _ => l

theorem countTrailEnded_trailAtArrival (k : Key) (l : OutLine) : countTrailEnded (trailAtArrival k l) = countTrailEnded l := by
  unfold trailAtArrival
  split
  · rename_i h
    split
    · simp only [countTrailEnded, endTrail, h]
    · rfl
  · rfl

theorem countTrailEnded_foldl (ks : List Key) (l : OutLine) :
    countTrailEnded (ks.foldl (fun l k => trailAtArrival k l) l) = countTrailEnded l := by
  induction ks generalizing l with
  | nil => rfl
  | cons k ks ih => rw [List.foldl_cons, ih, countTrailEnded_trailAtArrival]

/-! ## The jump (R16) -/

/-- The Line Unit takes what waits for it. -/
def takeLineArrivals (s : State) : State :=
  s.outs.arrivals.foldl takeTrailArrival (s.onOuts fun o => { o with arrivals := [] })

/-- The Cue Table takes what waits for it. -/
def takeCueArrivals (s : State) : State :=
  s.cues.arrivals.foldl takeLeadArrival (s.onCues fun c => { c with arrivals := [] })

/-- The Capture Unit takes what waits for it. -/
def takeCaptureArrivals (s : State) : State :=
  s.capture.arrivals.foldl takeWindowArrival (s.onCapture fun c => { c with arrivals := [] })

theorem takeArrivals_eq (s : State) :
    takeArrivals s = takeCaptureArrivals (takeCueArrivals (takeLineArrivals (takeBoundaries s))) := rfl

theorem takeLineArrivals_eq (s : State) : ∃ lines, takeLineArrivals s = { s with outs := ⟨lines, []⟩ } ∧
    ∀ n : Fin 16, countTrailEnded lines[n] = countTrailEnded s.outs.lines[n] := by
  obtain ⟨lines, he, hlines⟩ := takeTrailArrivals_eq s.outs.arrivals (s.onOuts fun o => { o with arrivals := [] })
  refine ⟨lines, he, fun n => ?_⟩
  rw [hlines n, countTrailEnded_foldl]
  rfl

theorem takeCueArrivals_idle {s : State} (hidle : s.seq.state = .idle) :
    QuietTo (s.onCues fun c => { c with arrivals := [] }) (takeCueArrivals s) ∧
      (s.cues.arrivals = [] → takeCueArrivals s = s) := by
  refine ⟨QuietTo.foldl (fun u a => takeLeadArrival_idle u a) _ _ hidle, fun h => ?_⟩
  unfold takeCueArrivals
  rw [h, List.foldl_nil, ← h]
  rfl

theorem takeCaptureArrivals_idle {s : State} (hidle : s.seq.state = .idle) :
    QuietTo (s.onCapture fun c => { c with arrivals := [] }) (takeCaptureArrivals s) ∧
      (s.capture.arrivals = [] → takeCaptureArrivals s = s) := by
  refine ⟨QuietTo.foldl (fun u a => takeWindowArrival_idle u a) _ _ hidle, fun h => ?_⟩
  unfold takeCaptureArrivals
  rw [h, List.foldl_nil, ← h]
  rfl

/-- What the blocks take before a jump in IDLE: the Cam Unit its boundaries, the Line Unit its arrivals, the Cue Table and the
Capture Unit theirs; without arrivals the last two keep what they have. -/
structure JumpReady (s t : State) : Prop where
  frame : ∃ lead list queues log channels ev, t = { s with
    cams := t.cams, outs := t.outs, cues := { s.cues with lead := lead, list := list, queues := queues, arrivals := [] }
    seq := { s.seq with log := log }, capture := ⟨channels, []⟩, events := ev }
  boundaries : t.cams.boundaries = 0
  tracks : ∀ (a : Axis) (n : Fin 8), recomputeTrack a t.cams.tracks[n] = recomputeTrack a (swappedTrack s n)
  arrivals : t.outs.arrivals = []
  lines : ∀ n : Fin 16, countTrailEnded t.outs.lines[n] = countTrailEnded s.outs.lines[n]
  still : s.cues.arrivals = [] → s.capture.arrivals = [] →
    t.cues = s.cues ∧ t.seq = s.seq ∧ t.capture = s.capture ∧ Raised (swapsRaised s) s t

theorem takeArrivals_idle {s : State} (hidle : s.seq.state = .idle) : JumpReady s (takeArrivals s) := by
  obtain ⟨⟨ev, tracks, hb, htracks⟩, hraised⟩ := takeBoundaries_spec s
  rw [takeArrivals_eq]
  generalize takeBoundaries s = t1 at hb hraised
  subst hb
  obtain ⟨lines, hl, hlines⟩ := takeLineArrivals_eq { s with cams := ⟨tracks, 0⟩, events := ev }
  rw [hl]
  obtain ⟨⟨_, _, _, _, _, _, hc⟩, hsame⟩ :=
    takeCueArrivals_idle (s := { s with cams := ⟨tracks, 0⟩, events := ev, outs := ⟨lines, []⟩ }) hidle
  generalize takeCueArrivals { s with cams := ⟨tracks, 0⟩, events := ev, outs := ⟨lines, []⟩ } = t2 at hc hsame
  have hidle2 : t2.seq.state = .idle := by rw [hc]; exact hidle
  obtain ⟨⟨_, _, _, _, _, _, hw⟩, hsame'⟩ := takeCaptureArrivals_idle hidle2
  generalize takeCaptureArrivals t2 = t3 at hw hsame'
  refine ⟨?_, ?_, ?_, ?_, ?_, fun hnocue hnowindow => ?_⟩
  · subst hc
    subst hw
    exact ⟨_, _, _, _, _, _, rfl⟩
  · rw [hw, hc]
    rfl
  · rw [hw, hc]
    exact htracks
  · rw [hw, hc]
    rfl
  · rw [hw, hc]
    exact hlines
  · have h2 := hsame hnocue
    have h3 := hsame' (by rw [h2]; exact hnowindow)
    rw [h3, h2]
    exact ⟨rfl, rfl, rfl, hraised⟩

/-- The Cue Table takes a jump (R29). -/
theorem jumpCues_spec (key : Key) (s : State) : ∃ l gone, Reordered key s.cues.list l ∧
    gone = l.filter (fun x => beyondHorizon key x.key) ∧
    (∃ ev, jumpCues key s = { s with
      cues := { s.cues with lead := key, list := l.filter fun x => !beyondHorizon key x.key }
      seq := { s.seq with log := logAfter (gone.map (expiredRecord key s)) s }, events := ev }) ∧
    Raised (expiryRaised gone.length s ++ marksRaised s.cues (jumpCues key s).cues) s (jumpCues key s) := by
  refine ⟨reorder key s.cues.list, _, reorder_spec _ _, rfl, ?_⟩
  obtain ⟨⟨ev, he⟩, hraised⟩ := expiryRun_spec (s := s.onCues fun c => { c with lead := key, list := reorder key c.list }) rfl
  have hmarks := withMarks_raised (s := s)
    (f := fun s => expiryRun (s.onCues fun c => { c with lead := key, list := reorder key c.list })) hraised
  obtain ⟨ev', hframe⟩ := withMarks_frame
    (fun s => expiryRun (s.onCues fun c => { c with lead := key, list := reorder key c.list })) s
  refine ⟨⟨ev', ?_⟩, ?_⟩
  · unfold jumpCues
    rw [hframe, he]
    rfl
  · unfold jumpCues
    rw [withMarks_cues]
    exact hmarks

theorem endCountTrails_line (s : State) (n : Fin 16) : (endCountTrails s).outs.lines[n] = countTrailEnded s.outs.lines[n] := by
  unfold endCountTrails
  rw [State.onOuts_outs, map_get]
  rfl

theorem swappedTrack_level (s : State) (a b : Axis) (tracks : Vector Track 8)
    (h : ∀ (a : Axis) (n : Fin 8), recomputeTrack a tracks[n] = recomputeTrack a (swappedTrack s n)) (n : Fin 8) (hab : b = a) :
    (tracks.map (recomputeTrack a))[n] = recomputeTrack b (swappedTrack s n) := by
  rw [map_get, h, hab]

/-- The axis, the Cam Unit and the Capture Unit at a jump (R16, R78). -/
def jumpPoints (key : Key) (s : State) : State :=
  recomputeCams (closeEpisodes (s.onAxis fun a => { a with current := key, lead := key }))

theorem positionJump_eq (key : Key) (s : State) :
    positionJump key s = endCountTrails (jumpCues key (jumpPoints key (takeArrivals s))) := rfl

theorem jumpPoints_axis (key : Key) (s : State) :
    (jumpPoints key s).axis = { s.axis with current := key, lead := key } := rfl

theorem jumpPoints_cams (key : Key) (s : State) : (jumpPoints key s).cams =
    { s.cams with tracks := s.cams.tracks.map (recomputeTrack (jumpPoints key s).axis) } := rfl

theorem jumpPoints_capture (key : Key) (s : State) : (jumpPoints key s).capture =
    { s.capture with channels := s.capture.channels.map fun c => { c with episode := .closed } } := rfl

theorem jumpPoints_other (key : Key) (s : State) : jumpPoints key s =
    { s with axis := (jumpPoints key s).axis, cams := (jumpPoints key s).cams, capture := (jumpPoints key s).capture } := rfl

/-- A position jump in IDLE (R16, R29, R78, R115). -/
theorem positionJump_jumped {s : State} (key : Key) (hidle : s.seq.state = .idle) :
    Jumped key [] s (positionJump key s) ∧
      (positionJump key s).axis = { s.axis with current := key, lead := key } := by
  rw [positionJump_eq]
  obtain ⟨⟨lead, list, queues, log, channels, ev, hframe⟩, hboundaries, htracks, harrivals, hlines, hstill⟩ := takeArrivals_idle hidle
  generalize takeArrivals s = t at *
  have hvaxis := jumpPoints_axis key t
  have hvcams := jumpPoints_cams key t
  have hvcapture := jumpPoints_capture key t
  have hvother := jumpPoints_other key t
  generalize jumpPoints key t = v at *
  have hvcues : v.cues = t.cues := by rw [hvother]
  have hvseq : v.seq = t.seq := by rw [hvother]
  have hvouts : v.outs = t.outs := by rw [hvother]
  have hvstamp : v.stamp = s.stamp := by rw [hvother, hframe]
  have hvevents : v.events = t.events := by rw [hvother]
  obtain ⟨l, gone, horder, hgone, ⟨ev', hjump⟩, hraised⟩ := jumpCues_spec key v
  generalize jumpCues key v = u at *
  have hucues : u.cues = { t.cues with lead := key, list := l.filter fun x => !beyondHorizon key x.key } := by
    rw [hjump, hvcues]
  have huseq : u.seq = { t.seq with log := logAfter (gone.map (expiredRecord key v)) v } := by rw [hjump, hvseq]
  have huouts : u.outs = t.outs := by rw [hjump, hvouts]
  have hucams : u.cams = v.cams := by rw [hjump]
  have hucapture : u.capture = v.capture := by rw [hjump]
  have huaxis : u.axis = v.axis := by rw [hjump]
  have htseq : t.seq = { s.seq with log := log } := by rw [hframe]
  have hcues : t.cues.arrivals = [] := by rw [hframe]
  have hcapture : t.capture.arrivals = [] := by rw [hframe]
  have haxis : t.axis = s.axis := by rw [hframe]
  refine ⟨⟨?_, ?_, ?_, ?_, ?_, ?_, fun ch => ?_, fun n => ?_, fun n => ?_, fun hnocue hnowindow => ?_⟩, ?_⟩
  · rw [endCountTrails, State.onOuts_cues, hucues]
    exact hcues
  · rw [endCountTrails, State.onOuts_capture, hucapture, hvcapture]
    exact hcapture
  · rw [endCountTrails, State.onOuts_outs, huouts]
    exact harrivals
  · rw [endCountTrails, State.onOuts_cams, hucams, hvcams]
    exact hboundaries
  · rw [endCountTrails, State.onOuts_cues, hucues]
  · rw [endCountTrails, State.onOuts_seq, huseq, htseq]
  · rw [endCountTrails, State.onOuts_capture, hucapture, hvcapture, map_get]
  · rw [endCountTrails, State.onOuts_cams, State.onOuts_axis, hucams, hvcams, huaxis, map_get]
    exact htracks _ n
  · rw [endCountTrails_line, huouts, hlines]
    rfl
  · obtain ⟨htcues, htseq, htcapture, hswaps⟩ := hstill hnocue hnowindow
    have hrecords : gone.map (expiredRecord key v) = gone.map (expiredRecord key s) := by
      unfold expiredRecord
      rw [hvstamp]
    have hlog : logAfter (gone.map (expiredRecord key v)) v = logAfter (gone.map (expiredRecord key s)) s := by
      rw [hrecords, logAfter, logAfter, hvseq, htseq]
    have hroom : expiryRaised gone.length v = expiryRaised gone.length s := by
      rw [expiryRaised, expiryRaised, recordsRaised, recordsRaised, hvseq, htseq]
    refine ⟨fun ch => ?_, l, gone, ?_, hgone, ?_, ?_, ?_⟩
    · rw [endCountTrails, State.onOuts_capture, hucapture, hvcapture, map_get, htcapture]
    · rw [← htcues, ← hvcues]
      exact horder
    · rw [endCountTrails, State.onOuts_cues, hucues, htcues]
    · rw [endCountTrails, State.onOuts_seq, huseq, hlog]
    · rw [hroom, hvcues, htcues] at hraised
      have hall := raised_append (hswaps.trans_none (raised_of_events hvevents)) hraised
      rw [endCountTrails, State.onOuts_cues, List.append_nil, List.append_assoc]
      exact hall.trans_none (raised_of_events rfl)
  · rw [endCountTrails, State.onOuts_axis, huaxis, hvaxis, haxis]

/-! ## AXIS_ZERO (R13) -/

theorem axisZeroRule_refused {s : State} (h : s.seq.state ≠ .idle) : axisZeroRule s = (s, refuse .wrongState) := if_pos h

theorem axisZeroRule_taken {s : State} (h : s.seq.state = .idle) :
    axisZeroRule s = (positionJump Key.zero (cancelHoming s), okay []) := if_neg (not_not.2 h)

/-- What a jump has left stays when a command ends. -/
theorem jumped_of_kept {key : Key} {xs : List EventSource} {s t u : State} (h : Jumped key xs s t) (hk : KeptBut [] t u) :
    Jumped key xs s u := by
  obtain ⟨h1, h2, h3, h4, h5, h6, h7, h8, h9, h10⟩ := h
  have hcues := cues_of_kept hk
  have hcapture := capture_of_kept hk
  have hseq := seq_of_kept hk
  have hcams := cams_of_kept hk
  refine ⟨by rw [hcues, h1], by rw [hcapture, h2], by rw [arrivals_of_kept hk, h3], by rw [hcams, h4], by rw [hcues, h5],
    by rw [hseq, ← h6], by rw [hcapture]; exact h7, fun n => ?_, h9.trans (lines_of_kept hk), fun hnocue hnowindow => ?_⟩
  · rw [hcams, h8, recomputeTrack_axisIs (axisIs_of_kept hk)]
  · obtain ⟨hepisodes, l, gone, horder, hgone, hlist, hlog, hraised⟩ := h10 hnocue hnowindow
    rw [hcapture, hcues, hseq]
    exact ⟨hepisodes, l, gone, horder, hgone, hlist, hlog, raised_of_kept hk hraised⟩

/-- Settles O6: the homing wait that is cancelled first is beside the jump. -/
theorem axisZeroMovesBothPointsToOrigin : Obligations.AxisZeroMovesBothPointsToOrigin := by
  intro tag s hready
  refine ⟨fun hstate => ⟨_, rfl, request_refused tag 0x04#8 hready (by decide) (axisZeroRule_refused (s := heard s) hstate)⟩,
    fun hidle => ?_⟩
  have hkept : KeptBut [.axis, .cues, .seq, .capture, .cams, .lines, .inputs, .events] (heard s)
      (positionJump Key.zero (cancelHoming (heard s))) :=
    KeptBut.then_mono (cancelHoming_kept _) (positionJump_kept _ _) (by simp) (by simp)
  have hinputs : (positionJump Key.zero (cancelHoming (heard s))).ins = (cancelHoming (heard s)).ins :=
    positionJump_kept _ _ .inputs (by simp)
  obtain ⟨hanswer, hsame, hall⟩ := request_writes (rule := noBody axisZeroRule []) tag 0x04#8 [] hready (by decide)
    (axisZeroRule_taken (s := heard s) hidle) hkept (by simp)
  have hin := (ins_of_kept hsame).trans hinputs
  obtain ⟨ins, hcancel⟩ := cancelHoming_eq (heard s)
  obtain ⟨hjumped, haxis⟩ := positionJump_jumped (s := cancelHoming (heard s)) Key.zero (by rw [hcancel]; exact hidle)
  rw [hcancel] at hjumped haxis
  have hax := axisIs_of_kept hsame
  rw [hcancel] at hsame hax
  rw [haxis] at hax
  refine ⟨_, rfl, hanswer, hax, ?_, fun n hn => ?_, jumped_of_kept (s := s) hjumped hsame, hall⟩
  · rw [hin]
    simpa using cancelHoming_in (heard s) 2
  · rw [hin, cancelHoming_in, if_neg fun h => hn h.1.symm]
    rfl

end Sys2Proof.Machine
end

section
/-! One count of the timebase, the speed sample, and the reverse excursion (R4, R6, R7, R9, R17). -/

namespace Sys2Proof.Machine

/-! ## TIMEBASE_COUNT (R4) -/

theorem countForward_spec (s : State) : CountTaken true s.axis s (countForward s) := by
  by_cases h : s.axis.current = s.axis.lead
  · exact countForward_leading s h
  · exact countForward_behind s h

/-- Without a boundary that waits, a forward count behind the lead point moves the axis and the tracks alone (R6, R7). -/
theorem countForward_behind_kept {s : State} (h : s.axis.current ≠ s.axis.lead) (hboundaries : s.cams.boundaries = 0) :
    KeptBut [.axis, .cams] s (countForward s) := by
  unfold countForward
  dsimp only
  rw [if_neg h, takeBoundaries, if_pos hboundaries]
  exact KeptBut.then_mono (onAxis_kept _ _) (recomputeCams_kept _) (by simp) (by simp)

theorem timebaseDue_iff (s : State) : timebaseDue s = true ↔ s.axis.cfg.source = .timebase ∧ s.axis.running = true ∧
    (s.seq.state = .idle ∨ s.seq.state = .armed) ∧ s.stamp.toNat % 2 ^ s.axis.cfg.k = 0 ∧ s.axis.timebaseTaken = false := by
  simp [timebaseDue, dividerRuns, and_assoc]

theorem exec_timebaseCount {s : State} (hrun : s.phase = .running) (hdue : timebaseDue s = true) :
    exec .timebaseCount s = .next (settle (countForward (s.onAxis fun a => { a with timebaseTaken := true }))) :=
  event_running (effect := fun s => countForward (s.onAxis fun a => { a with timebaseTaken := true })) hrun hdue

/-! ## SPEED_SAMPLE (R17) -/

/-- The speed sample takes the net count, and the tracks are recomputed with it (R17). -/
def takeSample (s : State) : State :=
  recomputeCams (s.onAxis fun a =>
    { a with speed := a.netCount, netCount := 0, nextSample := after a.nextSample Config.sampleTime })

theorem exec_speedSample {s : State} (hrun : s.phase = .running) (hdue : reached s.stamp s.axis.nextSample = true) :
    exec .speedSample s = .next (settle (takeSample s))  :=
  event_running (effect := takeSample) hrun hdue

theorem takeSample_kept (s : State) : KeptBut [.axis, .cams] s (takeSample s) :=
  KeptBut.then_mono (onAxis_kept _ _) (recomputeCams_kept _) (by simp) (by simp)

theorem recomputeCams_track (s : State) (n : Fin 8) :
    (recomputeCams s).cams.tracks[n] = recomputeTrack s.axis s.cams.tracks[n] := map_get _ _ _

/-! ## The reverse excursion (R7) -/

theorem keyAfter_zero {modulus : Nat} {k : Key} (hk : k.pos < modulus) : keyAfter modulus k 0 = k := by
  simp [keyAfter, Nat.div_eq_of_lt hk, Nat.mod_eq_of_lt hk]

theorem keyAfter_pos_lt {modulus : Nat} (hm : 0 < modulus) (k : Key) (n : Nat) : (keyAfter modulus k n).pos < modulus :=
  Nat.mod_lt _ hm

/-- One forward count more (R6). -/
theorem countedKey_keyAfter {modulus : Nat} (hm : 0 < modulus) (k : Key) (n : Nat) :
    countedKey true modulus (keyAfter modulus k n) = keyAfter modulus k (n + 1) := by
  have hsplit := Nat.div_add_mod (k.pos + n) modulus
  simp only [countedKey, if_true]
  unfold keyAfter
  dsimp only
  by_cases h : (k.pos + n) % modulus + 1 < modulus
  · have hdiv : (k.pos + (n + 1)) / modulus = (k.pos + n) / modulus := by
      rw [← Nat.add_assoc, Nat.add_div hm, if_neg]
      · rcases Nat.lt_or_ge 1 modulus with h1 | h1
        · rw [Nat.div_eq_of_lt h1]
          rfl
        · omega
      · rcases Nat.lt_or_ge 1 modulus with h1 | h1
        · rw [Nat.mod_eq_of_lt h1]
          omega
        · omega
    have hmod : (k.pos + (n + 1)) % modulus = (k.pos + n) % modulus + 1 := by
      rw [← Nat.add_assoc, Nat.add_mod, Nat.mod_eq_of_lt (a := 1) (by omega), Nat.mod_eq_of_lt h]
    rw [if_pos h, hdiv, hmod]
  · have hlt := Nat.mod_lt (k.pos + n) hm
    have hwrap : k.pos + (n + 1) = modulus * ((k.pos + n) / modulus + 1) := by
      rw [Nat.mul_add]
      omega
    rw [if_neg h, hwrap, Nat.mul_div_cancel_left _ hm, Nat.mul_mod_right, BitVec.ofNat_add, ← BitVec.add_assoc]

/-- So many forward counts (R6). -/
theorem repeat_countedKey {modulus : Nat} {k : Key} (hk : k.pos < modulus) (n : Nat) :
    Nat.repeat (countedKey true modulus) n k = keyAfter modulus k n := by
  have hm : 0 < modulus := Nat.zero_lt_of_lt hk
  induction n with
  | zero => exact (keyAfter_zero hk).symm
  | succ n ih =>
    show countedKey true modulus (Nat.repeat (countedKey true modulus) n k) = _
    rw [ih, countedKey_keyAfter hm]

/-- The key some counts on is a given one just when the counts lead to its position, a multiple of all cycles apart. -/
theorem keyAfter_eq_iff {modulus : Nat} {k lead : Key} (hlead : lead.pos < modulus) (n : Nat) :
    keyAfter modulus k n = lead ↔
      ∃ j, k.pos + n = ((lead.cycle - k.cycle).toNat + 65536 * j) * modulus + lead.pos := by
  have hm : 0 < modulus := Nat.zero_lt_of_lt hlead
  have hd := (lead.cycle - k.cycle).isLt
  constructor
  · intro h
    have hcycle : k.cycle + BitVec.ofNat 16 ((k.pos + n) / modulus) = lead.cycle := congrArg Key.cycle h
    have hpos : (k.pos + n) % modulus = lead.pos := congrArg Key.pos h
    have hq : (k.pos + n) / modulus % 65536 = (lead.cycle - k.cycle).toNat := by
      rw [← hcycle]
      simp
    refine ⟨(k.pos + n) / modulus / 65536, ?_⟩
    have hdiv := Nat.div_add_mod ((k.pos + n) / modulus) 65536
    have hall := Nat.div_add_mod (k.pos + n) modulus
    rw [← hq, ← hpos, Nat.add_comm (_ % 65536), hdiv, Nat.mul_comm]
    exact hall.symm
  · rintro ⟨j, hj⟩
    unfold keyAfter
    dsimp only
    rw [hj, Nat.add_comm, Nat.add_mul_div_right _ _ hm, Nat.div_eq_of_lt hlead, Nat.add_mul_mod_self_right,
      Nat.mod_eq_of_lt hlead, Nat.zero_add]
    have hcycle : k.cycle + BitVec.ofNat 16 ((lead.cycle - k.cycle).toNat + 65536 * j) = lead.cycle := by
      apply BitVec.eq_of_toNat_eq
      bv_omega
    rw [hcycle]

/-- The reverse excursion is the least number of forward counts from the current point to the lead point (R7). -/
theorem excursion_spec {a : Axis} (hcurrent : a.current.pos < a.cfg.modulus) (hlead : a.lead.pos < a.cfg.modulus) :
    keyAfter a.cfg.modulus a.current (excursion a) = a.lead ∧
      ∀ n, n < excursion a → keyAfter a.cfg.modulus a.current n ≠ a.lead := by
  generalize hd : (a.lead.cycle - a.current.cycle).toNat * a.cfg.modulus + a.lead.pos = d
  have hexcursion : excursion a = if a.current.pos ≤ d then d - a.current.pos else 65536 * a.cfg.modulus + d - a.current.pos := by
    rw [← hd]
    rfl
  have hround : ∀ j, ((a.lead.cycle - a.current.cycle).toNat + 65536 * j) * a.cfg.modulus + a.lead.pos =
      d + 65536 * a.cfg.modulus * j := by
    intro j
    rw [← hd, Nat.add_mul]
    ring
  refine ⟨(keyAfter_eq_iff hlead _).2 ?_, fun n hn h => ?_⟩
  · by_cases hle : a.current.pos ≤ d
    · refine ⟨0, ?_⟩
      rw [hround, hexcursion, if_pos hle]
      omega
    · refine ⟨1, ?_⟩
      rw [hround, hexcursion, if_neg hle]
      omega
  · obtain ⟨j, hj⟩ := (keyAfter_eq_iff hlead n).1 h
    rw [hround] at hj
    rw [hexcursion] at hn
    cases j with
    | zero => split at hn <;> omega
    | succ j =>
      rw [Nat.mul_add] at hj
      split at hn <;> omega

/-- Settles O9. -/
theorem timebaseCountsAndSpeedIsSampled : Obligations.TimebaseCountsAndSpeedIsSampled := by
  refine ⟨fun s hrun hsource hgo hstate hstamp htaken => ?_, fun s hrun hdue => ?_, fun a hcurrent hlead => ?_⟩
  · have hdue := (timebaseDue_iff s).2 ⟨hsource, hgo, hstate, hstamp, htaken⟩
    have hmark := onAxis_kept s fun a => { a with timebaseTaken := true }
    refine ⟨_, exec_timebaseCount hrun hdue, CountTaken.settled (countForward_spec (s.onAxis fun a => { a with timebaseTaken := true })),
      fun hbehind hboundaries => settled_kept ?_, settled_kept ?_⟩
    · exact KeptBut.then_mono hmark (countForward_behind_kept hbehind hboundaries) (by simp) (by simp)
    · exact KeptBut.then_mono hmark (countForward_kept _) (by simp) (by simp)
  · have haxis := settle_axis (takeSample s)
    refine ⟨_, exec_speedSample hrun hdue, haxis, fun n => ?_, ?_, settled_kept (takeSample_kept s)⟩
    · rw [settle_cams, recomputeTrack_axisIs haxis]
      exact recomputeCams_track _ n
    · rw [settle_cams]
      rfl
  · rw [repeat_countedKey hcurrent]
    obtain ⟨hmeets, hleast⟩ := excursion_spec hcurrent hlead
    refine ⟨hmeets, fun n hn => ?_⟩
    rw [repeat_countedKey hcurrent]
    exact hleast n hn

end Sys2Proof.Machine
end

section
/-! The data of the replies against the layouts of section 11.8: each code is the place of its value in the list of section 11.4,
and an absent field is zeros of its size (R172). -/

namespace Sys2Proof.Machine

/-! ## Codes -/

theorem byteOf_axisSource (x : AxisSource) : byteOf ([.quad, .step, .timebase].idxOf x) = axisSourceByte x := by
  cases x <;> rfl

theorem byteOf_stateCode (q : SeqState) : byteOf (stateCode q) = seqStateByte q := by cases q <;> rfl

theorem byteOf_profileSlot (x : ProfileSlot) : byteOf ([.a, .b].idxOf x) = profileSlotByte x := by cases x <;> rfl

theorem byteOf_edgeMode (m : EdgeMode) : byteOf ([.never, .rising, .falling, .both].idxOf m) = edgeModeByte m := by
  cases m <;> rfl

theorem byteOf_drive (x : PinDrive) : byteOf ([.low, .high, .released].idxOf x) = driveByte x := by cases x <;> rfl

theorem byteOf_kindCode (k : FaultKind) : byteOf (kindCode k) = byteOf (faultRank k) := by cases k <;> rfl

theorem byteOf_groupCode (g : NoticeGroup) : byteOf (groupCode g) = noticeGroupByte g := by cases g <;> rfl

theorem byteOf_conditionCode {α : Type} (b : Block α) : byteOf (conditionCode b) = blockByte b := by cases b <;> rfl

theorem byteOf_resultCode (r : StoreResult) : byteOf (resultCode r) = storeResultByte r := by cases r <;> rfl

theorem byteOf_loadResult (r : LoadResult) :
    byteOf ([.loaded, .partly, .empty, .bad, .skipped].idxOf r) = loadResultByte r := by cases r <;> rfl

theorem byteOf_cause (x : Cause) : byteOf ([.key, .catchUp, .skipped, .expired].idxOf x) = causeByte x := by cases x <;> rfl

theorem byteOf_edge (e : Edge) : byteOf ([.rising, .falling].idxOf e) = edgeByte e := by cases e <;> rfl

theorem byteOf_edgeChoice (e : EdgeChoice) : byteOf ([.rising, .falling, .both].idxOf e) = channelEdgeByte e := by
  cases e <;> rfl

theorem byteOf_missCode (m : MissResult) : byteOf (missCode m) = missResultByte m := by cases m <;> rfl

theorem byteOf_missPolicy (p : MissPolicy) : byteOf ([.drop, .nominal].idxOf p) = missPolicyByte p := by cases p <;> rfl

theorem byteOf_channelInput (x : Option (Fin 8)) : byteOf ((x.map (·.val)).getD 8) = channelInputByte x := by
  cases x <;> rfl

theorem byteOf_toNat (b : Byte) : byteOf b.toNat = b := BitVec.ofNat_toNat ..

theorem byteOf_zero : byteOf 0 = 0#8 := rfl

/-! ## The replies -/

theorem axisReadData_layout (a : Axis) : axisReadData a = layout (axisFields a) := by
  have hstaged : optBytes 4 be32 a.staged = be32 (a.staged.getD 0) := by cases a.staged <;> rfl
  simp [axisReadData, axisFields, layout_cons, layout_append, layout_nil, layout_key, bytesOf_one, bytesOf_two, bytesOf_four,
    byteOf_axisSource, byteOf_flag, be32_signed, hstaged]

theorem outcomeBytes_layout (r : OutcomeRecord) : outcomeBytes r = layout (outcomeFields r) := by
  have hsets : optBytes 4 (fun p : LineSet × LineSet => be16 p.1.toNat ++ be16 p.2.toNat) r.sets =
      be16 ((r.sets.map (·.1.toNat)).getD 0) ++ be16 ((r.sets.map (·.2.toNat)).getD 0) := by cases r.sets <;> rfl
  have hremaining : optBytes 1 (fun x => [remainingByte x]) r.remaining =
      [byteOf ((r.remaining.map remainingCode).getD 0)] := by
    cases r.remaining with
    | none => rfl
    | some x => exact congrArg (fun b => [b]) (byteOf_remainingCode x).symm
  have hskipped : optBytes 1 (fun n => [byteOf n]) r.skipped = [byteOf (r.skipped.getD 0)] := by cases r.skipped <;> rfl
  simp [outcomeBytes, outcomeFields, layout_cons, layout_append, layout_nil, layout_key, bytesOf_one, bytesOf_two,
    bytesOf_four, byteOf_cause, byteOf_actionCode, flagBits_eq, hsets, hremaining, hskipped]

theorem captureBytes_layout (r : CaptureRecord) : captureBytes r = layout (captureFields r) := by
  have hgroup : optBytes 1 (fun g : Fin 32 => [byteOf g.val]) r.group = [byteOf ((r.group.map (·.val)).getD 0)] := by
    cases r.group <;> rfl
  simp [captureBytes, captureFields, layout_cons, layout_append, layout_nil, layout_key, bytesOf_one, bytesOf_four,
    byteOf_edge, ← byteOf_flag, hgroup]

theorem missBytes_layout (m : Option Miss) : missBytes m = layout (match m with
    | none => [(1, 0), (1, 0), (1, 0), (2, 0)]
    | some m => [(1, flagBits [true, m.group.isSome]), (1, missCode m.result), (1, (m.group.map (·.val)).getD 0),
      (2, m.cycle.toNat)]) := by
  cases m with
  | none => rfl
  | some m =>
    have hgroup : optBytes 1 (fun g : Fin 32 => [byteOf g.val]) m.group = [byteOf ((m.group.map (·.val)).getD 0)] := by
      cases m.group <;> rfl
    simp [missBytes, layout_cons, layout_nil, bytesOf_one, bytesOf_two, flagBits_eq, byteOf_missCode, hgroup]

theorem gateBytes_layout (g : Gate) : gateBytes g = layout (match g with
    | .always => [(1, 0), (4, 0), (4, 0), (4, 0)]
    | .window start stop nominal => [(1, 1), (4, start), (4, stop), (4, nominal)]) := by
  cases g with
  | always => rfl
  | window start stop nominal => simp [gateBytes, layout_cons, layout_nil, bytesOf_one, bytesOf_four, byteOf]

theorem episodeBytes_layout (e : Episode) : episodeBytes e = layout (match e with
    | .closed => [(1, 0), (2, 0)]
    | .opened cyc => [(1, 1), (2, cyc.toNat)]
    | .taken cyc => [(1, 2), (2, cyc.toNat)]) := by
  cases e with
  | closed => rfl
  | opened cyc => simp [episodeBytes, layout_cons, layout_nil, bytesOf_one, bytesOf_two, byteOf]
  | taken cyc => simp [episodeBytes, layout_cons, layout_nil, bytesOf_one, bytesOf_two, byteOf]

theorem capturesReadData_layout (c : Channel) (queue : List Group) :
    capturesReadData c queue = layout (capturesFields c queue) := by
  have hqueue : queue.flatMap (fun g => [byteOf g.number.val, missPolicyByte g.policy, byteOf g.cues.length]) =
      layout (queue.flatMap fun g => [(1, g.number.val), (1, [.drop, .nominal].idxOf g.policy), (1, g.cues.length)]) := by
    simp [layout_flatMap, layout_cons, layout_nil, bytesOf_one, byteOf_missPolicy]
  have hlog : c.log.flatMap captureBytes = layout (c.log.flatMap captureFields) := by
    rw [layout_flatMap, funext captureBytes_layout]
  unfold capturesReadData capturesFields
  rw [episodeBytes_layout, missBytes_layout, gateBytes_layout, hqueue, hlog]
  simp [layout_cons, layout_append, bytesOf_one, bytesOf_two, byteOf_channelInput, byteOf_edgeChoice,
    ← byteOf_flag] <;> rfl

theorem listReadData_layout (c : CueTable) (start : Nat) : listReadData c start = layout (listFields c start) := by
  have hentry : ∀ x : Listed, byteOf x.cue.slot.val :: keyBytes x.key ++ [standingByte c.lead x.key] =
      layout ([(1, x.cue.slot.val)] ++ keyFields x.key ++ [(1, (keyReached c.lead x.key).toNat)]) := by
    intro x
    simp [layout_cons, layout_append, layout_nil, layout_key, bytesOf_one, byteOf_flag, standingByte, flagByte]
  simp only [listReadData, listFields, layout_append, layout_flatMap, layout_cons, layout_nil, bytesOf_one, bytesOf_two,
    hentry, List.length_take, List.length_drop, List.append_nil]

theorem seqReadData_layout (s : State) : seqReadData s = layout (seqFields s) := by
  simp [seqReadData, seqFields, layout_cons, layout_nil, bytesOf_one, bytesOf_two, byteOf_stateCode, byteOf_flag, flagBits_eq,
    reasonsByte, freeCount, occupiedCount, waitingCount, listedCount, reachedRun]

theorem windowBytes_eq (w : Window) : windowBytes w = be32 w.on ++ be32 w.off := rfl

theorem profileBytes_layout (p : Profile) : profileBytes p = layout (profileFields p) := by
  cases p with
  | empty => rfl
  | full => rfl
  | windows ws =>
    simp [profileBytes, profileFields, layout_cons, layout_append, layout_flatMap, layout_nil, bytesOf_one, bytesOf_four,
      bytesOf_zero, byteOf, funext windowBytes_eq]

theorem camReadData_layout (s : State) (n : Fin 8) : camReadData s n = layout (camFields s s.cams.tracks[n]) := by
  simp only [camReadData, camFields, layout_cons, layout_append, layout_nil, bytesOf_one, bytesOf_two, bytesOf_four,
    ← profileBytes_layout, byteOf_profileSlot, byteOf_flag, be32_signed, trackOutput]
  simp

theorem outputEntry_layout (s : State) (l : OutLine) : outputEntry s l = layout (outputFields s l) := by
  have howner : ownerByte l.cfg.owner = byteOf (match l.cfg.owner with
      | .nobody => 0
      | .direct => 1
      | .cue => 2
      | .cam t => 3 + t.val) := by cases l.cfg.owner <;> rfl
  have hsettings : (if l.cfg.polarity = .activeLow then 1 else 0) + 2 * driverCode l.cfg.driver +
      8 * safeLevelCode l.cfg.safeLevel = (decide (l.cfg.polarity = .activeLow)).toNat +
        2 * [.off, .pushPull, .openDrain].idxOf l.cfg.driver + 8 * [.inactive, .active, .float].idxOf l.cfg.safeLevel := by
    cases l.cfg.polarity <;> cases l.cfg.driver <;> cases l.cfg.safeLevel <;> rfl
  have hmismatch : mismatchByte l.mismatch = byteOf (match l.mismatch with
      | .agree => 0
      | .pending _ => 1
      | .present => 2) := by cases l.mismatch <;> rfl
  have htrail : trailBytes l.trail = layout (match l.trail with
      | none => [(1, 0), (6, 0)]
      | some (.counts k) => (1, 1) :: keyFields k
      | some (.time e) => [(1, 2), (2, 0), (4, e.toNat)]) := by
    rcases l.trail with _ | k | e
    · rfl
    · simp [trailBytes, layout_cons, layout_key, bytesOf_one, byteOf]
    · simp [trailBytes, layout_cons, layout_nil, bytesOf_one, bytesOf_two, bytesOf_four, byteOf]
  unfold outputEntry outputFields
  rw [howner, hsettings, hmismatch, htrail]
  simp only [layout_append, layout_cons, layout_nil, bytesOf_one, flagBits_eq, byteOf_drive]
  rfl

theorem inputEntry_layout (i : InLine) : inputEntry i = layout (inputFields i) := by
  have hfn : inputFnByte i.fn = byteOf (match i.fn with
      | .general => 0
      | .freeze => 1
      | .axisA => 2
      | .axisB => 3
      | .index => 4
      | .capture _ => 5) := by cases i.fn <;> rfl
  unfold inputEntry inputFields
  rw [hfn]
  simp [layout_cons, layout_nil, bytesOf_one, byteOf_edgeMode, byteOf_flag] <;> rfl

theorem linesReadData_layout (s : State) :
    linesReadData s = layout (s.outs.lines.toList.flatMap (outputFields s) ++ s.ins.toList.flatMap inputFields) := by
  simp only [linesReadData, layout_append, layout_flatMap, ← outputEntry_layout, ← inputEntry_layout]

theorem faultReadData_layout (s : State) : faultReadData s = layout (faultFields s) := by
  have hrecord : faultRecordBytes s.faults.primary = layout (match s.faults.primary with
      | none => [(24, 0)]
      | some r =>
        [(1, flagBits [true, r.line.isSome, r.speed.isSome]), (1, kindCode r.kind), (4, r.stamp.toNat)] ++
          keyFields r.current ++ keyFields r.lead ++
          [(1, stateCode r.left), (1, (r.line.map (·.val)).getD 0), (4, (r.speed.map signed).getD 0)]) := by
    cases s.faults.primary with
    | none => rfl
    | some r =>
      have hline : optBytes 1 (fun n : Fin 16 => [byteOf n.val]) r.line = [byteOf ((r.line.map (·.val)).getD 0)] := by
        cases r.line <;> rfl
      have hspeed : optBytes 4 beInt r.speed = be32 ((r.speed.map signed).getD 0) := by cases r.speed <;> rfl
      simp [faultRecordBytes, layout_cons, layout_nil, layout_append, layout_key, bytesOf_one, bytesOf_four,
        flagBits_eq, byteOf_kindCode, byteOf_stateCode, hline, hspeed]
  unfold faultReadData faultFields
  rw [hrecord]
  simp [layout_cons, layout_append, layout_nil, bytesOf_one, bytesOf_two, byteOf_toNat, byteOf_flag, flagBits_eq,
    conditionBytes, limitBytes] <;> rfl

theorem storeReadData_layout (x : SettingStore) : storeReadData x = layout (storeFields x) := by
  have hprepared : flagByte (headerPrepared x.blocks) = byteOf (match x.blocks.header with
      | .valid c => c.signed.toNat
      | _ => 0) := by
    cases h : x.blocks.header <;> simp [headerPrepared, h, byteOf_flag] <;> rfl
  have hlast : optBytes 2 (fun o : LastOp => [byteOf o.block.val, storeResultByte o.result]) x.lastOp =
      [byteOf ((x.lastOp.map (·.block.val)).getD 0), byteOf ((x.lastOp.map fun o => resultCode o.result).getD 0)] := by
    cases x.lastOp with
    | none => rfl
    | some o => simp [optBytes, byteOf_resultCode]
  have hresults : x.results.toList.map loadResultByte = layout (x.results.toList.map fun r =>
      (1, [.loaded, .partly, .empty, .bad, .skipped].idxOf r)) := by
    induction x.results.toList with
    | nil => rfl
    | cons r rs ih => simp [layout_cons, bytesOf_one, byteOf_loadResult, ← ih]
  unfold storeReadData storeFields
  rw [hprepared, hlast, hresults]
  simp [layout_cons, bytesOf_one, byteOf_conditionCode, blockConditions, byteOf_flag, byteOf_zero] <;> rfl

/-! ## CUE_READ -/

theorem find?_of_split {α : Type} {p : α → Bool} {before behind : List α} {x : α} (hbefore : ∀ y ∈ before, p y = false)
    (hx : p x = true) : (before ++ x :: behind).find? p = some x := by
  rw [List.find?_append, List.find?_eq_none.2 (by simpa using hbefore), List.find?_cons_of_pos hx]
  rfl

theorem findIdx_of_split {α : Type} {p : α → Bool} {before behind : List α} {x : α} (hbefore : ∀ y ∈ before, p y = false)
    (hx : p x = true) : (before ++ x :: behind).findIdx p = before.length := by
  induction before with
  | nil => simp [List.findIdx_cons, hx]
  | cons y ys ih =>
    have hy := hbefore y List.mem_cons_self
    simp [List.findIdx_cons, hy, ih fun z hz => hbefore z (List.mem_cons_of_mem y hz)]

theorem cueReadBytes_layout (state : Nat) (c : Cue) (listed : Option (Key × Nat × Bool)) (waiting : Option (Fin 32 × Nat)) :
    cueReadBytes (byteOf state) c (listed.map fun p => (p.1, p.2.1, flagByte p.2.2)) waiting =
      layout (cueFields state c listed (waiting.map fun p => (p.1.val, p.2))) := by
  have hkey : optBytes 6 (fun p : Key × Nat × Byte => keyBytes p.1) (listed.map fun p => (p.1, p.2.1, flagByte p.2.2)) =
      keyBytes ((listed.map (·.1)).getD Key.zero) := by cases listed <;> rfl
  have hplace : optBytes 2 (fun p : Fin 32 × Nat => [byteOf p.1.val, byteOf p.2]) waiting =
      [byteOf (((waiting.map fun p => (p.1.val, p.2)).map (·.1)).getD 0),
        byteOf (((waiting.map fun p => (p.1.val, p.2)).map (·.2)).getD 0)] := by cases waiting <;> rfl
  have hoffset : optBytes 4 be32 c.offset = be32 (c.offset.getD 0) := by cases c.offset <;> rfl
  have hwidth : optBytes 2 (fun w : Width => be16 w.value) c.width = be16 ((c.width.map (·.value)).getD 0) := by
    cases c.width <;> rfl
  have hrep : optBytes 2 (fun r : Repetition => [remainingByte r.remaining, byteOf r.period]) c.rep =
      [byteOf ((c.rep.map fun r => remainingCode r.remaining).getD 0), byteOf ((c.rep.map (·.period)).getD 0)] := by
    cases c.rep with
    | none => rfl
    | some r => simp [optBytes, byteOf_remainingCode]
  have hstanding : optBytes 2 (fun p : Key × Nat × Byte => [byteOf p.2.1, p.2.2])
      (listed.map fun p => (p.1, p.2.1, flagByte p.2.2)) =
      [byteOf ((listed.map (·.2.1)).getD 0), byteOf ((listed.map (·.2.2)).getD false).toNat] := by
    cases listed with
    | none => rfl
    | some p => simp [optBytes, byteOf_flag]
  unfold cueReadBytes cueFields
  rw [hkey, hplace, hoffset, hwidth, hrep, hstanding]
  simp [layout_cons, layout_append, layout_nil, layout_key, bytesOf_one, bytesOf_two, bytesOf_four, byteOf_actionCode,
    flagBits_eq, cueOptions]

theorem cueReadData_of_free {c : CueTable} {slot : Fin 256} (h : slotFree c slot = true) :
    cueReadData c slot = layout [(24, 0)] := by
  simp only [slotFree, Bool.and_eq_true, Bool.not_eq_true', List.any_eq_false, decide_eq_true_eq] at h
  obtain ⟨hlist, hwaiting⟩ := h
  have hnone : c.list.find? (fun x => decide (x.cue.slot = slot)) = none := by simpa using hlist
  have hgroup : groupOfSlot c slot = none := by
    unfold groupOfSlot
    simp only [List.find?_eq_none, List.any_eq_true, decide_eq_true_eq, not_exists, not_and]
    intro g hg x hx
    exact hwaiting x (List.mem_flatMap.2 ⟨g, hg, hx⟩)
  simp only [cueReadData, hnone, hgroup]
  rfl

theorem cueReadData_of_listed {c : CueTable} {slot : Fin 256} {before behind : List Listed} {x : Listed}
    (hlist : c.list = before ++ x :: behind) (hbefore : ∀ y ∈ before, y.cue.slot ≠ slot) (hx : x.cue.slot = slot) :
    cueReadData c slot = layout (cueFields 2 x.cue (some (x.key, before.length, keyReached c.lead x.key)) none) := by
  have hfalse : ∀ y ∈ before, decide (y.cue.slot = slot) = false := fun y hy => decide_eq_false (hbefore y hy)
  have hfind : c.list.find? (fun x => decide (x.cue.slot = slot)) = some x := by
    rw [hlist]
    exact find?_of_split hfalse (decide_eq_true hx)
  have hindex : listIndex c slot = before.length := by
    unfold listIndex
    rw [hlist]
    exact findIdx_of_split hfalse (decide_eq_true hx)
  simp only [cueReadData, hfind, hindex]
  exact cueReadBytes_layout 2 x.cue (some (x.key, before.length, keyReached c.lead x.key)) none

theorem cueReadData_of_waiting {c : CueTable} {slot : Fin 256} {groups others : List Group} {g : Group}
    {front back : List Cue} {x : Cue} (hlist : ∀ y ∈ c.list, y.cue.slot ≠ slot) (hqueues : queuedGroups c = groups ++ g :: others)
    (hgroups : ∀ h ∈ groups, ∀ y ∈ h.cues, y.slot ≠ slot) (hcues : g.cues = front ++ x :: back)
    (hfront : ∀ y ∈ front, y.slot ≠ slot) (hx : x.slot = slot) :
    cueReadData c slot = layout (cueFields 1 x none (some (g.number.val, front.length))) := by
  have hnone : c.list.find? (fun x => decide (x.cue.slot = slot)) = none := by simpa using hlist
  have hgroup : groupOfSlot c slot = some g := by
    unfold groupOfSlot
    rw [hqueues]
    refine find?_of_split (fun h hh => ?_) ?_
    · simpa using hgroups h hh
    · simp [hcues, hx]
  have hfalse : ∀ y ∈ front, decide (y.slot = slot) = false := fun y hy => decide_eq_false (hfront y hy)
  have hfind : g.cues.find? (fun x => decide (x.slot = slot)) = some x := by
    rw [hcues]
    exact find?_of_split hfalse (decide_eq_true hx)
  have hindex : g.cues.findIdx (fun x => decide (x.slot = slot)) = front.length := by
    rw [hcues]
    exact findIdx_of_split hfalse (decide_eq_true hx)
  simp only [cueReadData, hnone, hgroup, hfind, hindex]
  exact cueReadBytes_layout 1 x none (some (g.number, front.length))

/-! ## EVENT_READ -/

theorem sourceSet_testBit (f : Fin 28 → Bool) (n : Fin 28) : (BitVec.ofFnLE f).toNat.testBit n.val = f n := by
  rw [BitVec.testBit_toNat]
  simp

theorem eventReadData_layout (s : State) : ∃ pending enabled : Nat, pending < 2 ^ 28 ∧ enabled < 2 ^ 28 ∧
    (∀ n : Fin 28, pending.testBit n.val = s.events.recs[n].pending) ∧
    (∀ n : Fin 28, enabled.testBit n.val = s.events.recs[n].enabled) ∧
    eventReadData s = layout (eventFields pending enabled s.events) := by
  refine ⟨_, _, (BitVec.ofFnLE fun n : Fin 28 => s.events.recs[n].pending).isLt,
    (BitVec.ofFnLE fun n : Fin 28 => s.events.recs[n].enabled).isLt, sourceSet_testBit _, sourceSet_testBit _, ?_⟩
  have hrecords : s.events.recs.toList.flatMap (fun r => [r.count, r.noticed]) =
      layout (s.events.recs.toList.flatMap fun r => [(1, r.count.toNat), (1, r.noticed.toNat)]) := by
    simp [layout_flatMap, layout_cons, layout_nil, bytesOf_one, byteOf_toNat]
  unfold eventReadData eventFields
  rw [hrecords]
  simp only [layout_append, layout_cons, layout_nil, bytesOf_one, bytesOf_four, byteOf_groupCode, byteOf_flag, sourceSet,
    orderBytes, atnAsserted]
  simp

/-! ## The read requests -/

/-- A request without a body that answers with data of the part it finds. -/
theorem request_read {s : State} {data : State → List Byte} (tag kind : Byte) (hready : Ready s) (hkind : kind.toNat < 128)
    (hdata : data (heard s) = data s) :
    Answered tag kind .ok false (data s) s (serve ⟨tag, kind, []⟩ (noBody (fun s => (s, okay (data s))) []) s) ∧
      KeptBut [] s (serve ⟨tag, kind, []⟩ (noBody (fun s => (s, okay (data s))) []) s) :=
  request_kept (r := okay (data s)) tag kind [] hready hkind (by rw [← hdata]; rfl)

theorem finOf_of_eq {n : Nat} {b : Byte} {i : Fin n} (h : b.toNat = i.val) : finOf n b = some i := by
  have hlt : b.toNat < n := h ▸ i.isLt
  simp [finOf, h]

theorem finOf_of_ge {n : Nat} {b : Byte} (h : n ≤ b.toNat) : finOf n b = none := by
  simp [finOf, h]

theorem storeReadRule_eq (s : State) :
    storeReadRule s = (s, if s.store.op.isSome then refuse .busy else okay (storeReadData s.store)) := by
  unfold storeReadRule
  split <;> rfl

/-- Settles O10: each read request keeps the part it has been heard by, and its data is one of the layouts. -/
theorem readRequestsAnswerAndChangeNothing : Obligations.ReadRequestsAnswerAndChangeNothing := by
  refine ⟨fun tag s hready => ⟨⟨_, rfl, request_read (data := fun s => axisReadData s.axis) tag 0x07#8 hready (by decide) rfl⟩,
      fun slot => ⟨_, rfl,
        request_kept (r := okay (cueReadData s.cues slot.toFin)) tag 0x14#8 [slot] hready (by decide) rfl⟩,
      fun start => ⟨_, rfl,
        request_kept (r := okay (listReadData s.cues start.toNat)) tag 0x15#8 [start] hready (by decide) rfl⟩,
      ⟨_, rfl, request_read tag 0x24#8 hready (by decide) rfl⟩, fun b n hb => ⟨_, rfl, ?_⟩,
      ⟨_, rfl, request_read tag 0x43#8 hready (by decide) rfl⟩,
      ⟨_, rfl,
        request_kept (r := okay (faultReadData (heard s))) tag 0x51#8 [] hready (by decide) rfl⟩,
      ⟨_, rfl, request_read tag 0x61#8 hready (by decide) rfl⟩, ⟨_, rfl, ?_⟩⟩,
    fun tag b s hready hb => ⟨_, rfl, ?_⟩, axisReadData_layout,
    fun c slot => ⟨cueReadData_of_free, fun _ _ _ => cueReadData_of_listed, fun _ _ _ _ _ _ => cueReadData_of_waiting⟩,
    listReadData_layout,
    fun s => ⟨seqReadData_layout s, camReadData_layout s, linesReadData_layout s, faultReadData_layout s,
      storeReadData_layout s.store, eventReadData_layout s⟩⟩
  · refine request_kept (r := okay (camReadData s n)) tag 0x39#8 [b] hready (by decide) ?_
    simp only [oneByte, camReadRule, finOf_of_eq hb]
    rfl
  · obtain ⟨hanswer, hkept⟩ := request_kept tag 0x72#8 [] (rule := noBody storeReadRule []) hready (by decide)
      (storeReadRule_eq (heard s))
    refine ⟨hkept, ?_⟩
    split
    · rename_i hbusy
      rw [heard_store, if_pos hbusy] at hanswer
      exact hanswer
    · rename_i hidle
      rw [heard_store, if_neg hidle] at hanswer
      exact hanswer
  · refine request_kept (r := refuse .badValue) tag 0x39#8 [b] hready (by decide) ?_
    simp only [oneByte, camReadRule, finOf_of_ge (n := 8) hb]

end Sys2Proof.Machine
end

section
/-! The requests on cues and groups that fire at most one cue: CUE_PUT (R31 to R34), GROUP_PUT (R84), CUE_CANCEL (R37, R38),
GROUP_CANCEL (R86) and MARKS_SET (R42). -/

namespace Sys2Proof.Machine

/-! ## One event of the Cue Table (R43, R44) -/

theorem withMarks_onCues_kept (f : CueTable → CueTable) (s : State) :
    KeptBut [.cues, .events] s (withMarks (fun s => s.onCues f) s) :=
  withMarks_kept ((onCues_kept s f).mono (by simp)) (by simp)

theorem withMarks_onCues_raised (f : CueTable → CueTable) (s : State) :
    Raised (marksRaised s.cues (f s.cues)) s (withMarks (fun s => s.onCues f) s) :=
  withMarks_raised (f := fun s => s.onCues f) (raised_of_events rfl)

/-- A request that writes the Cue Table as one event: its reply, the write, the marks, and nothing else. -/
theorem request_onCues {s : State} {rule : State → State × Reply} {r : Reply} {f : CueTable → CueTable} (tag kind : Byte)
    (body : List Byte) (hready : Ready s) (hkind : kind.toNat < 128)
    (hrule : rule (heard s) = (withMarks (fun s => s.onCues f) (heard s), r)) :
    Answered tag kind r.code r.replaced r.data s (serve ⟨tag, kind, body⟩ rule s) ∧
      (serve ⟨tag, kind, body⟩ rule s).cues = f s.cues ∧
      Raised (marksRaised s.cues (f s.cues)) s (serve ⟨tag, kind, body⟩ rule s) ∧
      KeptBut [.cues, .events] s (serve ⟨tag, kind, body⟩ rule s) := by
  obtain ⟨hanswer, hsame, hkept⟩ := request_writes tag kind body hready hkind hrule (withMarks_onCues_kept f (heard s)) (by simp)
  refine ⟨hanswer, (cues_of_kept hsame).trans (withMarks_cues _ _), ?_, hkept⟩
  exact raised_of_kept (u := heard s) hsame (withMarks_onCues_raised f (heard s))

/-- Marks are not crossed where no cue comes and none leaves the list. -/
theorem marksRaised_of_fewer {c d : CueTable} (hlist : listedCount d = listedCount c)
    (hoccupied : occupiedCount d ≤ occupiedCount c) : marksRaised c d = [] := by
  have hlow : ¬ (c.lowMark ≤ listedCount c ∧ listedCount d < c.lowMark) := by omega
  have hhigh : ¬ (occupiedCount c < c.highMark ∧ c.highMark ≤ occupiedCount d) := by omega
  rw [marksRaised, if_neg hlow, if_neg hhigh]
  rfl

/-- The waiting cues beside those of one queue. -/
theorem waitingCount_updAt (c : CueTable) (ch : Fin 4) : ∃ others : Nat,
    waitingCount c = (c.queues[ch].flatMap (·.cues)).length + others ∧
      ∀ f, waitingCount { c with queues := updAt c.queues ch f } = ((f c.queues[ch]).flatMap (·.cues)).length + others := by
  obtain ⟨others, hold, hnew⟩ := queuedGroups_updAt c ch
  refine ⟨(others.flatMap (·.cues)).length, ?_, fun f => ?_⟩
  · unfold waitingCount waitingCues
    rw [(hold.flatMap_right _).length_eq, List.flatMap_append, List.length_append]
  · unfold waitingCount waitingCues
    rw [((hnew f).flatMap_right _).length_eq, List.flatMap_append, List.length_append]

/-! ## CUE_PUT (R31 to R34) -/

theorem putCue_of_free {cue : Cue} {key : Key} {late : LatePolicy} {s : State} (hfree : slotFree s.cues cue.slot = true)
    (howned : cue.lines &&& ~~~ cueOwned s = 0#16) : putCue cue key late s =
      if !keyReached s.cues.lead key then listCue ⟨cue, key⟩ s
      else
        match late with
        | .refuse => (s, lateReply s)
        | .now =>
          if beyondHorizon s.cues.lead key then (s, lateReply s)
          else if s.seq.state = .armed then
            (withMarks (fun s => fireRun s.cues.lead (enterCue ⟨cue, key⟩ s)) s, okay (keyBytes key ++ [2#8, 0#8]))
          else listCue ⟨cue, key⟩ s
        | .next => listCue ⟨cue, nextKey s.cues.lead key.pos⟩ s := by
  unfold putCue
  rw [hfree, howned]
  rfl

/-- The rule of a CUE_PUT that passes the checks of R30, from the standing of its key on. -/
theorem cuePutRule_passes {body : List Byte} {cue : Cue} {key : Key} {late : LatePolicy} {s : State}
    (h : CuePutPasses body cue key late s) : cuePutRule body (heard s) =
      if !keyReached s.cues.lead key then listCue ⟨cue, key⟩ (heard s)
      else
        match (generalizing := false) late with
        | .refuse => (heard s, lateReply (heard s))
        | .now =>
          if beyondHorizon s.cues.lead key then (heard s, lateReply (heard s))
          else if s.seq.state = .armed then
            (withMarks (fun s => fireRun s.cues.lead (enterCue ⟨cue, key⟩ s)) (heard s), okay (keyBytes key ++ [2#8, 0#8]))
          else listCue ⟨cue, key⟩ (heard s)
        | .next => listCue ⟨cue, nextKey s.cues.lead key.pos⟩ (heard s) :=
  (cuePutRule_of_passes (cuePutPasses_heard.2 h)).trans
    (putCue_of_free (s := heard s) (slotFree_of_cuePutPasses h) (lines_cueOwned_of_cuePutPasses h))

/-- A request whose rule lists a cue (R25, R31). -/
theorem request_listCue {s : State} {cue : Cue} {key : Key} {body : List Byte} {standing : Byte} (tag : Byte) (hready : Ready s)
    (hrule : cuePutRule body (heard s) = listCue ⟨cue, key⟩ (heard s)) (hstanding : standingByte s.cues.lead key = standing) :
    CueListed tag cue key standing s (serve ⟨tag, 0x10#8, body⟩ (cuePutRule body) s) := by
  obtain ⟨hanswer, hcues, hraised, hkept⟩ :=
    request_onCues (f := fun c => { c with list := insertCue c.lead ⟨cue, key⟩ c.list }) tag 0x10#8 body hready (by decide) hrule
  refine ⟨?_, hcues, ?_, hkept⟩
  · rw [withMarks_cues] at hanswer
    rw [hcues, ← hstanding]
    exact hanswer
  · rw [hcues]
    exact hraised

theorem listed_of_ahead {body : List Byte} {cue : Cue} {key : Key} {late : LatePolicy} {s : State} (tag : Byte)
    (hready : Ready s) (hpasses : CuePutPasses body cue key late s) (hahead : keyReached s.cues.lead key = false) :
    CueListed tag cue key 0#8 s (serve ⟨tag, 0x10#8, body⟩ (cuePutRule body) s) := by
  refine request_listCue tag hready ?_ (by simp [standingByte, hahead])
  rw [cuePutRule_passes hpasses, if_pos (by simp [hahead])]

theorem nextKey_ahead (lead : Key) (pos : Nat) : keyReached lead (nextKey lead pos) = false := by
  rw [Bool.eq_false_iff, ne_eq, keyReached_iff]
  unfold nextKey
  split
  · rename_i h
    dsimp only
    rw [BitVec.sub_self]
    simp only [BitVec.toNat_ofNat]
    omega
  · have hnext : (lead.cycle + 1#16 - lead.cycle).toNat = 1 := by bv_omega
    dsimp only
    omega

/-- Settles O13. -/
theorem cuePutAheadOrNextIsListed : Obligations.CuePutAheadOrNextIsListed := by
  refine ⟨fun tag body cue key late s hready hpasses hahead => ⟨_, rfl, listed_of_ahead tag hready hpasses hahead⟩,
    fun tag body cue key next s hready hpasses hreached hnext => ?_⟩
  have hahead : keyReached s.cues.lead next = false := hnext ▸ nextKey_ahead s.cues.lead key.pos
  refine ⟨hahead, _, rfl, request_listCue tag hready ?_ (by simp [standingByte, hahead])⟩
  rw [cuePutRule_passes hpasses, if_neg (by simp [hreached]), hnext]
  rfl

theorem not_listed_of_slotFree {c : CueTable} {slot : Fin 256} (h : slotFree c slot = true) : ∀ y ∈ c.list, y.cue.slot ≠ slot := by
  intro y hy he
  exact (slotFree_iff c slot).1 h (List.mem_append_left _ (List.mem_map.2 ⟨y, hy, he⟩))

/-- A one-shot cue that enters as the only reached one fires at once and leaves the list as it was (R33, R58). -/
theorem fireRun_entered {s : State} {x : Listed} (hfree : slotFree s.cues x.cue.slot = true)
    (hreached : keyReached s.cues.lead x.key = true) (hrun : reachedRun s.cues = []) (hrep : x.cue.rep = none) :
    (fireRun s.cues.lead (enterCue x s)).cues = s.cues ∧ Fired .key x x.key s.cues.lead s (fireRun s.cues.lead (enterCue x s)) ∧
      Raised (firingRaised x s) s (fireRun s.cues.lead (enterCue x s)) := by
  have hentered : reachedRun (enterCue x s).cues = [x] := takeWhile_insertCue s.cues.lead x s.cues.list hreached hrun
  have hfire : fireRun s.cues.lead (enterCue x s) = leaveList x.cue.slot (fired .key s.cues.lead (enterCue x s) x) := by
    rw [fireRun, hentered, List.foldl_cons, List.foldl_nil, fireOne_fired, hrep]
  obtain ⟨hcues, hfired, hraised⟩ := fired_spec .key s.cues.lead (enterCue x s) x
  rw [hfire]
  refine ⟨?_, hfired, hraised⟩
  rw [leaveList, State.onCues_cues, hcues, enterCue, State.onCues_cues]
  dsimp only
  rw [filter_insertCue _ _ _ (not_listed_of_slotFree hfree)]

theorem fired_of_kept {cause : Cause} {x : Listed} {base lead : Key} {s t u : State} (h : Fired cause x base lead s t)
    (hk : KeptBut [] t u) : Fired cause x base lead s u := by
  obtain ⟨hlines, harrivals, hseq⟩ := h
  exact ⟨hlines.trans (lines_of_kept hk), (arrivals_of_kept hk).trans harrivals, (seq_of_kept hk).trans hseq⟩

/-- What the occurrences of marks leave of a firing. -/
theorem withMarks_fired {f : State → State} {cause : Cause} {x : Listed} {base lead : Key} {s : State}
    (h : Fired cause x base lead s (f s)) : Fired cause x base lead s (withMarks f s) := by
  obtain ⟨ev, he⟩ := withMarks_frame f s
  rw [he]
  exact h

/-- Settles O15. -/
theorem cuePutNowIsListedOrFired : Obligations.CuePutNowIsListedOrFired := by
  intro tag body cue key s hready hpasses hreached
  have hfree := slotFree_of_cuePutPasses hpasses
  have hrule : cuePutRule body (heard s) =
      if beyondHorizon s.cues.lead key then (heard s, lateReply (heard s))
      else if s.seq.state = .armed then
        (withMarks (fun s => fireRun s.cues.lead (enterCue ⟨cue, key⟩ s)) (heard s), okay (keyBytes key ++ [2#8, 0#8]))
      else listCue ⟨cue, key⟩ (heard s) := by
    rw [cuePutRule_passes hpasses, if_neg (by simp [hreached])]
  refine ⟨fun hbeyond => ?_, fun hnear hstate => ?_, fun hnear harmed hrun hrep => ?_⟩
  · rw [if_pos hbeyond] at hrule
    exact ⟨_, rfl, request_kept tag 0x10#8 body hready (by decide) hrule⟩
  · rw [if_neg (by simp [hnear]), if_neg hstate] at hrule
    exact ⟨_, rfl, request_listCue tag hready hrule (by simp [standingByte, hreached])⟩
  · rw [if_neg (by simp [hnear]), if_pos harmed] at hrule
    obtain ⟨hcues, hfired, hraised⟩ := fireRun_entered (s := heard s) (x := ⟨cue, key⟩) hfree hreached hrun hrep
    have hkept : KeptBut schedule (heard s)
        (withMarks (fun s => fireRun s.cues.lead (enterCue ⟨cue, key⟩ s)) (heard s)) :=
      withMarks_kept (KeptBut.then_mono (enterCue_kept _ _) (fireRun_kept _ _) (by simp) (by simp)) (by simp)
    obtain ⟨hanswer, hsame, hall⟩ := request_writes tag 0x10#8 body hready (by decide) hrule hkept (by simp)
    have hmarks := withMarks_raised (f := fun s => fireRun s.cues.lead (enterCue ⟨cue, key⟩ s)) hraised
    rw [hcues, marksRaised_same, List.append_nil] at hmarks
    have hcues' : (serve ⟨tag, 0x10#8, body⟩ (cuePutRule body) s).cues = s.cues :=
      (cues_of_kept hsame).trans ((withMarks_cues _ _).trans hcues)
    refine ⟨_, rfl, hanswer, hcues', ?_, ?_, ?_⟩
    · exact fired_of_kept (s := s)
        (withMarks_fired (s := heard s) (f := fun s => fireRun s.cues.lead (enterCue ⟨cue, key⟩ s)) hfired) hsame
    · exact raised_of_kept (u := s) hsame hmarks
    · intro p hp
      by_cases hc : p = .cues
      · subst hc
        exact hcues'
      · exact hall p (by simp_all)

end Sys2Proof.Machine
end

section
/-! The requests that queue and free cues: GROUP_PUT (R84, R85), CUE_CANCEL (R37, R38), GROUP_CANCEL (R86), and MARKS_SET (R42). -/

namespace Sys2Proof.Machine

/-! ## GROUP_PUT (R84, R85) -/

theorem specificationsOf_length (n : Nat) (body : List Byte) (h : body.length = 13 * n) : (specificationsOf body).length = n := by
  induction n generalizing body with
  | zero => rw [List.length_eq_zero_iff.1 h]; rfl
  | succ n ih =>
    obtain _ | ⟨b1, _ | ⟨b2, _ | ⟨b3, _ | ⟨b4, _ | ⟨b5, _ | ⟨b6, _ | ⟨b7, _ | ⟨b8, _ | ⟨b9, _ | ⟨b10, _ | ⟨b11, _ | ⟨b12,
      _ | ⟨b13, rest⟩⟩⟩⟩⟩⟩⟩⟩⟩⟩⟩⟩⟩ := body
    case cons.cons.cons.cons.cons.cons.cons.cons.cons.cons.cons.cons.cons =>
      have hrest : rest.length = 13 * n := by
        simp only [List.length_cons] at h
        omega
      simp only [specificationsOf, List.length_cons, ih rest hrest]
    all_goals
      simp only [List.length_nil, List.length_cons] at h
      omega

theorem allSome_length {α : Type} {l : List (Option α)} {as : List α} (h : allSome l = some as) : as.length = l.length := by
  induction l generalizing as with
  | nil => cases h; rfl
  | cons x l ih =>
    cases x with
    | none => cases h
    | some a =>
      cases hl : allSome l with
      | none => simp [allSome, hl] at h
      | some rest =>
        simp only [allSome, hl, Option.some.injEq] at h
        rw [← h, List.length_cons, List.length_cons, ih hl]

theorem groupPutRule_passes {number channel policy n : Byte} {rest : List Byte} {g : Group} {ch : Fin 4} {s : State}
    (hlength : rest.length = 13 * n.toNat) (hlow : 1 ≤ n.toNat) (hhigh : n.toNat ≤ 16) (hsafe : s.seq.state ≠ .safe)
    (hstaged : s.axis.staged = none) (hnumber : number.toNat = g.number.val) (hchannel : channel.toNat = ch.val)
    (hpolicy : missPolicyOf policy = some g.policy)
    (hcues : allSome ((specificationsOf rest).map (specificationCue s.axis.cfg.modulus)) = some g.cues)
    (henabled : s.capture.channels[ch].cfg.enabled = true) :
    groupPutRule (number :: channel :: policy :: n :: rest) s = putGroup g ch s := by
  have hfits : ¬ (rest.length ≠ 13 * n.toNat ∨ Config.maxBody < (number :: channel :: policy :: n :: rest).length) := by
    simp only [List.length_cons, Config.maxBody]
    omega
  have hstate : ¬ (s.seq.state = .safe ∨ s.axis.staged.isSome = true) := by simp [hsafe, hstaged]
  have hcount : ¬ (n.toNat = 0 ∨ 16 < n.toNat ∨ (!s.capture.channels[ch].cfg.enabled) = true) := by
    rw [henabled]
    simp only [Bool.not_true, Bool.false_eq_true, or_false]
    omega
  unfold groupPutRule
  dsimp only
  rw [if_neg hfits, if_neg hstate, finOf_of_eq hnumber, finOf_of_eq hchannel, hpolicy, hcues]
  dsimp only
  rw [if_neg hcount]

theorem putGroup_passes {g : Group} {ch : Fin 4} {s : State} (hfresh : ∀ h ∈ queuedGroups s.cues, h.number ≠ g.number)
    (hroom : s.cues.queues[ch].length < 8) (hfree : ∀ c ∈ g.cues, slotFree s.cues c.slot = true)
    (hslots : (g.cues.map (·.slot)).Nodup) (howned : ∀ c ∈ g.cues, c.lines &&& ~~~ cueOwned s = 0#16) : putGroup g ch s =
      (withMarks (fun s => s.onCues fun c => { c with queues := updAt c.queues ch (· ++ [g]) }) s,
        okay [byteOf g.number.val, byteOf ch.val, byteOf s.cues.queues[ch].length, byteOf (s.cues.queues[ch].length + 1)]) := by
  have hnumbers : ((queuedGroups s.cues).any fun h => decide (h.number = g.number)) = false := by
    simpa using hfresh
  have hheld : ¬ ((g.cues.any fun c => !slotFree s.cues c.slot) = true ∨ ¬ (g.cues.map (·.slot)).Nodup) := by
    rintro (h | h)
    · simp only [List.any_eq_true, Bool.not_eq_true'] at h
      obtain ⟨c, hc, hb⟩ := h
      rw [hfree c hc] at hb
      cases hb
    · exact h hslots
  have hlines : (g.cues.any fun c => decide (c.lines &&& ~~~ cueOwned s ≠ 0#16)) = false := by simpa using howned
  have hqueue : ¬ Config.queueRoom ≤ s.cues.queues[ch].length := not_le.2 hroom
  unfold putGroup
  rw [if_neg (by rw [hnumbers]; decide), if_neg hqueue, if_neg hheld, if_neg (by rw [hlines]; decide)]
  simp only [withMarks_cues, State.onCues_cues, updAt_same, List.length_append, List.length_singleton, Nat.add_sub_cancel]

/-- Waiting cues that come raise SLOTS_HIGH alone (R43, R44). -/
theorem marksRaised_of_more {c d : CueTable} {n : Nat} (hlist : listedCount d = listedCount c)
    (hwaiting : waitingCount d = waitingCount c + n) : marksRaised c d =
      if occupiedCount c < c.highMark ∧ c.highMark ≤ occupiedCount c + n then [.slotsHigh] else [] := by
  have hoccupied : occupiedCount d = occupiedCount c + n := by
    rw [occupiedCount, occupiedCount, hwaiting, hlist]
    omega
  have hlow : ¬ (c.lowMark ≤ listedCount c ∧ listedCount d < c.lowMark) := by omega
  rw [marksRaised, hoccupied, if_neg hlow]
  rfl

/-- Settles O16. -/
theorem groupPutQueuesWaitingCues : Obligations.GroupPutQueuesWaitingCues := by
  intro tag number channel policy n rest g ch s hready hlength hlow hhigh hsafe hstaged hnumber hchannel hpolicy hcues henabled
    hfresh hroom hfree hslots howned
  have hrule := (groupPutRule_passes (s := heard s) hlength hlow hhigh hsafe hstaged hnumber hchannel hpolicy hcues henabled).trans
    (putGroup_passes (s := heard s) hfresh hroom hfree hslots howned)
  have hcount : g.cues.length = n.toNat := by
    rw [allSome_length hcues, List.length_map, specificationsOf_length n.toNat rest hlength]
  obtain ⟨hanswer, htable, hraised, hkept⟩ := request_onCues tag 0x11#8 (number :: channel :: policy :: n :: rest) hready
    (by decide) hrule
  have hwaiting : waitingCount { s.cues with queues := updAt s.cues.queues ch (· ++ [g]) } =
      waitingCount s.cues + n.toNat := by
    obtain ⟨others, hold, hnew⟩ := waitingCount_updAt s.cues ch
    rw [hnew, hold, List.flatMap_append, List.length_append, List.flatMap_singleton, hcount]
    omega
  refine ⟨_, rfl, ?_, hcount, ?_, fun d hd => ?_, ?_, ?_, hkept⟩
  · have hnumberByte : byteOf g.number.val = number := by rw [← hnumber, byteOf_toNat]
    have hchannelByte : byteOf ch.val = channel := by rw [← hchannel, byteOf_toNat]
    rw [hnumberByte, hchannelByte] at hanswer
    exact hanswer
  · rw [htable]
    exact updAt_same _ _ _
  · rw [htable]
    exact updAt_other _ _ (Ne.symm hd)
  · rw [htable]
  · rw [marksRaised_of_more (by rfl) hwaiting] at hraised
    exact hraised

/-! ## CUE_CANCEL (R37, R38) -/

/-- A group without the cue of a slot, by whether it holds the cue and whether it holds another (R38). -/
theorem withoutCue_eq (slot : Fin 256) (g : Group) : withoutCue slot g =
    if g.cues.any (fun c => decide (c.slot = slot)) then
      if g.cues.all (fun c => decide (c.slot = slot)) then none
      else some { g with cues := g.cues.filter fun c => decide (c.slot ≠ slot) }
    else some g := by
  have hkeeps : (g.cues.filter fun c => decide (c.slot ≠ slot)) = g.cues ↔
      ¬ (g.cues.any (fun c => decide (c.slot = slot)) = true) := by
    rw [List.filter_eq_self]
    simp
  have hempties : (g.cues.filter fun c => decide (c.slot ≠ slot)) = [] ↔
      g.cues.all (fun c => decide (c.slot = slot)) = true := by
    rw [List.filter_eq_nil_iff]
    simp
  unfold withoutCue
  dsimp only
  by_cases hany : g.cues.any (fun c => decide (c.slot = slot)) = true
  · rw [if_neg (fun h => hkeeps.1 h hany), if_pos hany]
    by_cases hall : g.cues.all (fun c => decide (c.slot = slot)) = true
    · rw [if_pos (hempties.2 hall), if_pos hall]
    · rw [if_neg (fun h => hall (hempties.1 h)), if_neg hall]
  · rw [if_pos (hkeeps.2 hany), if_neg hany]

theorem any_of_groupOfSlot {c : CueTable} {slot : Fin 256} {g : Group} (h : groupOfSlot c slot = some g) :
    g.cues.any (fun x => decide (x.slot = slot)) = true := by
  have hfound := List.find?_some h
  exact hfound

/-- Settles O17. -/
theorem cueCancelFreesSlot : Obligations.CueCancelFreesSlot := by
  refine ⟨fun tag slot x s hready hfind => ?_, fun tag slot g s hready hlist hgroup => ?_⟩
  · have hrule : oneByte cueCancelRule [slot] (heard s) =
        (withMarks (fun s => s.onCues fun c => { c with list := c.list.filter fun y => decide (y.cue.slot ≠ slot.toFin) })
          (heard s), okay (2#8 :: keyBytes x.key ++ [0#8, 0#8])) := by
      simp only [oneByte, cueCancelRule, heard_cues, hfind]
      rfl
    obtain ⟨hanswer, htable, hraised, hkept⟩ := request_onCues tag 0x12#8 [slot] hready (by decide) hrule
    refine ⟨_, rfl, hanswer, htable, ?_, hkept⟩
    rw [show (serve ⟨tag, 0x12#8, [slot]⟩ (oneByte cueCancelRule [slot]) s).cues = _ from htable]
    exact hraised
  · have hnone : s.cues.list.find? (fun y => decide (y.cue.slot = slot.toFin)) = none := by simpa using hlist
    have hrule : oneByte cueCancelRule [slot] (heard s) =
        (withMarks (fun s => s.onCues fun c =>
            { c with queues := c.queues.map (List.filterMap (withoutCue slot.toFin)) }) (heard s),
          okay (1#8 :: List.replicate 6 0#8 ++ [byteOf g.number.val, flagByte (withoutCue slot.toFin g).isNone])) := by
      simp only [oneByte, cueCancelRule, heard_cues, hnone, hgroup]
    have hfreed : (withoutCue slot.toFin g).isNone = g.cues.all fun c => decide (c.slot = slot.toFin) := by
      rw [withoutCue_eq, if_pos (any_of_groupOfSlot hgroup)]
      cases g.cues.all fun c => decide (c.slot = slot.toFin) <;> rfl
    obtain ⟨hanswer, htable, hraised, hkept⟩ := request_onCues tag 0x12#8 [slot] hready (by decide) hrule
    rw [hfreed] at hanswer
    refine ⟨_, rfl, hanswer, fun ch => ?_, ?_, ?_, hkept⟩
    · rw [show (serve ⟨tag, 0x12#8, [slot]⟩ (oneByte cueCancelRule [slot]) s).cues = _ from htable]
      dsimp only
      rw [map_get, funext (withoutCue_eq slot.toFin)]
    · rw [show (serve ⟨tag, 0x12#8, [slot]⟩ (oneByte cueCancelRule [slot]) s).cues = _ from htable]
    · rw [show (serve ⟨tag, 0x12#8, [slot]⟩ (oneByte cueCancelRule [slot]) s).cues = _ from htable]
      exact hraised

/-! ## GROUP_CANCEL (R86) -/

theorem channelOfGroup_none {c : CueTable} {n : Fin 32} (h : ∀ g ∈ queuedGroups c, g.number ≠ n) :
    channelOfGroup c n = none := by
  unfold channelOfGroup
  simp only [List.find?_eq_none, List.any_eq_true, decide_eq_true_eq, not_exists, not_and]
  intro ch _ g hg
  exact h g (mem_queuedGroups.2 ⟨ch, hg⟩)

/-- A group number that stands once stands in one queue, and there once (R83). -/
theorem number_once {c : CueTable} {ch : Fin 4} {g : Group} {front back : List Group} (hqueue : c.queues[ch] = front ++ g :: back)
    (hnodup : ((queuedGroups c).map (·.number)).Nodup) :
    (∀ h ∈ front, h.number ≠ g.number) ∧ (∀ h ∈ back, h.number ≠ g.number) ∧
      ∀ d : Fin 4, d ≠ ch → ∀ h ∈ c.queues[d], h.number ≠ g.number := by
  obtain ⟨others, hold, hnew⟩ := queuedGroups_updAt c ch
  have hperm : ((front ++ g :: back ++ others).map (·.number)).Nodup := by
    rw [← hqueue]
    exact (hold.map _).nodup_iff.1 hnodup
  have hmiddle : ((g :: (front ++ back ++ others)).map (·.number)).Nodup := by
    refine ((List.Perm.map _ ?_).nodup_iff).1 hperm
    rw [List.append_assoc, List.append_assoc, List.cons_append]
    exact List.perm_middle
  rw [List.map_cons, List.nodup_cons] at hmiddle
  have hother : ∀ h ∈ front ++ back ++ others, h.number ≠ g.number := fun h hh he =>
    hmiddle.1 (List.mem_map.2 ⟨h, hh, he⟩)
  refine ⟨fun h hh => hother h (by simp [hh]), fun h hh => hother h (by simp [hh]), fun d hd h hh => ?_⟩
  have hmem : h ∈ queuedGroups { c with queues := updAt c.queues ch fun _ => [] } := by
    refine mem_queuedGroups.2 ⟨d, ?_⟩
    rw [updAt_other _ _ (Ne.symm hd)]
    exact hh
  have hrest := (hnew fun _ => []).mem_iff.1 hmem
  exact hother h (List.mem_append_right _ (by simpa using hrest))

theorem find?_finRange (ch : Fin 4) : ((List.finRange 4).find? fun d => decide (d = ch)) = some ch := by
  revert ch
  decide

theorem channelOfGroup_of_once {c : CueTable} {ch : Fin 4} {g : Group} (hmem : g ∈ c.queues[ch])
    (honce : ∀ d : Fin 4, d ≠ ch → ∀ h ∈ c.queues[d], h.number ≠ g.number) : channelOfGroup c g.number = some ch := by
  have htest : ∀ d : Fin 4, (c.queues[d].any fun h => decide (h.number = g.number)) = decide (d = ch) := by
    intro d
    by_cases hd : d = ch
    · subst hd
      rw [decide_eq_true rfl, List.any_eq_true]
      exact ⟨g, hmem, decide_eq_true rfl⟩
    · rw [decide_eq_false hd, List.any_eq_false]
      intro h hh
      simpa using honce d hd h hh
  unfold channelOfGroup
  simp only [htest]
  exact find?_finRange ch

/-- Settles O18. -/
theorem groupCancelFreesGroup : Obligations.GroupCancelFreesGroup := by
  intro tag number s hready
  refine ⟨fun hhigh => ?_, fun hlow hnone => ?_, fun ch g front back hnumber hqueue hnodup => ?_⟩
  · refine ⟨_, rfl, request_kept (r := refuse .badValue) tag 0x13#8 [number] hready (by decide) ?_⟩
    simp only [oneByte, groupCancelRule, finOf_of_ge (n := 32) hhigh]
  · have hfin : finOf 32 number = some ⟨number.toNat, Nat.lt_succ_of_le hlow⟩ := finOf_of_eq rfl
    have hchannel : channelOfGroup (heard s).cues ⟨number.toNat, Nat.lt_succ_of_le hlow⟩ = none :=
      channelOfGroup_none fun g hg he => hnone g hg (congrArg Fin.val he)
    refine ⟨_, rfl, request_kept (r := refuse .notFound) tag 0x13#8 [number] hready (by decide) ?_⟩
    simp only [oneByte, groupCancelRule, hfin, hchannel]
  · obtain ⟨hfront, hback, honce⟩ := number_once hqueue hnodup
    have hchannel : channelOfGroup s.cues g.number = some ch := channelOfGroup_of_once (by rw [hqueue]; simp) honce
    have hothers : ∀ {l : List Group}, (∀ h ∈ l, h.number ≠ g.number) →
        (l.filter fun h => decide (h.number = g.number)) = [] ∧ (l.filter fun h => decide (h.number ≠ g.number)) = l := by
      intro l h
      refine ⟨List.filter_eq_nil_iff.2 fun x hx => by simpa using h x hx, List.filter_eq_self.2 fun x hx => by simpa using h x hx⟩
    obtain ⟨hfront0, hfront1⟩ := hothers hfront
    obtain ⟨hback0, hback1⟩ := hothers hback
    have hgone : (s.cues.queues[ch].filter fun h => decide (h.number = g.number)) = [g] := by
      rw [hqueue, List.filter_append, List.filter_cons, hfront0, hback0]
      simp
    have hleft : (s.cues.queues[ch].filter fun h => decide (h.number ≠ g.number)) = front ++ back := by
      rw [hqueue, List.filter_append, List.filter_cons, hfront1, hback1]
      simp
    have hrule : oneByte groupCancelRule [number] (heard s) =
        (withMarks (fun s => s.onCues fun c =>
            { c with queues := updAt c.queues ch (List.filter fun h => decide (h.number ≠ g.number)) }) (heard s),
          okay [byteOf ch.val, byteOf g.cues.length]) := by
      simp only [oneByte, groupCancelRule, finOf_of_eq hnumber.symm, heard_cues, hchannel, hgone, List.flatMap_singleton]
    obtain ⟨hanswer, htable, hraised, hkept⟩ := request_onCues tag 0x13#8 [number] hready (by decide) hrule
    have hnomark : marksRaised s.cues { s.cues with
        queues := updAt s.cues.queues ch (List.filter fun h => decide (h.number ≠ g.number)) } = [] := by
      refine marksRaised_of_fewer rfl ?_
      obtain ⟨others, hold, hnew⟩ := waitingCount_updAt s.cues ch
      have hshorter := (List.Sublist.flatMap (List.filter_sublist (p := fun h : Group => decide (h.number ≠ g.number))
        (l := s.cues.queues[ch])) (·.cues)).length_le
      rw [occupiedCount, occupiedCount, hold, hnew]
      exact Nat.add_le_add_right (Nat.add_le_add_right hshorter _) _
    rw [hnomark] at hraised
    refine ⟨_, rfl, hanswer, ?_, fun d hd => ?_, ?_, hraised, ?_⟩
    · rw [show (serve ⟨tag, 0x13#8, [number]⟩ (oneByte groupCancelRule [number]) s).cues = _ from htable]
      exact (updAt_same _ _ _).trans hleft
    · rw [show (serve ⟨tag, 0x13#8, [number]⟩ (oneByte groupCancelRule [number]) s).cues = _ from htable]
      exact updAt_other _ _ (Ne.symm hd)
    · rw [show (serve ⟨tag, 0x13#8, [number]⟩ (oneByte groupCancelRule [number]) s).cues = _ from htable]
    · intro p hp
      by_cases hevents : p = .events
      · subst hevents
        exact hraised
      · exact hkept p (by simp_all)

/-! ## MARKS_SET (R42) -/

/-- Settles O19. -/
theorem marksSetWritesBothMarks : Obligations.MarksSetWritesBothMarks := by
  intro tag a1 a0 b1 b0 s hready
  have hrule : marksSetRule [a1, a0, b1, b0] (heard s) =
      if 256 < num16 a1 a0 ∨ 256 < num16 b1 b0 then (heard s, refuse .badValue)
      else ((heard s).onCues fun c => { c with lowMark := num16 a1 a0, highMark := num16 b1 b0 }, okay []) := rfl
  refine ⟨_, rfl, ?_⟩
  split
  · rename_i hrange
    rw [if_pos hrange] at hrule
    obtain ⟨hanswer, hkept⟩ := request_kept tag 0x16#8 [a1, a0, b1, b0] hready (by decide) hrule
    exact ⟨hkept .events (by simp), hanswer, hkept⟩
  · rename_i hrange
    rw [if_neg hrange] at hrule
    obtain ⟨hanswer, hsame, hkept⟩ := request_writes tag 0x16#8 [a1, a0, b1, b0] hready (by decide) hrule (onCues_kept _ _)
      (by simp)
    exact ⟨hkept .events (by simp), hanswer, cues_of_kept hsame, hkept⟩

end Sys2Proof.Machine
end

section
/-! The runs of the Cue Table and the Sequencer: what an expiry and a run of firings leave, composed one after another, and
LEAD_ARRIVAL (R27, R45, R58 to R62). -/

namespace Sys2Proof.Machine

/-! ## What a run leaves -/

theorem withMarks_marks (run : State → State) (s : State) :
    Raised (marksRaised s.cues (run s).cues) (run s) (withMarks run s) :=
  withMarks_raised (f := fun _ => run s) (s := { run s with cues := s.cues }) (xs := []) (raised_of_events rfl)

/-- A run has left a cue list and lines, written outcome records one after another, and raised events; and nothing else. -/
structure RunLeaves (l : List Listed) (f : Fin 16 → OutLine) (rs : List OutcomeRecord) (xs : List EventSource) (s t : State) :
    Prop where
  frame : t = { s with
    cues := { s.cues with list := l }, outs := { s.outs with lines := t.outs.lines }
    seq := { s.seq with log := logAfter rs s }, events := t.events }
  lines : ∀ n : Fin 16, t.outs.lines[n] = f n
  raised : Raised xs s t

namespace RunLeaves

variable {l m : List Listed} {f g : Fin 16 → OutLine} {rs qs : List OutcomeRecord} {xs ys : List EventSource} {s t u : State}

theorem refl (s : State) : RunLeaves s.cues.list (fun n => s.outs.lines[n]) [] [] s s :=
  ⟨by rw [logAfter_nil], fun _ => rfl, raised_of_events rfl⟩

theorem cues (h : RunLeaves l f rs xs s t) : t.cues = { s.cues with list := l } := congrArg State.cues h.frame

theorem seq (h : RunLeaves l f rs xs s t) : t.seq = { s.seq with log := logAfter rs s } := congrArg State.seq h.frame

theorem log (h : RunLeaves l f rs xs s t) : t.seq.log = logAfter rs s := by rw [h.seq]

theorem trans (h : RunLeaves l f rs xs s t) (h' : RunLeaves m g qs ys t u) : RunLeaves m g (rs ++ qs) (xs ++ ys) s u := by
  refine ⟨?_, h'.lines, raised_append h.raised h'.raised⟩
  have hframe := h'.frame
  rw [logAfter_append h.log] at hframe
  rw [hframe, h.frame]

theorem perm (h : RunLeaves l f rs xs s t) (hp : xs.Perm ys) : RunLeaves l f rs ys s t := ⟨h.frame, h.lines, Raised.perm h.raised hp⟩

/-- The marks of an event of the Cue Table are raised behind the run (R43, R44). -/
theorem withMarks {run : State → State} (h : RunLeaves l f rs xs s (run t)) :
    RunLeaves l f rs (xs ++ marksRaised t.cues { s.cues with list := l }) s (withMarks run t) := by
  obtain ⟨ev, he⟩ := withMarks_frame run t
  refine ⟨?_, fun n => ?_, ?_⟩
  · have hframe := h.frame
    rw [he]
    generalize run t = v at hframe
    rw [hframe]
  · rw [withMarks_outs]
    exact h.lines n
  · have hmarks := withMarks_marks run t
    rw [h.cues] at hmarks
    exact raised_append h.raised hmarks

/-- What a run has left stays when the command ends. -/
theorem kept (h : RunLeaves l f rs xs s t) (hk : KeptBut [] t u) : u.cues = { s.cues with list := l } ∧ LinesAre f u ∧
    u.outs.arrivals = s.outs.arrivals ∧ u.seq = { s.seq with log := logAfter rs s } ∧ Raised xs s u := by
  have harrivals : t.outs.arrivals = s.outs.arrivals := by rw [h.frame]
  have hlines := lines_of_kept hk
  simp only [h.lines] at hlines
  exact ⟨(cues_of_kept hk).trans h.cues, hlines, (arrivals_of_kept hk).trans harrivals, (seq_of_kept hk).trans h.seq,
    raised_of_kept hk h.raised⟩

end RunLeaves

/-! ## Records -/

theorem recordsRaised_congr {s t : State} (h : t.seq.log = s.seq.log) (n : Nat) : recordsRaised n t = recordsRaised n s := by
  rw [recordsRaised, recordsRaised, h]

theorem writeOutcome_leaves (r : OutcomeRecord) (s : State) :
    RunLeaves s.cues.list (fun n => s.outs.lines[n]) [r] (recordsRaised 1 s) s (writeOutcome r s) := by
  obtain ⟨⟨ev, he⟩, hraised⟩ := writeOutcome_spec r s
  exact ⟨by rw [he], fun n => by rw [he], hraised⟩

/-- The record and the occurrence of skipped repetitions, or of a cue skipped in catch-up (R62, R65). -/
theorem writeSkipped_leaves (lead : Key) (c : Cue) (key : Key) (remaining : Option Remaining) (skipped : Option Nat) (s : State) :
    RunLeaves s.cues.list (fun n => s.outs.lines[n])
      [⟨c.slot, .skipped, c.action, none, key, lead, s.stamp, remaining, skipped.map (min 254)⟩]
      (recordsRaised 1 s ++ [.skipped]) s (writeSkipped lead c key remaining skipped s) := by
  have hwrite := writeOutcome_leaves ⟨c.slot, .skipped, c.action, none, key, lead, s.stamp, remaining, skipped.map (min 254)⟩ s
  refine ⟨?_, hwrite.lines, raised_append hwrite.raised (raise_raised .skipped _)⟩
  have hframe := congrArg (raise .skipped) hwrite.frame
  exact hframe.trans rfl

/-- Expiry (R45, R46). -/
theorem expiryRun_leaves {s : State} {gone : List Listed}
    (hgone : gone = s.cues.list.filter fun x => beyondHorizon s.cues.lead x.key) :
    RunLeaves (s.cues.list.filter fun x => !beyondHorizon s.cues.lead x.key) (fun n => s.outs.lines[n])
      (gone.map (expiredRecord s.cues.lead s)) (expiryRaised gone.length s) s (expiryRun s) := by
  obtain ⟨⟨ev, he⟩, hraised⟩ := expiryRun_spec hgone
  exact ⟨by rw [he], fun n => by rw [he], hraised⟩

/-! ## A run of one-shot cues (R58, R59) -/

theorem reachedRun_of_runThen {c : CueTable} {run rest : List Listed} (h : RunThen c.lead c.list run rest) :
    reachedRun c = run := by
  obtain ⟨hlist, hrun, hrest, -⟩ := h
  have hstop : rest.takeWhile (fun x => keyReached c.lead x.key) = [] := by
    cases rest with
    | nil => rfl
    | cons y ys => rw [List.takeWhile_cons_of_neg (by simp [hrest y rfl])]
  rw [reachedRun, hlist, List.takeWhile_append_of_pos fun x hx => (hrun x hx).1, hstop, List.append_nil]

/-- The cues of a run leave the list, and those behind it stay. -/
theorem filter_of_runThen {lead : Key} {list run rest : List Listed} (h : RunThen lead list run rest) :
    (list.filter fun y => run.all fun x => decide (y.cue.slot ≠ x.cue.slot)) = rest := by
  obtain ⟨hlist, -, -, hslots⟩ := h
  have hgone : (run.filter fun y => run.all fun x => decide (y.cue.slot ≠ x.cue.slot)) = [] := by
    refine List.filter_eq_nil_iff.2 fun y hy hall => ?_
    have := List.all_eq_true.1 hall y hy
    simp at this
  have hstays : (rest.filter fun y => run.all fun x => decide (y.cue.slot ≠ x.cue.slot)) = rest := by
    refine List.filter_eq_self.2 fun y hy => List.all_eq_true.2 fun x hx => ?_
    simpa using hslots x hx y hy
  rw [hlist, List.filter_append, hgone, hstays, List.nil_append]

theorem fireRun_leaves {s : State} {run rest : List Listed} (recLead : Key) (h : RunThen s.cues.lead s.cues.list run rest) :
    RunLeaves rest (fun n => run.foldl (lineFired s n) s.outs.lines[n])
      ((run.filter (·.cue.report)).map fun y => firingRecord .key y recLead s) (recordsRaised (run.countP (·.cue.report)) s) s
      (fireRun recLead s) := by
  obtain ⟨⟨ev, lines, he, hlines⟩, hraised⟩ := fireRun_oneShot recLead run s fun x hx => (h.2.1 x hx).2
  rw [filter_of_runThen h] at he
  rw [fireRun, reachedRun_of_runThen h]
  exact ⟨by rw [he], fun n => by rw [he]; exact hlines n, hraised⟩

/-- A firing reads of the part only what neither an expiry nor the lead point changes. -/
theorem appliedLines_congr {s t : State} (houts : t.outs.lines = s.outs.lines) (hstate : t.seq.state = s.seq.state) (ls : LineSet) :
    appliedLines t ls = appliedLines s ls := by
  rw [appliedLines, appliedLines, hstate, cueOwned_congr (s := s) (t := t) fun n => by rw [houts]]

theorem firingRecord_congr {s t : State} (houts : t.outs.lines = s.outs.lines) (hstate : t.seq.state = s.seq.state)
    (hstamp : t.stamp = s.stamp) (cause : Cause) (x : Listed) (lead : Key) :
    firingRecord cause x lead t = firingRecord cause x lead s := by
  simp only [firingRecord, appliedLines_congr houts hstate, hstamp]

theorem lineFired_congr {s t : State} (houts : t.outs.lines = s.outs.lines) (hstate : t.seq.state = s.seq.state)
    (hstamp : t.stamp = s.stamp) (haxis : t.axis = s.axis) (n : Fin 16) : lineFired t n = lineFired s n := by
  funext l x
  simp only [lineFired, appliedLines_congr houts hstate, hstamp, haxis]

/-- Records, then a run of one-shot cues on the part as the records leave it (R58, R69, R89). -/
theorem RunLeaves.then_fireRun {s t : State} {kept run rest : List Listed} {rs : List OutcomeRecord} {xs ys : List EventSource}
    {k : Nat} (recLead : Key) (h : RunLeaves kept (fun n => s.outs.lines[n]) rs (recordsRaised rs.length s ++ xs) s t)
    (hrun : RunThen s.cues.lead kept run rest) (hk : k = rs.length + run.countP (·.cue.report))
    (hys : (recordsRaised k s ++ xs).Perm ys) :
    RunLeaves rest (fun n => run.foldl (lineFired s n) s.outs.lines[n])
      (rs ++ (run.filter (·.cue.report)).map fun y => firingRecord .key y recLead s) ys s (fireRun recLead t) := by
  have houts : t.outs.lines = s.outs.lines := by
    ext n hn : 1
    exact h.lines ⟨n, hn⟩
  have hstate : t.seq.state = s.seq.state := by rw [h.seq]
  have hstamp : t.stamp = s.stamp := by rw [h.frame]
  have haxis : t.axis = s.axis := by rw [h.frame]
  have hfire := fireRun_leaves (s := t) recLead (by rw [h.cues]; exact hrun)
  simp only [lineFired_congr houts hstate hstamp haxis, firingRecord_congr houts hstate hstamp, houts] at hfire
  refine (h.trans hfire).perm (List.Perm.trans ?_ hys)
  rw [hk]
  have hrecords := recordsRaised_append h.log (run.countP (·.cue.report))
  refine List.Perm.trans ?_ (hrecords.append_right xs)
  rw [List.append_assoc, List.append_assoc]
  exact (List.perm_append_comm).append_left _

/-! ## One repeating cue (R61, R62) -/

/-- The cause of a firing as its record names it, and the key a counted pulse is measured from (R64, R114). -/
def causeOf : FiringCause → Cause
  | .key => .key
  | .catchUp => .catchUp

def baseOf (fc : FiringCause) (x : Listed) (s : State) : Key :=
  match fc with
  | .key => x.key
  | .catchUp => s.cues.lead

/-- One line after a cue's action on it. -/
def actedLine (x : Listed) (base : Key) (s : State) (n : Fin 16) : OutLine :=
  if inSet (appliedLines s x.cue.lines) n then
    actOn x.cue.action (x.cue.width.map (pulseTrail s.axis.cfg.modulus s.stamp base)) s.outs.lines[n]
  else s.outs.lines[n]

theorem applyAction_leaves (x : Listed) (base : Key) (s : State) :
    RunLeaves s.cues.list (actedLine x base s) [] [] s (applyAction x.cue base s) :=
  ⟨by rw [logAfter_nil]; rfl, fun n => applyAction_line x.cue base s n, raised_of_events rfl⟩

/-- What one firing leaves before its slot is handed back (R59). -/
theorem fired_leaves (fc : FiringCause) (lead : Key) (s : State) (x : Listed) :
    RunLeaves s.cues.list (actedLine x (baseOf fc x s) s)
      (if x.cue.report then [firingRecord (causeOf fc) x lead s] else []) (recordsRaised x.cue.report.toNat s) s
      (fired fc lead s x) := by
  have hact := applyAction_leaves x (baseOf fc x s) s
  have hfired : fired fc lead s x = if x.cue.report then
      writeOutcome (firingRecord (causeOf fc) x lead s) (applyAction x.cue (baseOf fc x s) s)
      else applyAction x.cue (baseOf fc x s) s := by
    cases fc <;> rfl
  rw [hfired]
  cases hreport : x.cue.report
  · simp only [Bool.false_eq_true, if_false, Bool.toNat_false, recordsRaised_zero]
    exact hact
  · have hwrite := hact.trans (writeOutcome_leaves (firingRecord (causeOf fc) x lead s) (applyAction x.cue (baseOf fc x s) s))
    simp only [hact.lines] at hwrite
    exact hwrite

/-- A handed back cue changes the list alone. -/
theorem handBack_leaves {s : State} {x : Listed} {r : Repetition} {l : List Listed} (key : Key) (t : Remaining)
    (hr : x.cue.rep = some r) (hlist : s.cues.list = x :: l) (hslots : ∀ y ∈ l, y.cue.slot ≠ x.cue.slot) :
    RunLeaves (handedBack s.cues.lead x r key t l) (fun n => s.outs.lines[n]) [] [] s (handBack x r key t s) := by
  have hleft : (s.cues.list.filter fun y => decide (y.cue.slot ≠ x.cue.slot)) = l := by
    rw [hlist, List.filter_cons_of_neg (by simp), List.filter_eq_self.2 fun y hy => by simpa using hslots y hy]
  refine ⟨?_, fun n => ?_, ?_⟩
  · rw [handBack_spec x r key t s hr, logAfter_nil, ← hleft]
    rfl
  · rw [handBack_spec x r key t s hr]
    rfl
  · rw [handBack_spec x r key t s hr]
    exact raised_of_events rfl

/-- The repeat rule where just n repetitions are skipped (R61, R62). -/
theorem repeatRule_leaves {s : State} {x : Listed} {r : Repetition} {l : List Listed} {n : Nat} {first : Key} (recLead : Key)
    (hr : x.cue.rep = some r) (hlist : s.cues.list = x :: l) (hslots : ∀ y ∈ l, y.cue.slot ≠ x.cue.slot)
    (hfirst : first = cyclesAfter x.key r.period) (hskips : SkipsJust s.cues.lead first r n) :
    RunLeaves (handedBack s.cues.lead x r (periodsAfter first r.period n) (lowered r.remaining n) l) (fun k => s.outs.lines[k])
      (if n = 0 then [] else [skippedRecord recLead first x (lowered r.remaining n) n s])
      (if n = 0 then [] else recordsRaised 1 s ++ [.skipped]) s (repeatRule recLead x r s) := by
  have hskip := skipReached_spec hskips 0
  unfold repeatRule
  dsimp only
  rw [← hfirst, hskip]
  dsimp only
  by_cases hn : n = 0
  · subst hn
    simp only [if_true]
    exact handBack_leaves _ _ hr hlist hslots
  · have hpos : 0 + n ≠ 0 := by omega
    rw [if_neg hpos, if_neg hn, if_neg hn]
    have hwrite := writeSkipped_leaves recLead x.cue first (some (lowered r.remaining n)) (some (0 + n)) s
    have hback := handBack_leaves (periodsAfter first r.period n) (lowered r.remaining n) hr
      (by rw [hwrite.cues]; exact hlist) hslots
    have hall := hwrite.trans hback
    simp only [hwrite.lines, hwrite.cues, List.append_nil] at hall
    rw [Nat.zero_add] at hall ⊢
    exact hall

/-- One reached repeating cue fires, its reached repetitions are skipped, and it is handed back (R59, R61, R62). -/
theorem fireOne_leaves {s : State} {x : Listed} {r : Repetition} {l : List Listed} {n : Nat} {first : Key} (fc : FiringCause)
    (recLead : Key) (hr : x.cue.rep = some r) (hlist : s.cues.list = x :: l) (hslots : ∀ y ∈ l, y.cue.slot ≠ x.cue.slot)
    (hfirst : first = cyclesAfter x.key r.period) (hskips : SkipsJust s.cues.lead first r n) :
    RunLeaves (handedBack s.cues.lead x r (periodsAfter first r.period n) (lowered r.remaining n) l)
      (actedLine x (baseOf fc x s) s)
      ((if x.cue.report then [firingRecord (causeOf fc) x recLead s] else []) ++
        if n = 0 then [] else [skippedRecord recLead first x (lowered r.remaining n) n s])
      (repeatingRaised x n s) s (fireOne fc recLead s x) := by
  have hfired := fired_leaves fc recLead s x
  have hrule := repeatRule_leaves (s := fired fc recLead s x) recLead hr (by rw [hfired.cues]; exact hlist) hslots hfirst
    (by rw [hfired.cues]; exact hskips)
  have hrecord : ∀ t n, skippedRecord recLead first x t n (fired fc recLead s x) = skippedRecord recLead first x t n s := by
    intro t n
    have hstamp : (fired fc recLead s x).stamp = s.stamp := by rw [hfired.frame]
    rw [skippedRecord, skippedRecord, hstamp]
  rw [fireOne_fired, hr]
  have hall := hfired.trans hrule
  simp only [hfired.lines, hrecord, hfired.cues] at hall
  refine hall.perm ?_
  unfold repeatingRaised
  by_cases hn : n = 0
  · simp [hn]
  · have hrecords := recordsRaised_append hfired.log 1
    have hcount : (if x.cue.report then [firingRecord (causeOf fc) x recLead s] else []).length = x.cue.report.toNat := by
      cases x.cue.report <;> rfl
    rw [hcount] at hrecords
    rw [if_neg hn, if_neg hn, if_neg hn, ← List.append_assoc]
    exact hrecords.append_right _

/-- The head of the list is the run of reached cues. -/
theorem reachedRun_singleton {c : CueTable} {x : Listed} {l : List Listed} (hlist : c.list = x :: l)
    (hreached : keyReached c.lead x.key = true) (hrest : (l.head?.all fun y => !keyReached c.lead y.key) = true) :
    reachedRun c = [x] := by
  rw [reachedRun, hlist, List.takeWhile_cons_of_pos (by exact hreached)]
  cases l with
  | nil => rfl
  | cons y ys => rw [List.takeWhile_cons_of_neg (by simpa using hrest)]

/-- What a run that fires one repeating cue leaves is what the statements say (R59, R62). -/
theorem firedRepeating_of_leaves {l : List Listed} {cause : Cause} {base lead first : Key} {x : Listed} {r : Repetition} {n : Nat}
    {xs : List EventSource} {s t u : State}
    (h : RunLeaves l (actedLine x base s) ((if x.cue.report then [firingRecord cause x lead s] else []) ++
      if n = 0 then [] else [skippedRecord lead first x (lowered r.remaining n) n s]) xs s t) (hk : KeptBut [] t u) :
    FiredRepeating cause base lead first x r n s u := by
  obtain ⟨-, hlines, harrivals, hseq, -⟩ := h.kept hk
  exact ⟨hlines, harrivals, by rw [hseq]⟩

/-! ## LEAD_ARRIVAL (R27, R45, R58) -/

/-- The Cue Table takes the oldest arrival's key as its lead point. -/
def leadTaken (a : Arrival) (rest : List Arrival) (s : State) : State :=
  s.onCues fun c => { c with lead := a.key, arrivals := rest }

/-- The lead point has been taken, and a cycle boundary has run expiry (R27, R45). -/
def arrivalTaken (a : Arrival) (rest : List Arrival) (s : State) : State :=
  if a.boundary then withMarks expiryRun (leadTaken a rest s) else leadTaken a rest s

theorem arrivalTaken_kept (a : Arrival) (rest : List Arrival) (s : State) :
    KeptBut [.cues, .seq, .events] s (arrivalTaken a rest s) :=
  KeptBut.then_mono (onCues_kept s fun c => { c with lead := a.key, arrivals := rest })
    (KeptBut.ite (withMarks_kept (expiryRun_kept _) (by simp)) (.refl [.cues, .seq, .events] _)) (by simp) (by simp)

theorem exec_leadArrival {s : State} {a : Arrival} {rest : List Arrival} (hrun : s.phase = .running)
    (harrivals : s.cues.arrivals = a :: rest) : exec .leadArrival s = .next (settle
      (if (arrivalTaken a rest s).seq.state = .armed then
        withMarks (fireRun (arrivalTaken a rest s).cues.lead) (arrivalTaken a rest s) else arrivalTaken a rest s)) := by
  have hexec : exec .leadArrival s =
      event true (fun s => takeLeadArrival (s.onCues fun c => { c with arrivals := rest }) a) s := by
    show execLeadArrival s = _
    unfold execLeadArrival
    rw [harrivals]
  rw [hexec, event_running (effect := fun s => takeLeadArrival (s.onCues fun c => { c with arrivals := rest }) a) hrun rfl]
  rfl

/-- What an arrival leaves before the reached cues fire. -/
theorem arrivalTaken_leaves {s : State} {a : Arrival} {rest : List Arrival} {kept gone : List Listed}
    (hkept : kept = if a.boundary then s.cues.list.filter fun x => !beyondHorizon a.key x.key else s.cues.list)
    (hgone : gone = if a.boundary then s.cues.list.filter fun x => beyondHorizon a.key x.key else []) :
    RunLeaves kept (fun n => s.outs.lines[n]) (gone.map (expiredRecord a.key s))
      (expiryRaised gone.length s ++ marksRaised s.cues { s.cues with list := kept }) (leadTaken a rest s)
      (arrivalTaken a rest s) := by
  unfold arrivalTaken
  cases hb : a.boundary
  · rw [hb] at hkept hgone
    subst hkept
    subst hgone
    simp only [Bool.false_eq_true, if_false, List.map_nil, List.length_nil, expiryRaised, recordsRaised_zero, List.replicate_zero,
      List.append_nil, marksRaised_same]
    exact RunLeaves.refl (leadTaken a rest s)
  · rw [hb] at hkept hgone
    simp only [if_true] at hkept hgone ⊢
    have hrun := (expiryRun_leaves (s := leadTaken a rest s) (gone := gone) hgone).withMarks
    rw [hkept]
    exact hrun

/-- Settles O20. -/
theorem leadArrivalFiresOnlyInArmed : Obligations.LeadArrivalFiresOnlyInArmed := by
  refine ⟨fun a rest gone s hrun harrivals hstate hgone => ?_,
    fun a rest kept gone run l s hrun harrivals harmed hkept hgone hrunThen => ?_,
    fun a rest x l r n first s hrun harrivals harmed hboundary hlist hreached hhead hslots hrep hfirst hskips => ?_⟩
  · have hleaves := arrivalTaken_leaves (s := s) (a := a) (rest := rest) rfl hgone
    have hseq : (arrivalTaken a rest s).seq.state = s.seq.state := by rw [hleaves.seq]; rfl
    have hexec := exec_leadArrival hrun harrivals
    rw [if_neg (by rw [hseq]; exact hstate)] at hexec
    obtain ⟨hcues, -, -, hlog, hraised⟩ := hleaves.kept (settle_kept _)
    refine ⟨_, hexec, hcues, hlog, ?_, fun hb => ?_, settled_kept ?_⟩
    · rw [hcues]
      exact hraised
    · rw [hb] at hgone
      have hnone : gone = [] := hgone
      subst hnone
      constructor
      · rw [hlog, List.map_nil, logAfter_nil]
        rfl
      · rw [hb] at hraised
        simp only [List.length_nil, expiryRaised, recordsRaised_zero, List.replicate_zero, List.append_nil,
          Bool.false_eq_true, if_false, marksRaised_same] at hraised
        exact hraised
    · exact arrivalTaken_kept a rest s
  · have hleaves := arrivalTaken_leaves (s := s) (a := a) (rest := rest) hkept hgone
    have hseq : (arrivalTaken a rest s).seq.state = .armed := by rw [hleaves.seq]; exact harmed
    have hcues := hleaves.cues
    have hlead : (arrivalTaken a rest s).cues.lead = a.key := by rw [hcues]; rfl
    have hexec := exec_leadArrival hrun harrivals
    rw [if_pos hseq, hlead] at hexec
    have hlength : (gone.map (expiredRecord a.key s)).length = gone.length := List.length_map _
    rw [expiryRaised, List.append_assoc, ← hlength] at hleaves
    have hfire := (hleaves.then_fireRun (s := leadTaken a rest s) (run := run) (rest := l) a.key hrunThen rfl (.refl _)).withMarks
    rw [hcues, hlength] at hfire
    obtain ⟨hlist, hlines, harr, hlog, hraised⟩ := hfire.kept (settle_kept _)
    refine ⟨_, hexec, hlist, ⟨hlines, harr, hlog⟩, ?_, settled_kept ?_⟩
    · rw [← List.append_assoc] at hraised
      exact hraised
    · exact KeptBut.then_mono (arrivalTaken_kept a rest s) (withMarks_kept (fireRun_kept _ _) (by simp)) (by simp) (by simp)
  · have htaken : arrivalTaken a rest s = leadTaken a rest s := by
      unfold arrivalTaken
      rw [hboundary]
      rfl
    have hexec : exec .leadArrival s = .next (settle (withMarks (fireRun a.key) (leadTaken a rest s))) := by
      rw [exec_leadArrival hrun harrivals, htaken, if_pos (by exact harmed)]
      rfl
    have hone : fireRun a.key (leadTaken a rest s) = fireOne .key a.key (leadTaken a rest s) x := by
      rw [fireRun, reachedRun_singleton (c := (leadTaken a rest s).cues) hlist hreached hhead]
      rfl
    have hfire := fireOne_leaves (s := leadTaken a rest s) .key a.key hrep hlist hslots hfirst hskips
    rw [← hone] at hfire
    have hall := hfire.withMarks
    have hkeep := settle_kept (withMarks (fireRun a.key) (leadTaken a rest s))
    obtain ⟨hcues, -, -, hlog, hraised⟩ := hall.kept hkeep
    refine ⟨_, hexec, hcues, firedRepeating_of_leaves (s := leadTaken a rest s) hall hkeep, ?_, ?_, settled_kept ?_⟩
    · rw [hlog]
      rfl
    · rw [hcues]
      exact hraised
    · exact KeptBut.then_mono (onCues_kept s _) (withMarks_kept (fireRun_kept _ _) (by simp)) (by simp) (by simp)

end Sys2Proof.Machine
end

section
/-! ARM and RELEASE with the catch-up (R50, R53, R63 to R65), and the reads that empty logs (R70, R95). -/

namespace Sys2Proof.Machine

/-! ## The entry into ARMED (R63) -/

theorem withMarks_of_same {f : State → State} {s : State} (h : f s = s) : withMarks f s = s := by
  have hlow : ¬ (s.cues.lowMark ≤ listedCount s.cues ∧ listedCount s.cues < s.cues.lowMark) := by omega
  have hhigh : ¬ (occupiedCount s.cues < s.cues.highMark ∧ s.cues.highMark ≤ occupiedCount s.cues) := by omega
  unfold withMarks
  dsimp only
  rw [h, if_neg hlow, if_neg hhigh]

/-- The state in which the catch-up runs. -/
abbrev entered (s : State) : State := setSeq .armed false false s

theorem enterArmed_eq (s : State) : enterArmed s = withMarks catchUpRun (entered s) := rfl

theorem enterArmed_seq (s : State) : (enterArmed s).seq =
    { s.seq with state := .armed, holdRequest := false, holdPin := false, log := (enterArmed s).seq.log } :=
  (withMarks_fires (catchUpRun_fires (entered s))).seq

theorem enterArmed_still {s : State} (h : reachedRun s.cues = []) : enterArmed s = entered s := by
  have hrun : reachedRun (entered s).cues = [] := h
  have hsame : catchUpRun (entered s) = entered s := by
    unfold catchUpRun
    rw [hrun]
    rfl
  exact withMarks_of_same hsame

/-- With one reached cue, the catch-up handles it alone (R63). -/
theorem catchUpRun_one {s : State} {x : Listed} {l : List Listed} (hlist : s.cues.list = x :: l)
    (hreached : keyReached s.cues.lead x.key = true) (hhead : (l.head?.all fun y => !keyReached s.cues.lead y.key) = true) :
    catchUpRun s = catchUpOne s.cues.lead s x := by
  rw [catchUpRun, reachedRun_singleton hlist hreached hhead]
  rfl

/-- The reply of a request that enters ARMED carries the counts of the state before (R50, R65). -/
theorem stateReply_enterArmed (s : State) : stateReply (enterArmed s) (catchUpCounts s) = okay ([1#8, 0#8] ++
    be16 ((reachedRun s.cues).countP fun x => decide (x.cue.catchUp = .fire)) ++
      be16 ((reachedRun s.cues).countP fun x => decide (x.cue.catchUp = .skip))) := by
  unfold stateReply
  rw [enterArmed_seq]
  rfl

/-- A request whose rule enters ARMED (R50, R53). -/
theorem request_enterArmed {s : State} {rule : State → State × Reply} (tag kind : Byte) (hready : Ready s)
    (hkind : kind.toNat < 128)
    (hrule : rule (heard s) = (enterArmed (heard s), stateReply (enterArmed (heard s)) (catchUpCounts (heard s)))) :
    Answered tag kind .ok false ([1#8, 0#8] ++
        be16 ((reachedRun s.cues).countP fun x => decide (x.cue.catchUp = .fire)) ++
          be16 ((reachedRun s.cues).countP fun x => decide (x.cue.catchUp = .skip))) s
        (serve ⟨tag, kind, []⟩ (noBody rule []) s) ∧
      KeptBut [] (enterArmed (heard s)) (serve ⟨tag, kind, []⟩ (noBody rule []) s) ∧
      KeptBut [.cues, .seq, .lines, .events] s (serve ⟨tag, kind, []⟩ (noBody rule []) s) ∧
      (serve ⟨tag, kind, []⟩ (noBody rule []) s).seq = { s.seq with
        state := .armed, holdRequest := false, holdPin := false
        log := (serve ⟨tag, kind, []⟩ (noBody rule []) s).seq.log } ∧
      (reachedRun s.cues = [] → (serve ⟨tag, kind, []⟩ (noBody rule []) s).seq.log = s.seq.log ∧
        KeptBut [.seq] s (serve ⟨tag, kind, []⟩ (noBody rule []) s)) := by
  rw [stateReply_enterArmed] at hrule
  obtain ⟨hanswer, hsame, hkept⟩ := request_writes (rule := noBody rule []) tag kind [] hready hkind hrule
    (enterArmed_kept (heard s)) (by simp)
  refine ⟨hanswer, hsame, hkept, ?_, fun hnone => ?_⟩
  · rw [seq_of_kept hsame]
    exact enterArmed_seq (heard s)
  · rw [enterArmed_still (s := heard s) hnone] at hrule
    obtain ⟨-, hsame', hkept'⟩ := request_writes (rule := noBody rule []) tag kind [] hready hkind hrule
      (setSeq_kept _ _ _ _) (by simp)
    exact ⟨by rw [seq_of_kept hsame']; rfl, hkept'⟩

/-! ## One cue skipped in catch-up (R65) -/

theorem recordsRaised_one (s : State) : recordsRaised 1 s = [if s.seq.log.length < 32 then .outcome else .outLogFull] := by
  unfold recordsRaised
  by_cases h : s.seq.log.length < 32
  · have hroom : 32 - s.seq.log.length = (31 - s.seq.log.length) + 1 := by omega
    simp [h, hroom]
  · have hroom : 32 - s.seq.log.length = 0 := by omega
    simp [h, hroom]

theorem logAfter_one (r : OutcomeRecord) (s : State) :
    logAfter [r] s = if s.seq.log.length < 32 then s.seq.log ++ [r] else s.seq.log := by
  unfold logAfter
  split
  · have hroom : 32 - s.seq.log.length = (31 - s.seq.log.length) + 1 := by omega
    simp [hroom]
  · have hroom : 32 - s.seq.log.length = 0 := by omega
    simp [hroom]

/-- A one-shot cue is freed with a record and no action (R65). -/
theorem skipOne_oneShot_leaves {s : State} {x : Listed} {l : List Listed} (recLead : Key) (hrep : x.cue.rep = none)
    (hlist : s.cues.list = x :: l) (hslots : ∀ y ∈ l, y.cue.slot ≠ x.cue.slot) :
    RunLeaves l (fun n => s.outs.lines[n])
      [⟨x.cue.slot, .skipped, x.cue.action, none, x.key, recLead, s.stamp, none, none⟩] (recordsRaised 1 s ++ [.skipped]) s
      (skipOne recLead s x) := by
  have hwrite := writeSkipped_leaves recLead x.cue x.key none none s
  have hleft : (s.cues.list.filter fun y => decide (y.cue.slot ≠ x.cue.slot)) = l := by
    rw [hlist, List.filter_cons_of_neg (by simp), List.filter_eq_self.2 fun y hy => by simpa using hslots y hy]
  have hskip : skipOne recLead s x = leaveList x.cue.slot (writeSkipped recLead x.cue x.key none none s) := by
    unfold skipOne
    rw [hrep]
  rw [hskip]
  refine ⟨?_, hwrite.lines, hwrite.raised.trans_none (raised_of_events rfl)⟩
  have hframe := hwrite.frame
  generalize writeSkipped recLead x.cue x.key none none s = v at hframe
  rw [← hleft, hframe]
  rfl

/-- A repeating cue goes through the repeat rule with its own key as the first repetition skipped (R65). -/
theorem skipOne_repeating_leaves {s : State} {x : Listed} {r : Repetition} {l : List Listed} {n : Nat} {first : Key}
    (recLead : Key) (hr : x.cue.rep = some r) (hlist : s.cues.list = x :: l) (hslots : ∀ y ∈ l, y.cue.slot ≠ x.cue.slot)
    (hfirst : first = cyclesAfter x.key r.period) (hskips : SkipsJust s.cues.lead first r n) :
    RunLeaves (handedBack s.cues.lead x r (periodsAfter first r.period n) (lowered r.remaining n) l) (fun k => s.outs.lines[k])
      [skippedRecord recLead x.key x (lowered r.remaining n) (n + 1) s] (recordsRaised 1 s ++ [.skipped]) s
      (skipOne recLead s x) := by
  have hwrite := writeSkipped_leaves recLead x.cue x.key (some (lowered r.remaining n)) (some (1 + n)) s
  have hback := handBack_leaves (periodsAfter first r.period n) (lowered r.remaining n) hr (by rw [hwrite.cues]; exact hlist)
    hslots
  have hskip : skipOne recLead s x = handBack x r (periodsAfter first r.period n) (lowered r.remaining n)
      (writeSkipped recLead x.cue x.key (some (lowered r.remaining n)) (some (1 + n)) s) := by
    unfold skipOne
    rw [hr]
    dsimp only
    rw [← hfirst, skipReached_spec hskips 1]
  have hall := hwrite.trans hback
  simp only [hwrite.lines, hwrite.cues, List.append_nil] at hall
  rw [hskip]
  rw [Nat.add_comm 1 n] at hall ⊢
  exact hall

/-- A one-shot cue fires in catch-up and is freed (R59, R64). -/
theorem catchUp_fires_oneShot {s : State} {x : Listed} {l : List Listed} (hrep : x.cue.rep = none) (hlist : s.cues.list = x :: l)
    (hslots : ∀ y ∈ l, y.cue.slot ≠ x.cue.slot) :
    (fireOne .catchUp s.cues.lead s x).cues = { s.cues with list := l } ∧
      Fired .catchUp x s.cues.lead s.cues.lead s (fireOne .catchUp s.cues.lead s x) ∧
      Raised (firingRaised x s) s (fireOne .catchUp s.cues.lead s x) := by
  obtain ⟨hcues, hfired, hraised⟩ := fired_spec .catchUp s.cues.lead s x
  have hleft : (s.cues.list.filter fun y => decide (y.cue.slot ≠ x.cue.slot)) = l := by
    rw [hlist, List.filter_cons_of_neg (by simp), List.filter_eq_self.2 fun y hy => by simpa using hslots y hy]
  rw [fireOne_fired, hrep]
  refine ⟨?_, hfired, hraised⟩
  rw [leaveList, State.onCues_cues, hcues, ← hleft]

/-- A request that enters ARMED keeps the lines where its catch-up does. -/
theorem request_skipped {s : State} {rule : State → State × Reply} {r : Reply} (tag kind : Byte) (hready : Ready s)
    (hkind : kind.toNat < 128) (hrule : rule (heard s) = (enterArmed (heard s), r))
    (hkept : KeptBut [.cues, .seq, .events] (entered (heard s)) (catchUpRun (entered (heard s)))) :
    KeptBut [.cues, .seq, .events] s (serve ⟨tag, kind, []⟩ (noBody rule []) s) :=
  (request_writes (rule := noBody rule []) tag kind [] hready hkind hrule
    (KeptBut.then_mono (setSeq_kept _ _ _ (heard s)) (withMarks_kept hkept (by simp)) (by simp) (by simp)) (by simp)).2.2

theorem appliedLines_of_not_safe {s : State} (h : s.seq.state ≠ .safe) (ls : LineSet) : appliedLines s ls = ls &&& cueOwned s :=
  if_neg h

/-- A firing outside SAFE does not read the sequencer state. -/
theorem firedRepeating_entered {s t : State} {cause : Cause} {base lead first : Key} {x : Listed} {r : Repetition} {n : Nat}
    (hs : s.seq.state ≠ .safe) (h : FiredRepeating cause base lead first x r n (entered (heard s)) t) :
    FiredRepeating cause base lead first x r n s t := by
  have happlied : ∀ ls, appliedLines (entered (heard s)) ls = appliedLines s ls := by
    intro ls
    rw [appliedLines_of_not_safe hs, appliedLines_of_not_safe (s := entered (heard s)) (by simp)]
    rfl
  unfold FiredRepeating firingRecord at h ⊢
  simp only [happlied] at h
  exact h

/-! ## ARM (R50, R63 to R65) -/

theorem armRule_refused {s : State} (h : s.seq.state ≠ .idle ∨ s.axis.homing = true) : armRule s = (s, refuse .wrongState) :=
  if_pos h

theorem armRule_frozen {s : State} (hidle : s.seq.state = .idle) (hhoming : s.axis.homing = false) (hfreeze : s.seq.freeze = true) :
    armRule s = (setSeq .hold false true s, stateReply (setSeq .hold false true s) (0, 0)) := by
  unfold armRule
  rw [if_neg (by simp [hidle, hhoming]), if_pos hfreeze]

theorem armRule_armed {s : State} (hidle : s.seq.state = .idle) (hhoming : s.axis.homing = false) (hfreeze : s.seq.freeze = false) :
    armRule s = (enterArmed s, stateReply (enterArmed s) (catchUpCounts s)) := by
  unfold armRule
  rw [if_neg (by simp [hidle, hhoming]), if_neg (by simp [hfreeze])]

/-- Settles O21. -/
theorem armHoldsOrArmsWithCatchUp : Obligations.ArmHoldsOrArmsWithCatchUp := by
  refine ⟨fun tag s hready => ⟨fun hstate => ?_, fun hidle hhoming hfreeze => ?_, fun hidle hhoming hfreeze => ?_⟩,
    fun tag x l s hready hidle hhoming hfreeze hlist hreached hhead hrep hslots => ?_,
    fun tag x l r n first s hready hidle hhoming hfreeze hlist hreached hhead hslots hrep hfirst hskips => ?_⟩
  · exact ⟨_, rfl, request_refused tag 0x20#8 hready (by decide) (armRule_refused (s := heard s) hstate)⟩
  · exact ⟨_, rfl, request_setSeq tag 0x20#8 hready (by decide) (armRule_frozen (s := heard s) hidle hhoming hfreeze)⟩
  · obtain ⟨hanswer, -, hkept, hseq, hstill⟩ := request_enterArmed tag 0x20#8 hready (by decide)
      (armRule_armed (s := heard s) hidle hhoming hfreeze)
    exact ⟨_, rfl, hanswer, hseq, hkept, hstill⟩
  · have hrule := armRule_armed (s := heard s) hidle hhoming hfreeze
    obtain ⟨-, hsame, hkept, -, -⟩ := request_enterArmed tag 0x20#8 hready (by decide) hrule
    have hone := catchUpRun_one (s := entered (heard s)) hlist hreached hhead
    rw [enterArmed_eq] at hsame
    refine ⟨fun hfire => ?_, fun hskip => ?_⟩
    · have hcatch : catchUpRun (entered (heard s)) = fireOne .catchUp s.cues.lead (entered (heard s)) x := by
        rw [hone, catchUpOne, hfire]
        rfl
      obtain ⟨hcues, hfired, hraised⟩ := catchUp_fires_oneShot (s := entered (heard s)) hrep hlist hslots
      rw [show (entered (heard s)).cues.lead = s.cues.lead from rfl, ← hcatch] at hcues hfired hraised
      have hmarks := withMarks_raised hraised
      rw [hcues] at hmarks
      exact ⟨_, rfl, (cues_of_kept hsame).trans ((withMarks_cues _ _).trans hcues),
        fired_of_kept (s := { s with seq := { s.seq with state := .armed, holdRequest := false, holdPin := false } })
          (withMarks_fired (s := entered (heard s)) (f := catchUpRun) hfired) hsame,
        raised_of_kept (u := s) hsame hmarks, hkept⟩
    · have hcatch : catchUpRun (entered (heard s)) = skipOne s.cues.lead (entered (heard s)) x := by
        rw [hone, catchUpOne, hskip]
        rfl
      have hrun := skipOne_oneShot_leaves (s := entered (heard s)) s.cues.lead hrep hlist hslots
      rw [← hcatch] at hrun
      obtain ⟨hcues, -, -, hlog, hraised⟩ := hrun.withMarks.kept hsame
      rw [logAfter_one] at hlog
      rw [recordsRaised_one] at hraised
      exact ⟨_, rfl, hcues, hlog, hraised, request_skipped tag 0x20#8 hready (by decide) hrule (hcatch ▸ skipOne_kept _ _ _)⟩
  · have hrule := armRule_armed (s := heard s) hidle hhoming hfreeze
    obtain ⟨-, hsame, hkept, hseq, -⟩ := request_enterArmed tag 0x20#8 hready (by decide) hrule
    have hone := catchUpRun_one (s := entered (heard s)) hlist hreached hhead
    rw [enterArmed_eq] at hsame
    cases hchoice : x.cue.catchUp
    · have hcatch : catchUpRun (entered (heard s)) = fireOne .catchUp s.cues.lead (entered (heard s)) x := by
        rw [hone, catchUpOne, hchoice]
        rfl
      have hrun := fireOne_leaves (s := entered (heard s)) .catchUp s.cues.lead hrep hlist hslots hfirst hskips
      rw [← hcatch] at hrun
      obtain ⟨hcues, -, -, -, hraised⟩ := hrun.withMarks.kept hsame
      refine ⟨_, rfl, hcues, hseq, fun _ =>
        ⟨firedRepeating_entered (by simp [hidle]) (firedRepeating_of_leaves hrun.withMarks hsame), ?_, hkept⟩, fun h => nomatch h⟩
      rw [hcues]
      exact hraised
    · have hcatch : catchUpRun (entered (heard s)) = skipOne s.cues.lead (entered (heard s)) x := by
        rw [hone, catchUpOne, hchoice]
        rfl
      have hrun := skipOne_repeating_leaves (s := entered (heard s)) s.cues.lead hrep hlist hslots hfirst hskips
      rw [← hcatch] at hrun
      obtain ⟨hcues, -, -, hlog, hraised⟩ := hrun.withMarks.kept hsame
      refine ⟨_, rfl, hcues, hseq, fun h => (nomatch h), fun _ => ⟨?_, ?_, request_skipped tag 0x20#8 hready (by decide) hrule (hcatch ▸ skipOne_kept _ _ _)⟩⟩
      · rw [hlog]
        rfl
      · rw [hcues]
        exact hraised

/-! ## RELEASE (R53) -/

theorem releaseRule_armed {s : State} (h : s.seq.state = .armed) : releaseRule s = (s, stateReply s (0, 0)) := by
  simp only [releaseRule, h]

theorem releaseRule_refused {s : State} (h : s.seq.state = .idle ∨ s.seq.state = .safe) :
    releaseRule s = (s, refuse .wrongState) := by
  rcases h with h | h <;> simp only [releaseRule, h]

theorem releaseRule_pinned {s : State} (h : s.seq.state = .hold) (hpin : s.seq.holdPin = true) :
    releaseRule s = (setSeq .hold false true s, stateReply (setSeq .hold false true s) (0, 0)) := by
  simp only [releaseRule, h, hpin, if_true]

theorem releaseRule_freed {s : State} (h : s.seq.state = .hold) (hpin : s.seq.holdPin = false) :
    releaseRule s = (enterArmed s, stateReply (enterArmed s) (catchUpCounts s)) := by
  simp only [releaseRule, h, hpin, Bool.false_eq_true, if_false]

/-- Settles O24. -/
theorem releaseRemovesRequest : Obligations.ReleaseRemovesRequest := by
  intro tag s hready
  refine ⟨fun harmed hrequest hpin => ?_, fun hhold hpin => ?_, fun hhold hpin => ?_, fun hstate => ?_⟩
  · have hreply : stateReply (heard s) (0, 0) = okay [1#8, 0#8, 0#8, 0#8, 0#8, 0#8] := by
      simp only [stateReply, heard_seq, harmed, reasonsByte, hrequest, hpin]
      rfl
    have hrule := releaseRule_armed (s := heard s) harmed
    rw [hreply] at hrule
    exact ⟨_, rfl, request_kept (rule := noBody releaseRule []) tag 0x23#8 [] hready (by decide) hrule⟩
  · obtain ⟨hanswer, hseq, hkept⟩ := request_setSeq tag 0x23#8 hready (by decide) (releaseRule_pinned (s := heard s) hhold hpin)
    refine ⟨_, rfl, hanswer, ?_, hkept⟩
    rw [hseq, ← hhold, ← hpin]
  · obtain ⟨hanswer, -, hkept, hseq, hstill⟩ := request_enterArmed tag 0x23#8 hready (by decide)
      (releaseRule_freed (s := heard s) hhold hpin)
    exact ⟨_, rfl, hanswer, hseq, hkept, hstill⟩
  · exact ⟨_, rfl, request_refused tag 0x23#8 hready (by decide) (releaseRule_refused (s := heard s) hstate)⟩

/-! ## OUTCOMES_READ and CAPTURES_READ (R70, R95) -/

theorem onChannel_same (ch : Fin 4) (f : Channel → Channel) (s : State) :
    (onChannel ch f s).capture.channels[ch] = f s.capture.channels[ch] := updAt_same _ _ _

theorem onChannel_other {ch d : Fin 4} (f : Channel → Channel) (s : State) (h : d ≠ ch) :
    (onChannel ch f s).capture.channels[d] = s.capture.channels[d] := updAt_other _ _ (Ne.symm h)

/-- Settles O25. -/
theorem logReadsRemoveRecords : Obligations.LogReadsRemoveRecords := by
  refine ⟨fun tag n s hready => ?_, fun tag channel s hready => ⟨fun hhigh => ?_, fun ch hchannel => ?_⟩, outcomeBytes_layout,
    capturesReadData_layout⟩
  · have hrule : oneByte outcomesReadRule [n] (heard s) =
        if 1 ≤ n.toNat ∧ n.toNat ≤ 8 then
          ((heard s).onSeq fun q => { q with log := q.log.drop n.toNat },
            okay ([byteOf (min n.toNat s.seq.log.length), byteOf (s.seq.log.length - n.toNat)] ++
              (s.seq.log.take n.toNat).flatMap outcomeBytes))
        else (heard s, refuse .badValue) := by
      have hrange : ¬ (n.toNat < 1 ∨ 8 < n.toNat) ↔ 1 ≤ n.toNat ∧ n.toNat ≤ 8 := by omega
      simp only [oneByte, outcomesReadRule, heard_seq, State.onSeq_seq, List.length_take, List.length_drop]
      rw [← ite_not]
      simp only [hrange]
    refine ⟨_, rfl, ?_⟩
    split
    · rename_i hrange
      rw [if_pos hrange] at hrule
      obtain ⟨hanswer, hsame, hkept⟩ := request_writes tag 0x25#8 [n] hready (by decide) hrule (onSeq_kept _ _) (by simp)
      exact ⟨hanswer, seq_of_kept hsame, hkept .events (by simp), hkept⟩
    · rename_i hrange
      rw [if_neg hrange] at hrule
      exact request_kept tag 0x25#8 [n] hready (by decide) hrule
  · refine ⟨_, rfl, request_kept (r := refuse .badValue) tag 0x31#8 [channel] hready (by decide) ?_⟩
    simp only [oneByte, capturesReadRule, finOf_of_ge (n := 4) hhigh]
  · have hrule : oneByte capturesReadRule [channel] (heard s) =
        (onChannel ch (fun c => { c with log := [], strays := 0 }) (heard s),
          okay (capturesReadData s.capture.channels[ch] s.cues.queues[ch])) := by
      simp only [oneByte, capturesReadRule, finOf_of_eq hchannel]
      rfl
    obtain ⟨hanswer, hsame, hkept⟩ := request_writes tag 0x31#8 [channel] hready (by decide) hrule (onChannel_kept _ _ _) (by simp)
    have hcapture := capture_of_kept hsame
    refine ⟨_, rfl, hanswer, ?_, fun d hd => ?_, ?_, hkept .events (by simp), hkept⟩
    · rw [hcapture, onChannel_same]
      rfl
    · rw [hcapture, onChannel_other _ _ hd]
      rfl
    · rw [hcapture]
      rfl

end Sys2Proof.Machine
end

section
/-! The Capture Unit: CAPTURE_SETUP (R74), and the resolution of the oldest group of a channel (R87 to R89). -/

namespace Sys2Proof.Machine

/-! ## CAPTURE_SETUP (R74) -/

theorem gateFits_of {a : Axis} {g : Gate} (h : ∀ start stop nominal, g = .window start stop nominal → start ≠ stop ∧
    ∀ p ∈ [start, stop, nominal], p < a.cfg.modulus ∧ ∀ m, a.staged = some m → p < m) : gateFits a g = true := by
  cases g with
  | always => rfl
  | window start stop nominal =>
    obtain ⟨hne, hbelow⟩ := h start stop nominal rfl
    simp only [gateFits, gatePositions, Bool.and_eq_true, List.all_eq_true, decide_eq_true_eq]
    exact ⟨fun p hp => (belowModuli_iff _ _).2 (hbelow p hp), hne⟩

theorem captureSetupRule_passes {channel enable input edge gate a3 a2 a1 a0 b3 b2 b1 b0 n3 n2 n1 n0 : Byte} {ch : Fin 4}
    {cfg : ChannelSettings} {s : State} (hchannel : channel.toNat = ch.val)
    (hcfg : channelSettingsOf enable input edge gate (num32 a3 a2 a1 a0) (num32 b3 b2 b1 b0) (num32 n3 n2 n1 n0) = some cfg)
    (hgate : gateFits s.axis cfg.gate = true) (hqueue : s.cues.queues[ch] = [])
    (hfree : ∀ n, cfg.input = some n → s.ins[n].fn = .general ∨ s.ins[n].fn = .capture ch) :
    captureSetupRule [channel, enable, input, edge, gate, a3, a2, a1, a0, b3, b2, b1, b0, n3, n2, n1, n0] s =
      (onChannel ch (fun c => { c with cfg := cfg, episode := .closed })
        (bindInput ch s.capture.channels[ch].cfg.input cfg.input s), okay []) := by
  have hinput : inputFreeFor s ch cfg.input = true := by
    cases h : cfg.input with
    | none => rfl
    | some n => simpa [inputFreeFor] using hfree n h
  simp only [captureSetupRule, finOf_of_eq hchannel, hcfg, hgate, if_true, setupChannel, hqueue, ne_eq, not_true_eq_false,
    if_false, hinput, Bool.not_true, Bool.false_eq_true]

/-- The input a channel held has been released, where it is to hold another or none (R74). -/
def oldReleased (old new : Option (Fin 8)) (s : State) : State :=
  match old with
  | some m => if new = some m then s else releaseInput m s
  | none => s

theorem bindInput_some (ch : Fin 4) (old : Option (Fin 8)) (m : Fin 8) (s : State) :
    bindInput ch old (some m) s = claimInput m (.capture ch) (oldReleased old (some m) s) := rfl

theorem bindInput_none (ch : Fin 4) (old : Option (Fin 8)) (s : State) : bindInput ch old none s = oldReleased old none s := rfl

theorem oldReleased_in (old new : Option (Fin 8)) (s : State) (n : Fin 8) (hn : new ≠ some n) :
    (oldReleased old new s).ins[n] = if old = some n then released s.ins[n] else s.ins[n] := by
  unfold oldReleased
  cases old with
  | none => rw [if_neg nofun]
  | some m =>
    dsimp only
    by_cases hm : m = n
    · subst hm
      rw [if_neg hn, if_pos rfl, releaseInput_in, if_pos rfl]
    · rw [if_neg fun h => hm (Option.some.inj h)]
      split
      · rfl
      · rw [releaseInput_in, if_neg hm]

theorem oldReleased_held (old : Option (Fin 8)) (s : State) (m : Fin 8) : (oldReleased old (some m) s).ins[m] = s.ins[m] := by
  unfold oldReleased
  cases old with
  | none => rfl
  | some k =>
    dsimp only
    split
    · rfl
    · rename_i hk
      rw [releaseInput_in, if_neg fun h => hk (congrArg some h.symm)]

/-- The inputs after a channel is bound: a different one it held is released, the named one claimed (R74). -/
theorem bindInput_in (ch : Fin 4) (old new : Option (Fin 8)) (s : State) (n : Fin 8) : (bindInput ch old new s).ins[n] =
    if new = some n then { s.ins[n] with fn := .capture ch } else if old = some n then released s.ins[n] else s.ins[n] := by
  cases new with
  | none => rw [bindInput_none, if_neg nofun, oldReleased_in old none s n nofun]
  | some m =>
    rw [bindInput_some, claimInput_in]
    by_cases hm : m = n
    · subst hm
      rw [if_pos rfl, if_pos rfl, oldReleased_held]
    · have hne : some m ≠ some n := fun h => hm (Option.some.inj h)
      rw [if_neg hm, if_neg hne, oldReleased_in old _ s n hne]

/-- Settles O26. -/
theorem captureSetupWritesChannel : Obligations.CaptureSetupWritesChannel := by
  intro tag channel enable input edge gate a3 a2 a1 a0 b3 b2 b1 b0 n3 n2 n1 n0 ch cfg s hready hchannel hcfg hgate hqueue hfree
  have hrule := captureSetupRule_passes (s := heard s) hchannel hcfg (gateFits_of hgate) hqueue hfree
  have hwrites : KeptBut [.capture, .inputs] (heard s) (onChannel ch (fun c => { c with cfg := cfg, episode := .closed })
      (bindInput ch s.capture.channels[ch].cfg.input cfg.input (heard s))) :=
    KeptBut.then_mono (bindInput_kept _ _ _ _) (onChannel_kept _ _ _) (by simp) (by simp)
  obtain ⟨hanswer, hsame, hkept⟩ := request_writes tag 0x30#8 _ hready (by decide) hrule hwrites (by simp)
  have hcapture := capture_of_kept hsame
  have hbound : ∀ old, (bindInput ch old cfg.input (heard s)).capture = s.capture := fun old =>
    bindInput_kept ch old cfg.input (heard s) .capture (by simp)
  refine ⟨_, rfl, hanswer, ?_, fun d hd => ?_, ?_, fun n => ?_, hkept⟩
  · rw [hcapture, onChannel_same, hbound]
  · rw [hcapture, onChannel_other _ _ hd, hbound]
  · rw [hcapture, onChannel, State.onCapture_capture, hbound]
  · rw [ins_of_kept hsame]
    exact bindInput_in ch _ _ _ n

/-! ## The resolution of a group (R28, R60, R87 to R89) -/

/-- The cues of a group have entered the list or expired (R28, R89). -/
theorem resolveCues_leaves (g : Group) (point recLead : Key) (s : State) :
    RunLeaves (enteredList g point s) (fun n => s.outs.lines[n]) ((expiring g point s).map (expiredRecord recLead s))
      (expiryRaised (expiring g point s).length s) s (g.cues.foldl (resolveCue point recLead) s) := by
  obtain ⟨⟨ev, he⟩, hraised⟩ := resolveCues_spec point recLead g.cues s (keyed g point s) rfl
  rw [List.countP_eq_length_filter] at hraised
  exact ⟨by rw [he]; rfl, fun n => by rw [he], hraised⟩

theorem resolveGroup_leaves_still {g : Group} {point : Key} {s : State} (recLead : Key) (h : s.seq.state ≠ .armed) :
    RunLeaves (enteredList g point s) (fun n => s.outs.lines[n]) ((expiring g point s).map (expiredRecord recLead s))
      (expiryRaised (expiring g point s).length s) s (resolveGroup g point recLead s) := by
  have hleaves := resolveCues_leaves g point recLead s
  have hstate : (g.cues.foldl (resolveCue point recLead) s).seq.state ≠ .armed := by
    rw [hleaves.seq]
    exact h
  rw [resolveGroup, if_neg hstate]
  exact hleaves

theorem resolveGroup_leaves_armed {g : Group} {point : Key} {run rest : List Listed} {s : State} (recLead : Key)
    (h : s.seq.state = .armed) (hrun : RunThen s.cues.lead (enteredList g point s) run rest) :
    RunLeaves rest (fun n => run.foldl (lineFired s n) s.outs.lines[n])
      ((expiring g point s).map (expiredRecord recLead s) ++
        (run.filter (·.cue.report)).map fun y => firingRecord .key y recLead s)
      (recordsRaised ((expiring g point s).length + run.countP (·.cue.report)) s ++
        List.replicate (expiring g point s).length .skipped) s (resolveGroup g point recLead s) := by
  have hleaves := resolveCues_leaves g point recLead s
  have hstate : (g.cues.foldl (resolveCue point recLead) s).seq.state = .armed := by
    rw [hleaves.seq]
    exact h
  have hlength : ((expiring g point s).map (expiredRecord recLead s)).length = (expiring g point s).length := List.length_map _
  rw [expiryRaised, ← hlength] at hleaves
  rw [resolveGroup, if_pos hstate, ← hlength]
  exact hleaves.then_fireRun recLead hrun rfl (.refl _)

/-- A resolution leaves of the Cue Table all but the list. -/
theorem resolveGroup_cues (g : Group) (point recLead : Key) (s : State) :
    (resolveGroup g point recLead s).cues = { s.cues with list := (resolveGroup g point recLead s).cues.list } := by
  have hcues := (resolveCues_leaves g point recLead s).cues
  unfold resolveGroup
  dsimp only
  split
  · rw [(fireRun_fires _ _).cues, hcues]
  · rw [hcues]

/-- What a run leaves is what the statements say of fired cues, where only the Capture Unit and the events change behind it (R58,
R59). -/
theorem firedRun_of_leaves {l : List Listed} {f : Fin 16 → OutLine} {rs before : List OutcomeRecord} {run : List Listed} {lead : Key}
    {xs : List EventSource} {s t u : State} (h : RunLeaves l f rs xs s t) (hk : KeptBut [.capture, .events] t u)
    (hf : ∀ n : Fin 16, f n = run.foldl (lineFired s n) s.outs.lines[n])
    (hrs : rs = before ++ (run.filter (·.cue.report)).map fun x => firingRecord .key x lead s) :
    FiredRun before run lead s u := by
  have hlines := (hk .lines (by simp)).2
  simp only [h.lines, hf] at hlines
  have harrivals : t.outs.arrivals = s.outs.arrivals := by rw [h.frame]
  refine ⟨hlines, (hk .lines (by simp)).1.trans harrivals, ?_⟩
  rw [← hrs]
  exact (hk .seq (by simp) : u.seq = t.seq).trans h.seq

/-- The oldest group of a channel leaves its queue and is resolved, as one event (R87 to R89). -/
def groupTaken (ch : Fin 4) (g : Group) (point : Key) (lead : State → Key) (s : State) : State :=
  withMarks (fun s => resolveGroup g point (lead s) (popGroup ch s)) s

theorem groupTaken_cues (ch : Fin 4) (g : Group) (point : Key) (lead : State → Key) (s : State) :
    (groupTaken ch g point lead s).cues =
      { s.cues with list := (groupTaken ch g point lead s).cues.list, queues := updAt s.cues.queues ch List.tail } := by
  have hcues : (groupTaken ch g point lead s).cues = (resolveGroup g point (lead s) (popGroup ch s)).cues := withMarks_cues _ _
  rw [hcues]
  exact resolveGroup_cues g point (lead s) (popGroup ch s)

/-- What a resolution has done, with occurrences that came behind it. -/
theorem groupResolved_of_taken {s u : State} {ch : Fin 4} {g : Group} {point : Key} {lead : State → Key}
    {more : List EventSource} (hk : KeptBut [.capture, .events] (groupTaken ch g point lead s) u)
    (hmore : Raised more (groupTaken ch g point lead s) u) : GroupResolved ch g point (lead s) more s u := by
  have hcues : u.cues = (groupTaken ch g point lead s).cues := hk .cues (by simp)
  have hframe := groupTaken_cues ch g point lead s
  rw [← hcues] at hframe
  refine ⟨?_, ?_, fun d hd => ?_, fun hstate => ?_, fun run rest harmed hrun => ?_⟩
  · rw [hframe]
  · rw [hframe]
    exact updAt_same _ _ _
  · rw [hframe]
    exact updAt_other _ _ (Ne.symm hd)
  · have hleaves := (resolveGroup_leaves_still (g := g) (point := point) (s := popGroup ch s) (lead s) hstate).withMarks
      (run := fun s => resolveGroup g point (lead s) (popGroup ch s)) (t := s)
    have hlist : u.cues = _ := hcues.trans hleaves.cues
    refine ⟨?_, ?_, ?_⟩
    · rw [hlist]
      rfl
    · exact firedRun_of_leaves (s := popGroup ch s) hleaves hk (fun _ => rfl) (List.append_nil _).symm
    · rw [hlist]
      exact raised_append hleaves.raised hmore
  · have hleaves := (resolveGroup_leaves_armed (g := g) (point := point) (s := popGroup ch s) (lead s) harmed hrun).withMarks
      (run := fun s => resolveGroup g point (lead s) (popGroup ch s)) (t := s)
    have hlist : u.cues = _ := hcues.trans hleaves.cues
    refine ⟨?_, ?_, ?_⟩
    · rw [hlist]
    · exact firedRun_of_leaves (s := popGroup ch s) hleaves hk (fun _ => rfl) rfl
    · rw [hlist]
      exact raised_append hleaves.raised hmore

end Sys2Proof.Machine
end

section
/-! The Capture Unit at arrivals of the lead point and at edges: episodes, misses, strays and captures (R76 to R82, R87 to R94). -/

namespace Sys2Proof.Machine

/-! ## Episodes (R76, R77) -/

/-- A channel after an arrival that ends none of its OPEN episodes (R76, R77). -/
def episodeMoved (k : Key) (c : Channel) : Channel :=
  { c with
    episode := match c.cfg.enabled, c.cfg.gate, c.episode with
      | true, .window start _ _, .closed => if k.pos = start then .opened k.cycle else .closed
      | true, .window _ stop _, .taken cyc => if k.pos = stop then .closed else .taken cyc
      | _, _, e => e }

/-- An arrival at a position ends no OPEN episode of the channel. -/
def NoMiss (k : Key) (c : Channel) : Prop :=
  ∀ (start stop nominal : Nat) (cyc : Cycle), c.cfg.enabled = true → c.cfg.gate = .window start stop nominal →
    c.episode = .opened cyc → k.pos ≠ stop

theorem onChannel_id {ch : Fin 4} {f : Channel → Channel} {s : State} (h : f s.capture.channels[ch] = s.capture.channels[ch]) :
    onChannel ch f s = s := by
  have hchannels : updAt s.capture.channels ch f = s.capture.channels := by
    ext d hd : 1
    refine (updAt_get s.capture.channels ch ⟨d, hd⟩ f).trans ?_
    split
    · rename_i heq
      subst heq
      exact h
    · rfl
  rw [onChannel, State.onCapture, hchannels]

theorem onChannel_congr {ch : Fin 4} {f g : Channel → Channel} {s : State} (h : f s.capture.channels[ch] = g s.capture.channels[ch]) :
    onChannel ch f s = onChannel ch g s := by
  have hchannels : updAt s.capture.channels ch f = updAt s.capture.channels ch g := by
    ext d hd : 1
    refine (updAt_get s.capture.channels ch ⟨d, hd⟩ f).trans ((updAt_get s.capture.channels ch ⟨d, hd⟩ g).trans ?_).symm
    rw [h]
  rw [onChannel, onChannel, State.onCapture, State.onCapture, hchannels]

theorem windowAtArrival_moves {k : Key} {s : State} {ch : Fin 4} (h : NoMiss k s.capture.channels[ch]) :
    windowAtArrival k s ch = onChannel ch (episodeMoved k) s := by
  unfold windowAtArrival
  dsimp only
  split
  · rename_i start stop nominal henabled hgate
    split
    · rename_i hepisode
      by_cases hpos : k.pos = start
      · rw [if_pos hpos]
        exact onChannel_congr (by simp only [episodeMoved, henabled, hgate, hepisode, if_pos hpos])
      · rw [if_neg hpos]
        exact (onChannel_id (by simp only [episodeMoved, henabled, hgate, hepisode, if_neg hpos]; rw [← hepisode])).symm
    · rename_i cyc hepisode
      rw [if_neg (h start stop nominal cyc henabled hgate hepisode)]
      exact (onChannel_id (by simp only [episodeMoved, henabled, hgate, hepisode]; rw [← hepisode])).symm
    · rename_i cyc hepisode
      by_cases hpos : k.pos = stop
      · rw [if_pos hpos]
        exact onChannel_congr (by simp only [episodeMoved, henabled, hgate, hepisode, if_pos hpos])
      · rw [if_neg hpos]
        exact (onChannel_id (by simp only [episodeMoved, henabled, hgate, hepisode, if_neg hpos]; rw [← hepisode])).symm
  · rename_i hother
    refine (onChannel_id ?_).symm
    unfold episodeMoved
    split
    · rename_i henabled hgate _
      exact absurd hgate (hother _ _ _ henabled)
    · rename_i henabled hgate _
      exact absurd hgate (hother _ _ _ henabled)
    · rfl

/-- An arrival that ends no OPEN episode moves the episodes channel by channel (R76, R77). -/
theorem foldl_windowAtArrival (k : Key) (l : List (Fin 4)) (hl : l.Nodup) (s : State)
    (h : ∀ ch ∈ l, NoMiss k s.capture.channels[ch]) : ∃ channels,
      l.foldl (windowAtArrival k) s = s.onCapture (fun c => { c with channels := channels }) ∧
        ∀ ch : Fin 4, channels[ch] = if ch ∈ l then episodeMoved k s.capture.channels[ch] else s.capture.channels[ch] := by
  induction l generalizing s with
  | nil => exact ⟨s.capture.channels, rfl, fun ch => (if_neg List.not_mem_nil).symm⟩
  | cons d l ih =>
    obtain ⟨hd, hrest⟩ := List.nodup_cons.1 hl
    have hstep : windowAtArrival k s d = onChannel d (episodeMoved k) s := windowAtArrival_moves (h d (by simp))
    have hkeep : ∀ ch : Fin 4, ch ≠ d → (onChannel d (episodeMoved k) s).capture.channels[ch] = s.capture.channels[ch] :=
      fun ch hch => onChannel_other _ _ hch
    have hne : ∀ ch ∈ l, ch ≠ d := fun ch hch he => hd (he ▸ hch)
    obtain ⟨channels, he, hchannels⟩ := ih hrest (onChannel d (episodeMoved k) s) fun ch hch => by
      rw [hkeep ch (hne ch hch)]
      exact h ch (by simp [hch])
    refine ⟨channels, by rw [List.foldl_cons, hstep, he]; rfl, fun ch => ?_⟩
    rw [hchannels ch]
    by_cases hch : ch = d
    · subst hch
      rw [if_neg hd, if_pos (by simp), onChannel_same]
    · rw [hkeep ch hch]
      simp [hch]

theorem exec_windowArrival {s : State} {k : Key} {rest : List Key} (hrun : s.phase = .running)
    (harrivals : s.capture.arrivals = k :: rest) : exec .windowArrival s =
      .next (settle (takeWindowArrival (s.onCapture fun c => { c with arrivals := rest }) k)) := by
  have hexec : exec .windowArrival s =
      event true (fun s => takeWindowArrival (s.onCapture fun c => { c with arrivals := rest }) k) s := by
    show execWindowArrival s = _
    unfold execWindowArrival
    rw [harrivals]
  rw [hexec, event_running (effect := fun s => takeWindowArrival (s.onCapture fun c => { c with arrivals := rest }) k) hrun rfl]

/-! ## Misses (R77, R91 to R94) -/

theorem windowAtArrival_disabled {k : Key} {s : State} {ch : Fin 4} (h : s.capture.channels[ch].cfg.enabled = false) :
    windowAtArrival k s ch = s := by
  unfold windowAtArrival
  dsimp only
  rw [h]

/-- With one enabled channel, an arrival reaches that channel alone. -/
theorem takeWindowArrival_alone {k : Key} {s : State} {ch : Fin 4}
    (h : ∀ d : Fin 4, d ≠ ch → s.capture.channels[d].cfg.enabled = false)
    (hafter : ∀ d : Fin 4, d ≠ ch → (windowAtArrival k s ch).capture.channels[d] = s.capture.channels[d]) :
    takeWindowArrival s k = windowAtArrival k s ch := by
  have hbefore : ∀ d : Fin 4, d ≠ ch → windowAtArrival k s d = s := fun d hd => windowAtArrival_disabled (h d hd)
  have hlater : ∀ d : Fin 4, d ≠ ch → windowAtArrival k (windowAtArrival k s ch) d = windowAtArrival k s ch := fun d hd =>
    windowAtArrival_disabled (by rw [hafter d hd]; exact h d hd)
  have hall : takeWindowArrival s k = windowAtArrival k (windowAtArrival k (windowAtArrival k (windowAtArrival k s 0) 1) 2) 3 := rfl
  rw [hall]
  match ch with
  | 0 => rw [hlater 1 (by decide), hlater 2 (by decide), hlater 3 (by decide)]
  | 1 => rw [hbefore 0 (by decide), hlater 2 (by decide), hlater 3 (by decide)]
  | 2 => rw [hbefore 0 (by decide), hbefore 1 (by decide), hlater 3 (by decide)]
  | 3 => rw [hbefore 0 (by decide), hbefore 1 (by decide), hbefore 2 (by decide)]

/-- The end of an OPEN episode: the miss of the channel, on the part with the episode closed (R77). -/
theorem windowAtArrival_miss {k : Key} {s : State} {ch : Fin 4} {start stop nominal : Nat} {c : Cycle}
    (henabled : s.capture.channels[ch].cfg.enabled = true)
    (hgate : s.capture.channels[ch].cfg.gate = .window start stop nominal)
    (hepisode : s.capture.channels[ch].episode = .opened c) (hpos : k.pos = stop) : windowAtArrival k s ch =
      takeMiss ch c nominal k (onChannel ch (fun c => { c with episode := .closed }) s) := by
  unfold windowAtArrival
  dsimp only
  rw [henabled, hgate]
  dsimp only
  rw [hepisode]
  exact if_pos hpos

/-- A miss whose claim has left a state, a result and a group. -/
def missTaken (ch : Fin 4) (c : Cycle) (result : MissResult) (group : Option (Fin 32)) (s : State) : State :=
  raise (.missed ch) (onChannel ch (fun x => { x with lastMiss := some ⟨result, group, c⟩ }) s)

theorem missTaken_kept (ch : Fin 4) (c : Cycle) (result : MissResult) (group : Option (Fin 32)) (s : State) :
    KeptBut [.capture, .events] s (missTaken ch c result group s) :=
  KeptBut.then_mono (onChannel_kept _ _ _) (raise_kept _ _) (by simp) (by simp)

theorem missTaken_raised (ch : Fin 4) (c : Cycle) (result : MissResult) (group : Option (Fin 32)) (s : State) :
    Raised [.missed ch] s (missTaken ch c result group s) :=
  raised_append (raised_of_events (s := s) (t := onChannel ch (fun x => { x with lastMiss := some ⟨result, group, c⟩ }) s) rfl)
    (raise_raised _ _)

theorem takeMiss_eq {ch : Fin 4} {c : Cycle} {nominal : Nat} {k : Key} {s : State} : takeMiss ch c nominal k s =
    if s.seq.state = .safe then missTaken ch c .suspended none s
    else missTaken ch c (claimMiss ch ⟨c, nominal⟩ k s).2.1 (claimMiss ch ⟨c, nominal⟩ k s).2.2
      (claimMiss ch ⟨c, nominal⟩ k s).1 := by
  unfold takeMiss missTaken
  split <;> rfl

/-- The part as an arrival has closed an episode of a channel. -/
def closedAt (ch : Fin 4) (rest : List Key) (s : State) : State :=
  onChannel ch (fun c => { c with episode := .closed }) (s.onCapture fun c => { c with arrivals := rest })

theorem closedAt_kept (ch : Fin 4) (rest : List Key) (s : State) : KeptBut [.capture] s (closedAt ch rest s) :=
  KeptBut.trans (onCapture_kept _ _) (onChannel_kept _ _ _)

/-- An arrival that ends the OPEN episode of the one enabled channel: the miss, and the Capture Unit after it (R77, R91). -/
theorem exec_miss {s v : State} {k : Key} {rest : List Key} {ch : Fin 4} {start stop nominal : Nat} {c : Cycle}
    {result : MissResult} {group : Option (Fin 32)} (hrun : s.phase = .running) (harrivals : s.capture.arrivals = k :: rest)
    (henabled : s.capture.channels[ch].cfg.enabled = true)
    (hgate : s.capture.channels[ch].cfg.gate = .window start stop nominal)
    (hepisode : s.capture.channels[ch].episode = .opened c) (hpos : k.pos = stop)
    (hothers : ∀ d : Fin 4, d ≠ ch → s.capture.channels[d].cfg.enabled = false)
    (hmiss : takeMiss ch c nominal k (closedAt ch rest s) = missTaken ch c result group v)
    (hv : v.capture = (closedAt ch rest s).capture) :
    exec .windowArrival s = .next (settle (missTaken ch c result group v)) ∧
      (settle (missTaken ch c result group v)).capture.channels[ch] = { s.capture.channels[ch] with
        episode := .closed, lastMiss := some ⟨result, group, c⟩ } ∧
      (∀ d : Fin 4, d ≠ ch → (settle (missTaken ch c result group v)).capture.channels[d] = s.capture.channels[d]) ∧
      (settle (missTaken ch c result group v)).capture.arrivals = rest := by
  have hother : ∀ d : Fin 4, d ≠ ch → (missTaken ch c result group v).capture.channels[d] = s.capture.channels[d] := by
    intro d hd
    rw [missTaken, raise_capture, onChannel_other _ _ hd, hv, closedAt, onChannel_other _ _ hd]
    rfl
  have hreaches : windowAtArrival k (s.onCapture fun c => { c with arrivals := rest }) ch = missTaken ch c result group v :=
    (windowAtArrival_miss (s := s.onCapture fun c => { c with arrivals := rest }) henabled hgate hepisode hpos).trans hmiss
  have halone : takeWindowArrival (s.onCapture fun c => { c with arrivals := rest }) k = missTaken ch c result group v := by
    rw [← hreaches]
    exact takeWindowArrival_alone (s := s.onCapture fun c => { c with arrivals := rest }) hothers
      (by rw [hreaches]; exact hother)
  refine ⟨by rw [exec_windowArrival hrun harrivals, halone], ?_, fun d hd => ?_, ?_⟩
  · rw [settle_capture, missTaken, raise_capture, onChannel_same, hv, closedAt, onChannel_same]
    rfl
  · rw [settle_capture]
    exact hother d hd
  · rw [settle_capture, missTaken, raise_capture, onChannel, State.onCapture_capture, hv]
    rfl

theorem claimMiss_empty {ch : Fin 4} {nominal arrival : Key} {s : State} (h : s.cues.queues[ch] = []) :
    claimMiss ch nominal arrival s = (s, .empty, none) := by
  unfold claimMiss
  rw [h]

theorem claimMiss_drop {ch : Fin 4} {nominal arrival : Key} {g : Group} {gs : List Group} {s : State}
    (h : s.cues.queues[ch] = g :: gs) (hpolicy : g.policy = .drop) :
    claimMiss ch nominal arrival s = (withMarks (popGroup ch) s, .dropped, some g.number) := by
  unfold claimMiss
  rw [h]
  dsimp only
  rw [hpolicy]

theorem claimMiss_nominal {ch : Fin 4} {nominal arrival : Key} {g : Group} {gs : List Group} {s : State}
    (h : s.cues.queues[ch] = g :: gs) (hpolicy : g.policy = .nominal) :
    claimMiss ch nominal arrival s = (groupTaken ch g nominal (fun _ => arrival) s, .nominal, some g.number) := by
  unfold claimMiss
  rw [h]
  dsimp only
  rw [hpolicy]
  rfl

theorem groupTaken_kept (ch : Fin 4) (g : Group) (point : Key) (lead : State → Key) (s : State) :
    KeptBut schedule s (groupTaken ch g point lead s) := resolved_kept ch g point lead s

/-- A dropped group crosses no mark. -/
theorem popGroup_raised (ch : Fin 4) (s : State) : Raised [] s (withMarks (popGroup ch) s) := by
  have hraised := withMarks_onCues_raised (fun c => { c with queues := updAt c.queues ch List.tail }) s
  obtain ⟨others, hold, hnew⟩ := waitingCount_updAt s.cues ch
  have hfewer := (List.Sublist.flatMap (List.tail_sublist s.cues.queues[ch]) (·.cues)).length_le
  have hnone : marksRaised s.cues { s.cues with queues := updAt s.cues.queues ch List.tail } = [] :=
    marksRaised_of_fewer rfl (by rw [occupiedCount, occupiedCount, hold, hnew]; exact Nat.add_le_add_right (by omega) _)
  rw [hnone] at hraised
  exact hraised

/-- Settles O27. -/
theorem windowArrivalMovesEpisodesAndMisses : Obligations.WindowArrivalMovesEpisodesAndMisses := by
  refine ⟨fun k rest s hrun harrivals hquiet => ?_,
    fun k rest ch start stop nominal c s hrun harrivals henabled hgate hepisode hpos hothers =>
      ⟨fun hnone => ?_, fun g gs hsafe hqueue hpolicy => ?_, fun g gs hsafe hqueue hpolicy => ?_⟩⟩
  · obtain ⟨channels, he, hchannels⟩ := foldl_windowAtArrival k (List.finRange 4) (List.nodup_finRange 4)
      (s.onCapture fun c => { c with arrivals := rest }) fun ch _ start stop nominal cyc => hquiet ch start stop nominal cyc
    have htaken : takeWindowArrival (s.onCapture fun c => { c with arrivals := rest }) k =
        s.onCapture fun _ => ⟨channels, rest⟩ := he
    refine ⟨_, exec_windowArrival hrun harrivals, ?_, ?_, fun ch => ?_⟩
    · rw [settle_capture, htaken]
      rfl
    · rw [htaken]
      exact settled_kept (onCapture_kept _ _)
    · rw [settle_capture, htaken]
      exact (hchannels ch).trans (if_pos (List.mem_finRange ch))
  · have hmiss : takeMiss ch c nominal k (closedAt ch rest s) = missTaken ch c
        (if s.seq.state = .safe then .suspended else .empty) none (closedAt ch rest s) := by
      rw [takeMiss_eq]
      by_cases hsafe : s.seq.state = .safe
      · rw [if_pos hsafe]
        exact if_pos hsafe
      · rw [if_neg hsafe, claimMiss_empty (s := closedAt ch rest s) (hnone.resolve_left hsafe)]
        exact if_neg hsafe
    obtain ⟨hexec, hsame, hother, harr⟩ := exec_miss hrun harrivals henabled hgate hepisode hpos hothers hmiss rfl
    refine ⟨_, hexec, hsame, hother, harr, ?_, settled_kept ?_⟩
    · exact (missTaken_raised ch c _ none (closedAt ch rest s)).trans_none (settle_events _)
    · exact KeptBut.then_mono (closedAt_kept ch rest s) (missTaken_kept ch c _ none _) (by simp) (by simp)
  · have hmiss : takeMiss ch c nominal k (closedAt ch rest s) = missTaken ch c .dropped (some g.number)
        (withMarks (popGroup ch) (closedAt ch rest s)) := by
      rw [takeMiss_eq, claimMiss_drop (s := closedAt ch rest s) hqueue hpolicy]
      exact if_neg hsafe
    obtain ⟨hexec, hsame, hother, harr⟩ := exec_miss hrun harrivals henabled hgate hepisode hpos hothers hmiss
      (withMarks_capture _ _)
    have hpop : KeptBut [.cues, .events] (closedAt ch rest s) (withMarks (popGroup ch) (closedAt ch rest s)) :=
      withMarks_onCues_kept _ _
    have hkept : KeptBut [.cues, .capture, .events] s
        (missTaken ch c .dropped (some g.number) (withMarks (popGroup ch) (closedAt ch rest s))) :=
      KeptBut.then_mono (KeptBut.then_mono (closedAt_kept ch rest s) hpop (rs := [.cues, .capture, .events]) (by simp) (by simp))
        (missTaken_kept ch c _ _ _) (by simp) (by simp)
    have hcues : (settle (missTaken ch c .dropped (some g.number) (withMarks (popGroup ch) (closedAt ch rest s)))).cues =
        { s.cues with queues := updAt s.cues.queues ch List.tail } := by
      rw [settle_cues, missTaken_kept ch c .dropped (some g.number) _ .cues (by simp), withMarks_cues]
      rfl
    refine ⟨_, hexec, hsame, hother, harr, ?_, fun d hd => ?_, ?_, settled_kept hkept .seq (by simp), ?_, settled_kept hkept⟩
    · rw [hcues]
      exact (updAt_same _ _ _).trans (by rw [hqueue]; rfl)
    · rw [hcues]
      exact updAt_other _ _ (Ne.symm hd)
    · rw [hcues]
    · exact (raised_append (popGroup_raised ch (closedAt ch rest s))
        (missTaken_raised ch c .dropped (some g.number) _)).trans_none (settle_events _)
  · have hmiss : takeMiss ch c nominal k (closedAt ch rest s) = missTaken ch c .nominal (some g.number)
        (groupTaken ch g ⟨c, nominal⟩ (fun _ => k) (closedAt ch rest s)) := by
      rw [takeMiss_eq, claimMiss_nominal (s := closedAt ch rest s) hqueue hpolicy]
      exact if_neg hsafe
    have hgroup := groupTaken_kept ch g ⟨c, nominal⟩ (fun _ => k) (closedAt ch rest s)
    obtain ⟨hexec, hsame, hother, harr⟩ := exec_miss hrun harrivals henabled hgate hepisode hpos hothers hmiss
      (hgroup .capture (by simp))
    have htail := missTaken_kept ch c .nominal (some g.number) (groupTaken ch g ⟨c, nominal⟩ (fun _ => k) (closedAt ch rest s))
    refine ⟨_, hexec, hsame, hother, harr, ?_, settled_kept ?_⟩
    · exact groupResolved_of_taken (s := closedAt ch rest s) (settled_kept htail)
        ((missTaken_raised ch c .nominal (some g.number) _).trans_none (settle_events _))
    · exact KeptBut.then_mono (KeptBut.then_mono (closedAt_kept ch rest s) hgroup
        (rs := [.cues, .seq, .lines, .capture, .events]) (by simp) (by simp)) htail (by simp) (by simp)

end Sys2Proof.Machine
end

section
/-! An edge at a CAPTURE input: discarded, a stray, or a capture that resolves the oldest group (R79 to R82, R87 to R89). -/

namespace Sys2Proof.Machine

/-! ## The inputs at an accepted edge (R123, R124) -/

theorem acceptLevel_in (n m : Fin 8) (s : State) : (acceptLevel n s).ins[m] =
    if n = m then { s.ins[n] with accepted := !s.ins[n].accepted, pendingSince := none } else s.ins[m] := updAt_get _ _ _ _

/-- A due edge at an input that the axis does not hold (R123, R124). -/
theorem exec_edge_of_not_axis {s : State} {n : Fin 8} (hrun : s.phase = .running) (hdue : inputDue s n = true)
    (haxis : axisHolds s.ins[n] = false) : exec (.inputEdgeAccepted n) s = .next (settle (acceptInput n s)) := by
  have hexec : exec (.inputEdgeAccepted n) s = execInputEdgeAccepted n s := rfl
  rw [hexec, execInputEdgeAccepted, if_pos ⟨hrun, hdue⟩, leaveOpen, haxis]
  rfl

/-! ## Captures and strays (R80 to R82) -/

/-- One channel alone has changed in the Capture Unit. -/
def OnlyChannel (ch : Fin 4) (s t : State) : Prop :=
  (∀ d : Fin 4, d ≠ ch → t.capture.channels[d] = s.capture.channels[d]) ∧ t.capture.arrivals = s.capture.arrivals

theorem OnlyChannel.of_eq {ch : Fin 4} {s t : State} (h : t.capture = s.capture) : OnlyChannel ch s t :=
  ⟨fun d _ => by rw [h], by rw [h]⟩

theorem OnlyChannel.trans {ch : Fin 4} {s t u : State} (h : OnlyChannel ch s t) (h' : OnlyChannel ch t u) : OnlyChannel ch s u :=
  ⟨fun d hd => (h'.1 d hd).trans (h.1 d hd), h'.2.trans h.2⟩

theorem onChannel_only (ch : Fin 4) (f : Channel → Channel) (s : State) : OnlyChannel ch s (onChannel ch f s) :=
  ⟨fun _ hd => onChannel_other f s hd, rfl⟩

/-- A capture's record has become the latest capture and gone to the log (R81, R82). -/
def captureTaken (ch : Fin 4) (r : CaptureRecord) (s : State) : State :=
  raise (.captured ch) (logCapture r (onChannel ch (fun c => { c with latest := some r }) s))

theorem logCapture_only (r : CaptureRecord) (s : State) : OnlyChannel r.channel s (logCapture r s) := by
  unfold logCapture
  split
  · exact onChannel_only _ _ _
  · exact .of_eq rfl

theorem captureTaken_only {ch : Fin 4} {r : CaptureRecord} (hr : r.channel = ch) (s : State) :
    OnlyChannel ch s (captureTaken ch r s) := by
  subst hr
  exact ((onChannel_only _ _ _).trans (logCapture_only r _)).trans (.of_eq rfl)

theorem captureTaken_channel {ch : Fin 4} {r : CaptureRecord} (hr : r.channel = ch) (s : State) :
    (captureTaken ch r s).capture.channels[ch] = { s.capture.channels[ch] with
      latest := some r
      log := if s.capture.channels[ch].log.length < 8 then s.capture.channels[ch].log ++ [r]
        else s.capture.channels[ch].log } := by
  subst hr
  have hlatest : (onChannel r.channel (fun c => { c with latest := some r }) s).capture.channels[r.channel] =
      { s.capture.channels[r.channel] with latest := some r } := onChannel_same _ _ _
  rw [captureTaken, raise_capture, logCapture, hlatest]
  split
  · rw [onChannel_same, hlatest]
  · exact hlatest

theorem captureTaken_kept (ch : Fin 4) (r : CaptureRecord) (s : State) : KeptBut [.capture, .events] s (captureTaken ch r s) :=
  KeptBut.then_mono (KeptBut.then_mono (onChannel_kept _ _ _) (logCapture_kept _ _) (rs := [.capture, .events]) (by simp) (by simp))
    (raise_kept _ _) (by simp) (by simp)

theorem captureTaken_raised {ch : Fin 4} {r : CaptureRecord} (hr : r.channel = ch) (s : State) :
    Raised (if s.capture.channels[ch].log.length < 8 then [.captured ch] else [.capLogFull, .captured ch]) s
      (captureTaken ch r s) := by
  subst hr
  have hlatest : (onChannel r.channel (fun c => { c with latest := some r }) s).capture.channels[r.channel] =
      { s.capture.channels[r.channel] with latest := some r } := onChannel_same _ _ _
  have hfirst : Raised [] s (onChannel r.channel (fun c => { c with latest := some r }) s) := raised_of_events rfl
  rw [captureTaken, logCapture, hlatest]
  split
  · exact raised_append (hfirst.trans_none (raised_of_events rfl)) (raise_raised _ _)
  · exact raised_append (raised_append hfirst (raise_raised .capLogFull _)) (raise_raised _ _)

/-- A capture that claims no group: in SAFE, or on an empty queue (R81). -/
theorem takeCapture_unclaimed {ch : Fin 4} {e : Edge} {s : State} (h : s.seq.state = .safe ∨ s.cues.queues[ch] = []) :
    takeCapture ch e s = captureTaken ch ⟨ch, s.axis.current, e, s.stamp, none⟩ s := by
  have hclaim : (if s.seq.state = .safe then (s, none) else claimCapture ch s.axis.current s) = (s, none) := by
    split
    · rfl
    · rename_i hsafe
      unfold claimCapture
      rw [h.resolve_left hsafe]
  unfold takeCapture
  dsimp only
  rw [hclaim]
  rfl

/-- A capture that resolves the oldest group at the current point (R81, R89). -/
theorem takeCapture_claimed {ch : Fin 4} {e : Edge} {g : Group} {gs : List Group} {s : State} (hsafe : s.seq.state ≠ .safe)
    (hqueue : s.cues.queues[ch] = g :: gs) : takeCapture ch e s =
      captureTaken ch ⟨ch, s.axis.current, e, s.stamp, some g.number⟩
        (groupTaken ch g s.axis.current (fun s => s.cues.lead) s) := by
  have hclaim : (if s.seq.state = .safe then (s, none) else claimCapture ch s.axis.current s) =
      (groupTaken ch g s.axis.current (fun s => s.cues.lead) s, some g.number) := by
    rw [if_neg hsafe]
    unfold claimCapture
    rw [hqueue]
    rfl
  have hstamp : (groupTaken ch g s.axis.current (fun s => s.cues.lead) s).stamp = s.stamp :=
    (groupTaken_kept ch g s.axis.current (fun s => s.cues.lead) s .clock (by simp)).2.2.1
  unfold takeCapture
  dsimp only
  rw [hclaim, hstamp]
  rfl

theorem takeCapture_only (ch : Fin 4) (e : Edge) (s : State) : OnlyChannel ch s (takeCapture ch e s) := by
  by_cases hsafe : s.seq.state = .safe
  · rw [takeCapture_unclaimed (.inl hsafe)]
    exact captureTaken_only (by rfl) s
  · cases hqueue : s.cues.queues[ch] with
    | nil =>
      rw [takeCapture_unclaimed (.inr hqueue)]
      exact captureTaken_only (by rfl) s
    | cons g gs =>
      rw [takeCapture_claimed hsafe hqueue]
      exact OnlyChannel.trans (.of_eq (groupTaken_kept ch g _ _ s .capture (by simp))) (captureTaken_only (by rfl) _)

theorem takeStray_only (ch : Fin 4) (s : State) : OnlyChannel ch s (takeStray ch s) :=
  (onChannel_only ch _ s).trans (.of_eq rfl)

/-! ## The edge at its channel (R79) -/

/-- A channel whose OPEN episode a capture has taken (R76). -/
def episodeTaken (c : Channel) : Channel :=
  { c with
    episode := match c.cfg.gate, c.episode with
      | .window _ _ _, .opened cyc => .taken cyc
      | _, x => x }

theorem captureEdge_discarded {ch : Fin 4} {e : Edge} {s : State}
    (h : s.capture.channels[ch].cfg.enabled = false ∨ edgeSelected s.capture.channels[ch].cfg.edge e = false) :
    captureEdge ch e s = s := by
  have hno : (s.capture.channels[ch].cfg.enabled && edgeSelected s.capture.channels[ch].cfg.edge e) = false := by
    rcases h with h | h
    · rw [h, Bool.false_and]
    · rw [h, Bool.and_false]
  unfold captureEdge
  dsimp only
  rw [hno]
  rfl

theorem captureEdge_stray {ch : Fin 4} {e : Edge} {s : State} (henabled : s.capture.channels[ch].cfg.enabled = true)
    (hedge : edgeSelected s.capture.channels[ch].cfg.edge e = true) (hgate : s.capture.channels[ch].cfg.gate ≠ .always)
    (hepisode : ∀ cyc, s.capture.channels[ch].episode ≠ .opened cyc) : captureEdge ch e s = takeStray ch s := by
  unfold captureEdge
  dsimp only
  rw [henabled, hedge]
  rw [if_pos (by rfl)]
  split
  · rename_i h
    exact absurd h hgate
  · split
    · rename_i cyc h
      exact absurd h (hepisode cyc)
    · rfl
    · rfl

theorem captureEdge_capture {ch : Fin 4} {e : Edge} {s : State} (henabled : s.capture.channels[ch].cfg.enabled = true)
    (hedge : edgeSelected s.capture.channels[ch].cfg.edge e = true)
    (hopen : s.capture.channels[ch].cfg.gate = .always ∨ ∃ cyc, s.capture.channels[ch].episode = .opened cyc) :
    captureEdge ch e s = takeCapture ch e (onChannel ch episodeTaken s) := by
  unfold captureEdge
  dsimp only
  rw [henabled, hedge]
  rw [if_pos (by rfl)]
  split
  · rename_i hgate
    rw [onChannel_id (f := episodeTaken)]
    simp only [episodeTaken, hgate]
  · rename_i hgate
    obtain ⟨cyc, hepisode⟩ := hopen.resolve_left (by rw [hgate]; exact nofun)
    rw [hepisode]
    dsimp only
    congr 1
    exact onChannel_congr (by simp only [episodeTaken, hgate, hepisode])

theorem captureEdge_only (ch : Fin 4) (e : Edge) (s : State) : OnlyChannel ch s (captureEdge ch e s) := by
  unfold captureEdge
  dsimp only
  split
  · split
    · exact takeCapture_only ch e s
    · split
      · exact (onChannel_only _ _ _).trans (takeCapture_only _ _ _)
      · exact takeStray_only ch s
      · exact takeStray_only ch s
  · exact .of_eq rfl

/-- The part as a capture finds it: the edge accepted, and an OPEN episode taken. -/
def edgeTaken (n : Fin 8) (ch : Fin 4) (s : State) : State := onChannel ch episodeTaken (acceptLevel n s)

/-- Settles O28. -/
theorem edgeAtChannelIsDiscardedStrayOrCapture : Obligations.EdgeAtChannelIsDiscardedStrayOrCapture := by
  intro n ch e c s hrun hdue hfn he hc
  have haccept : acceptInput n s = captureEdge ch e (acceptLevel n s) := by
    unfold acceptInput
    dsimp only
    rw [hfn, he]
    cases s.ins[n].accepted <;> rfl
  have hexec := exec_edge_of_not_axis hrun hdue (by rw [axisHolds, hfn]; rfl)
  rw [haccept] at hexec
  have honly := captureEdge_only ch e (acceptLevel n s)
  have hlevel : KeptBut [.inputs] s (acceptLevel n s) := acceptLevel_kept n s
  have hins : (captureEdge ch e (acceptLevel n s)).ins = (acceptLevel n s).ins :=
    captureEdge_kept ch e (acceptLevel n s) .inputs (by simp)
  refine ⟨_, hexec, ?_, fun m hm => ?_, fun d hd => ?_, ?_, fun hno => ?_, fun henabled hedge hgate hepisode => ?_,
    fun henabled hedge hopen => ⟨_, rfl, ?_⟩⟩
  · rw [settle_ins, hins, acceptLevel_in, if_pos rfl]
  · rw [settle_ins, hins, acceptLevel_in, if_neg (Ne.symm hm)]
  · rw [settle_capture]
    exact honly.1 d hd
  · rw [settle_capture]
    exact honly.2
  · rw [captureEdge_discarded (s := acceptLevel n s) (by subst hc; exact hno)]
    exact settled_kept hlevel
  · rw [captureEdge_stray (s := acceptLevel n s) (by subst hc; exact henabled) (by subst hc; exact hedge) (by subst hc; exact hgate)
      (by subst hc; exact hepisode)]
    refine ⟨?_, ?_, settled_kept (KeptBut.then_mono hlevel (takeStray_kept _ _) (by simp) (by simp))⟩
    · rw [settle_capture, takeStray, raise_capture, onChannel_same, hc]
      rfl
    · exact (raised_append (raised_of_events (s := s) rfl) (raise_raised .stray _)).trans_none (settle_events _)
  · have hcapture : captureEdge ch e (acceptLevel n s) = takeCapture ch e (edgeTaken n ch s) :=
      captureEdge_capture (by subst hc; exact henabled) (by subst hc; exact hedge) (by subst hc; exact hopen)
    have hv : KeptBut [.inputs, .capture] s (edgeTaken n ch s) :=
      KeptBut.then_mono hlevel (onChannel_kept _ _ _) (by simp) (by simp)
    have hchannel : (edgeTaken n ch s).capture.channels[ch] = episodeTaken c :=
      (onChannel_same _ _ _).trans (by rw [hc]; rfl)
    rw [hcapture]
    by_cases hclaim : s.seq.state = .safe ∨ s.cues.queues[ch] = []
    · have hgroup : (if s.seq.state = .safe then none else s.cues.queues[ch].head?.map (·.number)) = none := by
        split
        · rfl
        · rename_i hsafe
          rw [hclaim.resolve_left hsafe]
          rfl
      have htake : takeCapture ch e (edgeTaken n ch s) = captureTaken ch ⟨ch, s.axis.current, e, s.stamp, none⟩ (edgeTaken n ch s) :=
        takeCapture_unclaimed hclaim
      have hkept := captureTaken_kept ch ⟨ch, s.axis.current, e, s.stamp, none⟩ (edgeTaken n ch s)
      have hraised := captureTaken_raised (r := ⟨ch, s.axis.current, e, s.stamp, none⟩) (ch := ch) rfl (edgeTaken n ch s)
      rw [hchannel] at hraised
      rw [htake, hgroup, settle_capture, settle_cues, captureTaken_channel (by rfl), hchannel, hkept .cues (by simp)]
      refine ⟨rfl, ?_, fun _ => ⟨?_, settled_kept ?_⟩, fun g gs hsafe hqueue => ?_⟩
      · split
        · rfl
        · rename_i hsafe
          exact (hclaim.resolve_left hsafe).trans (by rw [hclaim.resolve_left hsafe]; rfl)
      · exact (raised_append (xs := []) (s := s) (hv .events (by simp)) hraised).trans_none (settle_events _)
      · exact KeptBut.then_mono hv hkept (by simp) (by simp)
      · rw [hclaim.resolve_left hsafe] at hqueue
        cases hqueue
    · obtain ⟨hsafe, hqueue⟩ := not_or.1 hclaim
      obtain ⟨g, gs, hqueue⟩ := List.exists_cons_of_ne_nil hqueue
      have hgroup : (if s.seq.state = .safe then none else s.cues.queues[ch].head?.map (·.number)) = some g.number := by
        rw [if_neg hsafe, hqueue]
        rfl
      have htake : takeCapture ch e (edgeTaken n ch s) = captureTaken ch ⟨ch, s.axis.current, e, s.stamp, some g.number⟩
          (groupTaken ch g s.axis.current (fun s => s.cues.lead) (edgeTaken n ch s)) := takeCapture_claimed hsafe hqueue
      have hgroupKept := groupTaken_kept ch g s.axis.current (fun s => s.cues.lead) (edgeTaken n ch s)
      have hgroupCues := groupTaken_cues ch g s.axis.current (fun s => s.cues.lead) (edgeTaken n ch s)
      have hcaptureSame : (groupTaken ch g s.axis.current (fun s => s.cues.lead) (edgeTaken n ch s)).capture =
          (edgeTaken n ch s).capture := hgroupKept .capture (by simp)
      generalize hw : groupTaken ch g s.axis.current (fun s => s.cues.lead) (edgeTaken n ch s) = w at *
      have hkept := captureTaken_kept ch ⟨ch, s.axis.current, e, s.stamp, some g.number⟩ w
      have hraised := captureTaken_raised (r := ⟨ch, s.axis.current, e, s.stamp, some g.number⟩) (ch := ch) rfl w
      rw [hcaptureSame, hchannel] at hraised
      rw [htake, hgroup, settle_capture, settle_cues, captureTaken_channel (by rfl), hcaptureSame, hchannel, hkept .cues (by simp)]
      refine ⟨rfl, ?_, fun h => absurd h hclaim, fun g' gs' _ hqueue' => ?_⟩
      · rw [hgroupCues, if_neg hsafe]
        exact updAt_same _ _ _
      · have hg : g' = g := by
          rw [hqueue] at hqueue'
          exact (List.cons.inj hqueue').1.symm
        subst hg
        refine ⟨?_, settled_kept ?_⟩
        · subst hw
          exact groupResolved_of_taken (s := edgeTaken n ch s) (settled_kept hkept) (hraised.trans_none (settle_events _))
        · exact KeptBut.then_mono (KeptBut.then_mono hv hgroupKept (rs := [.inputs, .capture, .cues, .seq, .lines, .events])
            (by simp) (by simp)) hkept (by simp) (by simp)

end Sys2Proof.Machine
end

section
/-! The Cam Unit: CAM_LOAD (R102 to R105) and PROFILE_SWAP (R106). -/

namespace Sys2Proof.Machine

/-! ## CAM_LOAD (R102 to R105) -/

theorem windowsOf_length (n : Nat) (body : List Byte) (h : body.length = 8 * n) : (windowsOf body).length = n := by
  induction n generalizing body with
  | zero => rw [List.length_eq_zero_iff.1 h]; rfl
  | succ n ih =>
    obtain _ | ⟨b1, _ | ⟨b2, _ | ⟨b3, _ | ⟨b4, _ | ⟨b5, _ | ⟨b6, _ | ⟨b7, _ | ⟨b8, rest⟩⟩⟩⟩⟩⟩⟩⟩ := body
    case cons.cons.cons.cons.cons.cons.cons.cons =>
      have hrest : rest.length = 8 * n := by
        simp only [List.length_cons] at h
        omega
      simp only [windowsOf, List.length_cons, ih rest hrest]
    all_goals
      simp only [List.length_nil, List.length_cons] at h
      omega

theorem profileOf_length {kind : Byte} {ws : List Window} {p : Profile} (h : profileOf kind ws = some p) : ws.length ≤ 4 := by
  unfold profileOf at h
  split at h
  · split at h
    · rename_i hws
      rw [hws]
      decide
    · cases h
  · split at h
    · rename_i hws
      rw [hws]
      decide
    · cases h
  · split at h
    · rename_i hws
      exact hws.2
    · cases h
  · cases h

theorem profileFits_of {a : Axis} {p : Profile} (hne : ∀ ws, p = .windows ws → ∀ w ∈ ws, w.on ≠ w.off)
    (hbelow : ∀ b ∈ profileBounds p, b < a.cfg.modulus ∧ ∀ m, a.staged = some m → b < m) : profileFits a p = true := by
  have hall : (profileBounds p).all (belowModuli a) = true :=
    List.all_eq_true.2 fun b hb => (belowModuli_iff _ _).2 (hbelow b hb)
  unfold profileFits
  rw [hall, Bool.true_and]
  cases p with
  | empty => rfl
  | full => rfl
  | windows ws => exact List.all_eq_true.2 fun w hw => decide_eq_true (hne ws rfl w hw)

theorem camLoadRule_passes {track options t1 t0 kind c : Byte} {rest : List Byte} {n : Fin 8} {p : Profile} {s : State}
    (hlength : rest.length = 8 * c.toNat) (hoptions : options.toNat < 2) (hidle : options.getLsbD 0 = true → s.seq.state = .idle)
    (htrack : track.toNat = n.val) (hprofile : profileOf kind (windowsOf rest) = some p) (hlead : num16 t1 t0 ≤ 10000)
    (hfits : profileFits s.axis p = true) : camLoadRule (track :: options :: t1 :: t0 :: kind :: c :: rest) s =
      loadCam n (options.getLsbD 0) p (num16 t1 t0) s := by
  have hwindows := windowsOf_length c.toNat rest hlength
  have hfour := profileOf_length hprofile
  have hsize : ¬ (rest.length ≠ 8 * c.toNat ∨ Config.maxBody < (track :: options :: t1 :: t0 :: kind :: c :: rest).length) := by
    simp only [List.length_cons, Config.maxBody]
    omega
  have hstate : ¬ (options.getLsbD 0 = true ∧ s.seq.state ≠ .idle) := fun ⟨h, h'⟩ => h' (hidle h)
  have hrange : ¬ (10000 < num16 t1 t0 ∨ 2 ≤ options.toNat ∨ profileFits s.axis p = false) := by
    rw [hfits]
    simp only [Bool.true_eq_false, or_false]
    omega
  unfold camLoadRule
  dsimp only
  rw [if_neg hsize, if_neg hstate, finOf_of_eq htrack, hprofile]
  exact if_neg hrange

/-- A load over the inactive slot (R103 to R105). -/
theorem loadTrack_eq (immediate : Bool) (p : Profile) (lead : Nat) (x : Track) : loadTrack immediate p lead x = { x with
    slotA := if x.active = .a then x.slotA else p, slotB := if x.active = .a then p else x.slotB
    active := if immediate then if x.active = .a then .b else .a else x.active
    staged := !immediate, leadTime := lead } := by
  unfold loadTrack writeInactive otherSlot
  cases immediate <;> cases x.active <;> rfl

/-- A load that is taken: its reply, its track, and nothing else. -/
theorem request_camLoad {s : State} {rule : State → State × Reply} {n : Fin 8} {immediate : Bool} {p : Profile} {lead : Nat}
    {x y : Track} (tag : Byte) (body : List Byte) (hready : Ready s)
    (hrule : rule (heard s) = loadCam n immediate p lead (heard s)) (hx : x = s.cams.tracks[n])
    (hy : y = recomputeTrack s.axis (loadTrack immediate p lead x)) :
    (serve ⟨tag, 0x38#8, body⟩ rule s).cams.tracks[n] = y ∧
      Answered tag 0x38#8 .ok x.staged [byteOf n.val, profileSlotByte y.active, flagByte y.staged, flagByte y.level] s
        (serve ⟨tag, 0x38#8, body⟩ rule s) ∧
      (∀ m : Fin 8, m ≠ n → (serve ⟨tag, 0x38#8, body⟩ rule s).cams.tracks[m] = s.cams.tracks[m]) ∧
      (serve ⟨tag, 0x38#8, body⟩ rule s).cams.boundaries = s.cams.boundaries ∧
      Raised [] s (serve ⟨tag, 0x38#8, body⟩ rule s) ∧ KeptBut [.cams] s (serve ⟨tag, 0x38#8, body⟩ rule s) := by
  have hloaded : (updAt s.cams.tracks n fun t => recomputeTrack s.axis (loadTrack immediate p lead t))[n] = y := by
    rw [updAt_same, ← hx, hy]
  obtain ⟨hanswer, hsame, hkept⟩ := request_writes tag 0x38#8 body hready (by decide) hrule (onCams_kept _ _) (by simp)
  have hcams := cams_of_kept hsame
  refine ⟨?_, ?_, fun m hm => ?_, ?_, hkept .events (by simp), hkept⟩
  · rw [hcams]
    exact hloaded
  · rw [hx, ← hloaded]
    exact hanswer
  · rw [hcams]
    exact updAt_other _ _ (Ne.symm hm)
  · rw [hcams]
    rfl

/-- Settles O30. -/
theorem camLoadStagesOrLoadsAtOnce : Obligations.CamLoadStagesOrLoadsAtOnce := by
  intro tag track options t1 t0 kind c rest n p x s hready hlength htrack hprofile hlead hne hbelow hx
  have hbyte : byteOf n.val = track := by rw [← htrack, byteOf_toNat]
  have hfits : profileFits s.axis p = true := profileFits_of hne hbelow
  refine ⟨fun hoptions => ?_, fun hoptions hidle => ?_⟩
  · subst hoptions
    have hrule := camLoadRule_passes (s := heard s) hlength (options := 0#8) (by decide) (fun h => nomatch h) htrack hprofile hlead
      hfits
    obtain ⟨htrack', hanswer, hrest⟩ := request_camLoad tag _ hready hrule hx rfl
    rw [loadTrack_eq, hbyte] at *
    exact ⟨_, _, rfl, rfl, htrack', hanswer, hrest⟩
  · subst hoptions
    have hrule := camLoadRule_passes (s := heard s) hlength (options := 1#8) (by decide) (fun _ => hidle) htrack hprofile hlead
      hfits
    obtain ⟨htrack', hanswer, hrest⟩ := request_camLoad tag _ hready hrule hx rfl
    rw [loadTrack_eq, hbyte] at *
    exact ⟨_, _, rfl, rfl, htrack', hanswer, hrest⟩

/-! ## PROFILE_SWAP (R106) -/

theorem exec_profileSwap {s : State} {b : Nat} (hrun : s.phase = .running) (hwaits : s.cams.boundaries = b + 1) :
    exec .profileSwap s = .next (settle (takeBoundary (s.onCams fun c => { c with boundaries := b }))) := by
  have hexec : exec .profileSwap s = event true (fun s => takeBoundary (s.onCams fun c => { c with boundaries := b })) s := by
    show execProfileSwap s = _
    unfold execProfileSwap
    rw [hwaits]
  rw [hexec, event_running (effect := fun s => takeBoundary (s.onCams fun c => { c with boundaries := b })) hrun rfl]

/-- A boundary that is taken: every staged track swaps, each raising CAM_SWAPPED (R106). -/
theorem takeBoundary_spec (s : State) :
    (takeBoundary s).cams = { s.cams with
      tracks := s.cams.tracks.map fun t => recomputeTrack (atCycleStart s.axis) (swapTrack t) } ∧
      Raised (List.replicate (s.cams.tracks.toList.countP (·.staged)) .camSwapped) s (takeBoundary s) := by
  obtain ⟨⟨ev, he⟩, hraised⟩ := raise_repeated .camSwapped (s.cams.tracks.toList.countP (·.staged)) s
  refine ⟨?_, hraised⟩
  unfold takeBoundary
  rw [State.onCams_cams, he]

/-- Settles O31. -/
theorem profileSwapSwapsStagedTracks : Obligations.ProfileSwapSwapsStagedTracks := by
  intro b s hrun hwaits
  obtain ⟨hcams, hraised⟩ := takeBoundary_spec (s.onCams fun c => { c with boundaries := b })
  refine ⟨_, exec_profileSwap hrun hwaits, ?_, fun n => ?_, hraised.trans_none (settle_events _), settled_kept ?_⟩
  · rw [settle_cams, hcams]
    rfl
  · rw [settle_cams, hcams, map_get, swapTrack_spec]
    rfl
  · exact KeptBut.then_mono (onCams_kept s _) (takeBoundary_kept _) (by simp) (by simp)

end Sys2Proof.Machine
end

section
/-! The Line Unit: LINE_SETUP (R117, R121), LINES_SET (R119), the pin drives and the mismatch monitor (R111, R121, R122), and the
ends of trails (R115). -/

namespace Sys2Proof.Machine

/-! ## What drives and entries read -/

theorem drive_congr {s t : State} (hseq : t.seq.state = s.seq.state) (hcams : t.cams.tracks = s.cams.tracks) (l : OutLine) :
    drive t l = drive s l := by
  have howner : ownerLevel t l = ownerLevel s l := by
    unfold ownerLevel trackOutput
    rw [hseq, hcams]
  unfold drive
  rw [hseq, howner]

theorem inMismatch_congr {s t : State} (hseq : t.seq.state = s.seq.state) (hcams : t.cams.tracks = s.cams.tracks) (l : OutLine) :
    inMismatch t l = inMismatch s l := by
  unfold inMismatch
  rw [drive_congr hseq hcams]

theorem outputEntry_congr {s t : State} (hseq : t.seq.state = s.seq.state) (hcams : t.cams.tracks = s.cams.tracks) (l : OutLine) :
    outputEntry t l = outputEntry s l := by
  unfold outputEntry
  rw [drive_congr hseq hcams]

/-- A line judged once is judged. -/
theorem judgedMismatch_judged (s : State) (l : OutLine) :
    judgedMismatch s { l with mismatch := judgedMismatch s l } = judgedMismatch s l := by
  have hsame : inMismatch s { l with mismatch := judgedMismatch s l } = inMismatch s l := rfl
  unfold judgedMismatch at hsame ⊢
  rw [hsame]
  cases inMismatch s l
  · rfl
  · cases l.mismatch <;> rfl

theorem judgedMismatch_restarted (s : State) (l : OutLine) : judgedMismatch s { l with mismatch := .agree } =
    if inMismatch s l then .pending s.stamp else .agree := rfl

/-- The lines when a request ends: what the rule left, judged (R121). -/
theorem served_lines {s u : State} {rule : State → State × Reply} {r : Reply} (f : Frame) (hready : Ready s)
    (hrule : rule (heard s) = (u, r)) (hrun : u.phase = .running) (m : Fin 16) : (serve f rule s).outs.lines[m] =
      { u.outs.lines[m] with mismatch := judgedMismatch u u.outs.lines[m] } := by
  rw [serve_ready f rule hready, answer, hrule]
  exact settle_mismatch (s := u.onLink _) hrun m

/-- The reports that a rule hands over wait when the request ends. -/
theorem mem_served_inbox {s u : State} {rule : State → State × Reply} {r : Reply} {x : Report} (f : Frame) (hready : Ready s)
    (hrule : rule (heard s) = (u, r)) (hx : x ∈ u.faults.inbox) : x ∈ (serve f rule s).faults.inbox := by
  rw [serve_ready f rule hready, answer, hrule]
  exact mem_settle_inbox (s := u.onLink _) hx

/-! ## LINE_SETUP (R117, R121) -/

/-- The state LINE_SETUP leaves. -/
def lineSet (n : Fin 16) (cfg : LineSettings) (s : State) : State := (setupLineAt n cfg s).1

/-- The part with a line's new settings and the report of its PRESENT mismatch, before the monitor judges. -/
def lineRestarted (n : Fin 16) (cfg : LineSettings) (s : State) : State :=
  if s.outs.lines[n].mismatch = .present then
    report (plainReport (.lineMismatch n) false) (s.onOuts fun o => { o with lines := updAt o.lines n (setupLine cfg) })
  else s.onOuts fun o => { o with lines := updAt o.lines n (setupLine cfg) }

theorem setupLineAt_eq (n : Fin 16) (cfg : LineSettings) (s : State) : setupLineAt n cfg s =
    (judgeLines (lineRestarted n cfg s),
      okay (outputEntry (judgeLines (lineRestarted n cfg s)) (judgeLines (lineRestarted n cfg s)).outs.lines[n])) := rfl

theorem lineRestarted_kept (n : Fin 16) (cfg : LineSettings) (s : State) : KeptBut [.lines] s (lineRestarted n cfg s) := by
  have hline := onOuts_kept s fun o => { o with lines := updAt o.lines n (setupLine cfg) }
  exact KeptBut.ite (KeptBut.then_mono hline (report_kept _ _) (by simp) (by simp)) hline

theorem lineRestarted_outs (n : Fin 16) (cfg : LineSettings) (s : State) :
    (lineRestarted n cfg s).outs = { s.outs with lines := updAt s.outs.lines n (setupLine cfg) } := by
  unfold lineRestarted
  split <;> rfl

/-- A line with new settings (R117). -/
theorem setupLine_eq (cfg : LineSettings) (l : OutLine) : setupLine cfg l = { l with
    cfg := cfg
    direct := if l.cfg.owner = .direct ∧ cfg.owner ≠ .direct then false else l.direct
    cue := if l.cfg.owner ≠ cfg.owner ∧ (l.cfg.owner = .cue ∨ cfg.owner = .cue) then false else l.cue
    trail := if l.cfg.owner ≠ cfg.owner ∧ (l.cfg.owner = .cue ∨ cfg.owner = .cue) then none else l.trail
    mismatch := .agree } := by
  have hdirect : (decide (cfg.owner ≠ l.cfg.owner) && decide (l.cfg.owner = .direct)) = true ↔
      l.cfg.owner = .direct ∧ cfg.owner ≠ .direct := by
    rw [Bool.and_eq_true, decide_eq_true_iff, decide_eq_true_iff]
    exact ⟨fun ⟨h, h'⟩ => ⟨h', h' ▸ h⟩, fun ⟨h, h'⟩ => ⟨h ▸ h', h⟩⟩
  have hcue : (decide (cfg.owner ≠ l.cfg.owner) && (decide (l.cfg.owner = .cue) || decide (cfg.owner = .cue))) = true ↔
      l.cfg.owner ≠ cfg.owner ∧ (l.cfg.owner = .cue ∨ cfg.owner = .cue) := by
    rw [Bool.and_eq_true, Bool.or_eq_true, decide_eq_true_iff, decide_eq_true_iff, decide_eq_true_iff, ne_comm]
  unfold setupLine
  dsimp only
  simp only [hdirect, hcue]

theorem lineSetupRule_passes {line owner polarity driver safe time : Byte} {n : Fin 16} {cfg : LineSettings} {s : State}
    (hline : line.toNat = n.val) (hcfg : lineSettingsOf owner polarity driver safe time = some cfg) :
    lineSetupRule [line, owner, polarity, driver, safe, time] s = setupLineAt n cfg s := by
  simp only [lineSetupRule, finOf_of_eq hline, hcfg]

/-- Settles O32. -/
theorem lineSetupWritesRecord : Obligations.LineSetupWritesRecord := by
  intro tag line owner polarity driver safe time n cfg l s hready hline hcfg hl
  have hrule : lineSetupRule [line, owner, polarity, driver, safe, time] (heard s) =
      (judgeLines (lineRestarted n cfg (heard s)), _) :=
    (lineSetupRule_passes (s := heard s) hline hcfg).trans (setupLineAt_eq n cfg (heard s))
  have hrestarted := lineRestarted_kept n cfg (heard s)
  have hclock := hrestarted .clock (by simp)
  have hseq : (lineRestarted n cfg (heard s)).seq = s.seq := hrestarted .seq (by simp)
  have hcams : (lineRestarted n cfg (heard s)).cams = s.cams := hrestarted .cams (by simp)
  have houts := lineRestarted_outs n cfg (heard s)
  have hinbox : l.mismatch = .present → plainReport (.lineMismatch n) false ∈ (lineRestarted n cfg (heard s)).faults.inbox := by
    intro h
    have hpresent : (heard s).outs.lines[n].mismatch = .present := by
      rw [← h, hl]
      rfl
    rw [lineRestarted, if_pos hpresent]
    exact List.mem_append_right _ (List.mem_singleton.2 rfl)
  obtain ⟨hanswer, hsame, hkept⟩ := request_writes (ps := [.lines]) tag 0x40#8 _ hready (by decide) hrule
    (KeptBut.then_mono hrestarted (judgeLines_kept _) (by simp) (by simp)) (by simp)
  have hlines := served_lines ⟨tag, 0x40#8, [line, owner, polarity, driver, safe, time]⟩ hready hrule
    (hclock.2.1.trans hready.1)
  have hreport := fun h => mem_served_inbox ⟨tag, 0x40#8, [line, owner, polarity, driver, safe, time]⟩ hready hrule
    (List.mem_append_left _ (hinbox h))
  have htseq := seq_of_kept hsame
  have htcams := cams_of_kept hsame
  have harrivals := arrivals_of_kept hsame
  refine ⟨_, rfl, ?_⟩
  generalize serve ⟨tag, 0x40#8, [line, owner, polarity, driver, safe, time]⟩
    (lineSetupRule [line, owner, polarity, driver, safe, time]) s = t at *
  generalize lineRestarted n cfg (heard s) = v at *
  have hjudged : ∀ m : Fin 16, (judgeLines v).outs.lines[m] =
      { v.outs.lines[m] with mismatch := judgedMismatch v v.outs.lines[m] } := fun m => by
    rw [judgeLines_eq, map_get]
  have hstays : ∀ m : Fin 16, t.outs.lines[m] = (judgeLines v).outs.lines[m] := fun m => by
    rw [hlines m, hjudged m]
    exact congrArg (fun x => ({ v.outs.lines[m] with mismatch := x } : OutLine)) (judgedMismatch_judged v v.outs.lines[m])
  have hvlines : ∀ m : Fin 16, v.outs.lines[m] = if n = m then setupLine cfg l else s.outs.lines[m] := fun m => by
    rw [houts, hl]
    exact updAt_get _ _ _ _
  have hn : t.outs.lines[n] = { setupLine cfg l with mismatch := judgedMismatch v (setupLine cfg l) } := by
    rw [hstays n, hjudged n, hvlines n, if_pos rfl]
  have hmismatch : inMismatch t t.outs.lines[n] = inMismatch v (setupLine cfg l) := by
    rw [hn, inMismatch_congr (s := v) (by rw [htseq]; rfl) (by rw [htcams]; rfl)]
    rfl
  have hstate : judgedMismatch v (setupLine cfg l) = if inMismatch v (setupLine cfg l) then .pending v.stamp else .agree := rfl
  have hentry : outputEntry t t.outs.lines[n] = outputEntry (judgeLines v) (judgeLines v).outs.lines[n] := by
    rw [hstays n, outputEntry_congr (s := judgeLines v) (by rw [htseq]) (by rw [htcams])]
  refine ⟨by rw [hentry]; exact hanswer, ?_, fun m => ?_, ?_, hreport, hkept, outputEntry_layout _ _⟩
  · rw [hmismatch, hn, hstate, hclock.2.2.1, setupLine_eq]
    rfl
  · dsimp only
    by_cases hm : m = n
    · subst hm
      rw [if_pos rfl]
    · rw [if_neg hm, hstays m, hjudged m, hvlines m, if_neg (Ne.symm hm)]
  · rw [harrivals, judgeLines_eq, houts]
    rfl

/-! ## LINES_SET (R119) -/

/-- Each masked line takes its direct level from the level set (R119). -/
def directMasked (mask levels : LineSet) (s : State) : State := mapMasked mask (fun n l => { l with direct := inSet levels n }) s

/-- The direct levels as a line set (R119). -/
def directLevels (s : State) : LineSet := lineSetOf fun n => s.outs.lines[n].direct

theorem directMasked_line (mask levels : LineSet) (s : State) (n : Fin 16) : (directMasked mask levels s).outs.lines[n] =
    { s.outs.lines[n] with direct := if inSet mask n then inSet levels n else s.outs.lines[n].direct } := by
  rw [directMasked, mapMasked_line]
  split <;> rfl

theorem directMasked_linesAre (mask levels : LineSet) (s : State) :
    LinesAre (fun n => { s.outs.lines[n] with
      direct := if inSet mask n then inSet levels n else s.outs.lines[n].direct }) (directMasked mask levels s) := by
  intro n
  rw [directMasked_line]

/-- What keeps the lines but for their mismatch states keeps the direct levels and the settings. -/
theorem direct_of_kept {s t : State} (h : KeptBut [] s t) (n : Fin 16) :
    t.outs.lines[n].direct = s.outs.lines[n].direct ∧ t.outs.lines[n].cfg = s.outs.lines[n].cfg := by
  have hlines := lines_of_kept h n
  constructor <;> rw [hlines]

/-- A mask holds a line outside a set just when the masked lines are not all in it. -/
theorem masked_outside_iff (mask : LineSet) (f : Fin 16 → Bool) :
    mask &&& ~~~ lineSetOf f ≠ 0#16 ↔ ∃ n : Fin 16, inSet mask n = true ∧ f n = false := by
  have hzero : mask &&& ~~~ lineSetOf f = 0#16 ↔ ∀ n : Fin 16, inSet mask n = true → f n = true := by
    constructor
    · intro h n hn
      have hbit : inSet (mask &&& ~~~ lineSetOf f) n = false := by rw [h, inSet_empty]
      have hf := inSet_lineSetOf f n
      simp only [inSet, BitVec.getLsbD_and, BitVec.getLsbD_not, n.isLt, decide_true, Bool.true_and] at hbit hn hf
      rw [hn, hf] at hbit
      simpa using hbit
    · intro h
      apply BitVec.eq_of_getLsbD_eq
      intro i hi
      have hf := inSet_lineSetOf f ⟨i, hi⟩
      have hm := h ⟨i, hi⟩
      simp only [inSet] at hf hm
      simp only [BitVec.getLsbD_and, BitVec.getLsbD_not, hi, decide_true, Bool.true_and, BitVec.getLsbD_zero, hf]
      cases hb : mask.getLsbD i
      · rfl
      · rw [hm hb]
        rfl
  rw [ne_eq, hzero]
  simp

theorem linesSetRule_eq (m1 m0 l1 l0 : Byte) (s : State) : linesSetRule [m1, m0, l1, l0] s =
    if ∃ n : Fin 16, inSet (word16 m1 m0) n = true ∧ s.outs.lines[n].cfg.owner ≠ .direct then (s, refuse .wrongOwner)
    else (directMasked (word16 m1 m0) (word16 l1 l0) s,
      okay (be16 (directLevels (directMasked (word16 m1 m0) (word16 l1 l0) s)).toNat)) := by
  have hcheck := masked_outside_iff (word16 m1 m0) fun n => decide (s.outs.lines[n].cfg.owner = .direct)
  simp only [decide_eq_false_iff_not] at hcheck
  unfold linesSetRule
  dsimp only
  simp only [hcheck]
  rfl

/-- In SAFE the pins follow the safe levels, whatever the direct levels are (R111). -/
theorem drive_of_safe {s t : State} {l m : OutLine} (hs : s.seq.state = .safe) (ht : t.seq.state = .safe) (hcfg : m.cfg = l.cfg) :
    drive t m = drive s l := by
  unfold drive
  rw [hs, ht, hcfg]
  rfl

/-- Settles O34. -/
theorem linesSetWritesMaskedDirectLevels : Obligations.LinesSetWritesMaskedDirectLevels := by
  intro tag m1 m0 l1 l0 s hready
  have hrule := linesSetRule_eq m1 m0 l1 l0 (heard s)
  refine ⟨fun hother => ?_, fun hall => ?_⟩
  · rw [if_pos (by exact hother)] at hrule
    exact ⟨_, rfl, request_kept tag 0x42#8 [m1, m0, l1, l0] hready (by decide) hrule⟩
  · rw [if_neg (by exact fun ⟨n, hn, hne⟩ => hne (hall n hn))] at hrule
    obtain ⟨hanswer, hsame, hkept⟩ := request_writes tag 0x42#8 _ hready (by decide) hrule (mapMasked_kept _ _ (heard s)) (by simp)
    have hmask : (directMasked (word16 m1 m0) (word16 l1 l0) (heard s)).outs.arrivals = s.outs.arrivals := rfl
    refine ⟨_, rfl, ?_, (arrivals_of_kept hsame).trans hmask, ⟨_, fun n => ?_, hanswer⟩, fun hsafe n => ?_, hkept⟩
    · exact (directMasked_linesAre _ _ (heard s)).trans (lines_of_kept hsame)
    · rw [(direct_of_kept hsame n).1, directLevels, inSet_lineSetOf]
    · refine drive_of_safe hsafe ?_ ?_
      · rw [seq_of_kept hsame]
        exact hsafe
      · rw [(direct_of_kept hsame n).2, directMasked_line]
        rfl

/-! ## Pin drives and the mismatch monitor (R111, R121, R122) -/

/-- The sampled level of a pin has changed (R111). -/
def pinSampled (n : Fin 16) (high : Bool) (s : State) : State :=
  s.onOuts fun o => { o with lines := updAt o.lines n fun l => { l with sampled := high } }

/-- A mismatch has become PRESENT and is reported (R121, R122). -/
def mismatchReported (n : Fin 16) (s : State) : State :=
  report (plainReport (.lineMismatch n) true)
    (s.onOuts fun o => { o with lines := updAt o.lines n fun l => { l with mismatch := .present } })

theorem exec_mismatchTimeout {s : State} {n : Fin 16} (hrun : s.phase = .running) (hdue : mismatchDue s n = true) :
    exec (.mismatchTimeout n) s = .next (settle (mismatchReported n s)) :=
  event_running (effect := mismatchReported n) hrun hdue

theorem mismatchReported_kept (n : Fin 16) (s : State) : KeptBut [] s (mismatchReported n s) := by
  have hlines : LinesAre (fun m => s.outs.lines[m]) (mismatchReported n s) := fun m => by
    have hline : (mismatchReported n s).outs.lines[m] = if n = m then { s.outs.lines[n] with mismatch := .present }
        else s.outs.lines[m] := updAt_get _ _ _ _
    rw [hline]
    split
    · rename_i h
      rw [h]
    · rfl
  intro p _
  by_cases hp : p = .lines
  · subst hp
    exact ⟨rfl, hlines⟩
  · exact KeptBut.then_mono (onOuts_kept s _) (report_kept _ _) (rs := [.lines]) (by simp) (by simp) p (by simpa using hp)

/-- What the monitor makes of a line, from the mismatch state the line had (R121). -/
theorem judgedMismatch_of {s : State} {l : OutLine} {m : MismatchState} (h : l.mismatch = m) : judgedMismatch s l =
    if inMismatch s l then (if m = .agree then .pending s.stamp else m) else .agree := by
  subst h
  unfold judgedMismatch
  cases l.mismatch <;> rfl

/-- The drive of a line by its table (R111). -/
theorem drive_eq {s : State} {l : OutLine} {active high : Bool}
    (hactive : active = (if s.seq.state = .safe then decide (l.cfg.safeLevel = .active)
      else l.enable && ownerLevel s l))
    (hhigh : high = (if l.cfg.polarity = .activeHigh then active else !active)) : drive s l =
      if l.cfg.driver = .off then .released
      else if s.seq.state = .safe ∧ l.cfg.safeLevel = .float then .released
      else if l.cfg.driver = .openDrain ∧ high = true then .released
      else if high then .high else .low := by
  have hmap : l.cfg.driver ≠ .off → mapLevel l.cfg active =
      if l.cfg.driver = .openDrain ∧ high = true then .released else if high then .high else .low := by
    intro hoff
    rw [hhigh]
    unfold mapLevel
    cases hd : l.cfg.driver
    · exact absurd hd hoff
    · cases l.cfg.polarity <;> cases active <;> rfl
    · cases l.cfg.polarity <;> cases active <;> rfl
  unfold drive
  by_cases hoff : l.cfg.driver = .off
  · rw [if_pos hoff, if_pos hoff]
  rw [if_neg hoff, if_neg hoff]
  by_cases hsafe : s.seq.state = .safe
  · rw [if_pos hsafe]
    rw [if_pos hsafe] at hactive
    cases hlevel : l.cfg.safeLevel
    · rw [if_neg (by simp), ← hmap hoff, hactive, hlevel]
      rfl
    · rw [if_neg (by simp), ← hmap hoff, hactive, hlevel]
      rfl
    · rw [if_pos ⟨hsafe, rfl⟩]
  · have hnofloat : ¬ (s.seq.state = .safe ∧ l.cfg.safeLevel = .float) := fun h => hsafe h.1
    rw [if_neg hsafe, if_neg hnofloat, ← hmap hoff]
    rw [if_neg hsafe] at hactive
    rw [hactive]
    cases l.enable <;> rfl

theorem inMismatch_iff (s : State) (l : OutLine) : inMismatch s l = true ↔ l.cfg.mismatchTime ≠ 0 ∧
    (drive s l = .high ∧ l.sampled = false ∨ drive s l = .low ∧ l.sampled = true) := by
  unfold inMismatch
  cases drive s l <;> simp

/-- Settles O35. -/
theorem pinDriveAndMismatchFollowTheirTables : Obligations.PinDriveAndMismatchFollowTheirTables := by
  intro s
  refine ⟨fun l active high hactive hhigh => ⟨drive_eq ?_ hhigh, inMismatch_iff s l⟩, fun n high hrun => ?_,
    fun n since hrun hpending hreached hmismatch => ?_⟩
  · rw [hactive]
    rfl
  · have hlines : ∀ m : Fin 16, (updAt s.outs.lines n fun l => { l with sampled := high })[m] =
        if m = n then { s.outs.lines[n] with sampled := high } else s.outs.lines[m] := fun m => by
      rw [updAt_get]
      simp only [eq_comm]
    have hsettled : ∀ m : Fin 16, (settle (pinSampled n high s)).outs.lines[m] = _ := settle_mismatch (s := pinSampled n high s) hrun
    have hline : ∀ m : Fin 16, (pinSampled n high s).outs.lines[m] = _ := hlines
    have hkeeps : ∀ m : Fin 16, (pinSampled n high s).outs.lines[m].mismatch = s.outs.lines[m].mismatch := fun m => by
      rw [hline m]
      split
      · rename_i h
        rw [h]
      · rfl
    have hexec : exec (.pinSampleChange n high) s = .next (settle (pinSampled n high s)) := rfl
    refine ⟨_, hexec, settle_arrivals _, LinesAre.trans (fun m => ?_) (settle_lines _), fun m => ?_, settled_kept (onOuts_kept _ _)⟩
    · rw [hline m]
    · have hjudge : inMismatch (settle (pinSampled n high s)) (settle (pinSampled n high s)).outs.lines[m] =
          inMismatch (pinSampled n high s) (pinSampled n high s).outs.lines[m] := by
        rw [hsettled m, inMismatch_congr (s := pinSampled n high s) (by rw [settle_seq]) (by rw [settle_cams])]
        rfl
      rw [hjudge, hsettled m]
      exact judgedMismatch_of (hkeeps m)
  · have hdue : mismatchDue s n = true := by
      rw [mismatchDue, hpending]
      exact hreached
    have hline := settle_mismatch (s := mismatchReported n s) hrun n
    have hpresent : (mismatchReported n s).outs.lines[n] = { s.outs.lines[n] with mismatch := .present } := updAt_same _ _ _
    have hstill : judgedMismatch (mismatchReported n s) { s.outs.lines[n] with mismatch := .present } = .present := by
      have hin : inMismatch (mismatchReported n s) { s.outs.lines[n] with mismatch := .present } = true := hmismatch
      rw [judgedMismatch, hin]
      rfl
    rw [hpresent, hstill] at hline
    refine ⟨_, exec_mismatchTimeout hrun hdue, hline, mem_settle_inbox (List.mem_append_right _ (List.mem_singleton.2 rfl)),
      settled_kept (mismatchReported_kept n s)⟩

/-! ## Trails (R115) -/

theorem exec_trailArrival {s : State} {k : Key} {rest : List Key} (hrun : s.phase = .running) (harrivals : s.outs.arrivals = k :: rest) :
    exec .trailArrival s = .next (settle (takeTrailArrival (s.onOuts fun o => { o with arrivals := rest }) k)) := by
  have hexec : exec .trailArrival s =
      event true (fun s => takeTrailArrival (s.onOuts fun o => { o with arrivals := rest }) k) s := by
    show execTrailArrival s = _
    unfold execTrailArrival
    rw [harrivals]
  rw [hexec, event_running (effect := fun s => takeTrailArrival (s.onOuts fun o => { o with arrivals := rest }) k) hrun rfl]

theorem exec_trailExpiry {s : State} {n : Fin 16} (hrun : s.phase = .running) (hdue : trailDue s n = true) :
    exec (.trailExpiry n) s = .next (settle (s.onOuts fun o => { o with lines := updAt o.lines n endTrail })) :=
  event_running (effect := fun s => s.onOuts fun o => { o with lines := updAt o.lines n endTrail }) hrun hdue

/-- Settles O36. -/
theorem trailsEndAtTheirKeyOrStamp : Obligations.TrailsEndAtTheirKeyOrStamp := by
  intro s hrun
  refine ⟨fun k rest harrivals => ?_, fun n e htrail hreached => ?_⟩
  · refine ⟨_, exec_trailArrival hrun harrivals, settle_arrivals _, LinesAre.trans (fun n => ?_) (settle_lines _),
      settled_kept (KeptBut.trans (onOuts_kept _ _) (takeTrailArrival_kept _ _))⟩
    rw [takeTrailArrival, State.onOuts_outs, map_get]
    rfl
  · have hdue : trailDue s n = true := by
      rw [trailDue, htrail]
      exact hreached
    refine ⟨_, exec_trailExpiry hrun hdue, settle_arrivals _, LinesAre.trans (fun m => ?_) (settle_lines _),
      settled_kept (onOuts_kept _ _)⟩
    rw [State.onOuts_outs, updAt_get]
    by_cases hm : m = n
    · subst hm
      rw [if_pos rfl, if_pos rfl]
      rfl
    · rw [if_neg hm, if_neg (Ne.symm hm)]

end Sys2Proof.Machine
end

section
/-! INPUT_SETUP (R125), the freeze level at the Sequencer (R49, R54), and a raw change at the filter of an input (R123). -/

namespace Sys2Proof.Machine

/-! ## The freeze level (R49, R54) -/

theorem freezeLevel_iff (v : Vector InLine 8) :
    freezeLevel v = true ↔ ∃ k : Fin 8, v[k].fn = .freeze ∧ v[k].accepted = true := by
  unfold freezeLevel
  rw [List.any_eq_true]
  constructor
  · rintro ⟨i, hi, hboth⟩
    obtain ⟨k, hk, rfl⟩ := List.mem_iff_getElem.1 hi
    rw [Vector.length_toList] at hk
    refine ⟨⟨k, hk⟩, ?_⟩
    simpa using hboth
  · rintro ⟨k, hfn, haccepted⟩
    refine ⟨v[k], Vector.mem_toList_iff.2 (Vector.getElem_mem k.isLt), ?_⟩
    rw [hfn, haccepted]
    rfl

theorem changeFreeze_freeze (level : Bool) (s : State) : (changeFreeze level s).seq.freeze = level := by
  unfold changeFreeze
  dsimp only
  split
  · rfl
  · rfl
  · split
    · rfl
    · rw [enterArmed_seq]
      rfl
  · rfl

/-- The Sequencer knows the freeze level when it has judged it (R49). -/
theorem judgeFreeze_freeze (s : State) : (judgeFreeze s).seq.freeze = freezeLevel s.ins := by
  unfold judgeFreeze
  split
  · rename_i h
    exact h.symm
  · exact changeFreeze_freeze _ _

theorem judgeFreeze_still {s : State} (h : freezeLevel s.ins = s.seq.freeze) : judgeFreeze s = s := if_pos h

theorem judgeFreeze_changed {s : State} (h : freezeLevel s.ins ≠ s.seq.freeze) :
    judgeFreeze s = changeFreeze (!s.seq.freeze) s := by
  have hlevel : freezeLevel s.ins = !s.seq.freeze := by
    cases h1 : freezeLevel s.ins <;> cases h2 : s.seq.freeze <;> simp_all
  rw [judgeFreeze, if_neg h, hlevel]

/-! ## INPUT_SETUP (R125) -/

theorem flagOf_byte {b : Byte} {freeze : Bool} (h : flagOf b = some freeze) :
    inputFnByte (if freeze then .freeze else .general) = b := by
  have hb := byteOf_toNat b
  unfold flagOf at h
  split at h
  · rename_i h0
    cases h
    rw [← hb, h0]
    rfl
  · rename_i h1
    cases h
    rw [← hb, h1]
    rfl
  · cases h

theorem edgeModeOf_byte {b : Byte} {m : EdgeMode} (h : edgeModeOf b = some m) : edgeModeByte m = b := by
  have hb := byteOf_toNat b
  unfold edgeModeOf at h
  split at h
  all_goals
    rename_i hcode
    cases h
  all_goals
    rw [← hb, hcode]
    rfl

/-- The settings of an input written, before the freeze level is judged. -/
def inputWritten (n : Fin 8) (freeze : Bool) (m : EdgeMode) (filter : Nat) (s : State) : State :=
  s.onIns fun v => updAt v n fun i => { i with fn := if freeze then .freeze else .general, edgeMode := m, filter := filter }

theorem inputSetupRule_passes {input fn mode filter : Byte} {n : Fin 8} {freeze : Bool} {m : EdgeMode} {s : State}
    (hinput : input.toNat = n.val) (hfn : flagOf fn = some freeze) (hmode : edgeModeOf mode = some m)
    (hfree : s.ins[n].fn = .general ∨ s.ins[n].fn = .freeze) : inputSetupRule [input, fn, mode, filter] s =
      (judgeFreeze (inputWritten n freeze m filter.toNat s),
        okay (inputEntry (judgeFreeze (inputWritten n freeze m filter.toNat s)).ins[n])) := by
  have hclaimed : inputClaimed s.ins[n] = false := by
    unfold inputClaimed
    rcases hfree with h | h <;> rw [h] <;> rfl
  simp only [inputSetupRule, finOf_of_eq hinput, hfn, hmode, hclaimed, Bool.false_eq_true, if_false]
  rfl

/-- What the first part of the statement says of INPUT_SETUP. -/
theorem inputSetup_writes (tag input fn mode filter : Byte) (n : Fin 8) (freeze : Bool) (m : EdgeMode) (s : State)
    (hready : Ready s) (hinput : input.toNat = n.val) (hfn : flagOf fn = some freeze) (hmode : edgeModeOf mode = some m)
    (hfree : s.ins[n].fn = .general ∨ s.ins[n].fn = .freeze) :
    ∃ t, exec (.inputSetup tag [input, fn, mode, filter]) s = .next t ∧
      Answered tag 0x44#8 .ok false [fn, mode, filter, flagByte s.ins[n].accepted] s t ∧
      [fn, mode, filter, flagByte s.ins[n].accepted] = layout (inputFields t.ins[n]) ∧
      t.ins[n] = { s.ins[n] with fn := if freeze then .freeze else .general, edgeMode := m, filter := filter.toNat } ∧
      (∀ k : Fin 8, k ≠ n → t.ins[k] = s.ins[k]) ∧
      (t.seq.freeze = true ↔ ∃ k : Fin 8, t.ins[k].fn = .freeze ∧ t.ins[k].accepted = true) ∧
      (freezeLevel t.ins = s.seq.freeze → KeptBut [.inputs] s t) ∧
      KeptBut [.inputs, .cues, .seq, .lines, .events] s t := by
  have hrule := inputSetupRule_passes (filter := filter) (s := heard s) hinput hfn hmode hfree
  have hins : (judgeFreeze (inputWritten n freeze m filter.toNat (heard s))).ins =
      updAt s.ins n fun i => { i with fn := if freeze then .freeze else .general, edgeMode := m, filter := filter.toNat } :=
    judgeFreeze_kept (inputWritten n freeze m filter.toNat (heard s)) .inputs (by simp)
  have hentry : inputEntry (judgeFreeze (inputWritten n freeze m filter.toNat (heard s))).ins[n] =
      [fn, mode, filter, flagByte s.ins[n].accepted] := by
    rw [hins, updAt_same, inputEntry, flagOf_byte hfn, edgeModeOf_byte hmode, byteOf_toNat]
  rw [hentry] at hrule
  have hwritten : KeptBut [.inputs] (heard s) (inputWritten n freeze m filter.toNat (heard s)) := onIns_kept _ _
  obtain ⟨hanswer, hsame, hkept⟩ := request_writes (ps := [.inputs, .cues, .seq, .lines, .events]) tag 0x44#8
    [input, fn, mode, filter] hready (by decide) hrule (KeptBut.then_mono hwritten (judgeFreeze_kept _) (by simp) (by simp))
    (by simp)
  have htins := (ins_of_kept hsame).trans hins
  refine ⟨_, rfl, hanswer, ?_, ?_, fun k hk => ?_, ?_, fun hlevel => ?_, hkept⟩
  · rw [← hentry, inputEntry_layout, ins_of_kept hsame]
  · rw [htins]
    exact updAt_same _ _ _
  · rw [htins]
    exact updAt_other _ _ (Ne.symm hk)
  · rw [seq_of_kept hsame, judgeFreeze_freeze, htins]
    exact freezeLevel_iff _
  · rw [htins] at hlevel
    rw [judgeFreeze_still (s := inputWritten n freeze m filter.toNat (heard s)) hlevel] at hrule
    exact (request_writes tag 0x44#8 [input, fn, mode, filter] hready (by decide) hrule hwritten (by simp)).2.2

/-! ## A raw change (R123) -/

theorem reached_now (now : Stamp) : reached now (after now 0) = true := by simp [reached, after]

theorem exec_inputRawChange {s : State} {n : Fin 8} {high : Bool} (hrun : s.phase = .running) :
    exec (.inputRawChange n high) s = .next (settle (takeRawChange n high s)) := by
  have hexec : exec (.inputRawChange n high) s = execInputRawChange n high s := rfl
  rw [hexec, execInputRawChange, hrun]

/-- The filter of an input has taken a raw change at the present stamp. -/
def rawTaken (n : Fin 8) (high : Bool) (s : State) : State := s.onIns fun v => updAt v n (rawChange s.stamp high)

theorem rawTaken_in (n m : Fin 8) (high : Bool) (s : State) :
    (rawTaken n high s).ins[m] = if n = m then rawChange s.stamp high s.ins[n] else s.ins[m] := updAt_get _ _ _ _

theorem rawChange_eq (now : Stamp) (high : Bool) (i : InLine) : rawChange now high i =
    { i with raw := high, pendingSince := if high = i.accepted then none else some (i.pendingSince.getD now) } := by
  unfold rawChange
  split
  · rfl
  · cases i.pendingSince <;> rfl

/-- The filter takes a change on the part as it stands in `u` (R123). -/
theorem rawChangeTaken_of {s u : State} {n : Fin 8} {high : Bool} (hrun : s.phase = .running)
    (hu : takeRawChange n high s = rawTaken n high u) : RawChangeTaken n high s u := by
  have hline : (settle (rawTaken n high u)).ins[n] = { u.ins[n] with
      raw := high, pendingSince := if high = u.ins[n].accepted then none else some (u.ins[n].pendingSince.getD u.stamp) } := by
    rw [settle_ins, rawTaken_in, if_pos rfl, rawChange_eq]
  refine ⟨settle (rawTaken n high u), by rw [exec_inputRawChange hrun, hu], hline, fun hne hnone hfilter => ?_, fun k hk => ?_,
    settled_kept (onIns_kept _ _)⟩
  · have hstamp : (settle (rawTaken n high u)).stamp = u.stamp := settle_stamp _
    rw [inputDue, hline, if_neg hne, hnone, hfilter, hstamp]
    exact reached_now u.stamp
  · rw [settle_ins, rawTaken_in, if_neg (Ne.symm hk)]

theorem takeRawChange_eq (n : Fin 8) (high : Bool) (s : State) : takeRawChange n high s = rawTaken n high
    (if startsPending high s.ins[n] && sharesStamp s n then
      match s.checkpoint with
      | some c => backTo c s
      | none => passStamp s
    else s) := rfl

/-- A change shares its stamp with an edge the decoder has acted on (R2, R3). -/
theorem startsPending_sharesStamp (n : Fin 8) (high : Bool) (s : State) :
    (startsPending high s.ins[n] && sharesStamp s n) =
      (decide (high ≠ s.ins[n].accepted) && s.ins[n].pendingSince.isNone && decide (s.ins[n].filter = 0) &&
        (decide (s.axis.cfg.source = .quad ∧ s.ins[n].fn = .axisA) && s.axis.takenB ||
          decide (s.axis.cfg.source ≠ .timebase ∧ s.ins[n].fn = .axisB) && s.axis.takenA)) := by
  have hshares : sharesStamp s n = (decide (s.ins[n].filter = 0) &&
      (decide (s.axis.cfg.source = .quad ∧ s.ins[n].fn = .axisA) && s.axis.takenB ||
        decide (s.axis.cfg.source ≠ .timebase ∧ s.ins[n].fn = .axisB) && s.axis.takenA)) := by
    unfold sharesStamp
    generalize s.axis.cfg.source = source
    generalize s.ins[n].fn = fn
    cases source <;> cases fn <;> simp
  rw [hshares, startsPending]
  simp only [Bool.and_assoc]

/-! ## The commands of a passing stamp (notes/assumptions/6) -/

/-- The filter of an input at rest is at rest still, with its accepted level. -/
def StillInput (n : Fin 8) (s t : State) : Prop :=
  t.ins[n].pendingSince = s.ins[n].pendingSince ∧ t.ins[n].accepted = s.ins[n].accepted ∧ t.ins[n].filter = s.ins[n].filter

namespace StillInput

variable {n : Fin 8} {s t u : State}

theorem of_ins (h : t.ins = s.ins) : StillInput n s t := by
  unfold StillInput
  rw [h]
  exact ⟨rfl, rfl, rfl⟩

theorem trans (h : StillInput n s t) (h' : StillInput n t u) : StillInput n s u :=
  ⟨h'.1.trans h.1, h'.2.1.trans h.2.1, h'.2.2.trans h.2.2⟩

end StillInput

theorem acceptLevel_still {k n : Fin 8} (hk : k ≠ n) (s : State) : StillInput n s (acceptLevel k s) := by
  unfold StillInput
  rw [acceptLevel_in, if_neg hk]
  exact ⟨rfl, rfl, rfl⟩

theorem homingJump_still (n : Fin 8) (s : State) : StillInput n s (homingJump s) := by
  have hjump : (positionJump ⟨0#16, s.axis.cfg.home⟩ s).ins = s.ins := positionJump_kept _ s .inputs (by simp)
  have hrelease : ∀ t : State, StillInput n t (releaseInput 2 t) := by
    intro t
    unfold StillInput
    rw [releaseInput_in]
    split
    · rename_i h
      subst h
      exact ⟨rfl, rfl, rfl⟩
    · exact ⟨rfl, rfl, rfl⟩
  exact ((StillInput.of_ins hjump).trans (.of_ins rfl)).trans
    ((hrelease ((positionJump ⟨0#16, s.axis.cfg.home⟩ s).onAxis fun a => { a with homing := false })).trans (.of_ins rfl))

/-- The changes of the decoder's two lines that are due (R2, R3). -/
def edgeDueA (s : State) : Bool := inputDue s 0 && decide (s.ins[0].fn = .axisA)

def edgeDueB (s : State) : Bool := inputDue s 1 && decide (s.ins[1].fn = .axisB)

/-- Both lines have accepted what is due. -/
def levelsAccepted (s : State) : State :=
  if edgeDueB s then acceptLevel 1 (if edgeDueA s then acceptLevel 0 s else s) else if edgeDueA s then acceptLevel 0 s else s

/-- The marks of the stamp are written. -/
def edgesMarked (s : State) : State := (levelsAccepted s).onAxis fun a =>
  { a with
    takenA := a.takenA || (edgeDueA s && actsOnA s.axis.cfg.source (!s.ins[0].accepted)), takenB := a.takenB || edgeDueB s }

theorem acceptAxis_decode (s : State) : acceptAxis s = decode (edgeDueA s && (edgesMarked s).ins[0].accepted)
    (edgesMarked s).ins[0].accepted (edgesMarked s).ins[1].accepted (edgesMarked s) := rfl

theorem edgesMarked_still {n : Fin 8} {s : State} (h : inputDue s n = false) : StillInput n s (edgesMarked s) := by
  have hlevel : ∀ (k : Fin 8) (t : State) (due : Bool), (k = n → due = false) →
      StillInput n t (if due then acceptLevel k t else t) := by
    intro k t due hdue
    split
    · rename_i hd
      exact acceptLevel_still (fun hk => by rw [hdue hk] at hd; cases hd) t
    · exact .of_ins rfl
  have hfirst := hlevel 0 s (edgeDueA s) fun hk => by subst hk; rw [edgeDueA, h, Bool.false_and]
  exact (hfirst.trans (hlevel 1 _ (edgeDueB s) fun hk => by subst hk; rw [edgeDueB, h, Bool.false_and])).trans (.of_ins rfl)

theorem acceptAxis_still {n : Fin 8} {s : State} (h : inputDue s n = false) : StillInput n s (acceptAxis s) := by
  rw [acceptAxis_decode]
  exact (edgesMarked_still h).trans (.of_ins (decode_kept _ _ _ _ .inputs (by simp)))

/-- The accepted edge of another input leaves an input at rest. -/
theorem acceptInput_still {k n : Fin 8} {s : State} (hk : inputDue s k = true) (hn : inputDue s n = false) :
    StillInput n s (acceptInput k s) := by
  have hne : k ≠ n := fun h => by rw [h, hn] at hk; cases hk
  have hlevel := acceptLevel_still hne s
  unfold acceptInput
  dsimp only
  split
  · exact hlevel.trans (.of_ins (inputEvent_kept _ _ _ .inputs (by simp)))
  · exact hlevel.trans (.of_ins ((judgeFreeze_kept _ .inputs (by simp) : _ = _).trans (inputEvent_kept _ _ _ .inputs (by simp))))
  · exact acceptAxis_still hn
  · exact acceptAxis_still hn
  · refine hlevel.trans ?_
    unfold indexEdge
    split
    · exact homingJump_still n _
    · exact .of_ins rfl
  · exact hlevel.trans (.of_ins (captureEdge_kept _ _ _ .inputs (by simp)))

/-- A command of a passing stamp leaves the clock, and an input at rest. -/
def TimedStep (n : Fin 8) (s t : State) : Prop :=
  keptPart s t .clock ∧ (s.ins[n].pendingSince = none → StillInput n s t)

theorem timedStep_of_kept {n : Fin 8} {ps : List Part} {s t : State} (h : KeptBut ps s t) (hclock : Part.clock ∉ ps)
    (hinputs : Part.inputs ∉ ps) : TimedStep n s t :=
  ⟨h .clock hclock, fun _ => .of_ins (h .inputs hinputs)⟩

theorem timedStep_of_event {n : Fin 8} {ps : List Part} {enabled : Bool} {effect : State → State} {s t : State}
    (h : event enabled effect s = .next t) (heffect : KeptBut ps s (effect s)) (hclock : Part.clock ∉ ps)
    (hinputs : Part.inputs ∉ ps) : TimedStep n s t := by
  unfold event at h
  split at h
  · cases h
    exact timedStep_of_kept (settled_kept heffect) hclock hinputs
  · cases h
    exact timedStep_of_kept (KeptBut.refl ps s) hclock hinputs

theorem timedStep_of_edge {n k : Fin 8} {s t : State} (h : exec (.inputEdgeAccepted k) s = .next t) : TimedStep n s t := by
  have hexec : exec (.inputEdgeAccepted k) s = execInputEdgeAccepted k s := rfl
  rw [hexec, execInputEdgeAccepted] at h
  split at h
  · rename_i hdue
    cases h
    have htail := KeptBut.trans (settle_kept (acceptInput k s)) (leaveOpen_kept k s (settle (acceptInput k s)))
    refine ⟨keptPart_trans (acceptInput_kept k s .clock (by simp)) (htail .clock (by simp)), fun hnone => ?_⟩
    exact (acceptInput_still hdue.2 (by rw [inputDue, hnone])).trans (.of_ins (htail .inputs (by simp)))
  · cases h
    exact timedStep_of_kept (KeptBut.refl [] s) (by simp) (by simp)

theorem timedStep_of_exec {n : Fin 8} {c : Instr} {s t : State} (hc : c ∈ timedInstrs) (h : exec c s = .next t) :
    TimedStep n s t := by
  simp only [timedInstrs, List.mem_append, List.mem_map, List.mem_cons, List.not_mem_nil, or_false] at hc
  rcases hc with (((⟨k, -, rfl⟩ | rfl) | ⟨k, -, rfl⟩) | ⟨k, -, rfl⟩) | rfl | rfl
  · exact timedStep_of_edge h
  · exact timedStep_of_event (effect := takeSample) h (takeSample_kept s) (by simp) (by simp)
  · exact timedStep_of_event (effect := fun s => s.onOuts fun o => { o with lines := updAt o.lines k endTrail }) h
      (onOuts_kept s _) (by simp) (by simp)
  · exact timedStep_of_event (effect := mismatchReported k) h (mismatchReported_kept k s) (by simp) (by simp)
  · exact timedStep_of_event (effect := dropFrame) h (dropFrame_kept s) (by simp) (by simp)
  · exact timedStep_of_event (effect := fun s => s.onLink fun l => { l with silenceExpired := true }) h (onLink_kept s _)
      (by simp) (by simp)

theorem timedStep_of_runs {n : Fin 8} {cs : List Instr} {s t : State} (hcs : ∀ c ∈ cs, c ∈ timedInstrs) (h : Runs cs s t) :
    TimedStep n s t := by
  induction cs generalizing s with
  | nil =>
    have hsame : t = s := h
    rw [hsame]
    exact timedStep_of_kept (KeptBut.refl [] s) (by simp) (by simp)
  | cons c cs ih =>
    obtain ⟨u, hc, hrest⟩ := h
    have hfirst := timedStep_of_exec (n := n) (hcs c (by simp)) hc
    have hlater := ih (fun d hd => hcs d (by simp [hd])) hrest
    refine ⟨keptPart_trans hfirst.1 hlater.1, fun hnone => ?_⟩
    exact (hfirst.2 hnone).trans (hlater.2 ((hfirst.2 hnone).1.trans hnone))

theorem tick_running {s : State} (hrun : s.phase = .running) : tick s =
    { s.onAxis fun a => { a with takenA := false, takenB := false, timebaseTaken := false } with
      stamp := s.stamp + 1#32, checkpoint := none } := by
  rw [tick, hrun]

theorem tick_kept (s : State) : KeptBut [.clock, .axis] s (tick s) := by
  unfold tick
  split
  · exact .refl _ _
  · intro p hp
    have hkept := onAxis_kept s (fun a => { a with takenA := false, takenB := false, timebaseTaken := false }) p
    cases p
    case clock => simp at hp
    case axis => simp at hp
    all_goals exact hkept (by simp)

/-- Settles O37. -/
theorem inputSetupAndRawChange : Obligations.InputSetupAndRawChange := by
  intro s
  refine ⟨fun tag input fn mode filter n freeze m hready hinput hfn hmode hfree =>
      inputSetup_writes tag input fn mode filter n freeze m s hready hinput hfn hmode hfree,
    fun n high shared hrun hshared => ?_⟩
  rw [← startsPending_sharesStamp] at hshared
  have htake := takeRawChange_eq n high s
  refine ⟨fun hno => ?_, fun c hyes hcheckpoint => ?_, fun hyes hcheckpoint => ?_⟩
  · rw [← hshared, hno] at htake
    exact rawChangeTaken_of hrun htake
  · rw [← hshared, hyes, hcheckpoint] at htake
    exact rawChangeTaken_of hrun htake
  · obtain ⟨u, hruns, hpass⟩ := passStamp_runs s
    rw [← hshared, hyes, hcheckpoint] at htake
    simp only [if_true] at htake
    rw [hpass] at htake
    have hstep : TimedStep n s u := timedStep_of_runs (cs := timedInstrs) (fun c hc => hc) hruns
    obtain ⟨hclock, hstill⟩ := hstep
    obtain ⟨hpending, hphase, hstamp, hfree⟩ := hclock
    have hparts : high ≠ s.ins[n].accepted ∧ s.ins[n].pendingSince = none ∧ s.ins[n].filter = 0 := by
      rw [startsPending_sharesStamp, hyes] at hshared
      have hall := hshared.symm
      simp only [Bool.and_eq_true, decide_eq_true_eq, Option.isNone_iff_eq_none] at hall
      exact ⟨hall.1.1.1, hall.1.1.2, hall.1.2⟩
    obtain ⟨hne, hnone, hfilter⟩ := hparts
    obtain ⟨hpendingSince, haccepted, hfilter'⟩ := hstill hnone
    have hticked := tick_running (hphase.trans hrun)
    have hin : (settle (rawTaken n high (tick u))).ins[n] =
        { u.ins[n] with raw := high, pendingSince := some (s.stamp + 1#32) } := by
      have hne' : high ≠ u.ins[n].accepted := by rw [haccepted]; exact hne
      have hins : (tick u).ins = u.ins := by rw [hticked]; rfl
      have hnow : (tick u).stamp = s.stamp + 1#32 := by rw [hticked, ← hstamp]
      rw [settle_ins, rawTaken_in, if_pos rfl, rawChange_eq, hins, hnow, if_neg hne', hpendingSince, hnone]
      rfl
    have hstamp' : (settle (rawTaken n high (tick u))).stamp = s.stamp + 1#32 := by
      rw [settle_stamp, rawTaken, State.onIns_stamp, hticked, hstamp]
    have hother : ∀ k : Fin 8, k ≠ n → (settle (rawTaken n high (tick u))).ins[k] = u.ins[k] := fun k hk => by
      rw [settle_ins, rawTaken_in, if_neg (Ne.symm hk), hticked]
      rfl
    refine ⟨u, _, hruns, by rw [exec_inputRawChange hrun, htake], ?_, ?_, hstamp', ?_, ?_, hin, ?_, hother, settled_kept ?_⟩
    · rw [settle_pending, rawTaken, State.onIns_pending, hticked]
      exact hpending
    · rw [settle_phase, rawTaken, State.onIns_phase, hticked]
      exact hphase.trans hrun
    · rw [settle_freeIndex, rawTaken, State.onIns_freeIndex, hticked]
      exact hfree
    · have haxis := settle_axis (rawTaken n high (tick u))
      rw [rawTaken, State.onIns_axis, hticked] at haxis
      rw [rawTaken, hticked]
      exact haxis
    · rw [inputDue, hin, hfilter', hfilter, hstamp']
      exact reached_now _
    · refine KeptBut.then_mono (tick_kept u) (onIns_kept _ _) (by simp) (by simp)

end Sys2Proof.Machine
end

section
/-! An accepted edge of a GENERAL or FREEZE input (R49, R54, R126), and of IN2 as INDEX (R15, R16). -/

namespace Sys2Proof.Machine

/-! ## GENERAL and FREEZE inputs (R126, R54) -/

/-- The event of an accepted edge, where the edge mode matches it (R126). -/
theorem modeMatches_accepted (i : InLine) : modeMatches i.edgeMode (edgeTo (!i.accepted)) = true ↔
    i.edgeMode = .both ∨ i.edgeMode = .rising ∧ i.accepted = false ∨ i.edgeMode = .falling ∧ i.accepted = true := by
  cases i.edgeMode <;> cases i.accepted <;> simp [modeMatches, edgeTo]

/-- The edge accepted, with the event it raises (R123, R126). -/
def edgeNoticed (n : Fin 8) (s : State) : State := inputEvent n (edgeTo (!s.ins[n].accepted)) (acceptLevel n s)

theorem edgeNoticed_kept (n : Fin 8) (s : State) : KeptBut [.inputs, .events] s (edgeNoticed n s) :=
  KeptBut.then_mono (acceptLevel_kept n s) (inputEvent_kept _ _ _) (by simp) (by simp)

theorem edgeNoticed_ins (n : Fin 8) (s : State) : (edgeNoticed n s).ins = (acceptLevel n s).ins :=
  inputEvent_kept _ _ (acceptLevel n s) .inputs (by simp)

theorem edgeNoticed_raised {n : Fin 8} {s : State} {ev : List EventSource}
    (hev : ev = if s.ins[n].edgeMode = .both ∨ s.ins[n].edgeMode = .rising ∧ s.ins[n].accepted = false ∨
      s.ins[n].edgeMode = .falling ∧ s.ins[n].accepted = true then [.input n] else []) : Raised ev s (edgeNoticed n s) := by
  have hmode : (acceptLevel n s).ins[n].edgeMode = s.ins[n].edgeMode := by
    rw [acceptLevel_in, if_pos rfl]
  have hfirst : Raised [] s (acceptLevel n s) := raised_of_events rfl
  rw [edgeNoticed, inputEvent, hmode]
  by_cases h : modeMatches s.ins[n].edgeMode (edgeTo (!s.ins[n].accepted)) = true
  · rw [if_pos h, hev, if_pos ((modeMatches_accepted _).1 h)]
    exact raised_append hfirst (raise_raised _ _)
  · rw [if_neg h, hev, if_neg (fun h' => h ((modeMatches_accepted _).2 h'))]
    exact hfirst

theorem acceptInput_general {n : Fin 8} {s : State} (h : s.ins[n].fn = .general) : acceptInput n s = edgeNoticed n s := by
  unfold acceptInput
  dsimp only
  rw [h]
  rfl

theorem acceptInput_freeze {n : Fin 8} {s : State} (h : s.ins[n].fn = .freeze) :
    acceptInput n s = judgeFreeze (edgeNoticed n s) := by
  unfold acceptInput
  dsimp only
  rw [h]
  rfl

/-! ### A change of the freeze level (R54) -/

/-- The Sequencer has written its state and reasons with the freeze level (R54). -/
def freezeSet (q : SeqState) (request pin level : Bool) (s : State) : State :=
  s.onSeq fun x => { x with state := q, holdRequest := request, holdPin := pin, freeze := level }

theorem changeFreeze_armed {s : State} (h : s.seq.state = .armed) : changeFreeze true s = freezeSet .hold false true true s := by
  unfold changeFreeze
  dsimp only
  rw [h]
  rfl

theorem changeFreeze_hold {s : State} (h : s.seq.state = .hold) :
    changeFreeze true s = freezeSet .hold s.seq.holdRequest true true s := by
  unfold changeFreeze
  dsimp only
  rw [h]
  rfl

theorem changeFreeze_requested {s : State} (h : s.seq.state = .hold) (hrequest : s.seq.holdRequest = true) :
    changeFreeze false s = freezeSet .hold true false false s := by
  unfold changeFreeze
  dsimp only
  rw [h, hrequest]
  rfl

theorem changeFreeze_freed {s : State} (h : s.seq.state = .hold) (hrequest : s.seq.holdRequest = false) :
    changeFreeze false s = enterArmed (s.onSeq fun q => { q with freeze := false }) := by
  unfold changeFreeze
  dsimp only
  rw [h, hrequest]
  rfl

theorem changeFreeze_elsewhere {s : State} {level : Bool}
    (h : s.seq.state = .idle ∨ s.seq.state = .safe ∨ s.seq.state = .armed ∧ level = false) :
    changeFreeze level s = s.onSeq fun q => { q with freeze := level } := by
  unfold changeFreeze
  dsimp only
  rcases h with h | h | ⟨h, rfl⟩ <;> rw [h]

/-- What an edge that only writes the Sequencer leaves when the command ends. -/
theorem edge_seq {n : Fin 8} {ev : List EventSource} {s : State} {f : Sequencer → Sequencer} {q : Sequencer}
    (hraised : Raised ev s (edgeNoticed n s)) (hq : f s.seq = q) :
    (settle ((edgeNoticed n s).onSeq f)).seq = q ∧ Raised ev s (settle ((edgeNoticed n s).onSeq f)) ∧
      KeptBut [.inputs, .seq, .events] s (settle ((edgeNoticed n s).onSeq f)) := by
  have hseq : (edgeNoticed n s).seq = s.seq := edgeNoticed_kept n s .seq (by simp)
  refine ⟨?_, (hraised.trans_none (raised_of_events rfl)).trans_none (settle_events _), settled_kept ?_⟩
  · rw [settle_seq, State.onSeq_seq, hseq, hq]
  · exact KeptBut.then_mono (edgeNoticed_kept n s) (onSeq_kept _ _) (by simp) (by simp)

/-- A FREEZE input's edge that changes the freeze level (R54). -/
theorem freezeEdge_changes {n : Fin 8} {ev : List EventSource} {s t : State} (hraised : Raised ev s (edgeNoticed n s))
    (ht : t = settle (changeFreeze (!s.seq.freeze) (edgeNoticed n s))) :
    t.seq.freeze = !s.seq.freeze ∧ KeptBut [.inputs, .cues, .seq, .lines, .events] s t ∧
      (s.seq.freeze = false → s.seq.state = .armed →
        t.seq = { s.seq with state := .hold, holdRequest := false, holdPin := true, freeze := true } ∧
          Raised ev s t ∧ KeptBut [.inputs, .seq, .events] s t) ∧
      (s.seq.freeze = false → s.seq.state = .hold → t.seq = { s.seq with holdPin := true, freeze := true } ∧
        Raised ev s t ∧ KeptBut [.inputs, .seq, .events] s t) ∧
      (s.seq.freeze = true → s.seq.state = .hold → s.seq.holdRequest = true →
        t.seq = { s.seq with holdPin := false, freeze := false } ∧
          Raised ev s t ∧ KeptBut [.inputs, .seq, .events] s t) ∧
      (s.seq.freeze = true → s.seq.state = .hold → s.seq.holdRequest = false →
        t.seq = { s.seq with state := .armed, holdPin := false, freeze := false, log := t.seq.log } ∧
          (reachedRun s.cues = [] → Raised ev s t ∧ t.seq.log = s.seq.log ∧ KeptBut [.inputs, .seq, .events] s t)) ∧
      (s.seq.state = .idle ∨ s.seq.state = .safe ∨ s.seq.state = .armed ∧ s.seq.freeze = true →
        t.seq = { s.seq with freeze := !s.seq.freeze } ∧ Raised ev s t ∧ KeptBut [.inputs, .seq, .events] s t) := by
  have hseq : (edgeNoticed n s).seq = s.seq := edgeNoticed_kept n s .seq (by simp)
  subst ht
  refine ⟨?_, settled_kept ?_, fun hlevel hstate => ?_, fun hlevel hstate => ?_, fun hlevel hstate hrequest => ?_,
    fun hlevel hstate hrequest => ?_, fun hstate => ?_⟩
  · rw [settle_seq, changeFreeze_freeze]
  · exact KeptBut.then_mono (edgeNoticed_kept n s) (changeFreeze_kept _ _) (by simp) (by simp)
  · rw [hlevel, Bool.not_false, changeFreeze_armed (by rw [hseq]; exact hstate)]
    exact edge_seq hraised rfl
  · rw [hlevel, Bool.not_false, changeFreeze_hold (by rw [hseq]; exact hstate), hseq]
    exact edge_seq hraised (by rw [← hstate])
  · rw [hlevel, Bool.not_true, changeFreeze_requested (by rw [hseq]; exact hstate) (by rw [hseq]; exact hrequest)]
    exact edge_seq hraised (by rw [← hstate, ← hrequest])
  · rw [hlevel, Bool.not_true, changeFreeze_freed (by rw [hseq]; exact hstate) (by rw [hseq]; exact hrequest)]
    constructor
    · rw [settle_seq, enterArmed_seq, State.onSeq_seq, hseq, ← hrequest]
    · intro hnone
      have hcues : (edgeNoticed n s).cues = s.cues := edgeNoticed_kept n s .cues (by simp)
      rw [enterArmed_still (by rw [State.onSeq_cues, hcues]; exact hnone)]
      obtain ⟨hq, hraised', hkept⟩ := edge_seq (n := n) (f := fun q =>
        { q with state := .armed, holdRequest := false, holdPin := false, freeze := false }) hraised rfl
      refine ⟨hraised', ?_, hkept⟩
      have hlog := congrArg Sequencer.log hq
      exact hlog
  · rw [changeFreeze_elsewhere (by rw [hseq]; simpa using hstate)]
    exact edge_seq hraised rfl

/-! ## IN2 as INDEX (R15, R16) -/

theorem acceptInput_index {s : State} (h : s.ins[2].fn = .index) :
    acceptInput 2 s = indexEdge (edgeTo (!s.ins[2].accepted)) (acceptLevel 2 s) := by
  unfold acceptInput
  dsimp only
  rw [show s.ins[(2 : Fin 8)].fn = .index from h]
  rfl

/-- Occurrences behind a jump, and the end of the homing wait, leave what the blocks have taken. -/
theorem jumped_then {key : Key} {xs ys : List EventSource} {s t u : State} (h : Jumped key xs s t)
    (hu : KeptBut [.axis, .inputs, .events] t u) (haxis : ∀ x, recomputeTrack u.axis x = recomputeTrack t.axis x)
    (hraised : Raised ys t u) : Jumped key (xs ++ ys) s u := by
  obtain ⟨h1, h2, h3, h4, h5, h6, h7, h8, h9, h10⟩ := h
  have hcues : u.cues = t.cues := hu .cues (by simp)
  have hcapture : u.capture = t.capture := hu .capture (by simp)
  have hseq : u.seq = t.seq := hu .seq (by simp)
  have hcams : u.cams = t.cams := hu .cams (by simp)
  obtain ⟨harrivals, hlines⟩ := hu .lines (by simp)
  refine ⟨by rw [hcues, h1], by rw [hcapture, h2], by rw [harrivals, h3], by rw [hcams, h4], by rw [hcues, h5],
    by rw [hseq, ← h6], by rw [hcapture]; exact h7, fun n => by rw [hcams, h8, haxis], h9.trans hlines,
    fun hnocue hnowindow => ?_⟩
  obtain ⟨hepisodes, l, gone, horder, hgone, hlist, hlog, hevents⟩ := h10 hnocue hnowindow
  rw [hcapture, hcues, hseq]
  refine ⟨hepisodes, l, gone, horder, hgone, hlist, hlog, ?_⟩
  rw [← List.append_assoc]
  exact raised_append hevents hraised

/-- What follows a homing jump in the same event (R15). -/
def homed (s : State) : State := raise .homed (releaseInput 2 (s.onAxis fun a => { a with homing := false }))

theorem homingJump_eq (s : State) : homingJump s = homed (positionJump ⟨0#16, s.axis.cfg.home⟩ s) := rfl

theorem homed_kept (s : State) : KeptBut [.axis, .inputs, .events] s (homed s) :=
  KeptBut.then_mono (KeptBut.then_mono (onAxis_kept _ _) (releaseInput_kept _ _) (rs := [.axis, .inputs]) (by simp) (by simp))
    (raise_kept _ _) (by simp) (by simp)

theorem homed_in (s : State) (n : Fin 8) : (homed s).ins[n] = if 2 = n then released s.ins[2] else s.ins[n] :=
  releaseInput_in 2 n (s.onAxis fun a => { a with homing := false })

theorem homed_raised (s : State) : Raised [.homed] s (homed s) :=
  raised_append (raised_of_events (s := s) rfl) (raise_raised .homed _)

/-- The rising edge of INDEX that ends the homing wait (R15, R16). -/
theorem homingEdge {s : State} (haccepted : s.ins[2].accepted = false) (hfn : s.ins[2].fn = .index)
    (hhoming : s.axis.homing = true) (hidle : s.seq.state = .idle) :
    acceptInput 2 s = homed (positionJump ⟨0#16, s.axis.cfg.home⟩ (acceptLevel 2 s)) := by
  have hrising : edgeTo (!s.ins[2].accepted) = .rising := congrArg (fun b => edgeTo (!b)) haccepted
  rw [acceptInput_index hfn, indexEdge, if_pos ⟨hrising, hhoming, hidle⟩]
  exact homingJump_eq _

/-- Every other edge of INDEX does nothing (R16). -/
theorem idleEdge {s : State} (hfn : s.ins[2].fn = .index)
    (h : s.ins[2].accepted = true ∨ s.axis.homing = false ∨ s.seq.state ≠ .idle) : acceptInput 2 s = acceptLevel 2 s := by
  rw [acceptInput_index hfn, indexEdge, if_neg]
  rintro ⟨hrising, hhoming, hidle⟩
  rcases h with h | h | h
  · have hfalling : edgeTo (!s.ins[2].accepted) = .falling := congrArg (fun b => edgeTo (!b)) h
    exact Edge.noConfusion (hfalling.symm.trans hrising)
  · exact Bool.noConfusion (h.symm.trans hhoming)
  · exact h hidle

theorem homed_axis (s : State) : (homed s).axis = { s.axis with homing := false } := rfl

theorem homingEdge_jumped {s t : State} (haccepted : s.ins[2].accepted = false) (hfn : s.ins[2].fn = .index)
    (hhoming : s.axis.homing = true) (hidle : s.seq.state = .idle) (ht : t = settle (acceptInput 2 s)) :
    AxisIs { s.axis with current := ⟨0#16, s.axis.cfg.home⟩, lead := ⟨0#16, s.axis.cfg.home⟩, homing := false } t ∧
      t.ins[2] = released { s.ins[2] with accepted := true, pendingSince := none } ∧
      (∀ n : Fin 8, n ≠ 2 → t.ins[n] = s.ins[n]) ∧ Jumped ⟨0#16, s.axis.cfg.home⟩ [.homed] s t ∧
      KeptBut [.axis, .cues, .seq, .capture, .cams, .lines, .inputs, .events] s t := by
  obtain ⟨hjumped, haxis⟩ := positionJump_jumped (s := acceptLevel 2 s) ⟨0#16, s.axis.cfg.home⟩ hidle
  have hins : (positionJump ⟨0#16, s.axis.cfg.home⟩ (acceptLevel 2 s)).ins = (acceptLevel 2 s).ins :=
    positionJump_kept _ _ .inputs (by simp)
  have hpos := positionJump_kept ⟨0#16, s.axis.cfg.home⟩ (acceptLevel 2 s)
  rw [homingEdge haccepted hfn hhoming hidle] at ht
  generalize positionJump ⟨0#16, s.axis.cfg.home⟩ (acceptLevel 2 s) = u at *
  have hsettle : KeptBut [] (homed u) t := by
    rw [ht]
    exact settle_kept _
  have hin : t.ins = (homed u).ins := ins_of_kept hsettle
  have hin2 : (acceptLevel 2 s).ins[(2 : Fin 8)] = { s.ins[2] with accepted := true, pendingSince := none } := by
    have hacc : s.ins[(2 : Fin 8)].accepted = false := haccepted
    rw [acceptLevel_in, if_pos rfl, hacc]
    rfl
  have hthen : Jumped ⟨0#16, s.axis.cfg.home⟩ [.homed] (acceptLevel 2 s) (homed u) :=
    jumped_then hjumped (homed_kept u) (fun _ => rfl) (homed_raised u)
  refine ⟨?_, ?_, fun n hn => ?_, jumped_of_kept (s := s) hthen hsettle, ?_⟩
  · have hax := axisIs_of_kept hsettle
    rw [homed_axis, haxis] at hax
    exact hax
  · rw [hin]
    refine (homed_in u 2).trans ?_
    rw [if_pos rfl]
    refine congrArg released ?_
    rw [hins]
    exact hin2
  · rw [hin, homed_in, if_neg (Ne.symm hn), hins, acceptLevel_in, if_neg (Ne.symm hn)]
  · have hfirst := KeptBut.then_mono (acceptLevel_kept 2 s) hpos
      (rs := [.axis, .cues, .seq, .capture, .cams, .lines, .inputs, .events]) (by simp) (by simp)
    have hsecond := KeptBut.then_mono hfirst (homed_kept u)
      (rs := [.axis, .cues, .seq, .capture, .cams, .lines, .inputs, .events]) (by simp) (by simp)
    exact KeptBut.then_mono hsecond hsettle (by simp) (by simp)

/-- Settles O38. -/
theorem inputEdgeRaisesEventAndFreezes : Obligations.InputEdgeRaisesEventAndFreezes := by
  refine ⟨fun n ev s hrun hdue hev hfn => ?_, fun s hrun hdue hfn => ⟨fun haccepted hhoming hidle => ?_, fun hquiet => ?_⟩⟩
  · have haxis : axisHolds s.ins[n] = false := by
      unfold axisHolds
      rcases hfn with hfn | hfn <;> rw [hfn] <;> rfl
    have hraised := edgeNoticed_raised hev
    have hins : ∀ k : Fin 8, (settle (acceptInput n s)).ins[k] = (acceptLevel n s).ins[k] := by
      intro k
      rw [settle_ins]
      rcases hfn with hfn | hfn
      · rw [acceptInput_general hfn, edgeNoticed_ins]
      · have hkept : (judgeFreeze (edgeNoticed n s)).ins = (edgeNoticed n s).ins := judgeFreeze_kept _ .inputs (by simp)
        rw [acceptInput_freeze hfn, hkept, edgeNoticed_ins]
    have hall : freezeLevel (settle (acceptInput n s)).ins = freezeLevel (edgeNoticed n s).ins := by
      rw [edgeNoticed_ins]
      exact congrArg freezeLevel (Vector.ext fun i hi => hins ⟨i, hi⟩)
    have hseq : (edgeNoticed n s).seq = s.seq := edgeNoticed_kept n s .seq (by simp)
    refine ⟨_, exec_edge_of_not_axis hrun hdue haxis, ?_, fun k hk => ?_, fun hstill => ?_, fun hfreeze hlevel => ?_⟩
    · rw [hins, acceptLevel_in, if_pos rfl]
    · rw [hins, acceptLevel_in, if_neg (Ne.symm hk)]
    · have heq : acceptInput n s = edgeNoticed n s := by
        rcases hfn with hgeneral | hfreeze
        · exact acceptInput_general hgeneral
        · rw [acceptInput_freeze hfreeze]
          refine judgeFreeze_still ?_
          rcases hstill with hgeneral | hlevel
          · exact InputFn.noConfusion (hgeneral.symm.trans hfreeze)
          · rw [← hall, hseq]
            exact hlevel
      rw [heq]
      exact ⟨hraised.trans_none (settle_events _), settled_kept (edgeNoticed_kept n s)⟩
    · refine freezeEdge_changes hraised ?_
      rw [hall, ← hseq] at hlevel
      rw [acceptInput_freeze hfreeze, judgeFreeze_changed hlevel, hseq]
  · have haxis : axisHolds s.ins[(2 : Fin 8)] = false := by
      have hindex : s.ins[(2 : Fin 8)].fn = .index := hfn
      unfold axisHolds
      rw [hindex]
      rfl
    exact ⟨_, exec_edge_of_not_axis hrun hdue haxis, homingEdge_jumped haccepted hfn hhoming hidle rfl⟩
  · have haxis : axisHolds s.ins[(2 : Fin 8)] = false := by
      have hindex : s.ins[(2 : Fin 8)].fn = .index := hfn
      unfold axisHolds
      rw [hindex]
      rfl
    refine ⟨_, exec_edge_of_not_axis hrun hdue haxis, ?_, fun n hn => ?_, ?_⟩
    · rw [idleEdge hfn hquiet, settle_ins]
      exact (acceptLevel_in 2 2 s).trans (if_pos rfl)
    · rw [idleEdge hfn hquiet, settle_ins, acceptLevel_in, if_neg (Ne.symm hn)]
    · rw [idleEdge hfn hquiet]
      exact settled_kept (acceptLevel_kept 2 s)

end Sys2Proof.Machine
end

section
/-! The decoder's lines accept what is due at a stamp, and what QUAD and STEP make of it (R2, R3, notes/assumptions/6). -/

namespace Sys2Proof.Machine

/-! ## A count seen from other states -/

/-- Nothing the end of a command judges is in the terms of a count. -/
theorem CountTaken.kept {forward : Bool} {a : Axis} {s t u : State} (h : CountTaken forward a s t) (hk : KeptBut [] t u) :
    CountTaken forward a s u := by
  obtain ⟨haxis, htracks, hboundaries, hcues, hcapture, harrivals, hlines, hraised⟩ := h
  have hax := axisIs_of_kept hk
  refine ⟨?_, fun n => ?_, by rw [cams_of_kept hk, hboundaries], by rw [cues_of_kept hk, hcues],
    by rw [capture_of_kept hk, hcapture], by rw [arrivals_of_kept hk, harrivals], hlines.trans (lines_of_kept hk),
    hraised.trans_none (hk .events (by simp))⟩
  · unfold AxisIs at haxis hax ⊢
    rw [hax, haxis]
  · rw [cams_of_kept hk, htracks n, recomputeTrack_axisIs hax]

/-- A count behind a change of the axis and of the inputs alone. -/
theorem CountTaken.behind {forward : Bool} {a : Axis} {s u t : State} (h : CountTaken forward a u t)
    (hk : KeptBut [.axis, .inputs] s u) : CountTaken forward a s t := by
  have hcams : u.cams = s.cams := hk .cams (by simp)
  have hcues : u.cues = s.cues := hk .cues (by simp)
  have hcapture : u.capture = s.capture := hk .capture (by simp)
  obtain ⟨harrivals, hlines⟩ := hk .lines (by simp)
  have hevents : Raised [] s u := hk .events (by simp)
  obtain ⟨haxis, htracks, hboundaries, hcues', hcapture', harrivals', hlines', hraised⟩ := h
  rw [hcues] at hcues'
  rw [hcapture] at hcapture'
  rw [harrivals] at harrivals'
  have hswaps : swapsRaised u = swapsRaised s := by
    unfold swapsRaised
    rw [hcams]
  rw [hswaps] at hraised
  have hall := raised_append hevents hraised
  rw [List.nil_append] at hall
  refine ⟨haxis, fun n => ?_, hboundaries, hcues', hcapture', harrivals', hlines.trans hlines', hall⟩
  rw [htracks n, swappedTrack, hcams]
  rfl

/-- The conditions of the axis that stand reported are beside a count. -/
theorem CountTaken.axisIs {forward : Bool} {a b : Axis} {s t : State} (h : CountTaken forward a s t)
    (hab : a = { b with overspeed := a.overspeed, reversed := a.reversed }) : CountTaken forward b s t := by
  rw [hab] at h
  exact h

/-! ## The QUAD decoder (R2) -/

/-- The stored pair follows. -/
def paired (a b : Bool) (s : State) : State := s.onAxis fun x => { x with pairA := a, pairB := b }

/-- The direction of a change of A alone or of B alone (R2). -/
theorem quadChange_single (p q a b : Bool) (h : xor (xor p a) (xor q b) = true) : quadChange p q a b =
    if (if p = a then decide (p ≠ q) else decide (p = q)) then .forward else .backward := by
  revert p q a b
  decide

theorem quadChange_double (p q a b : Bool) (ha : p ≠ a) (hb : q ≠ b) : quadChange p q a b = .double := by
  revert p q a b
  decide

theorem quadChange_same (p q : Bool) : quadChange p q p q = .same := by
  revert p q
  decide

theorem quadDecode_single {a b : Bool} {s : State} (h : xor (xor s.axis.pairA a) (xor s.axis.pairB b) = true) :
    quadDecode a b s = decoderCount (if s.axis.pairA = a then decide (s.axis.pairA ≠ s.axis.pairB)
      else decide (s.axis.pairA = s.axis.pairB)) (paired a b s) := by
  unfold quadDecode
  rw [quadChange_single _ _ _ _ h]
  generalize (if s.axis.pairA = a then decide (s.axis.pairA ≠ s.axis.pairB)
      else decide (s.axis.pairA = s.axis.pairB)) = forward
  cases forward <;> rfl

theorem quadDecode_double {a b : Bool} {s : State} (ha : s.axis.pairA ≠ a) (hb : s.axis.pairB ≠ b) :
    quadDecode a b s = report ⟨.axisSignal, true, some (s.axis.current, s.axis.lead), none⟩ (paired a b s) := by
  unfold quadDecode
  rw [quadChange_double _ _ _ _ ha hb]
  rfl

theorem quadDecode_same {a b : Bool} {s : State} (ha : s.axis.pairA = a) (hb : s.axis.pairB = b) :
    quadDecode a b s = paired a b s := by
  subst ha hb
  unfold quadDecode
  rw [quadChange_same]
  rfl

theorem decoderCount_halted {forward : Bool} {s : State} (h : s.axis.running = false) : decoderCount forward s = s := by
  unfold decoderCount
  rw [h]
  rfl

/-! ## What is due at the two lines -/

theorem edgeDueA_eq {s : State} (h : s.ins[0].fn = .axisA) : edgeDueA s = inputDue s 0 := by
  have hfn : s.ins[(0 : Fin 8)].fn = .axisA := h
  rw [edgeDueA, show decide (s.ins[0].fn = .axisA) = true from decide_eq_true hfn, Bool.and_true]

theorem edgeDueB_eq {s : State} (h : s.ins[1].fn = .axisB) : edgeDueB s = inputDue s 1 := by
  have hfn : s.ins[(1 : Fin 8)].fn = .axisB := h
  rw [edgeDueB, show decide (s.ins[1].fn = .axisB) = true from decide_eq_true hfn, Bool.and_true]

/-- A line of the decoder with its due change accepted. -/
def acceptedIf (due : Bool) (i : InLine) : InLine :=
  if due then { i with accepted := xor i.accepted due, pendingSince := none } else i

theorem acceptLevel_if (due : Bool) (k n : Fin 8) (s : State) :
    (if due then acceptLevel k s else s).ins[n] = if k = n then acceptedIf due s.ins[k] else s.ins[n] := by
  cases due
  · rw [if_neg Bool.false_ne_true]
    split
    · rename_i h
      rw [h]
      rfl
    · rfl
  · rw [if_pos rfl, acceptLevel_in, acceptedIf]
    simp

theorem edgesMarked_in (n : Fin 8) (s : State) : (edgesMarked s).ins[n] =
    if 1 = n then acceptedIf (edgeDueB s) s.ins[n] else if 0 = n then acceptedIf (edgeDueA s) s.ins[n] else s.ins[n] := by
  have hsecond := acceptLevel_if (edgeDueB s) 1 n (if edgeDueA s then acceptLevel 0 s else s)
  have hfirst := acceptLevel_if (edgeDueA s) 0 n s
  have hone := acceptLevel_if (edgeDueA s) 0 1 s
  refine hsecond.trans ?_
  by_cases h1 : (1 : Fin 8) = n
  · subst h1
    rw [if_pos rfl, if_pos rfl, hone, if_neg (by decide)]
  · rw [if_neg h1, if_neg h1, hfirst]
    split
    · rename_i h
      rw [h]
    · rfl

theorem edgesMarked_kept (s : State) : KeptBut [.axis, .inputs] s (edgesMarked s) := by
  have hlevel : ∀ (due : Bool) (k : Fin 8) (t : State), KeptBut [.inputs] t (if due then acceptLevel k t else t) :=
    fun due k t => KeptBut.ite (acceptLevel_kept k t) (KeptBut.refl _ _)
  have hlevels := KeptBut.then_mono (hlevel (edgeDueA s) 0 s) (hlevel (edgeDueB s) 1 _) (rs := [.inputs]) (by simp) (by simp)
  exact KeptBut.then_mono hlevels (onAxis_kept _ _) (by simp) (by simp)

theorem edgesMarked_axis (s : State) : (edgesMarked s).axis = { s.axis with
    takenA := s.axis.takenA || (edgeDueA s && actsOnA s.axis.cfg.source (!s.ins[0].accepted))
    takenB := s.axis.takenB || edgeDueB s } := by
  have hlevel : ∀ (due : Bool) (k : Fin 8) (t : State), (if due then acceptLevel k t else t).axis = t.axis := by
    intro due k t
    cases due <;> rfl
  have hlevels : (levelsAccepted s).axis = s.axis := (hlevel (edgeDueB s) 1 _).trans (hlevel (edgeDueA s) 0 s)
  rw [edgesMarked, State.onAxis_axis, hlevels]

/-! ## The end of an edge of the decoder -/

/-- The state `t` after the end of an edge of the decoder that made the part `u`: no checkpoint is in these terms. -/
def EdgeEnds (u t : State) : Prop := KeptBut [] u t ∧ ∀ r ∈ u.faults.inbox, r ∈ t.faults.inbox

theorem exec_axisEdge {s : State} {n : Fin 8} (hrun : s.phase = .running) (hdue : inputDue s n = true) :
    exec (.inputEdgeAccepted n) s = .next (leaveOpen n s (settle (acceptInput n s))) := by
  have hexec : exec (.inputEdgeAccepted n) s = execInputEdgeAccepted n s := rfl
  rw [hexec, execInputEdgeAccepted, if_pos ⟨hrun, hdue⟩]

theorem edgeEnds_leaveOpen {s : State} {n : Fin 8} (haxis : axisHolds s.ins[n] = true) :
    EdgeEnds (acceptAxis s) (leaveOpen n s (settle (acceptInput n s))) := by
  rw [acceptInput_of_axisHolds haxis]
  have hinbox : (leaveOpen n s (settle (acceptAxis s))).faults = (settle (acceptAxis s)).faults := by
    unfold leaveOpen
    split <;> rfl
  refine ⟨KeptBut.then_mono (settle_kept _) (leaveOpen_kept n s _) (by simp) (by simp), fun r hr => ?_⟩
  rw [hinbox]
  exact mem_settle_inbox hr

/-! ## What the decoder makes of an edge -/

/-- What the statement says of QUAD: `u` is the part with the levels accepted. -/
theorem quadEdge_taken {s u t : State} {a : Axis} {newA newB : Bool} (hu : KeptBut [.axis, .inputs] s u)
    (haxis : (paired newA newB u).axis = a) (hA : u.axis.pairA = s.axis.pairA) (hB : u.axis.pairB = s.axis.pairB)
    (hpoints : (u.axis.current, u.axis.lead) = (s.axis.current, s.axis.lead)) (hrunning : a.running = s.axis.running)
    (ht : EdgeEnds (quadDecode newA newB u) t) :
    (xor (xor s.axis.pairA newA) (xor s.axis.pairB newB) = true → s.axis.running = true →
      CountTaken (if s.axis.pairA = newA then decide (s.axis.pairA ≠ s.axis.pairB)
        else decide (s.axis.pairA = s.axis.pairB)) a s t) ∧
    (xor (xor s.axis.pairA newA) (xor s.axis.pairB newB) = true → s.axis.running = false →
      AxisIs a t ∧ KeptBut [.axis, .inputs] s t) ∧
    (s.axis.pairA ≠ newA → s.axis.pairB ≠ newB → AxisIs a t ∧ KeptBut [.axis, .inputs] s t ∧
      (⟨.axisSignal, true, some (s.axis.current, s.axis.lead), none⟩ : Report) ∈ t.faults.inbox) ∧
    (s.axis.pairA = newA → s.axis.pairB = newB → AxisIs a t ∧ KeptBut [.axis, .inputs] s t) := by
  have hpaired : KeptBut [.axis, .inputs] s (paired newA newB u) :=
    KeptBut.then_mono hu (onAxis_kept _ _) (by simp) (by simp)
  obtain ⟨hend, hinbox⟩ := ht
  refine ⟨fun hsingle hrun => ?_, fun hsingle hrun => ?_, fun hdA hdB => ?_, fun hdA hdB => ?_⟩
  · rw [quadDecode_single (by rw [hA, hB]; exact hsingle), hA, hB] at hend
    have hcount := decoderCount_spec (if s.axis.pairA = newA then decide (s.axis.pairA ≠ s.axis.pairB)
      else decide (s.axis.pairA = s.axis.pairB)) (paired newA newB u) (by rw [haxis, hrunning, hrun])
    rw [haxis] at hcount
    exact CountTaken.behind (CountTaken.kept hcount hend) hpaired
  · rw [quadDecode_single (by rw [hA, hB]; exact hsingle), decoderCount_halted (by rw [haxis, hrunning, hrun])] at hend
    have hax := axisIs_of_kept hend
    rw [haxis] at hax
    exact ⟨hax, KeptBut.then_mono hpaired hend (by simp) (by simp)⟩
  · rw [quadDecode_double (by rw [hA]; exact hdA) (by rw [hB]; exact hdB), hpoints] at hend hinbox
    have hax : AxisIs (paired newA newB u).axis t := axisIs_of_kept hend
    rw [haxis] at hax
    refine ⟨hax, KeptBut.then_mono hpaired ((report_kept _ _).trans hend) (by simp) (by simp), hinbox _ ?_⟩
    simp [report]
  · rw [quadDecode_same (by rw [hA]; exact hdA) (by rw [hB]; exact hdB)] at hend
    have hax := axisIs_of_kept hend
    rw [haxis] at hax
    exact ⟨hax, KeptBut.then_mono hpaired hend (by simp) (by simp)⟩

/-- What the statement says of STEP. -/
theorem stepEdge_taken {s u t : State} {a : Axis} {rises newB : Bool} (hu : KeptBut [.axis, .inputs] s u)
    (haxis : u.axis = a) (hrunning : a.running = s.axis.running)
    (ht : EdgeEnds (if rises then decoderCount newB u else u) t) :
    (rises = true → s.axis.running = true → CountTaken newB a s t) ∧
      (rises = false ∨ s.axis.running = false → AxisIs a t ∧ KeptBut [.axis, .inputs] s t) := by
  obtain ⟨hend, -⟩ := ht
  constructor
  · intro hrises hrun
    rw [if_pos hrises] at hend
    have hcount := decoderCount_spec newB u (by rw [haxis, hrunning, hrun])
    rw [haxis] at hcount
    exact CountTaken.behind (CountTaken.kept hcount hend) hu
  · intro hquiet
    have hsame : (if rises then decoderCount newB u else u) = u := by
      rcases hquiet with h | h
      · rw [h]
        rfl
      · rw [decoderCount_halted (by rw [haxis, hrunning, h]), ite_self]
    rw [hsame] at hend
    have hax := axisIs_of_kept hend
    rw [haxis] at hax
    exact ⟨hax, KeptBut.then_mono hu hend (by simp) (by simp)⟩

end Sys2Proof.Machine
end

section
/-! QUAD and STEP at the edges of one stamp (R2, R3, R5, R7, R18, notes/assumptions/6). -/

namespace Sys2Proof.Machine

theorem decode_quad {r a b : Bool} {s : State} (h : s.axis.cfg.source = .quad) : decode r a b s = quadDecode a b s := by
  unfold decode
  rw [h]

theorem decode_step {r a b : Bool} {s : State} (h : s.axis.cfg.source = .step) :
    decode r a b s = if r then decoderCount b s else s := by
  unfold decode
  rw [h]

theorem acceptedIf_accepted (due : Bool) (i : InLine) : (acceptedIf due i).accepted = xor i.accepted due := by
  cases due <;> simp [acceptedIf]

/-- The lines of the decoder after an edge, from which of them were due. -/
def EdgeLevels (dueA dueB : Bool) (s t : State) : Prop :=
  t.ins[0] = acceptedIf dueA s.ins[0] ∧ t.ins[1] = acceptedIf dueB s.ins[1] ∧ ∀ m : Fin 8, 2 ≤ m.val → t.ins[m] = s.ins[m]

theorem edgesMarked_levels {s : State} (hA : s.ins[0].fn = .axisA) (hB : s.ins[1].fn = .axisB) :
    EdgeLevels (inputDue s 0) (inputDue s 1) s (edgesMarked s) := by
  rw [← edgeDueA_eq hA, ← edgeDueB_eq hB]
  refine ⟨edgesMarked_in 0 s, edgesMarked_in 1 s, fun m hm => ?_⟩
  rw [edgesMarked_in, if_neg, if_neg]
  · rintro rfl
    exact absurd hm (by decide)
  · rintro rfl
    exact absurd hm (by decide)

/-- An edge of either line accepts what is due at both, and the decoder takes the two levels (R2, R3). -/
theorem decoderEdge {s : State} {n : Fin 8} (hrun : s.phase = .running) (hA : s.ins[0].fn = .axisA)
    (hB : s.ins[1].fn = .axisB) (hn : n = 0 ∨ n = 1) (hdue : inputDue s n = true) :
    ∃ t, exec (.inputEdgeAccepted n) s = .next t ∧ EdgeLevels (inputDue s 0) (inputDue s 1) s t ∧
      t = leaveOpen n s (settle (acceptInput n s)) ∧
      EdgeEnds (decode (inputDue s 0 && xor s.ins[0].accepted (inputDue s 0)) (xor s.ins[0].accepted (inputDue s 0))
        (xor s.ins[1].accepted (inputDue s 1)) (edgesMarked s)) t := by
  have haxis : axisHolds s.ins[n] = true := by
    unfold axisHolds
    rcases hn with rfl | rfl
    · rw [show s.ins[(0 : Fin 8)].fn = .axisA from hA]
      rfl
    · rw [show s.ins[(1 : Fin 8)].fn = .axisB from hB]
      rfl
  have hends := edgeEnds_leaveOpen haxis
  have hlevels := edgesMarked_levels hA hB
  have heq : acceptAxis s = decode (inputDue s 0 && xor s.ins[0].accepted (inputDue s 0))
      (xor s.ins[0].accepted (inputDue s 0)) (xor s.ins[1].accepted (inputDue s 1)) (edgesMarked s) := by
    have h0 : (edgesMarked s).ins[0].accepted = xor s.ins[0].accepted (inputDue s 0) :=
      (congrArg InLine.accepted hlevels.1).trans (acceptedIf_accepted _ _)
    have h1 : (edgesMarked s).ins[1].accepted = xor s.ins[1].accepted (inputDue s 1) :=
      (congrArg InLine.accepted hlevels.2.1).trans (acceptedIf_accepted _ _)
    rw [acceptAxis_decode, edgeDueA_eq hA, h0, h1]
  have hins : (leaveOpen n s (settle (acceptInput n s))).ins = (edgesMarked s).ins := by
    have hdecode : (acceptAxis s).ins = (edgesMarked s).ins := by
      rw [heq]
      exact decode_kept _ _ _ _ .inputs (by simp)
    exact (ins_of_kept hends.1).trans hdecode
  refine ⟨_, exec_axisEdge hrun hdue, ?_, rfl, by rw [← heq]; exact hends⟩
  unfold EdgeLevels
  rw [hins]
  exact hlevels

theorem edgesMarked_axis_due {s : State} (hA : s.ins[0].fn = .axisA) (hB : s.ins[1].fn = .axisB) :
    (edgesMarked s).axis = { s.axis with
      takenA := s.axis.takenA || (inputDue s 0 && actsOnA s.axis.cfg.source (!s.ins[0].accepted))
      takenB := s.axis.takenB || inputDue s 1 } := by
  rw [edgesMarked_axis, edgeDueA_eq hA, edgeDueB_eq hB]

theorem edgesMarked_source (s : State) : (edgesMarked s).axis.cfg = s.axis.cfg := by rw [edgesMarked_axis]

/-- The axis of QUAD with the levels accepted and the new pair. -/
theorem paired_marked {s : State} (newA newB : Bool) (hA : s.ins[0].fn = .axisA) (hB : s.ins[1].fn = .axisB)
    (hsource : s.axis.cfg.source = .quad) : (paired newA newB (edgesMarked s)).axis = { s.axis with
      pairA := newA, pairB := newB, takenA := s.axis.takenA || inputDue s 0, takenB := s.axis.takenB || inputDue s 1 } := by
  rw [paired, State.onAxis_axis, edgesMarked_axis_due hA hB, hsource]
  simp [actsOnA]

/-- The axis of STEP with the levels accepted. -/
theorem stepped_marked {s : State} (hA : s.ins[0].fn = .axisA) (hB : s.ins[1].fn = .axisB)
    (hsource : s.axis.cfg.source = .step) : (edgesMarked s).axis = { s.axis with
      takenA := s.axis.takenA || (inputDue s 0 && xor s.ins[0].accepted (inputDue s 0))
      takenB := s.axis.takenB || inputDue s 1 } := by
  rw [edgesMarked_axis_due hA hB, hsource]
  cases inputDue s 0 <;> simp [actsOnA]

/-! ## The first edge taken again with the later one (notes/assumptions/6) -/

/-- What the decoder does leaves its source and its marks. -/
theorem decode_marks (r a b : Bool) (s : State) : (decode r a b s).axis.cfg.source = s.axis.cfg.source ∧
    (decode r a b s).axis.takenA = s.axis.takenA ∧ (decode r a b s).axis.takenB = s.axis.takenB := by
  have hcount : ∀ (forward : Bool) (t : State), (decoderCount forward t).axis.cfg.source = t.axis.cfg.source ∧
      (decoderCount forward t).axis.takenA = t.axis.takenA ∧ (decoderCount forward t).axis.takenB = t.axis.takenB := by
    intro forward t
    cases hrun : t.axis.running
    · rw [decoderCount_halted hrun]
      exact ⟨rfl, rfl, rfl⟩
    · have haxis := (decoderCount_spec forward t hrun).1
      unfold AxisIs at haxis
      rw [haxis]
      exact ⟨rfl, rfl, rfl⟩
  unfold decode
  split
  · unfold quadDecode
    dsimp only
    split
    · exact ⟨rfl, rfl, rfl⟩
    · exact hcount true (s.onAxis _)
    · exact hcount false (s.onAxis _)
    · exact ⟨rfl, rfl, rfl⟩
  · split
    · exact hcount b s
    · exact ⟨rfl, rfl, rfl⟩
  · exact ⟨rfl, rfl, rfl⟩

/-- The first edge of a stamp leaves it open. -/
theorem leaveOpen_first {s t : State} {n : Fin 8} (haxis : axisHolds s.ins[n] = true) (hA : s.axis.takenA = false)
    (hB : s.axis.takenB = false) : leaveOpen n s t = { t with checkpoint := some (checkpointOf s) } := by
  rw [leaveOpen, haxis, hA, hB]
  rfl

/-- The first edge shares its stamp with a change of the other line (R2, R3). -/
def SharedEdge (n m : Fin 8) (s : State) : Prop :=
  (n = 0 ∧ m = 1 ∨ n = 1 ∧ m = 0) ∧ (s.axis.cfg.source = .quad ∨ s.axis.cfg.source = .step ∧ n = 0 ∧ s.ins[0].accepted = false)

/-- The marks after the first edge of a stamp. -/
theorem firstEdge_marks {s t : State} {r a b : Bool} (hA : s.ins[0].fn = .axisA) (hB : s.ins[1].fn = .axisB)
    (ht : KeptBut [] (decode r a b (edgesMarked s)) t) : t.axis.cfg.source = s.axis.cfg.source ∧
      t.axis.takenA = (s.axis.takenA || (inputDue s 0 && actsOnA s.axis.cfg.source (!s.ins[0].accepted))) ∧
      t.axis.takenB = (s.axis.takenB || inputDue s 1) := by
  have hax := axisIs_of_kept ht
  unfold AxisIs at hax
  obtain ⟨hsource, htakenA, htakenB⟩ := decode_marks r a b (edgesMarked s)
  rw [edgesMarked_axis_due hA hB] at hsource htakenA htakenB
  rw [hax]
  exact ⟨hsource, htakenA, htakenB⟩

/-- The other line's change shares the stamp of the first edge. -/
theorem sharedEdge_shares {s t : State} {n m : Fin 8} (h : SharedEdge n m s) (hA : s.ins[0].fn = .axisA)
    (hB : s.ins[1].fn = .axisB) (hdue : inputDue s n = true) (hfilter : s.ins[m].filter = 0) (hin : t.ins[m] = s.ins[m])
    (hmarks : t.axis.cfg.source = s.axis.cfg.source ∧
      t.axis.takenA = (s.axis.takenA || (inputDue s 0 && actsOnA s.axis.cfg.source (!s.ins[0].accepted))) ∧
      t.axis.takenB = (s.axis.takenB || inputDue s 1)) : sharesStamp t m = true := by
  obtain ⟨hsource, htakenA, htakenB⟩ := hmarks
  obtain ⟨⟨rfl, rfl⟩ | ⟨rfl, rfl⟩, hboth⟩ := h
  · have hacts : actsOnA s.axis.cfg.source (!s.ins[0].accepted) = true := by
      rcases hboth with hquad | ⟨hstep, -, hlow⟩
      · rw [hquad]
        rfl
      · rw [hstep, hlow]
        rfl
    rw [hdue, hacts, Bool.and_self, Bool.or_true] at htakenA
    rw [sharesStamp, hin, hfilter, hsource, show s.ins[(1 : Fin 8)].fn = .axisB from hB, htakenA]
    rcases hboth with hquad | ⟨hstep, -, -⟩
    · rw [hquad]
      rfl
    · rw [hstep]
      rfl
  · rw [hdue, Bool.or_true] at htakenB
    have hquad : s.axis.cfg.source = .quad := by
      rcases hboth with hquad | ⟨-, hn, -⟩
      · exact hquad
      · exact absurd hn (by decide)
    rw [sharesStamp, hin, hfilter, hsource, show s.ins[(0 : Fin 8)].fn = .axisA from hA, htakenB, hquad]
    rfl

/-- A line at rest is not due. -/
theorem inputDue_of_none {s : State} {n : Fin 8} (h : s.ins[n].pendingSince = none) : inputDue s n = false := by
  rw [inputDue, h]

theorem inputDue_of_same {s t : State} {n : Fin 8} (hstamp : t.stamp = s.stamp) (hin : t.ins[n] = s.ins[n]) :
    inputDue t n = inputDue s n := by
  rw [inputDue, inputDue, hstamp, hin]

theorem edgeLevels_atRest {dueA dueB : Bool} {s t : State} {n m : Fin 8} (h : EdgeLevels dueA dueB s t)
    (hnm : n = 0 ∧ m = 1 ∨ n = 1 ∧ m = 0) (hm : (if m = 0 then dueA else dueB) = false) : t.ins[m] = s.ins[m] := by
  obtain ⟨h0, h1, -⟩ := h
  rcases hnm with ⟨rfl, rfl⟩ | ⟨rfl, rfl⟩
  · have hB : dueB = false := hm
    subst hB
    exact h1
  · have hA : dueA = false := hm
    subst hA
    exact h0

/-- The first edge of a stamp is taken again with the change of the other line: the change finds the part as it was before the
edge, and both lines are due (notes/assumptions/6). -/
theorem edge_then_change {s : State} {n m : Fin 8} (hrun : s.phase = .running) (hA : s.ins[0].fn = .axisA)
    (hB : s.ins[1].fn = .axisB) (hshared : SharedEdge n m s) (htakenA : s.axis.takenA = false)
    (htakenB : s.axis.takenB = false) (hdue : inputDue s n = true) (hnone : s.ins[m].pendingSince = none)
    (hfilter : s.ins[m].filter = 0) :
    ∃ t u, exec (.inputEdgeAccepted n) s = .next t ∧ exec (.inputRawChange m (!s.ins[m].accepted)) t = .next u ∧
      KeptBut [.inputs] s u ∧ u.ins[m] = { s.ins[m] with raw := !s.ins[m].accepted, pendingSince := some s.stamp } ∧
      (∀ k : Fin 8, k ≠ m → u.ins[k] = s.ins[k]) ∧ inputDue u m = true ∧ inputDue u n = true := by
  have hnm := hshared.1
  have hn : n = 0 ∨ n = 1 := hnm.imp And.left And.left
  have hne : n ≠ m := by
    rcases hnm with ⟨rfl, rfl⟩ | ⟨rfl, rfl⟩ <;> decide
  have haxis : axisHolds s.ins[n] = true := by
    unfold axisHolds
    rcases hn with rfl | rfl
    · rw [show s.ins[(0 : Fin 8)].fn = .axisA from hA]
      rfl
    · rw [show s.ins[(1 : Fin 8)].fn = .axisB from hB]
      rfl
  obtain ⟨t, ht, hlevels, hopen, hends⟩ := decoderEdge hrun hA hB hn hdue
  rw [leaveOpen_first haxis htakenA htakenB] at hopen
  have hrest : t.ins[m] = s.ins[m] := by
    refine edgeLevels_atRest hlevels hnm ?_
    have hm := inputDue_of_none hnone
    rcases hnm with ⟨rfl, rfl⟩ | ⟨rfl, rfl⟩
    · exact hm
    · exact hm
  have hshares : sharesStamp t m = true :=
    sharedEdge_shares hshared hA hB hdue hfilter hrest (firstEdge_marks hA hB hends.1)
  have hback : KeptBut [] s (backTo (checkpointOf s) t) := by
    rw [hopen]
    exact edge_reopens haxis
  have hphase : t.phase = .running := (hback .clock (by simp)).2.1.trans hrun
  have htake : takeRawChange m (!s.ins[m].accepted) t =
      rawTaken m (!s.ins[m].accepted) (backTo (checkpointOf s) t) := by
    have hstart : startsPending (!s.ins[m].accepted) t.ins[m] = true := by
      rw [startsPending, hrest, hnone]
      simp
    have hcheckpoint : t.checkpoint = some (checkpointOf s) := by rw [hopen]
    rw [takeRawChange_eq, hstart, hshares, hcheckpoint]
    rfl
  obtain ⟨u, hu, hline, hduem, hothers, hkept⟩ := rawChangeTaken_of hphase htake
  have hins : (backTo (checkpointOf s) t).ins = s.ins := rfl
  have hstamp : (backTo (checkpointOf s) t).stamp = s.stamp := (hback .clock (by simp)).2.2.1
  have hchange : (!s.ins[m].accepted) ≠ s.ins[m].accepted := Bool.not_ne_self _
  rw [hins] at hline hduem hothers
  rw [if_neg hchange, hnone, hstamp] at hline
  have hall := KeptBut.then_mono hback hkept (rs := [.inputs]) (by simp) (by simp)
  refine ⟨t, u, ht, hu, hall, hline, hothers, hduem hchange hnone hfilter, ?_⟩
  rw [inputDue_of_same (hall .clock (by simp)).2.2.1 (hothers n hne)]
  exact hdue

/-- The edge after the change takes both lines together (notes/assumptions/6); `u` is the part before it. -/
theorem bothEdges {s : State} {n m k : Fin 8} (hrun : s.phase = .running) (hA : s.ins[0].fn = .axisA)
    (hB : s.ins[1].fn = .axisB) (hshared : SharedEdge n m s) (hk : k = n ∨ k = m) (htakenA : s.axis.takenA = false)
    (htakenB : s.axis.takenB = false) (hdue : inputDue s n = true) (hnone : s.ins[m].pendingSince = none)
    (hfilter : s.ins[m].filter = 0) :
    ∃ u v, Runs [.inputEdgeAccepted n, .inputRawChange m (!s.ins[m].accepted), .inputEdgeAccepted k] s v ∧
      v.ins[n] = { s.ins[n] with accepted := !s.ins[n].accepted, pendingSince := none } ∧
      v.ins[m] = { s.ins[m] with raw := !s.ins[m].accepted, accepted := !s.ins[m].accepted } ∧
      (∀ i : Fin 8, 2 ≤ i.val → v.ins[i] = s.ins[i]) ∧
      KeptBut [.inputs] s u ∧ u.ins[0].fn = .axisA ∧ u.ins[1].fn = .axisB ∧
      (inputDue u 0 = true ∧ inputDue u 1 = true) ∧ u.ins[0].accepted = s.ins[0].accepted ∧
      EdgeEnds (decode (!s.ins[0].accepted) (!s.ins[0].accepted) (!s.ins[1].accepted) (edgesMarked u)) v := by
  obtain ⟨t, u, ht, hu, hkept, hline, hothers, hdue_m, hdue_n⟩ :=
    edge_then_change hrun hA hB hshared htakenA htakenB hdue hnone hfilter
  have hnm := hshared.1
  have hne : n ≠ m := by
    rcases hnm with ⟨rfl, rfl⟩ | ⟨rfl, rfl⟩ <;> decide
  have hfields : ∀ i : Fin 8, u.ins[i].fn = s.ins[i].fn ∧ u.ins[i].accepted = s.ins[i].accepted := by
    intro i
    by_cases hi : i = m
    · subst hi
      rw [hline]
      exact ⟨rfl, rfl⟩
    · rw [hothers i hi]
      exact ⟨rfl, rfl⟩
  have hduek : inputDue u k = true := by
    rcases hk with rfl | rfl
    · exact hdue_n
    · exact hdue_m
  have hk01 : k = 0 ∨ k = 1 := by
    rcases hk with rfl | rfl <;> rcases hnm with ⟨rfl, rfl⟩ | ⟨rfl, rfl⟩ <;> decide
  have hboth : inputDue u 0 = true ∧ inputDue u 1 = true := by
    rcases hnm with ⟨rfl, rfl⟩ | ⟨rfl, rfl⟩
    · exact ⟨hdue_n, hdue_m⟩
    · exact ⟨hdue_m, hdue_n⟩
  have hfnA : u.ins[0].fn = .axisA := (hfields 0).1.trans hA
  have hfnB : u.ins[1].fn = .axisB := (hfields 1).1.trans hB
  have hacc0 : u.ins[0].accepted = s.ins[0].accepted := (hfields 0).2
  have hacc1 : u.ins[1].accepted = s.ins[1].accepted := (hfields 1).2
  obtain ⟨v, hv, hlevels, -, hends⟩ :=
    decoderEdge ((hkept .clock (by simp)).2.1.trans hrun) hfnA hfnB hk01 hduek
  rw [hboth.1, hboth.2, hacc0, hacc1, Bool.true_and, Bool.xor_true, Bool.xor_true] at hends
  rw [hboth.1, hboth.2] at hlevels
  obtain ⟨hlevelA, hlevelB, hrest⟩ := hlevels
  have htaken : ∀ i : Fin 8, i = n ∨ i = m → v.ins[i] = acceptedIf true u.ins[i] := by
    intro i hi
    have hi01 : i = 0 ∨ i = 1 := by
      rcases hi with rfl | rfl <;> rcases hnm with ⟨rfl, rfl⟩ | ⟨rfl, rfl⟩ <;> decide
    rcases hi01 with rfl | rfl
    · exact hlevelA
    · exact hlevelB
  refine ⟨u, v, ⟨t, ht, u, hu, v, hv, rfl⟩, ?_, ?_, fun i hi => ?_, hkept, hfnA, hfnB, hboth, hacc0, hends⟩
  · rw [htaken n (.inl rfl), hothers n hne]
    simp [acceptedIf]
  · rw [htaken m (.inr rfl), hline]
    simp [acceptedIf, ← hnone]
  · have him : i ≠ m := by
      rintro rfl
      rcases hnm with ⟨-, rfl⟩ | ⟨-, rfl⟩ <;> exact absurd hi (by decide)
    rw [hrest i hi, hothers i him]

/-- What an edge of the decoder can change. -/
theorem edgeEnds_kept {s u t : State} {r a b : Bool} (hu : KeptBut [.axis, .inputs] s u) (h : EdgeEnds (decode r a b u) t) :
    KeptBut [.axis, .inputs, .cams, .cues, .capture, .lines, .events] s t := by
  have hdecode := KeptBut.then_mono hu (decode_kept r a b u)
    (rs := [.axis, .inputs, .cams, .cues, .capture, .lines, .events]) (by simp) (by simp)
  exact KeptBut.then_mono hdecode h.1 (by simp) (by simp)

/-- QUAD takes the two edges of a stamp as a double change. -/
theorem quadEdges_together {s : State} {n m k : Fin 8} (hrun : s.phase = .running) (hA : s.ins[0].fn = .axisA)
    (hB : s.ins[1].fn = .axisB) (hnm : n = 0 ∧ m = 1 ∨ n = 1 ∧ m = 0) (hk : k = n ∨ k = m)
    (htakenA : s.axis.takenA = false) (htakenB : s.axis.takenB = false) (hdue : inputDue s n = true)
    (hnone : s.ins[m].pendingSince = none) (hfilter : s.ins[m].filter = 0) (hsource : s.axis.cfg.source = .quad)
    (hpairA : s.axis.pairA = s.ins[0].accepted) (hpairB : s.axis.pairB = s.ins[1].accepted) :
    ∃ t, Runs [.inputEdgeAccepted n, .inputRawChange m (!s.ins[m].accepted), .inputEdgeAccepted k] s t ∧
      AxisIs { s.axis with pairA := !s.axis.pairA, pairB := !s.axis.pairB, takenA := true, takenB := true } t ∧
      (⟨.axisSignal, true, some (s.axis.current, s.axis.lead), none⟩ : Report) ∈ t.faults.inbox ∧
      t.ins[n] = { s.ins[n] with accepted := !s.ins[n].accepted, pendingSince := none } ∧
      t.ins[m] = { s.ins[m] with raw := !s.ins[m].accepted, accepted := !s.ins[m].accepted } ∧
      (∀ i : Fin 8, 2 ≤ i.val → t.ins[i] = s.ins[i]) ∧ KeptBut [.axis, .inputs] s t := by
  obtain ⟨u, v, hruns, hn, hm, hrest, hkept, hfnA, hfnB, hboth, -, hends⟩ :=
    bothEdges hrun hA hB ⟨hnm, .inl hsource⟩ hk htakenA htakenB hdue hnone hfilter
  have hax : AxisIs s.axis u := hkept .axis (by simp)
  unfold AxisIs at hax
  have husource : u.axis.cfg.source = .quad := by rw [hax]; exact hsource
  rw [decode_quad (by rw [edgesMarked_source, husource]), ← hpairA, ← hpairB] at hends
  have hmarked := paired_marked (!s.axis.pairA) (!s.axis.pairB) hfnA hfnB husource
  rw [hboth.1, hboth.2, Bool.or_true, Bool.or_true] at hmarked
  have hpoints : ((edgesMarked u).axis.current, (edgesMarked u).axis.lead) = (s.axis.current, s.axis.lead) := by
    rw [edgesMarked_axis, hax]
  obtain ⟨-, -, hdouble, -⟩ := quadEdge_taken (s := s)
    (KeptBut.then_mono hkept (edgesMarked_kept u) (by simp) (by simp)) hmarked (by rw [edgesMarked_axis, hax])
    (by rw [edgesMarked_axis, hax]) hpoints (by rw [hax]) hends
  obtain ⟨haxis, hall, hreport⟩ := hdouble (Bool.not_ne_self _).symm (Bool.not_ne_self _).symm
  refine ⟨v, hruns, ?_, hreport, hn, hm, hrest, hall⟩
  unfold AxisIs at haxis ⊢
  rw [haxis, hax]

/-- STEP takes the two edges of a stamp as one count in the new direction. -/
theorem stepEdges_together {s : State} {n m k : Fin 8} (hrun : s.phase = .running) (hA : s.ins[0].fn = .axisA)
    (hB : s.ins[1].fn = .axisB) (hnm : n = 0 ∧ m = 1 ∨ n = 1 ∧ m = 0) (hk : k = n ∨ k = m)
    (htakenA : s.axis.takenA = false) (htakenB : s.axis.takenB = false) (hdue : inputDue s n = true)
    (hnone : s.ins[m].pendingSince = none) (hfilter : s.ins[m].filter = 0) (hsource : s.axis.cfg.source = .step)
    (hn0 : n = 0) (hlow : s.ins[0].accepted = false) :
    ∃ t, Runs [.inputEdgeAccepted n, .inputRawChange m (!s.ins[m].accepted), .inputEdgeAccepted k] s t ∧
      t.ins[0] = { s.ins[0] with accepted := true, pendingSince := none } ∧
      t.ins[1] = { s.ins[1] with raw := !s.ins[1].accepted, accepted := !s.ins[1].accepted } ∧
      (∀ i : Fin 8, 2 ≤ i.val → t.ins[i] = s.ins[i]) ∧
      (s.axis.running = true → CountTaken (!s.ins[1].accepted) { s.axis with takenA := true, takenB := true } s t ∧
        KeptBut [.axis, .inputs, .cams, .cues, .capture, .lines, .events] s t) ∧
      (s.axis.running = false → AxisIs { s.axis with takenA := true, takenB := true } t ∧ KeptBut [.axis, .inputs] s t) := by
  obtain ⟨u, v, hruns, hn, hm, hrest, hkept, hfnA, hfnB, hboth, hacc0, hends⟩ :=
    bothEdges hrun hA hB ⟨hnm, .inr ⟨hsource, hn0, hlow⟩⟩ hk htakenA htakenB hdue hnone hfilter
  have hm1 : m = 1 := by
    rcases hnm with ⟨-, hm1⟩ | ⟨hn1, -⟩
    · exact hm1
    · exact absurd (hn0.symm.trans hn1) (by decide)
  subst hn0 hm1
  have hax : AxisIs s.axis u := hkept .axis (by simp)
  unfold AxisIs at hax
  have husource : u.axis.cfg.source = .step := by rw [hax]; exact hsource
  have hmarked := stepped_marked hfnA hfnB husource
  rw [hboth.1, hboth.2, hacc0, hlow] at hmarked
  have hframe : KeptBut [.axis, .inputs] s (edgesMarked u) :=
    KeptBut.then_mono hkept (edgesMarked_kept u) (by simp) (by simp)
  have hcounting : KeptBut [.axis, .inputs, .cams, .cues, .capture, .lines, .events] s v :=
    edgeEnds_kept hframe hends
  rw [decode_step (by rw [edgesMarked_source, husource])] at hends
  obtain ⟨hcount, hquiet⟩ := stepEdge_taken (s := s) hframe hmarked (by rw [hax]) hends
  refine ⟨v, hruns, ?_, hm, hrest, fun hrunning => ⟨?_, hcounting⟩, fun hhalted => ?_⟩
  · refine hn.trans ?_
    rw [show s.ins[(0 : Fin 8)].accepted = false from hlow]
    rfl
  · refine CountTaken.axisIs (hcount (by rw [hlow]; rfl) hrunning) ?_
    rw [hax]
    simp
  · obtain ⟨haxis, hall⟩ := hquiet (.inr hhalted)
    refine ⟨?_, hall⟩
    unfold AxisIs at haxis ⊢
    rw [haxis, hax]
    simp

/-- Settles O39. -/
theorem quadDecoderCountsSingleChanges : Obligations.QuadDecoderCountsSingleChanges := by
  refine ⟨fun s dueA dueB newA newB hrun hA hB hdueA hdueB hnewA hnewB n hn => ?_,
    fun s n m k hrun hA hB hnm hk htakenA htakenB hdue hnone hfilter => ⟨fun hsource hpairA hpairB => ?_,
      fun hsource hn hlow => ?_⟩⟩
  · have hn01 : n = 0 ∨ n = 1 := hn.imp And.left And.left
    have hdue : inputDue s n = true := by
      rcases hn with ⟨rfl, h⟩ | ⟨rfl, h⟩
      · exact hdueA.symm.trans h
      · exact hdueB.symm.trans h
    obtain ⟨t, ht, ⟨hin0, hin1, hrest⟩, -, hends⟩ := decoderEdge hrun hA hB hn01 hdue
    rw [← hdueA] at hin0
    rw [← hdueB] at hin1
    rw [← hdueA, ← hdueB, ← hnewA, ← hnewB] at hends
    have hu := edgesMarked_kept s
    refine ⟨t, ht, ?_, ?_, hrest, ?_, fun a hsource ha => ?_, fun a rises hsource hrises ha => ?_⟩
    · rw [hin0, hnewA]
      rfl
    · rw [hin1, hnewB]
      rfl
    · exact edgeEnds_kept hu hends
    · rw [decode_quad (by rw [edgesMarked_source, hsource])] at hends
      refine quadEdge_taken hu ?_ (by rw [edgesMarked_axis]) (by rw [edgesMarked_axis]) (by rw [edgesMarked_axis])
        (by rw [ha]) hends
      rw [paired_marked newA newB hA hB hsource, ← hdueA, ← hdueB, ha]
    · rw [decode_step (by rw [edgesMarked_source, hsource]), ← hrises] at hends
      refine stepEdge_taken hu ?_ (by rw [ha]) hends
      rw [stepped_marked hA hB hsource, ← hdueA, ← hdueB, ← hnewA, ← hrises, ha]
  · exact quadEdges_together hrun hA hB hnm hk htakenA htakenB hdue hnone hfilter hsource hpairA hpairB
  · exact stepEdges_together hrun hA hB hnm hk htakenA htakenB hdue hnone hfilter hsource hn hlow

end Sys2Proof.Machine
end

section
/-! LIMITS_SET (R140), and what it and the supply comparator judge at once (R19, R130). -/

namespace Sys2Proof.Machine

/-! ## The ending of a condition (R129) -/

/-- The oldest report about a condition is an ending. -/
def endingWaits (c : Condition) (s : State) : Bool :=
  match nextReport s c with
  | some r => !r.begins
  | none => false

theorem takeEnding_eq (c : Condition) (s : State) :
    takeEnding c s = if endingWaits c s then markPresent c false (dropReport c s) else s := by
  unfold takeEnding endingWaits
  cases nextReport s c with
  | none => rfl
  | some r =>
    cases hr : r.begins <;> simp [hr]

theorem takeEnding_other (c : Condition) (s : State) : takeEnding c s = { s with faults := (takeEnding c s).faults } := by
  rw [takeEnding_eq]
  split <;> rfl

theorem takeEnding_faults_eq (c : Condition) (s : State) : (takeEnding c s).faults = { s.faults with
    present := if endingWaits c s then setPresent c false s.faults.present else s.faults.present
    inbox := (takeEnding c s).faults.inbox } := by
  rw [takeEnding_eq]
  cases endingWaits c s <;> rfl

/-- What is looked for is found behind the removal of something else. -/
theorem find?_eraseP_of_disjoint {α : Type} (p q : α → Bool) (h : ∀ x, p x = true → q x = false) (l : List α) :
    (l.eraseP p).find? q = l.find? q := by
  induction l with
  | nil => rfl
  | cons x xs ih =>
    cases hp : p x
    · rw [List.eraseP_cons_of_neg (by simp [hp]), List.find?_cons, List.find?_cons, ih]
    · rw [List.eraseP_cons_of_pos hp, List.find?_cons, h x hp]

theorem nextReport_takeEnding {c d : Condition} (h : c ≠ d) (s : State) : nextReport (takeEnding c s) d = nextReport s d := by
  rw [takeEnding_eq]
  split
  · refine find?_eraseP_of_disjoint _ _ (fun r hr => ?_) s.faults.inbox
    rw [decide_eq_true_eq] at hr
    rw [hr]
    exact decide_eq_false h
  · rfl

theorem endingWaits_takeEnding {c d : Condition} (h : c ≠ d) (s : State) : endingWaits d (takeEnding c s) = endingWaits d s := by
  rw [endingWaits, nextReport_takeEnding h]
  rfl

/-! ## The three conditions judged -/

/-- The conditions of the axis and of the supply, judged in a part (R19, R130). -/
def limitsJudged (s : State) : State := judgeSupply (judgeReverse (judgeOverspeed s))

/-- The report of a change, where there is one. -/
def changeReport (before : Bool) (r : Report) : List Report := if r.begins = before then [] else [r]

/-- The reports of the three conditions as they are judged. -/
def overspeedReport (s : State) : Report :=
  ⟨.overspeed, tooFast s.axis && outsideIdle s, none, if tooFast s.axis && outsideIdle s then some s.axis.speed else none⟩

def reverseReport (s : State) : Report := plainReport .reverseLimit (tooFarBack s.axis && outsideIdle s)

def supplyReport (s : State) : Report := plainReport .supplyLow (lowJudged s.supply)

theorem limitsJudged_eq (s : State) : limitsJudged s = { s with
    axis := { s.axis with overspeed := tooFast s.axis && outsideIdle s, reversed := tooFarBack s.axis && outsideIdle s },
    supply := { s.supply with low := lowJudged s.supply },
    faults := { s.faults with
      inbox := s.faults.inbox ++
        changeReport s.axis.overspeed (overspeedReport s) ++ changeReport s.axis.reversed (reverseReport s) ++
        changeReport s.supply.low (supplyReport s) } } := by
  unfold limitsJudged
  rw [judgeSupply_other, judgeSupply_supply, judgeSupply_faults, judgeReverse_other, judgeReverse_axis, judgeReverse_faults,
    judgeOverspeed_other, judgeOverspeed_axis, judgeOverspeed_faults]
  rfl

theorem find?_changeReport (c : Condition) (before : Bool) (r : Report) :
    (changeReport before r).find? (fun x => decide (x.cond = c)) =
      if r.begins = before ∨ r.cond ≠ c then none else some r := by
  unfold changeReport
  by_cases hb : r.begins = before
  · simp [hb]
  · by_cases hc : r.cond = c <;> simp [hb, hc]

/-- The entry of a condition after the judgement at once, and the endings taken with it (R140). -/
theorem entryAfterLimits_eq {s t : State} {c : Condition} {r : Report} (before : Bool)
    (h : nextReport t c = (nextReport s c).or (if r.begins = before then none else some r)) (entry : Bool) :
    (entry && !endingWaits c t) = entryAfterLimits s c entry before r.begins := by
  have hentry : entryAfterLimits s c entry before r.begins = (entry && match nextReport s c with
      | some r => r.begins
      | none => !before || r.begins) := rfl
  rw [hentry, endingWaits, h]
  cases nextReport s c with
  | some x => simp
  | none =>
    cases hb : r.begins <;> cases before <;> simp [hb]

theorem nextReport_limitsJudged_overspeed (s : State) : nextReport (limitsJudged s) .overspeed =
    (nextReport s .overspeed).or (if (overspeedReport s).begins = s.axis.overspeed then none else some (overspeedReport s)) := by
  rw [nextReport, limitsJudged_eq]
  simp only [List.find?_append, find?_changeReport]
  simp [overspeedReport, reverseReport, supplyReport, plainReport, nextReport]

theorem nextReport_limitsJudged_reverse (s : State) : nextReport (limitsJudged s) .reverseLimit =
    (nextReport s .reverseLimit).or (if (reverseReport s).begins = s.axis.reversed then none else some (reverseReport s)) := by
  rw [nextReport, limitsJudged_eq]
  simp only [List.find?_append, find?_changeReport]
  simp [overspeedReport, reverseReport, supplyReport, plainReport, nextReport]
  rfl

theorem nextReport_limitsJudged_supply (s : State) : nextReport (limitsJudged s) .supplyLow =
    (nextReport s .supplyLow).or (if (supplyReport s).begins = s.supply.low then none else some (supplyReport s)) := by
  rw [nextReport, limitsJudged_eq]
  simp only [List.find?_append, find?_changeReport]
  simp [overspeedReport, reverseReport, supplyReport, plainReport, nextReport]
  rfl

theorem lowJudged_iff (p : Supply) : lowJudged p = true ↔
    p.millivolts < 2850 + 100 * p.level.val ∨ p.millivolts < 2900 + 100 * p.level.val ∧ p.low = true := by
  unfold lowJudged supplyThreshold
  by_cases h1 : p.millivolts < 2850 + 100 * p.level.val
  · simp [h1]
  · by_cases h2 : 2850 + 100 * p.level.val + 50 ≤ p.millivolts
    · rw [if_neg h1, if_pos h2]
      constructor
      · intro h
        cases h
      · rintro (h | ⟨h, -⟩)
        · exact absurd h h1
        · omega
    · rw [if_neg h1, if_neg h2]
      constructor
      · intro h
        exact .inr ⟨by omega, h⟩
      · rintro (h | ⟨-, h⟩)
        · exact absurd h h1
        · exact h

/-- A supply judged stays as it was judged. -/
theorem lowJudged_again (p : Supply) : lowJudged { p with low := lowJudged p } = lowJudged p := by
  conv_lhs => unfold lowJudged
  dsimp only
  split
  · rename_i h
    rw [lowJudged, if_pos h]
  · split
    · rename_i h1 h2
      rw [lowJudged, if_neg h1, if_pos h2]
    · rename_i h1 h2
      rw [lowJudged, if_neg h1, if_neg h2]

/-! ## LIMITS_SET (R140) -/

/-- A present set without an entry whose ending waits. -/
def withoutEnded (c : Condition) (s : State) (p : PresentSet) : PresentSet :=
  if endingWaits c s then setPresent c false p else p

theorem takeEnding_frame (c : Condition) (s : State) : ∃ inbox, takeEnding c s = { s with
    faults := { s.faults with present := withoutEnded c s s.faults.present, inbox := inbox } } := by
  refine ⟨(takeEnding c s).faults.inbox, ?_⟩
  conv_lhs => rw [takeEnding_other, takeEnding_faults_eq]
  rfl

/-- The endings that LIMITS_SET takes with the request leave the present set. -/
theorem judgeLimits_frame (s : State) : ∃ inbox, judgeLimits s = { limitsJudged s with
    faults := { s.faults with
      present := { s.faults.present with
        overspeed := s.faults.present.overspeed && !endingWaits .overspeed (limitsJudged s)
        reverseLimit := s.faults.present.reverseLimit && !endingWaits .reverseLimit (limitsJudged s)
        supplyLow := s.faults.present.supplyLow && !endingWaits .supplyLow (limitsJudged s) }
      inbox := inbox } } := by
  have hj : judgeLimits s = takeEnding .supplyLow (takeEnding .reverseLimit (takeEnding .overspeed (limitsJudged s))) := rfl
  have hjudged : (limitsJudged s).faults = { s.faults with inbox := (limitsJudged s).faults.inbox } := by rw [limitsJudged_eq]
  have hreverse : endingWaits .reverseLimit (takeEnding .overspeed (limitsJudged s)) =
      endingWaits .reverseLimit (limitsJudged s) := endingWaits_takeEnding (by simp) _
  have hsupply : endingWaits .supplyLow (takeEnding .reverseLimit (takeEnding .overspeed (limitsJudged s))) =
      endingWaits .supplyLow (limitsJudged s) :=
    (endingWaits_takeEnding (by simp) _).trans (endingWaits_takeEnding (by simp) _)
  obtain ⟨x, hx⟩ := takeEnding_frame .overspeed (limitsJudged s)
  obtain ⟨y, hy⟩ := takeEnding_frame .reverseLimit (takeEnding .overspeed (limitsJudged s))
  obtain ⟨z, hz⟩ := takeEnding_frame .supplyLow (takeEnding .reverseLimit (takeEnding .overspeed (limitsJudged s)))
  rw [withoutEnded, hreverse] at hy
  rw [withoutEnded, hsupply] at hz
  rw [withoutEnded] at hx
  refine ⟨z, ?_⟩
  rw [hj, hz, hy, hx, hjudged]
  cases endingWaits .overspeed (limitsJudged s) <;> cases endingWaits .reverseLimit (limitsJudged s) <;>
    cases endingWaits .supplyLow (limitsJudged s) <;> simp [setPresent]

/-- The limits written, before they are judged. -/
def limitsWritten (reverse speed silence : Nat) (level : Fin 4) (s : State) : State :=
  ((s.onAxis fun a => { a with reverseLimit := reverse, speedLimit := speed }).onSupply fun p => { p with level := level }).onLink
    fun l => { l with silenceLimit := silence }

theorem be16_num16 (a b : Byte) : be16 (num16 a b) = [a, b] := by
  have ha := a.isLt
  have hb := b.isLt
  have hhigh : byteOf (num16 a b / 256) = a := by
    rw [show num16 a b / 256 = a.toNat by unfold num16; omega, byteOf_toNat]
  have hlow : byteOf (num16 a b) = b := by
    apply BitVec.eq_of_toNat_eq
    simp only [byteOf, num16, BitVec.toNat_ofNat]
    omega
  rw [be16, hhigh, hlow]

theorem limitBytes_num (r1 r0 v1 v0 q1 q0 level : Byte) :
    limitBytes (num16 r1 r0) (num16 v1 v0) (num16 q1 q0) level.toNat = [r1, r0, v1, v0, q1, q0, level] := by
  simp [limitBytes, be16_num16, byteOf_toNat]

theorem limitsSetRule_passes {r1 r0 v1 v0 q1 q0 level : Byte} {lv : Fin 4} {s : State} (hlevel : level.toNat = lv.val)
    (hsilence : num16 q1 q0 ≤ 60000) : limitsSetRule [r1, r0, v1, v0, q1, q0, level] s =
      (judgeLimits (limitsWritten (num16 r1 r0) (num16 v1 v0) (num16 q1 q0) lv s), okay [r1, r0, v1, v0, q1, q0, level]) := by
  have hsmall : ¬ 60000 < num16 q1 q0 := by omega
  simp only [limitsSetRule, finOf_of_eq hlevel, if_neg hsmall, ← hlevel, limitBytes_num]
  rfl

theorem limitsSetRule_refuses {r1 r0 v1 v0 q1 q0 level : Byte} {s : State} (h : 3 < level.toNat ∨ 60000 < num16 q1 q0) :
    limitsSetRule [r1, r0, v1, v0, q1, q0, level] s = (s, refuse .badValue) := by
  unfold limitsSetRule
  dsimp only
  split
  · rfl
  · rename_i lv hlv
    rcases h with h | h
    · rw [finOf_of_ge h] at hlv
      cases hlv
    · rw [if_pos h]

theorem settle_conditions {s : State} (hrun : s.phase = .running) :
    (settle s).axis.overspeed = (tooFast s.axis && outsideIdle s) ∧
      (settle s).axis.reversed = (tooFarBack s.axis && outsideIdle s) := by
  rw [(settle_decides hrun).1, judged_eq]
  exact ⟨rfl, rfl⟩

theorem settle_low {s : State} (hrun : s.phase = .running) : (settle s).supply = { s.supply with low := lowJudged s.supply } := by
  rw [(settle_decides hrun).2.2.2.1, judged_eq]

theorem outsideIdle_iff (s : State) : outsideIdle s = true ↔ s.seq.state ≠ .idle := by
  simp [outsideIdle]

/-- The entries of the present set after LIMITS_SET, with what the conditions have become. -/
theorem limits_entries (reverse speed silence : Nat) (level : Fin 4) (s : State) (t : State)
    (hover : t.axis.overspeed = (limitsJudged (limitsWritten reverse speed silence level s)).axis.overspeed)
    (hreversed : t.axis.reversed = (limitsJudged (limitsWritten reverse speed silence level s)).axis.reversed)
    (hlow : t.supply.low = (limitsJudged (limitsWritten reverse speed silence level s)).supply.low) (entry : Bool) :
    (entry && !endingWaits .overspeed (limitsJudged (limitsWritten reverse speed silence level s))) =
        entryAfterLimits s .overspeed entry s.axis.overspeed t.axis.overspeed ∧
      (entry && !endingWaits .reverseLimit (limitsJudged (limitsWritten reverse speed silence level s))) =
        entryAfterLimits s .reverseLimit entry s.axis.reversed t.axis.reversed ∧
      (entry && !endingWaits .supplyLow (limitsJudged (limitsWritten reverse speed silence level s))) =
        entryAfterLimits s .supplyLow entry s.supply.low t.supply.low := by
  rw [limitsJudged_eq] at hover hreversed hlow
  refine ⟨?_, ?_, ?_⟩
  · rw [hover]
    exact entryAfterLimits_eq (s := limitsWritten reverse speed silence level s)
      (r := overspeedReport (limitsWritten reverse speed silence level s)) s.axis.overspeed (nextReport_limitsJudged_overspeed _) entry
  · rw [hreversed]
    exact entryAfterLimits_eq (s := limitsWritten reverse speed silence level s)
      (r := reverseReport (limitsWritten reverse speed silence level s)) s.axis.reversed (nextReport_limitsJudged_reverse _) entry
  · rw [hlow]
    exact entryAfterLimits_eq (s := limitsWritten reverse speed silence level s)
      (r := supplyReport (limitsWritten reverse speed silence level s)) s.supply.low (nextReport_limitsJudged_supply _) entry

theorem limitsWritten_kept (reverse speed silence : Nat) (level : Fin 4) (s : State) :
    KeptBut [.axis, .supply, .link, .faults] s (limitsWritten reverse speed silence level s) :=
  KeptBut.then_mono (KeptBut.then_mono (onAxis_kept _ _) (onSupply_kept _ _) (rs := [.axis, .supply]) (by simp) (by simp))
    (onLink_kept _ _) (by simp) (by simp)

/-- The conditions after a request are judged on what its rule left (R19, R130). -/
theorem request_conditions {f : Frame} {rule : State → State × Reply} {s u : State} {r : Reply} (hready : Ready s)
    (hrule : rule (heard s) = (u, r)) (hrun : u.phase = .running) :
    (serve f rule s).axis.overspeed = (tooFast u.axis && outsideIdle u) ∧
      (serve f rule s).axis.reversed = (tooFarBack u.axis && outsideIdle u) ∧
      (serve f rule s).supply = { u.supply with low := lowJudged u.supply } := by
  rw [serve_ready f rule hready, answer, hrule]
  obtain ⟨hover, hreversed⟩ := settle_conditions (s := u.onLink fun l =>
    { l with replies := l.replies ++ [replyFrame f r u.link.errors] }) hrun
  exact ⟨hover, hreversed, settle_low hrun⟩

/-- LIMITS_SET judges at once just what the end of the command finds (R140). -/
theorem limits_conditions {f : Frame} {rule : State → State × Reply} {s w : State} {r : Reply} (hready : Ready s)
    (hrule : rule (heard s) = (judgeLimits w, r)) (hrun : w.phase = .running) :
    (serve f rule s).axis.overspeed = (tooFast w.axis && outsideIdle w) ∧
      (serve f rule s).axis.reversed = (tooFarBack w.axis && outsideIdle w) ∧
      (serve f rule s).supply = { w.supply with low := lowJudged w.supply } := by
  obtain ⟨inbox, hframe⟩ := judgeLimits_frame w
  rw [limitsJudged_eq] at hframe
  obtain ⟨hover, hreversed, hlow⟩ := request_conditions (f := f) hready hrule (by rw [hframe]; exact hrun)
  rw [hframe] at hover hreversed hlow
  refine ⟨hover, hreversed, hlow.trans ?_⟩
  dsimp only
  rw [lowJudged_again]

/-- LIMITS_SET with its values in range (R140). -/
theorem limitsSet_writes (tag r1 r0 v1 v0 q1 q0 level : Byte) (lv : Fin 4) (s : State) (hready : Ready s)
    (hlevel : level.toNat = lv.val) (hsilence : num16 q1 q0 ≤ 60000) :
    ∃ t, exec (.limitsSet tag [r1, r0, v1, v0, q1, q0, level]) s = .next t ∧
      Answered tag 0x50#8 .ok false [r1, r0, v1, v0, q1, q0, level] s t ∧
      AxisIs { s.axis with reverseLimit := num16 r1 r0, speedLimit := num16 v1 v0 } t ∧
      LinkIs { s.link with silenceLimit := num16 q1 q0 } t ∧
      t.supply.level = lv ∧ t.supply.millivolts = s.supply.millivolts ∧
      (t.axis.overspeed = true ↔ num16 v1 v0 ≠ 0 ∧ num16 v1 v0 < s.axis.speed.natAbs ∧ s.seq.state ≠ .idle) ∧
      (t.axis.reversed = true ↔ num16 r1 r0 ≠ 0 ∧ num16 r1 r0 < excursion s.axis ∧ s.seq.state ≠ .idle) ∧
      (t.supply.low = true ↔ s.supply.millivolts < 2850 + 100 * lv.val ∨
        s.supply.millivolts < 2900 + 100 * lv.val ∧ s.supply.low = true) ∧
      FaultsAre { s.faults with present := { s.faults.present with
        overspeed := entryAfterLimits s .overspeed s.faults.present.overspeed s.axis.overspeed t.axis.overspeed
        reverseLimit := entryAfterLimits s .reverseLimit s.faults.present.reverseLimit s.axis.reversed t.axis.reversed
        supplyLow := entryAfterLimits s .supplyLow s.faults.present.supplyLow s.supply.low t.supply.low } } t ∧
      KeptBut [.axis, .supply, .link, .faults] s t := by
  have hrule := limitsSetRule_passes (r1 := r1) (r0 := r0) (v1 := v1) (v0 := v0) (s := heard s) hlevel hsilence
  have hkept : KeptBut [.axis, .supply, .link, .faults] (heard s)
      (judgeLimits (limitsWritten (num16 r1 r0) (num16 v1 v0) (num16 q1 q0) lv (heard s))) :=
    KeptBut.then_mono (limitsWritten_kept _ _ _ _ _) (judgeLimits_kept _) (by simp) (by simp)
  obtain ⟨inbox, hframe⟩ := judgeLimits_frame (limitsWritten (num16 r1 r0) (num16 v1 v0) (num16 q1 q0) lv (heard s))
  obtain ⟨hover, hreversed, hsupply⟩ := limits_conditions (f := ⟨tag, 0x50#8, [r1, r0, v1, v0, q1, q0, level]⟩)
    (rule := limitsSetRule [r1, r0, v1, v0, q1, q0, level]) hready hrule hready.1
  have herrors : (judgeLimits (limitsWritten (num16 r1 r0) (num16 v1 v0) (num16 q1 q0) lv (heard s))).link.errors =
      s.link.errors := by
    rw [hframe, limitsJudged_eq]
    rfl
  obtain ⟨hanswer, hsame, hall⟩ := request_done tag 0x50#8 [r1, r0, v1, v0, q1, q0, level]
    (limitsSetRule [r1, r0, v1, v0, q1, q0, level]) hready (by decide) hrule hkept herrors
  refine ⟨_, rfl, hanswer, ?_⟩
  generalize serve ⟨tag, 0x50#8, [r1, r0, v1, v0, q1, q0, level]⟩ (limitsSetRule [r1, r0, v1, v0, q1, q0, level]) s = t at *
  have hjudged := limitsJudged_eq (limitsWritten (num16 r1 r0) (num16 v1 v0) (num16 q1 q0) lv (heard s))
  have hentries := limits_entries (num16 r1 r0) (num16 v1 v0) (num16 q1 q0) lv (heard s) t
    (by rw [hover, hjudged]) (by rw [hreversed, hjudged]) (by rw [hsupply, hjudged])
  have haxis := axisIs_of_kept hsame
  have hlink : LinkIs _ t := hsame .link (by simp)
  have hfaults : FaultsAre _ t := hsame .faults (by simp)
  rw [hframe] at haxis hlink hfaults
  rw [hjudged] at haxis hlink
  dsimp only at hfaults
  rw [(hentries _).1, (hentries _).2.1, (hentries _).2.2] at hfaults
  refine ⟨haxis, ?_, by rw [hsupply]; rfl, by rw [hsupply]; rfl, ?_, ?_, ?_, ?_, hall⟩
  · exact hlink
  · rw [hover, Bool.and_eq_true, outsideIdle_iff, tooFast, Bool.and_eq_true, decide_eq_true_eq, decide_eq_true_eq]
    exact and_assoc
  · rw [hreversed, Bool.and_eq_true, outsideIdle_iff, tooFarBack, Bool.and_eq_true, decide_eq_true_eq, decide_eq_true_eq]
    exact and_assoc
  · rw [hsupply]
    exact lowJudged_iff _
  · exact hfaults

/-! ## The supply comparator (R130) -/

/-- The comparator judges a part at the end of a command. -/
theorem settle_supplyReport {s : State} (hrun : s.phase = .running) (h : lowJudged s.supply ≠ s.supply.low) :
    supplyReport s ∈ (settle s).faults.inbox := by
  rw [(settle_decides hrun).2.2.1, judged_eq]
  simp [h, supplyReport]

/-- Settles O40. -/
theorem limitsAndSupplyAreJudgedAtOnce : Obligations.LimitsAndSupplyAreJudgedAtOnce := by
  refine fun s => ⟨fun tag r1 r0 v1 v0 q1 q0 level hready hbad => ?_,
    fun tag r1 r0 v1 v0 q1 q0 level lv hready hlevel hsilence =>
      limitsSet_writes tag r1 r0 v1 v0 q1 q0 level lv s hready hlevel hsilence, fun mv hrun => ?_⟩
  · exact ⟨_, rfl, request_kept tag 0x50#8 [r1, r0, v1, v0, q1, q0, level] hready (by decide) (limitsSetRule_refuses hbad)⟩
  · have hlow := settle_low (s := s.onSupply fun p => { p with millivolts := mv.toNat }) hrun
    refine ⟨_, rfl, by rw [hlow]; rfl, by rw [hlow]; rfl, ?_, fun hchange => ?_, settled_kept (onSupply_kept _ _)⟩
    · rw [hlow]
      exact lowJudged_iff _
    · rw [hlow] at hchange ⊢
      exact settle_supplyReport (s := s.onSupply fun p => { p with millivolts := mv.toNat }) hrun hchange

end Sys2Proof.Machine
end

section
/-! The Fault Monitor takes the beginning of a condition outside SAFE and in SAFE, and its ending (R128 to R135). -/

namespace Sys2Proof.Machine

/-! ## The oldest report of a condition -/

theorem cond_of_nextReport {s : State} {c : Condition} {r : Report} (h : nextReport s c = some r) : r.cond = c := by
  have hfound := List.find?_some h
  simpa using hfound

/-- The report has left the inbox, and its condition stands in the present set. -/
def begun (c : Condition) (s : State) : State := markPresent c true (dropReport c s)

theorem begun_kept (c : Condition) (s : State) : KeptBut [.faults] s (begun c s) :=
  KeptBut.then_mono (dropReport_kept c s) (markPresent_kept c true _) (by simp) (by simp)

theorem begun_faults (c : Condition) (s : State) : (begun c s).faults =
    { s.faults with present := setPresent c true s.faults.present, inbox := (begun c s).faults.inbox } := rfl

theorem exec_conditionBegin {s : State} {c : Condition} {r : Report} (hrun : s.phase = .running)
    (hnext : nextReport s c = some r) (hbegins : r.begins = true) : exec (.conditionBegin c) s =
      .next (settle (if takenIn (condKind c) s.seq.state then takeFault r (begun c s) else begun c s)) := by
  have hexec : exec (.conditionBegin c) s = execConditionBegin c s := rfl
  have hcond := cond_of_nextReport hnext
  rw [hexec, execConditionBegin, hnext]
  dsimp only
  rw [event_running hrun hbegins, takeBeginning, hcond]
  rfl

theorem exec_conditionEnd {s : State} {c : Condition} {r : Report} (hrun : s.phase = .running)
    (hnext : nextReport s c = some r) (hends : r.begins = false) : exec (.conditionEnd c) s =
      .next (settle (markPresent c false (dropReport c s))) := by
  have hexec : exec (.conditionEnd c) s = execConditionEnd c s := rfl
  rw [hexec, execConditionEnd, hnext]
  dsimp only
  have hwaits : endingWaits c s = true := by simp [endingWaits, hnext, hends]
  rw [event_running hrun (by rw [hends]; rfl), takeEnding_eq, hwaits]
  rfl

/-! ## The store operation in flight (R130, R167) -/

theorem condKind_supplyLow (c : Condition) : condKind c = .supplyLow ↔ c = .supplyLow := by
  cases c <;> simp [condKind]

/-- A SUPPLY_LOW fault aborts the operation in flight. -/
def abortBy (c : Condition) (s : State) : State := if condKind c = .supplyLow then abortOperation s else s

theorem abortBy_other (c : Condition) (s : State) :
    abortBy c s = { s with store := (abortBy c s).store, events := (abortBy c s).events } := by
  unfold abortBy abortOperation
  split
  · split <;> rfl
  · rfl

theorem abortBy_kept (c : Condition) (s : State) : KeptBut [.store, .events] s (abortBy c s) :=
  KeptBut.ite (abortOperation_kept s) (KeptBut.refl _ _)

theorem abortBy_axis (c : Condition) (s : State) : (abortBy c s).axis = s.axis := by rw [abortBy_other]

theorem abortBy_seq (c : Condition) (s : State) : (abortBy c s).seq = s.seq := by rw [abortBy_other]

theorem abortBy_outs (c : Condition) (s : State) : (abortBy c s).outs = s.outs := by rw [abortBy_other]

theorem abortBy_faults (c : Condition) (s : State) : (abortBy c s).faults = s.faults := by rw [abortBy_other]

theorem abortBy_still {c : Condition} {s : State} (h : c ≠ .supplyLow ∨ s.store.op = none) : abortBy c s = s := by
  unfold abortBy
  split
  · rename_i hkind
    rcases h with h | h
    · exact absurd ((condKind_supplyLow c).1 hkind) h
    · rw [abortOperation, h]
  · rfl

theorem abortBy_aborts {s : State} {o : StoreOp} (h : s.store.op = some o) : abortBy .supplyLow s =
    raise .storeDone (s.onStore fun x =>
      { x with op := none, lastOp := some ⟨workBlock o.work, .failed⟩, blocks := spoilBlock (workBlock o.work) x.blocks }) := by
  rw [abortBy, if_pos ((condKind_supplyLow _).2 rfl), abortOperation, h]

/-- What a fault does to the store, seen from the state before it, and the events of both. -/
theorem abortBy_store {c : Condition} {s v t : State} (hstore : v.store = s.store) (hraised : Raised [.fault] s v)
    (ht : KeptBut [] (abortBy c v) t) :
    (c ≠ .supplyLow ∨ s.store.op = none → t.store = s.store ∧ Raised [.fault] s t) ∧
      (∀ o, c = .supplyLow → s.store.op = some o →
        t.store = { s.store with
          op := none, lastOp := some ⟨workBlock o.work, .failed⟩,
          blocks := spoilBlock (workBlock o.work) s.store.blocks } ∧
        Raised [.fault, .storeDone] s t) := by
  have htstore : t.store = (abortBy c v).store := ht .store (by simp)
  have htevents : Raised [] (abortBy c v) t := ht .events (by simp)
  constructor
  · intro hstill
    rw [abortBy_still (by rw [hstore]; exact hstill)] at htstore htevents
    exact ⟨htstore.trans hstore, hraised.trans_none htevents⟩
  · rintro o rfl hop
    rw [abortBy_aborts (by rw [hstore]; exact hop)] at htstore htevents
    refine ⟨?_, ?_⟩
    · rw [htstore, ← hstore]
      rfl
    · have hstored : Raised [.fault] s (v.onStore fun x => { x with
          op := none, lastOp := some ⟨workBlock o.work, .failed⟩, blocks := spoilBlock (workBlock o.work) x.blocks }) :=
        hraised.trans_none (raised_of_events rfl)
      exact (raised_append hstored (raise_raised .storeDone _)).trans_none htevents

/-! ## A fault outside SAFE (R131 to R134) -/

theorem enterSafe_eq (s : State) : enterSafe s = { s with
    seq := { s.seq with state := .safe, holdRequest := false, holdPin := false }
    outs := { s.outs with lines := s.outs.lines.map endTrail }
    axis := { s.axis with running := s.axis.running && decide (s.axis.cfg.source ≠ .timebase) } } := by
  unfold enterSafe
  dsimp only
  split
  · rename_i h
    have hsource : s.axis.cfg.source = .timebase := h
    simp [hsource, State.onSeq, State.onOuts, State.onAxis]
  · rename_i h
    have hsource : s.axis.cfg.source = .quad := h
    simp [hsource, State.onSeq, State.onOuts]
  · rename_i h
    have hsource : s.axis.cfg.source = .step := h
    simp [hsource, State.onSeq, State.onOuts]

/-- The record of a fault (R132). -/
theorem faultRecord_eq (r : Report) (s : State) : faultRecord r s = {
    kind := condKind r.cond, stamp := s.stamp,
    current := (r.points.map (·.1)).getD s.axis.current, lead := (r.points.map (·.2)).getD s.axis.lead,
    left := s.seq.state,
    line := match r.cond with
      | .lineMismatch n => some n
      | _ => none,
    speed := r.speed } := by
  unfold faultRecord
  cases r.points <;> rfl

theorem takeFault_eq (r : Report) (s : State) : takeFault r s =
    abortBy r.cond (if s.seq.state = .safe then faultInSafe r s else faultOutsideSafe r s) := rfl

theorem faultOutsideSafe_eq (r : Report) (s : State) : faultOutsideSafe r s = { s with
    seq := { s.seq with state := .safe, holdRequest := false, holdPin := false }
    outs := { s.outs with lines := s.outs.lines.map endTrail }
    axis := { s.axis with running := s.axis.running && decide (s.axis.cfg.source ≠ .timebase) }
    faults := { s.faults with
      count := s.faults.count + 1#16, primary := some (faultRecord r s), secondary := 0#8, flt := true }
    events := (countFault s).events } := by
  rw [faultOutsideSafe, enterSafe_eq]
  rfl

theorem countFault_raised (s : State) : Raised [.fault] s (countFault s) := by
  have hcounted : Raised [] s (s.onFaults fun f => { f with count := f.count + 1#16 }) := raised_of_events rfl
  exact raised_append hcounted (raise_raised .fault _)

theorem faultInSafe_kept (r : Report) (s : State) : KeptBut [.faults, .events] s (faultInSafe r s) :=
  KeptBut.then_mono (countFault_kept s) (onFaults_kept _ _) (by simp) (by simp)

/-- No condition is a fault in IDLE but SUPPLY_LOW, AXIS_SIGNAL and LINE_MISMATCH (R128). -/
theorem takenIn_iff (c : Condition) (q : SeqState) : takenIn (condKind c) q = true ↔
    q ≠ .idle ∨ c ≠ .overspeed ∧ c ≠ .reverseLimit ∧ c ≠ .linkSilent := by
  cases c <;> simp [condKind, takenIn]

/-- Settles O41. -/
theorem conditionBeginOutsideSafeEntersSafe : Obligations.ConditionBeginOutsideSafeEntersSafe := by
  intro c r s hrun hnext hbegins hsafe
  have hcond := cond_of_nextReport hnext
  refine ⟨fun hidle hnone => ?_, fun hfault => ?_⟩
  · have htaken : takenIn (condKind c) s.seq.state = false := by
      rw [← Bool.not_eq_true, takenIn_iff, hidle]
      simpa [or_iff_not_imp_left] using hnone
    refine ⟨_, exec_conditionBegin hrun hnext hbegins, ?_, ?_⟩
    · rw [htaken, settle_faults_eq]
      rfl
    · rw [htaken]
      exact settled_kept (begun_kept c s)
  · have htaken : takenIn (condKind c) s.seq.state = true := (takenIn_iff c _).2 hfault
    have hexec := exec_conditionBegin hrun hnext hbegins
    have hout : takeFault r (begun c s) = abortBy c (faultOutsideSafe r (begun c s)) := by
      rw [takeFault_eq, hcond, if_neg (by exact hsafe)]
    have houtside := faultOutsideSafe_eq r (begun c s)
    rw [htaken, if_pos rfl, hout] at hexec
    refine ⟨_, hexec, ?_⟩
    have hkept : KeptBut [.axis, .seq, .lines, .faults, .events, .store] s
        (settle (abortBy c (faultOutsideSafe r (begun c s)))) := by
      rw [← hout]
      exact settled_kept (KeptBut.then_mono (begun_kept c s) (takeFault_kept r _) (by simp) (by simp))
    have hraised : Raised [.fault] s (faultOutsideSafe r (begun c s)) := by
      have hcount := countFault_raised (begun c s)
      rw [houtside]
      exact hcount
    have hstore : (faultOutsideSafe r (begun c s)).store = s.store := by rw [houtside]; rfl
    have hsettle := settle_kept (abortBy c (faultOutsideSafe r (begun c s)))
    obtain ⟨hstill, haborts⟩ := abortBy_store hstore hraised hsettle
    have hfaults := settle_faults_eq (abortBy c (faultOutsideSafe r (begun c s)))
    have hax := axisIs_of_kept hsettle
    have hseq := seq_of_kept hsettle
    obtain ⟨harrivals, hlines⟩ := hsettle .lines (by simp)
    generalize settle (abortBy c (faultOutsideSafe r (begun c s))) = t at *
    rw [abortBy_axis, houtside] at hax
    rw [abortBy_seq, houtside] at hseq
    rw [abortBy_outs, houtside] at harrivals
    rw [abortBy_outs, houtside] at hlines
    rw [abortBy_faults, houtside] at hfaults
    dsimp only at hfaults hlines
    rw [faultRecord_eq, hcond] at hfaults
    refine ⟨hfaults, hseq, fun n => ?_, harrivals, hax, hstill, haborts, hkept⟩
    have hline := hlines n
    dsimp only at hline
    rw [map_get] at hline
    exact hline

/-! ## A fault in SAFE, by rank (R135) -/

theorem recordByRank_higher {f : FaultMonitor} {p new : FaultRecord} (hp : f.primary = some p)
    (h : faultRank new.kind < faultRank p.kind) :
    recordByRank new f = { f with primary := some new, secondary := joinSecondary p.kind f.secondary } := by
  rw [recordByRank, hp]
  dsimp only
  rw [if_pos h]

theorem recordByRank_lower {f : FaultMonitor} {p new : FaultRecord} (hp : f.primary = some p)
    (h : faultRank p.kind ≤ faultRank new.kind) :
    recordByRank new f = { f with secondary := joinSecondary new.kind f.secondary } := by
  rw [recordByRank, hp]
  dsimp only
  rw [if_neg (by omega)]

theorem recordByRank_rest (new : FaultRecord) (f : FaultMonitor) : (recordByRank new f).count = f.count ∧
    (recordByRank new f).flt = f.flt ∧ (recordByRank new f).present = f.present := by
  unfold recordByRank
  split
  · exact ⟨rfl, rfl, rfl⟩
  · split <;> exact ⟨rfl, rfl, rfl⟩

/-- What the Fault Monitor holds of a fault taken in SAFE. -/
theorem settle_faultFields (s : State) : (settle s).faults.count = s.faults.count ∧ (settle s).faults.flt = s.faults.flt ∧
    (settle s).faults.present = s.faults.present ∧ (settle s).faults.primary = s.faults.primary ∧
    (settle s).faults.secondary = s.faults.secondary := by
  rw [settle_faults_eq]
  exact ⟨rfl, rfl, rfl, rfl, rfl⟩

/-- The Fault Monitor with the condition present and the fault counted. -/
def faultCounted (c : Condition) (s : State) : FaultMonitor := { (begun c s).faults with count := s.faults.count + 1#16 }

/-- Settles O42. -/
theorem conditionInSafeIsRecordedByRank : Obligations.ConditionInSafeIsRecordedByRank := by
  intro c r s hrun hnext
  have hcond := cond_of_nextReport hnext
  refine ⟨fun p hbegins hsafe hp => ?_, fun hends => ?_⟩
  · have htaken : takenIn (condKind c) s.seq.state = true :=
      (takenIn_iff c _).2 (.inl (by rw [hsafe]; decide))
    have hexec := exec_conditionBegin hrun hnext hbegins
    have hin : takeFault r (begun c s) = abortBy c (faultInSafe r (begun c s)) := by
      rw [takeFault_eq, hcond, if_pos (by exact hsafe)]
    rw [htaken, if_pos rfl, hin] at hexec
    have hrecord := faultRecord_eq r (begun c s)
    rw [hcond] at hrecord
    have hfaults : (faultInSafe r (begun c s)).faults =
        recordByRank (faultRecord r (begun c s)) (faultCounted c s) := rfl
    have hcounted := countFault_raised (begun c s)
    have hraised : Raised [.fault] s (faultInSafe r (begun c s)) := hcounted
    have habort := abortBy_kept c (faultInSafe r (begun c s))
    have hinkept := faultInSafe_kept r (begun c s)
    have hsettle := settle_kept (abortBy c (faultInSafe r (begun c s)))
    obtain ⟨hcount, hflt, hpresent, hprimary, hsecondary⟩ := settle_faultFields (abortBy c (faultInSafe r (begun c s)))
    have hbegun := KeptBut.then_mono (begun_kept c s) hinkept (rs := [.faults, .events]) (by simp) (by simp)
    obtain ⟨hstill, haborts⟩ := abortBy_store (hbegun .store (by simp)) hraised hsettle
    rw [abortBy_faults, hfaults] at hcount hflt hpresent hprimary hsecondary
    obtain ⟨hrcount, hrflt, hrpresent⟩ := recordByRank_rest (faultRecord r (begun c s)) (faultCounted c s)
    have hkept : KeptBut [.faults, .events, .store] s (settle (abortBy c (faultInSafe r (begun c s)))) :=
      settled_kept (KeptBut.then_mono hbegun habort (by simp) (by simp))
    refine ⟨_, hexec, hcount.trans hrcount, hflt.trans hrflt, hpresent.trans hrpresent, hkept .seq (by simp),
      fun hrank => ?_, fun hrank => ?_, hstill, haborts, hkept⟩
    · rw [recordByRank_higher (f := faultCounted c s) (new := faultRecord r (begun c s)) hp (by rw [hrecord]; exact hrank)] at hprimary hsecondary
      refine ⟨⟨_, hprimary, ?_⟩, hsecondary⟩
      rw [hrecord]
      exact ⟨rfl, rfl, hsafe, rfl, rfl, rfl, rfl⟩
    · rw [recordByRank_lower (f := faultCounted c s) (new := faultRecord r (begun c s)) hp (by rw [hrecord]; exact hrank), hrecord] at hprimary hsecondary
      exact ⟨hprimary.trans hp, hsecondary⟩
  · refine ⟨_, exec_conditionEnd hrun hnext hends, ?_, ?_⟩
    · rw [settle_faults_eq]
      rfl
    · exact settled_kept (KeptBut.then_mono (dropReport_kept c s) (markPresent_kept c false _) (by simp) (by simp))

end Sys2Proof.Machine
end

section
/-! RESUME (R129, R137 to R139). -/

namespace Sys2Proof.Machine

theorem num16_lt (a b : Byte) : num16 a b < 65536 := by
  have ha := a.isLt
  have hb := b.isLt
  unfold num16
  omega

theorem word16_toNat (a b : Byte) : (word16 a b).toNat = num16 a b := by
  rw [word16, BitVec.toNat_ofNat]
  exact Nat.mod_eq_of_lt (num16_lt a b)

/-- The blocking members of the present set (R137). -/
theorem blockingSet_ne_none (s : State) : blockingSet s ≠ PresentSet.none ↔
    (s.faults.present.supplyLow || s.faults.present.overspeed || s.faults.present.reverseLimit ||
      decide (s.faults.present.lines ≠ 0#16)) = true := by
  unfold blockingSet PresentSet.none
  generalize s.faults.present = p
  obtain ⟨low, fast, reverse, silent, lines⟩ := p
  cases low <;> cases fast <;> cases reverse <;> simp

/-- The part leaves SAFE (R138). -/
def resumed (s : State) : State :=
  (s.onSeq fun q => { q with state := .idle, holdRequest := false, holdPin := false }).onFaults fun f => { f with flt := false }

theorem resumeRule_eq (t1 t0 : Byte) (s : State) : resumeRule [t1, t0] s =
    if s.seq.state ≠ .safe then (s, refuse .wrongState)
    else if word16 t1 t0 ≠ s.faults.count then
      (s, ⟨.stale, false, be16 s.faults.count.toNat ++ [(s.faults.primary.map fun r => byteOf (faultRank r.kind)).getD 0#8]⟩)
    else if (s.faults.present.supplyLow || s.faults.present.overspeed || s.faults.present.reverseLimit ||
        decide (s.faults.present.lines ≠ 0#16)) then
      (s, ⟨.stillPresent, false, layout [(2, s.faults.count.toNat),
        (1, flagBits [s.faults.present.supplyLow, s.faults.present.overspeed, s.faults.present.reverseLimit, false,
          decide (s.faults.present.lines ≠ 0#16)]), (2, s.faults.present.lines.toNat)]⟩)
    else (resumed s, okay [t1, t0, 0#8]) := by
  have hkind : optBytes 1 (fun r : FaultRecord => [byteOf (faultRank r.kind)]) s.faults.primary =
      [(s.faults.primary.map fun r => byteOf (faultRank r.kind)).getD 0#8] := by
    cases s.faults.primary <;> rfl
  have hdata : be16 s.faults.count.toNat ++ conditionBytes (blockingSet s) = layout [(2, s.faults.count.toNat),
      (1, flagBits [s.faults.present.supplyLow, s.faults.present.overspeed, s.faults.present.reverseLimit, false,
        decide (s.faults.present.lines ≠ 0#16)]), (2, s.faults.present.lines.toNat)] := by
    simp only [layout_cons, layout_nil, bytesOf_one, bytesOf_two, flagBits_eq, conditionBytes, blockingSet, List.append_nil]
    rfl
  unfold resumeRule
  dsimp only
  rw [hkind, hdata]
  refine ite_congr rfl (fun _ => rfl) fun _ => ite_congr rfl (fun _ => rfl) fun hcount =>
    ite_congr (propext (blockingSet_ne_none s)) (fun _ => rfl) fun _ => ?_
  have hbytes : be16 s.faults.count.toNat = [t1, t0] := by
    rw [← not_not.1 hcount, word16_toNat, be16_num16]
  rw [hbytes]
  rfl

theorem resumed_kept (s : State) : KeptBut [.seq, .faults] s (resumed s) :=
  KeptBut.then_mono (onSeq_kept _ _) (onFaults_kept _ _) (by simp) (by simp)

/-- Settles O43. -/
theorem resumeLeavesSafeWhenNothingBlocks : Obligations.ResumeLeavesSafeWhenNothingBlocks := by
  intro tag t1 t0 blocked s hready hblocked
  have hrule := resumeRule_eq t1 t0 (heard s)
  refine ⟨serve ⟨tag, 0x52#8, [t1, t0]⟩ (resumeRule [t1, t0]) s, rfl, ?_⟩
  split
  · rename_i hstate
    rw [if_pos (by exact hstate)] at hrule
    exact request_kept tag 0x52#8 [t1, t0] hready (by decide) hrule
  · rename_i hstate
    rw [if_neg (by exact hstate)] at hrule
    split
    · rename_i hcount
      rw [if_pos (by exact hcount)] at hrule
      exact request_kept tag 0x52#8 [t1, t0] hready (by decide) hrule
    · rename_i hcount
      rw [if_neg (by exact hcount)] at hrule
      split
      · rename_i hb
        rw [if_pos (by rw [hblocked] at hb; exact hb)] at hrule
        exact request_kept tag 0x52#8 [t1, t0] hready (by decide) hrule
      · rename_i hb
        rw [if_neg (by rw [hblocked] at hb; exact hb)] at hrule
        obtain ⟨hanswer, hsame, hkept⟩ :=
          request_writes tag 0x52#8 [t1, t0] hready (by decide) hrule (resumed_kept (heard s)) (by simp)
        obtain ⟨hover, hreversed, -⟩ := request_conditions (f := ⟨tag, 0x52#8, [t1, t0]⟩) hready hrule hready.1
        have hseq : (serve ⟨tag, 0x52#8, [t1, t0]⟩ (resumeRule [t1, t0]) s).seq =
            { s.seq with state := .idle, holdRequest := false, holdPin := false } := seq_of_kept hsame
        have hfaults : FaultsAre { s.faults with flt := false } (serve ⟨tag, 0x52#8, [t1, t0]⟩ (resumeRule [t1, t0]) s) :=
          hsame .faults (by simp)
        have hidle : outsideIdle (resumed (heard s)) = false := rfl
        rw [hidle, Bool.and_false] at hover hreversed
        exact ⟨hanswer, hseq, hfaults, hover, hreversed, trackOutput_of_not_armed (by rw [hseq]; exact SeqState.noConfusion), hkept⟩

end Sys2Proof.Machine
end

section
/-! EVENT_ENABLE (R144, R145), EVENT_CLEAR (R149) and NOTICE_ORDER (R151). -/

namespace Sys2Proof.Machine

/-! ## The records of the Event Unit -/

/-- The end of a command leaves a record but for what has been noticed. -/
theorem recs_of_kept {s t : State} (h : KeptBut [] s t) (n : Fin 28) :
    t.events.recs[n] = { s.events.recs[n] with noticed := t.events.recs[n].noticed } := by
  obtain ⟨-, hrecs⟩ := h .events (by simp)
  simpa using hrecs n

theorem order_of_kept {s t : State} (h : KeptBut [] s t) : t.events.order = s.events.order := (h .events (by simp)).1

/-- ATN# is asserted while a source is enabled and pending (R144). -/
theorem atnAsserted_iff (s : State) : atnAsserted s = true ↔
    ∃ n : Fin 28, s.events.recs[n].enabled = true ∧ s.events.recs[n].pending = true := by
  unfold atnAsserted
  rw [List.any_eq_true]
  constructor
  · rintro ⟨r, hr, hboth⟩
    obtain ⟨k, hk, rfl⟩ := List.mem_iff_getElem.1 hr
    rw [Vector.length_toList] at hk
    refine ⟨⟨k, hk⟩, ?_⟩
    simpa using hboth
  · rintro ⟨n, henabled, hpending⟩
    refine ⟨s.events.recs[n], Vector.mem_toList_iff.2 (Vector.getElem_mem n.isLt), ?_⟩
    rw [henabled, hpending]
    rfl

/-! ## EVENT_ENABLE (R145) -/

theorem be32_num32 (a b c d : Byte) : be32 (num32 a b c d) = [a, b, c, d] := by
  have ha := a.isLt
  have hb := b.isLt
  have hc := c.isLt
  have hd := d.isLt
  unfold be32 num32
  refine List.ext_getElem rfl fun i hi _ => BitVec.eq_of_toNat_eq ?_
  match i, hi with
  | 0, _ | 1, _ | 2, _ | 3, _ =>
    simp only [byteOf, List.getElem_cons_zero, List.getElem_cons_succ, BitVec.toNat_ofNat]
    omega

/-- The bits of a set below 2 to the 28 are its sources. -/
theorem sourceSet_set {set : Nat} (h : set < 2 ^ 28) : sourceSet (fun n => set.testBit n.val) = be32 set := by
  rw [sourceSet, BitVec.toNat_ofFnLE, Nat.ofBits_testBit, Nat.mod_eq_of_lt h]

/-- The enable set written. -/
def enabledAs (set : Nat) (s : State) : State :=
  s.onEvents fun e => { e with recs := e.recs.mapIdx fun n r => { r with enabled := set.testBit n } }

theorem enabledAs_rec (set : Nat) (s : State) (n : Fin 28) :
    (enabledAs set s).events.recs[n] = { s.events.recs[n] with enabled := set.testBit n.val } :=
  Vector.getElem_mapIdx n.isLt

theorem eventEnableRule_passes {b3 b2 b1 b0 : Byte} {s : State} (h : num32 b3 b2 b1 b0 < 2 ^ 28) :
    eventEnableRule [b3, b2, b1, b0] s = (enabledAs (num32 b3 b2 b1 b0) s, okay [b3, b2, b1, b0]) := by
  have hdata : sourceSet (fun n => (enabledAs (num32 b3 b2 b1 b0) s).events.recs[n].enabled) = [b3, b2, b1, b0] := by
    simp only [enabledAs_rec]
    rw [sourceSet_set h, be32_num32]
  unfold eventEnableRule
  dsimp only
  rw [if_neg (by omega), ← hdata]
  rfl

theorem eventEnableRule_refuses {b3 b2 b1 b0 : Byte} {s : State} (h : 2 ^ 28 ≤ num32 b3 b2 b1 b0) :
    eventEnableRule [b3, b2, b1, b0] s = (s, refuse .badValue) := if_pos h

/-- Settles O44. -/
theorem eventEnableBecomesTheEnableSet : Obligations.EventEnableBecomesTheEnableSet := by
  intro tag b3 b2 b1 b0 s hready
  refine ⟨_, rfl, ?_, fun hlow => ?_⟩
  · rintro ⟨n, hn, hbit⟩
    have hle : 2 ^ 28 ≤ num32 b3 b2 b1 b0 :=
      (Nat.pow_le_pow_right (by decide) hn).trans (Nat.ge_two_pow_of_testBit hbit)
    exact request_kept tag 0x60#8 [b3, b2, b1, b0] hready (by decide) (eventEnableRule_refuses hle)
  · have hlt : num32 b3 b2 b1 b0 < 2 ^ 28 := Nat.lt_pow_two_of_testBit _ hlow
    obtain ⟨hanswer, hsame, hkept⟩ := request_writes tag 0x60#8 [b3, b2, b1, b0] hready (by decide)
      (eventEnableRule_passes (s := heard s) hlt) (onEvents_kept _ _) (by simp)
    have hrecs : ∀ n : Fin 28, _ := fun n => (recs_of_kept hsame n).trans (by rw [enabledAs_rec])
    refine ⟨hanswer, (order_of_kept hsame).trans rfl, hrecs, ?_, hkept⟩
    rw [atnAsserted_iff]
    refine exists_congr fun n => ?_
    rw [hrecs n]
    rfl

/-! ## EVENT_CLEAR (R149) -/

theorem onSource_rec (n m : Fin 28) (f : EventRec → EventRec) (s : State) :
    (onSource n f s).events.recs[m] = if n = m then f s.events.recs[n] else s.events.recs[m] := updAt_get _ _ _ _

/-- EVENT_CLEAR of a source that exists (R149). -/
theorem eventClearRule_eq {source count : Byte} {n : Fin 28} (s : State) (h : source.toNat = n.val) :
    eventClearRule [source, count] s =
      if s.events.recs[n].pending = true ∧ count = s.events.recs[n].count then
        (onSource n (fun r => { r with pending := false }) s, okay [source, count, 0#8])
      else if s.events.recs[n].pending = true then (s, ⟨.stale, false, [source, s.events.recs[n].count, 1#8]⟩)
      else (s, okay [source, s.events.recs[n].count, 0#8]) := by
  have hsource : byteOf n.val = source := by rw [← h, byteOf_toNat]
  unfold eventClearRule
  dsimp only
  rw [finOf_of_eq h]
  dsimp only [clearData]
  rw [hsource]
  generalize s.events.recs[n] = r
  cases hpending : r.pending
  · simp [flagByte]
  · by_cases hcount : count = r.count
    · simp [hcount, flagByte]
    · simp [hcount, flagByte]

theorem eventClearRule_refuses {source count : Byte} (s : State) (h : 27 < source.toNat) :
    eventClearRule [source, count] s = (s, refuse .badValue) := by
  unfold eventClearRule
  dsimp only
  rw [finOf_of_ge (by omega)]

/-- A pending flag cleared (R149). -/
theorem onSource_cleared (n m : Fin 28) (s : State) :
    (onSource n (fun r => { r with pending := false }) s).events.recs[m] =
      { s.events.recs[m] with pending := s.events.recs[m].pending && decide (m ≠ n) } := by
  rw [onSource_rec]
  by_cases h : n = m
  · subst h
    simp
  · rw [if_neg h]
    simp [Ne.symm h]

/-- Settles O45. -/
theorem eventClearClearsMatchingFlag : Obligations.EventClearClearsMatchingFlag := by
  intro tag source count s hready
  refine ⟨fun hbad => ⟨_, rfl, request_kept tag 0x62#8 [source, count] hready (by decide) (eventClearRule_refuses _ hbad)⟩,
    fun n hn => ⟨_, rfl, ?_⟩⟩
  have hrule := eventClearRule_eq (count := count) (heard s) hn
  split
  · rename_i hmatch
    rw [if_pos (by exact hmatch)] at hrule
    obtain ⟨hanswer, hsame, hkept⟩ := request_writes tag 0x62#8 [source, count] hready (by decide) hrule
      (onEvents_kept _ _) (by simp)
    have hrecs : ∀ m : Fin 28, _ := fun m => (recs_of_kept hsame m).trans (by rw [onSource_cleared])
    refine ⟨hanswer, (order_of_kept hsame).trans rfl, hrecs, ?_, hkept⟩
    rw [atnAsserted_iff]
    refine exists_congr fun m => ?_
    rw [hrecs m]
    by_cases hm : m = n <;> simp [hm]
  · rename_i hno
    rw [if_neg (by exact hno)] at hrule
    split
    · rename_i hpending
      rw [if_pos (by exact hpending)] at hrule
      exact request_kept tag 0x62#8 [source, count] hready (by decide) hrule
    · rename_i hpending
      rw [if_neg (by exact hpending)] at hrule
      exact request_kept tag 0x62#8 [source, count] hready (by decide) hrule

/-! ## NOTICE_ORDER (R151) -/

theorem noticeGroupOf_some {b : Byte} (h : b.toNat ≤ 2) : ∃ g, noticeGroupOf b = some g ∧ noticeGroupByte g = b := by
  have hb := byteOf_toNat b
  unfold noticeGroupOf
  rcases (by omega : b.toNat = 0 ∨ b.toNat = 1 ∨ b.toNat = 2) with h | h | h
  all_goals
    rw [h] at hb
    rw [h]
    exact ⟨_, rfl, by rw [← hb]; rfl⟩

theorem noticeGroupOf_none {b : Byte} (h : ¬ b.toNat ≤ 2) : noticeGroupOf b = none := by
  unfold noticeGroupOf
  split
  · omega
  · omega
  · omega
  · rfl

/-- Three group codes name an order just when each is in range and named once (R151). -/
theorem orderOf_some {a b c : Byte} (h : a.toNat ≤ 2 ∧ b.toNat ≤ 2 ∧ c.toNat ≤ 2 ∧ a ≠ b ∧ a ≠ c ∧ b ≠ c) :
    ∃ o, orderOf a b c = some o ∧ orderBytes o = [a, b, c] ∧
      [some o.first, some o.second, some o.third] = [noticeGroupOf a, noticeGroupOf b, noticeGroupOf c] := by
  obtain ⟨ha, hb, hc, hab, hac, hbc⟩ := h
  obtain ⟨x, hx, hxa⟩ := noticeGroupOf_some ha
  obtain ⟨y, hy, hyb⟩ := noticeGroupOf_some hb
  obtain ⟨z, hz, hzc⟩ := noticeGroupOf_some hc
  have hxy : x ≠ y := fun h => hab (by rw [← hxa, ← hyb, h])
  have hxz : x ≠ z := fun h => hac (by rw [← hxa, ← hzc, h])
  have hyz : y ≠ z := fun h => hbc (by rw [← hyb, ← hzc, h])
  refine ⟨⟨x, y, z⟩, ?_, by rw [orderBytes, hxa, hyb, hzc], by rw [hx, hy, hz]⟩
  simp only [orderOf, hx, hy, hz]
  rw [if_pos ⟨hxy, hxz, hyz⟩]

theorem orderOf_none {a b c : Byte} (h : ¬ (a.toNat ≤ 2 ∧ b.toNat ≤ 2 ∧ c.toNat ≤ 2 ∧ a ≠ b ∧ a ≠ c ∧ b ≠ c)) :
    orderOf a b c = none := by
  unfold orderOf
  split
  · rename_i x y z hx hy hz
    have hrange : ∀ {d : Byte} {g : NoticeGroup}, noticeGroupOf d = some g → d.toNat ≤ 2 := by
      intro d g hd
      by_contra hgt
      rw [noticeGroupOf_none hgt] at hd
      cases hd
    refine if_neg fun hne => h ⟨hrange hx, hrange hy, hrange hz, ?_, ?_, ?_⟩
    · rintro rfl
      exact hne.1 (Option.some.inj (hx.symm.trans hy))
    · rintro rfl
      exact hne.2.1 (Option.some.inj (hx.symm.trans hz))
    · rintro rfl
      exact hne.2.2 (Option.some.inj (hy.symm.trans hz))
  · rfl

/-- Settles O46. -/
theorem noticeOrderTakesThreeGroups : Obligations.NoticeOrderTakesThreeGroups := by
  intro tag a b c s hready
  refine ⟨_, rfl, ?_⟩
  split
  · rename_i hgroups
    obtain ⟨o, ho, hbytes, hnames⟩ := orderOf_some hgroups
    have hrule : noticeOrderRule [a, b, c] (heard s) =
        ((heard s).onEvents fun e => { e with order := o }, okay [a, b, c]) := by
      simp only [noticeOrderRule, ho, hbytes]
    obtain ⟨hanswer, hsame, hkept⟩ := request_writes tag 0x63#8 [a, b, c] hready (by decide) hrule
      (onEvents_kept _ _) (by simp)
    have horder := order_of_kept hsame
    refine ⟨hanswer, ?_, fun n => recs_of_kept hsame n, hkept⟩
    rw [horder]
    exact hnames
  · rename_i hgroups
    have hrule : noticeOrderRule [a, b, c] (heard s) = (heard s, refuse .badValue) := by
      simp only [noticeOrderRule, orderOf_none hgroups]
    exact request_kept tag 0x63#8 [a, b, c] hready (by decide) hrule

end Sys2Proof.Machine
end

section
/-! STORE_SAVE, STORE_ERASE, and the end of a store operation (R166, R167). -/

namespace Sys2Proof.Machine

/-! ## The checks (R166) -/

theorem storeRefusal_none {n : Fin 9} {s : State} (hop : s.store.op = none) (hsupply : s.faults.present.supplyLow = false)
    (hlimit : s.store.limit ≤ n.val) : storeRefusal n s = none := by
  have hlow : ¬ n.val < s.store.limit := by omega
  simp [storeRefusal, hop, hsupply, hlow]

/-- The code of the first check that fails (R166). -/
def storeCode (block : Byte) (s : State) : Code :=
  if 8 < block.toNat then .badValue else if s.store.op.isSome then .busy
  else if s.faults.present.supplyLow then .wrongState else .protected_

theorem storeRefusal_some {block : Byte} {n : Fin 9} {s : State} (hn : block.toNat = n.val)
    (h : 8 < block.toNat ∨ s.store.op.isSome = true ∨ s.faults.present.supplyLow = true ∨ block.toNat < s.store.limit) :
    storeRefusal n s = some (storeCode block s) := by
  have hrange : ¬ 8 < block.toNat := by omega
  unfold storeRefusal storeCode
  rw [if_neg hrange]
  split
  · rfl
  · rename_i hop
    split
    · rfl
    · rename_i hsupply
      rw [if_pos]
      rcases h with h | h | h | h
      · exact absurd h hrange
      · exact absurd h hop
      · exact absurd h hsupply
      · omega

/-! ## STORE_SAVE and STORE_ERASE that pass (R166) -/

theorem beginOperation_kept (w : StoreWork) (s : State) : KeptBut [.clock, .store] s (beginOperation w s) := by
  intro p hp
  have hstore := onStore_kept s (fun x => { x with op := some ⟨w, s.stamp, s.freeIndex⟩ }) p
  cases p
  case clock => simp at hp
  case store => simp at hp
  all_goals exact hstore (by simp)

/-- What is saved is what stood before the request arrived. -/
theorem snapshot_heard (n : Fin 9) (limit : Nat) (s : State) : snapshot n limit (heard s) = snapshot n limit s := rfl

theorem storeSaveRule_passes {block limit : Byte} {n : Fin 9} {s : State} (hn : block.toNat = n.val)
    (hlimit : n = 0 → limit.toNat ≤ 9) (hpass : storeRefusal n s = none) : storeSaveRule [block, limit] s =
      (beginOperation (.writing (snapshot n limit.toNat s)) s, okay [block]) := by
  have hblock : byteOf n.val = block := by rw [← hn, byteOf_toNat]
  have hbound : ¬ (n = 0 ∧ 9 < limit.toNat) := fun h => by
    have hle := hlimit h.1
    omega
  simp only [storeSaveRule, finOf_of_eq hn, if_neg hbound, hpass, hblock]

theorem storeEraseRule_passes {block : Byte} {n : Fin 9} {s : State} (hn : block.toNat = n.val)
    (hpass : storeRefusal n s = none) : oneByte storeEraseRule [block] s = (beginOperation (.erasing n) s, okay []) := by
  simp only [oneByte, storeEraseRule, finOf_of_eq hn, hpass]

/-- A request that begins an operation: what the statement says of both. -/
theorem request_begins {s : State} {rule : State → State × Reply} {w : StoreWork} {data : List Byte} (tag kind : Byte)
    (body : List Byte) (hready : Ready s) (hkind : kind.toNat < 128)
    (hrule : rule (heard s) = (beginOperation w (heard s), okay data)) :
    Answered tag kind .ok false data s (serve ⟨tag, kind, body⟩ rule s) ∧
      (serve ⟨tag, kind, body⟩ rule s).store = { s.store with op := some ⟨w, s.stamp, s.freeIndex⟩ } ∧
      (serve ⟨tag, kind, body⟩ rule s).stamp = s.stamp ∧ (serve ⟨tag, kind, body⟩ rule s).phase = s.phase ∧
      (serve ⟨tag, kind, body⟩ rule s).pending = s.pending ∧
      KeptBut [.clock, .store] s (serve ⟨tag, kind, body⟩ rule s) := by
  obtain ⟨hanswer, hsame, hkept⟩ := request_writes tag kind body hready hkind hrule (beginOperation_kept w (heard s)) (by simp)
  obtain ⟨hpending, hphase, hstamp, -⟩ := hsame .clock (by simp)
  exact ⟨hanswer, hsame .store (by simp), hstamp, hphase, hpending, hkept⟩

/-! ## The end of an operation (R167) -/

theorem finishWork_eq (w : StoreWork) (x : SettingStore) : finishWork w x = { x with
    op := none, lastOp := some ⟨workBlock w, .done⟩,
    blocks := match w with
      | .writing c => writeBlock c x.blocks
      | .erasing n => eraseBlock n x.blocks,
    limit := match w with
      | .writing (.header c) => c.limit
      | _ => x.limit } := by
  cases w with
  | writing c => cases c <;> rfl
  | erasing n => rfl

/-- The operation in flight ended. -/
def operationEnded (o : StoreOp) (s : State) : State := raise .storeDone (s.onStore (finishWork o.work))

theorem exec_storeOperationEnd {s : State} {o : StoreOp} (hrun : s.phase = .running) (hop : s.store.op = some o)
    (hdue : reached s.stamp (o.since + 5000#32) = true) : exec .storeOperationEnd s = .next (settle (operationEnded o s)) := by
  have hdone : storeEndDue s = true := by
    rw [storeEndDue, hop]
    exact hdue
  have hend : endOperation s = operationEnded o s := by
    rw [endOperation, hop]
    rfl
  rw [← hend]
  exact event_running (effect := endOperation) hrun hdone

/-! ## The refusals (R166) -/

theorem storeEraseRule_refuses {block : Byte} {s : State}
    (h : 8 < block.toNat ∨ s.store.op.isSome = true ∨ s.faults.present.supplyLow = true ∨ block.toNat < s.store.limit) :
    oneByte storeEraseRule [block] s = (s, refuse (storeCode block s)) := by
  by_cases hrange : 8 < block.toNat
  · simp only [oneByte, storeEraseRule, finOf_of_ge (n := 9) hrange, storeCode, if_pos hrange]
  · have hn : block.toNat = (⟨block.toNat, by omega⟩ : Fin 9).val := rfl
    simp only [oneByte, storeEraseRule, finOf_of_eq hn, storeRefusal_some hn h]

theorem storeSaveRule_refuses {block limit : Byte} {s : State} (hlimit : block.toNat = 0 → limit.toNat ≤ 9)
    (h : 8 < block.toNat ∨ s.store.op.isSome = true ∨ s.faults.present.supplyLow = true ∨ block.toNat < s.store.limit) :
    storeSaveRule [block, limit] s = (s, refuse (storeCode block s)) := by
  by_cases hrange : 8 < block.toNat
  · simp only [storeSaveRule, finOf_of_ge (n := 9) hrange, storeCode, if_pos hrange]
  · have hn : block.toNat = (⟨block.toNat, by omega⟩ : Fin 9).val := rfl
    have hbound : ¬ ((⟨block.toNat, by omega⟩ : Fin 9) = 0 ∧ 9 < limit.toNat) := fun hb => by
      have hle := hlimit (congrArg Fin.val hb.1)
      omega
    simp only [storeSaveRule, finOf_of_eq hn, storeRefusal_some hn h, if_neg hbound]

/-- Settles O47. -/
theorem storeOperationsBeginAndEnd : Obligations.StoreOperationsBeginAndEnd := by
  refine ⟨fun s => ⟨fun tag block limit n hready hn hlimit hop hsupply hprotected => ⟨?_, ?_⟩,
    fun o hrun hop hdue => ?_⟩, fun tag block limit s hready h => ⟨storeCode block s, rfl, fun _ hlimit => ?_,
      fun hblock => ?_, ?_⟩⟩
  · have hrule := storeSaveRule_passes (s := heard s) hn hlimit (storeRefusal_none hop hsupply hprotected)
    rw [snapshot_heard] at hrule
    exact ⟨_, rfl, request_begins tag 0x70#8 [block, limit] hready (by decide) hrule⟩
  · have hrule := storeEraseRule_passes (s := heard s) hn (storeRefusal_none hop hsupply hprotected)
    exact ⟨_, rfl, request_begins tag 0x71#8 [block] hready (by decide) hrule⟩
  · have hsame := settle_kept (operationEnded o s)
    have hstored : Raised [] s (s.onStore (finishWork o.work)) := raised_of_events rfl
    refine ⟨_, exec_storeOperationEnd hrun hop hdue, ?_, ?_, ?_⟩
    · have hstore : (settle (operationEnded o s)).store = finishWork o.work s.store := hsame .store (by simp)
      exact hstore.trans (finishWork_eq _ _)
    · exact (raised_append hstored (raise_raised .storeDone _)).trans_none (hsame .events (by simp))
    · exact settled_kept (KeptBut.then_mono (onStore_kept _ _) (raise_kept _ _) (by simp) (by simp))
  · exact ⟨_, rfl, request_kept tag 0x70#8 [block, limit] hready (by decide)
      (storeSaveRule_refuses (s := heard s) (fun _ => hlimit) h)⟩
  · exact ⟨_, rfl, request_kept tag 0x70#8 [block, limit] hready (by decide)
      (storeSaveRule_refuses (s := heard s) (fun h0 => absurd h0 hblock) h)⟩
  · exact ⟨_, rfl, request_kept tag 0x71#8 [block] hready (by decide) (storeEraseRule_refuses (s := heard s) h)⟩

end Sys2Proof.Machine
end

section
/-! RESTART, FULL_RESET, and a start-up that applies no settings (R161, R167, R169, R171). -/

namespace Sys2Proof.Machine

/-! ## The end of a command in a part with nothing to send and nothing to report -/

theorem chooseSource_none {e : EventUnit} (h : ∀ n : Fin 28, due e.recs[n] = false) : chooseSource e = none := by
  rw [chooseSource, List.findSome?_eq_none_iff]
  intro g _
  rw [List.find?_eq_none]
  intro n _
  rw [h n, Bool.and_false]
  exact Bool.false_ne_true

/-- A part in IDLE with nothing to send, nothing reported and every line in agreement. -/
structure Quiet (s : State) : Prop where
  running : s.phase = .running
  idle : s.seq.state = .idle
  axis : s.axis.overspeed = false ∧ s.axis.reversed = false
  inbox : s.faults.inbox = []
  silent : s.link.silent = false
  sends : s.link.tx = none ∧ s.link.replies = []
  notices : ∀ n : Fin 28, due s.events.recs[n] = false
  agrees : ∀ n : Fin 16, s.outs.lines[n].mismatch = .agree

theorem endedMismatches_of_agree {s : State} (h : ∀ n : Fin 16, s.outs.lines[n].mismatch = .agree) : endedMismatches s = [] := by
  rw [endedMismatches, List.map_eq_nil_iff, List.filter_eq_nil_iff]
  intro n _
  rw [h n]
  simp

theorem chooseFrame_quiet {s : State} (hsends : s.link.tx = none ∧ s.link.replies = [])
    (hnotices : ∀ n : Fin 28, due s.events.recs[n] = false) : chooseFrame s = s := by
  obtain ⟨htx, hreplies⟩ := hsends
  simp only [chooseFrame, htx, hreplies, chooseSource_none hnotices]
  simp

theorem axis_of_flags {a : Axis} (hover : a.overspeed = false) (hreversed : a.reversed = false) :
    { a with overspeed := false, reversed := false } = a := by
  cases a
  cases hover
  cases hreversed
  rfl

theorem link_of_silent {l : Link} (h : l.silent = false) : { l with silent := false } = l := by
  cases l
  cases h
  rfl

/-- Nothing but the lines and the supply is judged. -/
theorem settle_quiet {s : State} (h : Quiet s) : settle s = { s with
    outs := { s.outs with lines := s.outs.lines.map fun l => { l with mismatch := judgedMismatch s l } },
    supply := { s.supply with low := lowJudged s.supply },
    faults := { s.faults with inbox := changeReport s.supply.low (supplyReport s) },
    checkpoint := none } := by
  have hidle : outsideIdle s = false := by simp [outsideIdle, h.idle]
  obtain ⟨hover, hreversed⟩ := h.axis
  have haxis := axis_of_flags hover hreversed
  have hlink : { s.link with silent := false } = s.link := link_of_silent h.silent
  have hjudged : judged s = { s with
      outs := { s.outs with lines := s.outs.lines.map fun l => { l with mismatch := judgedMismatch s l } },
      supply := { s.supply with low := lowJudged s.supply },
      faults := { s.faults with inbox := changeReport s.supply.low (supplyReport s) } } := by
    rw [judged_eq, endedMismatches_of_agree h.agrees, hidle, h.inbox, hover, hreversed, h.silent]
    simp only [Bool.and_false, Bool.or_false, Bool.false_and, if_true, Bool.false_eq_true, if_false, List.append_nil,
      List.nil_append, haxis, hlink]
    rfl
  rw [settle_running h.running, hjudged, chooseFrame_quiet (by exact h.sends) (by exact h.notices)]
  rfl

/-! ## The end of the autoload (R169) -/

theorem autoloadEnd_le (ticket : Nat) : (autoloadEnd ticket).toNat ≤ 3000 := by
  have hlt := Nat.mod_lt (Config.autoloadTime ticket) (by decide : 0 < Config.autoloadMax + 1)
  have hsmall : Config.autoloadTime ticket % (Config.autoloadMax + 1) < 2 ^ 32 := hlt.trans (by decide)
  rw [autoloadEnd, BitVec.toNat_ofNat, Nat.mod_eq_of_lt hsmall]
  exact Nat.le_of_lt_succ hlt

theorem sampleAfter_toNat {t : Stamp} (h : t.toNat ≤ 3000) : (sampleAfter t).toNat = (t.toNat / 1000 + 1) * 1000 := by
  rw [sampleAfter, BitVec.toNat_ofNat]
  simp only [Config.sampleTime]
  omega

/-- The part at the end of its autoload, before the command ends. -/
def autoloaded (u : State) (ticket : Nat) : State := { endAutoload (autoloadEnd ticket) u with freeIndex := ticket + 1 }

theorem startPart_eq (rate : LinkRate) (skip : Bool) (s : State) : startPart rate skip s =
    autoloaded (autoload skip (resetBlocks .running rate s.store.blocks s)) s.freeIndex := rfl

/-- The comparator of a supply that has not been low: the report is its beginning, where it is low. -/
theorem changeReport_supply (s : State) (h : s.supply.low = false) : changeReport s.supply.low (supplyReport s) =
    if lowJudged s.supply then [plainReport .supplyLow true] else [] := by
  rw [changeReport, h, supplyReport]
  cases lowJudged s.supply <;> rfl

theorem lowJudged_fresh (level : Fin 4) (millivolts : Nat) :
    lowJudged ⟨level, millivolts, false⟩ = decide (millivolts < 2850 + 100 * level.val) := by
  have h := lowJudged_iff ⟨level, millivolts, false⟩
  simp only [Bool.false_eq_true, and_false, or_false] at h
  rw [Bool.eq_iff_iff, h, decide_eq_true_iff]

/-! ## A part at its reset values -/

theorem recomputeTrack_reset (next : Stamp) : recomputeTrack { Axis.reset with nextSample := next } Track.reset = Track.reset := rfl

theorem due_reset (n : Fin 28) : due EventUnit.reset.recs[n] = false := by
  rw [EventUnit.reset]
  simp [due]

/-- The reset values with the autoload's end, and what the end of the command makes of them. -/
theorem reset_quiet (rate : LinkRate) (blocks : Blocks) (f : SettingStore → SettingStore) (s : State) (ticket : Nat) :
    Quiet (autoloaded ((resetBlocks .running rate blocks s).onStore f) ticket) where
  running := rfl
  idle := rfl
  axis := ⟨rfl, rfl⟩
  inbox := rfl
  silent := rfl
  sends := ⟨rfl, rfl⟩
  notices := due_reset
  agrees n := congrArg OutLine.mismatch (map_get s.outs.lines (fun l => OutLine.reset l.sampled) n)

/-- A line at its reset values agrees with its pin (R121). -/
theorem judgedMismatch_reset (s : State) (sampled : Bool) : judgedMismatch s (OutLine.reset sampled) = .agree := by
  simp [judgedMismatch, inMismatch, OutLine.reset, LineSettings.reset]

theorem isReset_started (rate : LinkRate) (blocks : Blocks) (f : SettingStore → SettingStore) (s : State) (ticket : Nat) {t : State}
    (ht : t = settle (autoloaded ((resetBlocks .running rate blocks s).onStore f) ticket)) :
    t.phase = .running ∧ t.stamp.toNat ≤ 3000 ∧ IsReset rate t.stamp s t ∧ t.store = f (SettingStore.reset blocks) := by
  have hquiet := settle_quiet (reset_quiet rate blocks f s ticket)
  rw [changeReport_supply _ rfl] at hquiet
  rw [hquiet] at ht
  have hsupply : lowJudged (autoloaded ((resetBlocks .running rate blocks s).onStore f) ticket).supply =
      decide (s.supply.millivolts < 2850) := lowJudged_fresh 0 s.supply.millivolts
  rw [hsupply] at ht
  have hstamp : t.stamp = autoloadEnd ticket := by rw [ht]; rfl
  have hle : t.stamp.toNat ≤ 3000 := by rw [hstamp]; exact autoloadEnd_le ticket
  refine ⟨by rw [ht]; rfl, hle, ⟨rfl, by rw [ht]; rfl, by rw [ht]; rfl, ?_, by rw [ht]; rfl, by rw [ht]; rfl, by rw [ht]; rfl, ?_,
    fun n => ?_, by rw [ht]; rfl, fun n => ?_, by rw [ht]; rfl, by rw [ht]; rfl, by rw [ht]; rfl, by rw [ht]; rfl, by rw [ht],
    by rw [ht]; rfl, by rw [hstamp, ht]; rfl⟩, by rw [ht]; rfl⟩
  · have hnext : t.axis.nextSample = sampleAfter t.stamp := by rw [hstamp, ht]; rfl
    rw [hnext]
    exact sampleAfter_toNat hle
  · have hcams : t.cams = ⟨(Vector.replicate 8 Track.reset).map
        (recomputeTrack { Axis.reset with nextSample := sampleAfter (autoloadEnd ticket) }), 0⟩ := by rw [ht]; rfl
    rw [hcams, Vector.map_replicate, recomputeTrack_reset]
    rfl
  · have hlines : t.outs.lines = (s.outs.lines.map fun l => OutLine.reset l.sampled).map fun l => { l with
        mismatch := judgedMismatch (autoloaded ((resetBlocks .running rate blocks s).onStore f) ticket) l } := by
      rw [ht]
      rfl
    rw [hlines, map_get, map_get, judgedMismatch_reset]
    rfl
  · have hins : t.ins = s.ins.map fun i => InLine.reset i.raw := by rw [ht]; rfl
    rw [hins, map_get]

/-! ## RESTART, FULL_RESET, and an unprepared store -/

theorem restartRule_busy {s : State} (h : s.store.op.isSome = true) : restartRule s = (s, refuse .busy) := if_pos h

theorem restartRule_passes {s : State} (h : s.store.op = none) :
    restartRule s = (s.onLink fun l => { l with restarting := true }, okay []) := by
  rw [restartRule, h]
  rfl

/-- An unprepared header leaves a part at its reset values (R169). -/
theorem autoload_unprepared {skip : Bool} {s : State} (h : headerPrepared s.store.blocks = false) : autoload skip s = s := by
  unfold headerPrepared at h
  unfold autoload
  split
  · rename_i c hc
    rw [hc] at h
    dsimp only at h
    rw [h]
    rfl
  · rfl
  · rfl

theorem startPart_unprepared (rate : LinkRate) (skip : Bool) {s : State} (h : headerPrepared s.store.blocks = false) :
    startPart rate skip s =
      autoloaded ((resetBlocks .running rate s.store.blocks s).onStore fun x => x) s.freeIndex := by
  rw [startPart_eq, autoload_unprepared (s := resetBlocks .running rate s.store.blocks s) h]
  rfl

theorem fullReset_isReset (s : State) : IsReset s.link.rate 0#32 s (resetBlocks .held s.link.rate (blocksAtReset s.store) s) :=
  ⟨rfl, rfl, rfl, rfl, rfl, rfl, rfl, rfl, map_get _ _, rfl, map_get _ _, rfl, rfl, rfl, rfl, rfl, rfl, rfl⟩

theorem exec_startUp {s : State} (cfg0 cfg1 cfg2 : Bool) (h : s.phase = .held) :
    exec (.startUp cfg0 cfg1 cfg2) s = .next (settle (startPart (strapRate cfg1 cfg0) cfg2 s)) := by
  have hexec : exec (.startUp cfg0 cfg1 cfg2) s = execStartUp cfg0 cfg1 cfg2 s := rfl
  rw [hexec, execStartUp, h]

theorem exec_restartBegin {s : State} (hrun : s.phase = .running) (hrestart : s.link.restarting = true)
    (hreplies : s.link.replies = []) (htx : s.link.tx = none) :
    exec .restartBegin s = .next (settle (startPart s.link.rate false s)) :=
  event_running (effect := fun s => startPart s.link.rate false s) hrun (by simp [restartDue, hrestart, hreplies, htx])

/-- Settles O48. -/
theorem resetsTakeResetValues : Obligations.ResetsTakeResetValues := by
  refine fun s => ⟨fun tag hready => ⟨_, rfl, fun hbusy => ?_, fun hop => ?_⟩,
    ⟨_, rfl, rfl, fullReset_isReset s, rfl⟩, fun cfg0 cfg1 cfg2 hheld hheader => ?_,
    fun hrun hrestart hreplies htx hheader => ?_⟩
  · exact request_refused tag 0x7F#8 hready (by decide) (restartRule_busy (s := heard s) hbusy)
  · obtain ⟨hanswer, hsame, hkept⟩ := request_done (ps := [.link]) tag 0x7F#8 [] (noBody restartRule []) hready (by decide)
      (restartRule_passes (s := heard s) hop) (onLink_kept _ _) rfl
    exact ⟨hanswer, hsame .link (by simp), hkept⟩
  · have hrate : (if cfg1 then if cfg0 then .b921600 else .b460800 else if cfg0 then .b230400 else .b115200) =
        strapRate cfg1 cfg0 := by
      cases cfg1 <;> cases cfg0 <;> rfl
    rw [hrate]
    exact ⟨_, exec_startUp cfg0 cfg1 cfg2 hheld,
      isReset_started _ _ (fun x => x) s s.freeIndex (congrArg settle (startPart_unprepared _ cfg2 hheader))⟩
  · exact ⟨_, exec_restartBegin hrun hrestart hreplies htx,
      isReset_started _ _ (fun x => x) s s.freeIndex (congrArg settle (startPart_unprepared _ false hheader))⟩

end Sys2Proof.Machine
end

section
/-! The setting blocks applied at a start-up, each by its rule (R109, R154, R169, R170). -/

namespace Sys2Proof.Machine

/-! ## The load result -/

/-- The load result of a block that has been applied partly or wholly. -/
def loadResult {α : Type} (b : Block α) (partly : Bool) : LoadResult :=
  match b with
  | .empty => .empty
  | .bad => .bad
  | .valid _ => if partly then .partly else .loaded

theorem resultOf_eq {α : Type} {b : Block α} {p : Prop} [Decidable p] {partly : Bool}
    (h : ∀ c, b = .valid c → (partly = true ↔ p)) : resultOf b p = loadResult b partly := by
  cases b with
  | empty => rfl
  | bad => rfl
  | valid c =>
    have hc := h c rfl
    by_cases hp : p
    · simp [resultOf, loadResult, hp, hc.2 hp]
    · have hfalse : partly = false := by
        cases partly
        · rfl
        · exact absurd (hc.1 rfl) hp
      simp [resultOf, loadResult, hp, hfalse]

theorem applyBlock_result {α : Type} (b : Block α) (load : α → State → State × Bool) (s : State) :
    (applyBlock b load s).2 = match b with
      | .valid c => loadResult b (load c s).2
      | .empty => .empty
      | .bad => .bad := by
  cases b <;> rfl

/-! ## LINK, AXIS, LIMITS and LINES -/

theorem applyLink_eq (b : Block LinkRate) (s : State) : applyBlock b loadLink s =
    (s.onLink fun l => { l with rate := contentOr l.rate b }, loadResult b false) := by
  cases b <;> rfl

/-- The claim of the decoder's two inputs, where the source wants them. -/
def sourceClaimed (c : AxisSettings) (s : State) : State :=
  match c.source with
  | .timebase => s
  | .quad | .step => claimAxisInputs s

theorem applyAxis_eq (b : Block AxisSettings) {s : State} (h : s.axis.cfg = AxisSettings.reset) : applyBlock b loadAxis s =
    (sourceClaimed (contentOr AxisSettings.reset b) (s.onAxis fun a => { a with cfg := contentOr AxisSettings.reset b }),
      loadResult b false) := by
  have hsame : (s.onAxis fun a => { a with cfg := AxisSettings.reset }) = s := by
    rw [← h]
    rfl
  cases b with
  | empty => exact Prod.ext hsame.symm rfl
  | bad => exact Prod.ext hsame.symm rfl
  | valid c => rfl

theorem claimAxisInputs_frame (s : State) : claimAxisInputs s = { s with
    axis := { s.axis with pairA := s.ins[0].accepted, pairB := s.ins[1].accepted }, ins := (claimAxisInputs s).ins } := rfl

/-- The axis and the inputs after the AXIS block. -/
theorem sourceClaimed_frame (c : AxisSettings) (s : State) : sourceClaimed c s = { s with
    axis := { s.axis with
      pairA := if c.source = .timebase then s.axis.pairA else s.ins[0].accepted
      pairB := if c.source = .timebase then s.axis.pairB else s.ins[1].accepted }
    ins := (sourceClaimed c s).ins } := by
  unfold sourceClaimed
  split
  · rename_i h
    rw [h]
    rfl
  · rename_i h
    rw [h]
    rfl
  · rename_i h
    rw [h]
    rfl

theorem claimed_either (v : Vector InLine 8) (n : Fin 8) :
    (if n = 0 then { v[0] with fn := .axisA } else if n = 1 then { v[1] with fn := .axisB } else v[n]) =
      if n = 0 ∨ n = 1 then { v[n] with fn := if n = 0 then .axisA else .axisB } else v[n] := by
  by_cases h0 : n = 0
  · subst h0
    rfl
  · by_cases h1 : n = 1
    · subst h1
      rfl
    · rw [if_neg h0, if_neg h1, if_neg (by rintro (h | h); exacts [h0 h, h1 h])]

theorem sourceClaimed_in (c : AxisSettings) (s : State) (n : Fin 8) : (sourceClaimed c s).ins[n] =
    if c.source ≠ .timebase ∧ (n = 0 ∨ n = 1) then { s.ins[n] with fn := if n = 0 then .axisA else .axisB }
    else s.ins[n] := by
  unfold sourceClaimed
  split
  · rename_i h
    rw [if_neg (fun hc => hc.1 h)]
  · rename_i h
    rw [claimAxisInputs_in, h]
    exact (claimed_either s.ins n).trans (if_congr (by simp) rfl rfl)
  · rename_i h
    rw [claimAxisInputs_in, h]
    exact (claimed_either s.ins n).trans (if_congr (by simp) rfl rfl)

theorem applyLimits_eq (b : Block LimitSettings) {s : State}
    (h : (⟨s.axis.reverseLimit, s.axis.speedLimit, s.link.silenceLimit, s.supply.level⟩ : LimitSettings) = ⟨0, 0, 0, 0⟩) :
    applyBlock b loadLimits s = ({ s with
      axis := { s.axis with
        reverseLimit := (contentOr ⟨0, 0, 0, 0⟩ b).reverse, speedLimit := (contentOr ⟨0, 0, 0, 0⟩ b).speed }
      supply := { s.supply with level := (contentOr ⟨0, 0, 0, 0⟩ b).supply }
      link := { s.link with silenceLimit := (contentOr ⟨0, 0, 0, 0⟩ b).silence } }, loadResult b false) := by
  rw [← h]
  cases b <;> rfl

theorem applyLines_spec (b : Block (Vector LineSettings 16)) {s : State}
    (h : ∀ n : Fin 16, s.outs.lines[n].cfg = LineSettings.reset) :
    (applyBlock b loadLines s).1 = { s with outs := ⟨(applyBlock b loadLines s).1.outs.lines, s.outs.arrivals⟩ } ∧
      (∀ n : Fin 16, (applyBlock b loadLines s).1.outs.lines[n] =
        { s.outs.lines[n] with cfg := (contentOr (Vector.replicate 16 LineSettings.reset) b)[n] }) ∧
      (applyBlock b loadLines s).2 = loadResult b false := by
  have hreset : ∀ n : Fin 16, s.outs.lines[n] =
      { s.outs.lines[n] with cfg := (Vector.replicate 16 LineSettings.reset)[n] } := by
    intro n
    have hcfg : (Vector.replicate 16 LineSettings.reset)[n] = s.outs.lines[n].cfg :=
      (Vector.getElem_replicate n.isLt).trans (h n).symm
    rw [hcfg]
  cases b with
  | empty => exact ⟨rfl, hreset, rfl⟩
  | bad => exact ⟨rfl, hreset, rfl⟩
  | valid w => exact ⟨rfl, fun n => ofFn_get _ n, rfl⟩

/-! ## INPUTS -/

/-- In IDLE the freeze level is only noted (R49, R54). -/
theorem judgeFreeze_idle {s : State} (h : s.seq.state = .idle) :
    judgeFreeze s = s.onSeq fun q => { q with freeze := freezeLevel s.ins } := by
  unfold judgeFreeze
  split
  · rename_i heq
    rw [heq]
    rfl
  · exact changeFreeze_of_idle h _

/-- An input of a part whose AXIS block has been applied: its filter and edge mode at their reset values, its function GENERAL
unless the axis holds it. -/
def FreshInput (i : InLine) : Prop := i.edgeMode = .never ∧ i.filter = 0 ∧ (axisHolds i = false → i.fn = .general)

theorem loadInput_reset {i : InLine} (h : FreshInput i) : loadInput ⟨false, .never, 0⟩ i = i := by
  obtain ⟨hmode, hfilter, hfn⟩ := h
  unfold loadInput
  cases hheld : axisHolds i
  · simp [← hfn hheld, ← hmode, ← hfilter]
  · simp [← hmode, ← hfilter]

theorem applyInputs_spec (b : Block (Vector InputSettings 8)) {s : State} (hidle : s.seq.state = .idle)
    (hfreeze : s.seq.freeze = false) (hfresh : ∀ n : Fin 8, FreshInput s.ins[n]) :
    (applyBlock b loadInputs s).1 = { s with
      ins := (applyBlock b loadInputs s).1.ins
      seq := { s.seq with freeze := freezeLevel (applyBlock b loadInputs s).1.ins } } ∧
      (∀ n : Fin 8, (applyBlock b loadInputs s).1.ins[n] =
        loadInput (contentOr (Vector.replicate 8 ⟨false, .never, 0⟩) b)[n] s.ins[n]) ∧
      (applyBlock b loadInputs s).2 = loadResult b ((List.finRange 8).any fun n => axisHolds s.ins[n] &&
        (contentOr (Vector.replicate 8 ⟨false, .never, 0⟩) b)[n].freeze) := by
  have hnone : freezeLevel s.ins = false := by
    rw [← Bool.not_eq_true, freezeLevel_iff]
    rintro ⟨n, hfn, -⟩
    have hgeneral := (hfresh n).2.2 (by unfold axisHolds; rw [hfn]; rfl)
    rw [hfn] at hgeneral
    exact InputFn.noConfusion hgeneral
  have hsame : s = { s with ins := s.ins, seq := { s.seq with freeze := freezeLevel s.ins } } := by
    rw [hnone, ← hfreeze]
  have hreset : ∀ n : Fin 8, s.ins[n] = loadInput (Vector.replicate 8 ⟨false, .never, 0⟩)[n] s.ins[n] := by
    intro n
    have hstored : (Vector.replicate 8 (⟨false, .never, 0⟩ : InputSettings))[n] = ⟨false, .never, 0⟩ :=
      Vector.getElem_replicate n.isLt
    rw [hstored, loadInput_reset (hfresh n)]
  cases b with
  | empty => exact ⟨hsame, hreset, rfl⟩
  | bad => exact ⟨hsame, hreset, rfl⟩
  | valid w =>
    have hloaded : (applyBlock (.valid w) loadInputs s).1 =
        judgeFreeze (s.onIns fun v => Vector.ofFn fun n : Fin 8 => loadInput w[n] v[n]) := rfl
    rw [hloaded, judgeFreeze_idle (by exact hidle)]
    exact ⟨rfl, fun n => ofFn_get _ n, rfl⟩

end Sys2Proof.Machine
end

section
/-! The CAPTURE, CAMS and EVENTS blocks applied at a start-up (R109, R170). -/

namespace Sys2Proof.Machine

/-! ## CAPTURE (R170) -/

/-- Stored channel settings cannot be set on a part: a WINDOW position is not below the modulus, or the input holds another
function, the claim of a lower channel of `v` among them (R170). -/
def channelBlocked (w : Vector ChannelSettings 4) (u v : State) (ch : Fin 4) : Prop :=
  (∃ p ∈ gatePositions w[ch].gate, u.axis.cfg.modulus ≤ p) ∨
    ∃ n, w[ch].input = some n ∧ (u.ins[n].fn ≠ .general ∨ ∃ d < ch, v.capture.channels[d].cfg.input = some n)

theorem channelBlocked_congr {w : Vector ChannelSettings 4} {u v v' : State} {ch : Fin 4}
    (h : ∀ d < ch, v'.capture.channels[d] = v.capture.channels[d]) : channelBlocked w u v' ch ↔ channelBlocked w u v ch := by
  unfold channelBlocked
  refine or_congr Iff.rfl (exists_congr fun n => and_congr Iff.rfl (or_congr Iff.rfl (exists_congr fun d => ?_)))
  exact and_congr_right fun hd => by rw [h d hd]

/-- The channels below `k` have been set on the part `u`, where they can be. -/
structure ChannelsLoaded (w : Vector ChannelSettings 4) (u : State) (k : Nat) (p : State × Bool) : Prop where
  frame : p.1 = { u with ins := p.1.ins, capture := ⟨p.1.capture.channels, u.capture.arrivals⟩ }
  later : ∀ ch : Fin 4, k ≤ ch.val → p.1.capture.channels[ch] = Channel.reset
  blocked : ∀ ch : Fin 4, channelBlocked w u p.1 ch → p.1.capture.channels[ch] = Channel.reset
  set : ∀ ch : Fin 4, ch.val < k → ¬ channelBlocked w u p.1 ch →
    p.1.capture.channels[ch] = { Channel.reset with cfg := w[ch] }
  input : ∀ n : Fin 8, p.1.ins[n] = { u.ins[n] with fn := p.1.ins[n].fn }
  free : ∀ n : Fin 8, (∀ ch : Fin 4, p.1.capture.channels[ch].cfg.input ≠ some n) → p.1.ins[n].fn = u.ins[n].fn
  bound : ∀ (n : Fin 8) (ch : Fin 4), p.1.capture.channels[ch].cfg.input = some n →
    p.1.ins[n].fn = .capture ch ∧ u.ins[n].fn = .general
  partly : p.2 = true ↔ ∃ ch : Fin 4, ch.val < k ∧ channelBlocked w u p.1 ch

namespace ChannelsLoaded

variable {w : Vector ChannelSettings 4} {u : State} {k : Nat} {p : State × Bool}

theorem lower_of_input (h : ChannelsLoaded w u k p) {d : Fin 4} {n : Fin 8}
    (hd : p.1.capture.channels[d].cfg.input = some n) : d.val < k := by
  by_contra hge
  rw [h.later d (by omega)] at hd
  cases hd

/-- The next channel loads just when nothing blocks it. -/
theorem loads_iff (h : ChannelsLoaded w u k p) {ch : Fin 4} (hch : ch.val = k) :
    channelLoads w[ch] p.1 = true ↔ ¬ channelBlocked w u p.1 ch := by
  have haxis : p.1.axis = u.axis := by rw [h.frame]
  have hinput : ∀ n : Fin 8, p.1.ins[n].fn = .general ↔
      ¬ (u.ins[n].fn ≠ .general ∨ ∃ d < ch, p.1.capture.channels[d].cfg.input = some n) := by
    intro n
    by_cases hbound : ∃ d : Fin 4, p.1.capture.channels[d].cfg.input = some n
    · obtain ⟨d, hd⟩ := hbound
      rw [(h.bound n d hd).1]
      constructor
      · intro hfn
        cases hfn
      · intro hno
        exact absurd (.inr ⟨d, Fin.lt_def.2 (hch ▸ h.lower_of_input hd), hd⟩) hno
    · rw [h.free n (fun ch hc => hbound ⟨ch, hc⟩)]
      constructor
      · rintro hfn (hne | ⟨d, -, hd⟩)
        · exact hne hfn
        · exact hbound ⟨d, hd⟩
      · intro hno
        by_contra hne
        exact hno (.inl hne)
  unfold channelLoads channelBlocked
  rw [haxis, Bool.and_eq_true, List.all_eq_true, not_or]
  refine and_congr ?_ ?_
  · simp
  · cases hin : w[ch].input with
    | none => simp
    | some n => simpa using hinput n

theorem empty (hreset : ∀ ch : Fin 4, u.capture.channels[ch] = Channel.reset) : ChannelsLoaded w u 0 (u, false) where
  frame := rfl
  later ch _ := hreset ch
  blocked ch _ := hreset ch
  set ch hlt := absurd hlt (by omega)
  input n := rfl
  free n _ := rfl
  bound n ch hn := by
    rw [hreset ch] at hn
    cases hn
  partly := by simp

/-- A channel that cannot be set is left at its reset values. -/
theorem skip (h : ChannelsLoaded w u k p) {ch : Fin 4} (hch : ch.val = k) (hblocked : channelBlocked w u p.1 ch) :
    ChannelsLoaded w u (k + 1) (p.1, true) where
  frame := h.frame
  later d hd := h.later d (by omega)
  blocked := h.blocked
  set d hd hfree := by
    rcases Nat.lt_or_ge d.val k with hlt | hge
    · exact h.set d hlt hfree
    · have hsame : d = ch := Fin.ext (by omega)
      subst hsame
      exact absurd hblocked hfree
  input := h.input
  free := h.free
  bound := h.bound
  partly := ⟨fun _ => ⟨ch, by omega, hblocked⟩, fun _ => rfl⟩

end ChannelsLoaded

/-- A channel has taken its stored settings. -/
def channelSet (w : Vector ChannelSettings 4) (ch : Fin 4) (s : State) : State :=
  onChannel ch (fun x => { x with cfg := w[ch] }) (bindInput ch none w[ch].input s)

theorem channelSet_channel (w : Vector ChannelSettings 4) (ch d : Fin 4) (s : State) :
    (channelSet w ch s).capture.channels[d] =
      if ch = d then { s.capture.channels[ch] with cfg := w[ch] } else s.capture.channels[d] := by
  have hbind : (bindInput ch none w[ch].input s).capture = s.capture := by
    unfold bindInput
    dsimp only
    split <;> rfl
  have hset : (channelSet w ch s).capture.channels[d] = if ch = d then
      { (bindInput ch none w[ch].input s).capture.channels[ch] with cfg := w[ch] }
    else (bindInput ch none w[ch].input s).capture.channels[d] := updAt_get _ _ _ _
  rw [hset, hbind]

theorem channelSet_in (w : Vector ChannelSettings 4) (ch : Fin 4) (s : State) (n : Fin 8) :
    (channelSet w ch s).ins[n] = if w[ch].input = some n then { s.ins[n] with fn := .capture ch } else s.ins[n] := by
  have hbind := bindInput_in ch none w[ch].input s n
  rw [if_neg (show ¬ (none : Option (Fin 8)) = some n from nofun)] at hbind
  exact hbind

theorem channelSet_frame (w : Vector ChannelSettings 4) (ch : Fin 4) (s : State) : channelSet w ch s = { s with
    ins := (channelSet w ch s).ins, capture := ⟨(channelSet w ch s).capture.channels, s.capture.arrivals⟩ } := by
  unfold channelSet bindInput
  dsimp only
  split <;> rfl

namespace ChannelsLoaded

variable {w : Vector ChannelSettings 4} {u : State} {k : Nat} {p : State × Bool}

/-- A channel that can be set takes its settings and its input. -/
theorem load (h : ChannelsLoaded w u k p) {ch : Fin 4} (hch : ch.val = k) (hfree : ¬ channelBlocked w u p.1 ch) :
    ChannelsLoaded w u (k + 1) (channelSet w ch p.1, p.2) := by
  have hothers : ∀ d : Fin 4, d ≠ ch → (channelSet w ch p.1).capture.channels[d] = p.1.capture.channels[d] := fun d hd => by
    rw [channelSet_channel, if_neg (Ne.symm hd)]
  have hself : (channelSet w ch p.1).capture.channels[ch] = { Channel.reset with cfg := w[ch] } := by
    rw [channelSet_channel, if_pos rfl, h.later ch (by omega)]
  have hlower : ∀ d : Fin 4, d.val ≤ k → (channelBlocked w u (channelSet w ch p.1) d ↔ channelBlocked w u p.1 d) := by
    intro d hd
    refine channelBlocked_congr fun e he => hothers e ?_
    rintro rfl
    have hlt := Fin.lt_def.1 he
    omega
  have hsame : ∀ d : Fin 4, d.val = k → d = ch := fun d hd => Fin.ext (by omega)
  refine ⟨?_, fun d hd => ?_, fun d hd => ?_, fun d hd hno => ?_, fun n => ?_, fun n hn => ?_, fun n d hd => ?_, ?_⟩
  · have hframe := channelSet_frame w ch p.1
    have hold := h.frame
    generalize channelSet w ch p.1 = v at hframe
    rw [hframe]
    conv_lhs => rw [hold]
  · have hne : d ≠ ch := by
      rintro rfl
      omega
    rw [hothers d hne, h.later d (by omega)]
  · by_cases hdk : d.val ≤ k
    · have hne : d ≠ ch := by
        rintro rfl
        exact hfree ((hlower d hdk).1 hd)
      rw [hothers d hne]
      exact h.blocked d ((hlower d hdk).1 hd)
    · have hne : d ≠ ch := by
        rintro rfl
        omega
      rw [hothers d hne, h.later d (by omega)]
  · rcases Nat.lt_or_ge d.val k with hlt | hge
    · have hne : d ≠ ch := by
        rintro rfl
        omega
      rw [hothers d hne]
      exact h.set d hlt fun hb => hno ((hlower d (by omega)).2 hb)
    · have hd' := hsame d (by omega)
      subst hd'
      exact hself
  · rw [channelSet_in]
    split
    · rw [h.input n]
    · exact h.input n
  · have hnot : w[ch].input ≠ some n := by
      have hch' := hn ch
      rw [hself] at hch'
      exact hch'
    dsimp only
    rw [channelSet_in, if_neg hnot]
    refine h.free n fun d hd => ?_
    have hne : d ≠ ch := by
      rintro rfl
      have hlt := h.lower_of_input hd
      omega
    exact hn d (by rw [hothers d hne]; exact hd)
  · dsimp only at hd ⊢
    by_cases hne : d = ch
    · subst hne
      rw [hself] at hd
      have hin : w[d].input = some n := hd
      rw [channelSet_in, if_pos hin]
      refine ⟨rfl, ?_⟩
      by_contra hfn
      exact hfree (.inr ⟨n, hin, .inl hfn⟩)
    · rw [hothers d hne] at hd
      have hnot : w[ch].input ≠ some n := fun hin =>
        hfree (.inr ⟨n, hin, .inr ⟨d, Fin.lt_def.2 (hch ▸ h.lower_of_input hd), hd⟩⟩)
      rw [channelSet_in, if_neg hnot]
      exact h.bound n d hd
  · rw [h.partly]
    constructor
    · rintro ⟨d, hd, hb⟩
      exact ⟨d, by omega, (hlower d (by omega)).2 hb⟩
    · rintro ⟨d, hd, hb⟩
      have hb' := (hlower d (by omega)).1 hb
      rcases Nat.lt_or_ge d.val k with hlt | hge
      · exact ⟨d, hlt, hb'⟩
      · have hd' := hsame d (by omega)
        subst hd'
        exact absurd hb' hfree

theorem step (h : ChannelsLoaded w u k p) {ch : Fin 4} (hch : ch.val = k) : ChannelsLoaded w u (k + 1) (loadChannel w p ch) := by
  unfold loadChannel
  split
  · rename_i hloads
    exact h.load hch ((h.loads_iff hch).1 hloads)
  · rename_i hloads
    exact h.skip hch (not_not.1 fun hno => hloads ((h.loads_iff hch).2 hno))

/-- The four channels in number order (R170). -/
theorem all (hreset : ∀ ch : Fin 4, u.capture.channels[ch] = Channel.reset) : ChannelsLoaded w u 4 (loadCapture w u) :=
  (((((empty hreset).step (ch := 0) rfl).step (ch := 1) rfl).step (ch := 2) rfl).step (ch := 3) rfl)

end ChannelsLoaded

/-- The channels that an EMPTY or BAD block leaves: none is set, and nothing blocks one. -/
theorem channelsLoaded_reset {u : State} (hreset : ∀ ch : Fin 4, u.capture.channels[ch] = Channel.reset) :
    ChannelsLoaded (Vector.replicate 4 ChannelSettings.reset) u 4 (u, false) := by
  have hw : ∀ ch : Fin 4, (Vector.replicate 4 ChannelSettings.reset)[ch] = ChannelSettings.reset := fun ch =>
    Vector.getElem_replicate ch.isLt
  have hnone : ∀ ch : Fin 4, ¬ channelBlocked (Vector.replicate 4 ChannelSettings.reset) u u ch := by
    intro ch hblocked
    unfold channelBlocked at hblocked
    rw [hw ch] at hblocked
    rcases hblocked with ⟨p, hp, -⟩ | ⟨n, hn, -⟩
    · exact absurd hp (List.not_mem_nil)
    · cases hn
  have hfirst := ChannelsLoaded.empty (w := Vector.replicate 4 ChannelSettings.reset) hreset
  refine ⟨rfl, fun ch _ => hreset ch, hfirst.blocked, fun ch _ _ => ?_, hfirst.input, hfirst.free, hfirst.bound, ?_⟩
  · rw [hw ch]
    exact hreset ch
  · constructor
    · intro h
      cases h
    · rintro ⟨ch, -, hb⟩
      exact absurd hb (hnone ch)

theorem applyCapture_spec (b : Block (Vector ChannelSettings 4)) {u : State}
    (hreset : ∀ ch : Fin 4, u.capture.channels[ch] = Channel.reset) :
    ∃ partly, ChannelsLoaded (contentOr (Vector.replicate 4 ChannelSettings.reset) b) u 4
        ((applyBlock b loadCapture u).1, partly) ∧ (applyBlock b loadCapture u).2 = loadResult b partly := by
  cases b with
  | empty => exact ⟨false, channelsLoaded_reset hreset, rfl⟩
  | bad => exact ⟨false, channelsLoaded_reset hreset, rfl⟩
  | valid w => exact ⟨(loadCapture w u).2, ChannelsLoaded.all hreset, rfl⟩

/-! ## CAMS and EVENTS (R109, R170) -/

/-- A stored track, where its profile fits the modulus (R109). -/
def trackSet (m : Nat) (c : TrackSettings) : Track :=
  if trackLoads m c then { Track.reset with slotA := c.profile, leadTime := c.leadTime } else Track.reset

theorem applyCams_spec (b : Block (Vector TrackSettings 8)) {s : State} (hreset : ∀ n : Fin 8, s.cams.tracks[n] = Track.reset) :
    (applyBlock b loadCams s).1 = { s with cams := ⟨(applyBlock b loadCams s).1.cams.tracks, s.cams.boundaries⟩ } ∧
      (∀ n : Fin 8, (applyBlock b loadCams s).1.cams.tracks[n] =
        trackSet s.axis.cfg.modulus (contentOr (Vector.replicate 8 ⟨.empty, 0⟩) b)[n]) ∧
      (applyBlock b loadCams s).2 = loadResult b
        (!((contentOr (Vector.replicate 8 ⟨.empty, 0⟩) b).toList.all (trackLoads s.axis.cfg.modulus))) := by
  have hempty : ∀ n : Fin 8, s.cams.tracks[n] = trackSet s.axis.cfg.modulus (Vector.replicate 8 (⟨.empty, 0⟩ : TrackSettings))[n] := by
    intro n
    have hw : (Vector.replicate 8 (⟨.empty, 0⟩ : TrackSettings))[n] = ⟨.empty, 0⟩ := Vector.getElem_replicate n.isLt
    rw [hw, hreset n]
    rfl
  cases b with
  | empty => exact ⟨rfl, hempty, rfl⟩
  | bad => exact ⟨rfl, hempty, rfl⟩
  | valid w => exact ⟨rfl, fun n => map_get _ _ n, rfl⟩

theorem applyEvents_eq (b : Block EventSettings) {s : State} (h : s.events = EventUnit.reset) : applyBlock b loadEvents s =
    ({ s with events := ⟨Vector.ofFn fun n =>
        ⟨false, (contentOr ⟨Vector.replicate 28 false, NoticeOrder.reset⟩ b).enables[n], 0#8, 0#8⟩,
      (contentOr ⟨Vector.replicate 28 false, NoticeOrder.reset⟩ b).order⟩ }, loadResult b false) := by
  have hempty : EventUnit.reset = ⟨Vector.ofFn fun n : Fin 28 =>
      ⟨false, (Vector.replicate 28 false)[n], 0#8, 0#8⟩, NoticeOrder.reset⟩ := by
    rw [EventUnit.reset]
    refine congrArg (fun v => EventUnit.mk v NoticeOrder.reset) (Vector.ext fun i hi => ?_)
    simp
  cases b with
  | empty =>
    refine Prod.ext ?_ rfl
    dsimp only [applyBlock, contentOr]
    rw [← hempty, ← h]
  | bad =>
    refine Prod.ext ?_ rfl
    dsimp only [applyBlock, contentOr]
    rw [← hempty, ← h]
  | valid c =>
    refine Prod.ext ?_ rfl
    have hrecs : (fun n : Fin 28 => { s.events.recs[n] with enabled := c.enables[n] }) =
        fun n : Fin 28 => (⟨false, c.enables[n], 0#8, 0#8⟩ : EventRec) := by
      funext n
      have hrec : s.events.recs[n] = ⟨false, false, 0#8, 0#8⟩ := by
        rw [h]
        exact Vector.getElem_replicate n.isLt
      rw [hrec]
    exact congrArg (fun f => { s with events := ⟨Vector.ofFn f, c.order⟩ }) hrecs

end Sys2Proof.Machine
end

section
/-! The setting blocks applied in number order to a part at its reset values (R169 step 4, R170). -/

namespace Sys2Proof.Machine

/-! ## The stages of the autoload -/

def linkApplied (s : State) : State := (applyBlock s.store.blocks.link loadLink s).1

def axisApplied (s : State) : State := (applyBlock s.store.blocks.axis loadAxis (linkApplied s)).1

def limitsApplied (s : State) : State := (applyBlock s.store.blocks.limits loadLimits (axisApplied s)).1

def linesApplied (s : State) : State := (applyBlock s.store.blocks.lines loadLines (limitsApplied s)).1

def inputsApplied (s : State) : State := (applyBlock s.store.blocks.inputs loadInputs (linesApplied s)).1

def captureApplied (s : State) : State := (applyBlock s.store.blocks.capture loadCapture (inputsApplied s)).1

def camsApplied (s : State) : State := (applyBlock s.store.blocks.cams loadCams (captureApplied s)).1

def eventsApplied (s : State) : State := (applyBlock s.store.blocks.events loadEvents (camsApplied s)).1

/-- The load results of blocks 1 to 8 (R169 step 4). -/
def loadResults (s : State) : Vector LoadResult 8 :=
  #v[(applyBlock s.store.blocks.link loadLink s).2, (applyBlock s.store.blocks.axis loadAxis (linkApplied s)).2,
    (applyBlock s.store.blocks.limits loadLimits (axisApplied s)).2,
    (applyBlock s.store.blocks.lines loadLines (limitsApplied s)).2,
    (applyBlock s.store.blocks.inputs loadInputs (linesApplied s)).2,
    (applyBlock s.store.blocks.capture loadCapture (inputsApplied s)).2,
    (applyBlock s.store.blocks.cams loadCams (captureApplied s)).2,
    (applyBlock s.store.blocks.events loadEvents (camsApplied s)).2]

theorem applySettings_eq (s : State) : applySettings s =
    (eventsApplied s).onStore fun x => { x with results := loadResults s, skipped := false } := rfl

/-- A part at its reset values, with the pins and the store as they are. -/
structure AtReset (s : State) : Prop where
  axis : s.axis = Axis.reset
  seq : s.seq = Sequencer.reset
  capture : s.capture = CaptureUnit.reset
  cams : s.cams = CamUnit.reset
  events : s.events = EventUnit.reset
  level : s.supply.level = 0
  silence : s.link.silenceLimit = 0
  line : ∀ n : Fin 16, s.outs.lines[n] = OutLine.reset s.outs.lines[n].sampled
  input : ∀ n : Fin 8, s.ins[n] = InLine.reset s.ins[n].raw

/-- The limits after the LIMITS block. -/
abbrev loadedLimits (b : Blocks) : LimitSettings := contentOr ⟨0, 0, 0, 0⟩ b.limits

/-- The axis after the AXIS block. -/
def axisLoaded (b : Blocks) (s : State) : Axis := { s.axis with
  cfg := loadedAxis b
  pairA := if (loadedAxis b).source = .timebase then s.axis.pairA else s.ins[0].accepted
  pairB := if (loadedAxis b).source = .timebase then s.axis.pairB else s.ins[1].accepted }

section

variable {s : State} (h : AtReset s)
include h

/-! ## The blocks in number order -/

theorem axisApplied_frame : axisApplied s = { s with
    link := { s.link with rate := contentOr s.link.rate s.store.blocks.link }
    axis := axisLoaded s.store.blocks s, ins := (axisApplied s).ins } := by
  have hlink : linkApplied s = s.onLink fun l => { l with rate := contentOr l.rate s.store.blocks.link } :=
    congrArg Prod.fst (applyLink_eq _ s)
  have haxis := applyAxis_eq s.store.blocks.axis (s := linkApplied s) (by rw [hlink, State.onLink_axis, h.axis]; rfl)
  rw [axisApplied, haxis, sourceClaimed_frame, hlink]
  rfl

theorem axisApplied_in (n : Fin 8) : (axisApplied s).ins[n] =
    if (loadedAxis s.store.blocks).source ≠ .timebase ∧ (n = 0 ∨ n = 1) then
      { s.ins[n] with fn := if n = 0 then .axisA else .axisB }
    else s.ins[n] := by
  have hlink : linkApplied s = s.onLink fun l => { l with rate := contentOr l.rate s.store.blocks.link } :=
    congrArg Prod.fst (applyLink_eq _ s)
  have haxis := applyAxis_eq s.store.blocks.axis (s := linkApplied s) (by rw [hlink, State.onLink_axis, h.axis]; rfl)
  rw [axisApplied, haxis, sourceClaimed_in, hlink]
  rfl

theorem limitsApplied_eq : applyBlock s.store.blocks.limits loadLimits (axisApplied s) = ({ axisApplied s with
    axis := { axisLoaded s.store.blocks s with
      reverseLimit := (loadedLimits s.store.blocks).reverse, speedLimit := (loadedLimits s.store.blocks).speed }
    supply := { s.supply with level := (loadedLimits s.store.blocks).supply }
    link := { s.link with
      rate := contentOr s.link.rate s.store.blocks.link, silenceLimit := (loadedLimits s.store.blocks).silence } },
      loadResult s.store.blocks.limits false) := by
  have hzero : (⟨(axisApplied s).axis.reverseLimit, (axisApplied s).axis.speedLimit, (axisApplied s).link.silenceLimit,
      (axisApplied s).supply.level⟩ : LimitSettings) = ⟨0, 0, 0, 0⟩ := by
    rw [axisApplied_frame h]
    dsimp only [axisLoaded]
    rw [h.axis, h.level, h.silence]
    rfl
  rw [applyLimits_eq _ hzero]
  have hframe := axisApplied_frame h
  generalize axisApplied s = u at hframe
  rw [hframe]

theorem limitsApplied_frame : limitsApplied s = { s with
    link := { s.link with
      rate := contentOr s.link.rate s.store.blocks.link, silenceLimit := (loadedLimits s.store.blocks).silence }
    axis := { axisLoaded s.store.blocks s with
      reverseLimit := (loadedLimits s.store.blocks).reverse, speedLimit := (loadedLimits s.store.blocks).speed }
    supply := { s.supply with level := (loadedLimits s.store.blocks).supply }
    ins := (axisApplied s).ins } := by
  rw [limitsApplied, limitsApplied_eq h]
  have hframe := axisApplied_frame h
  generalize axisApplied s = u at hframe
  rw [hframe]

theorem linesApplied_spec : linesApplied s = { limitsApplied s with outs := ⟨(linesApplied s).outs.lines, s.outs.arrivals⟩ } ∧
    (∀ n : Fin 16, (linesApplied s).outs.lines[n] = { s.outs.lines[n] with
      cfg := (contentOr (Vector.replicate 16 LineSettings.reset) s.store.blocks.lines)[n] }) ∧
    (applyBlock s.store.blocks.lines loadLines (limitsApplied s)).2 = loadResult s.store.blocks.lines false := by
  have houts : (limitsApplied s).outs = s.outs := by rw [limitsApplied_frame h]
  have hcfg : ∀ n : Fin 16, (limitsApplied s).outs.lines[n].cfg = LineSettings.reset := by
    intro n
    rw [houts, h.line n]
    rfl
  have hspec := applyLines_spec s.store.blocks.lines hcfg
  rw [houts] at hspec
  exact hspec

/-- The inputs before the INPUTS block (R170). -/
theorem freshInput_axisApplied (n : Fin 8) : FreshInput (axisApplied s).ins[n] := by
  have hn := h.input n
  rw [axisApplied_in h]
  split
  · rename_i hclaims
    rw [hn]
    refine ⟨rfl, rfl, fun hfree => ?_⟩
    by_cases h0 : n = 0
    · rw [if_pos h0] at hfree
      cases hfree
    · rw [if_neg h0] at hfree
      cases hfree
  · rw [hn]
    exact ⟨rfl, rfl, fun _ => rfl⟩

theorem inputsApplied_spec : inputsApplied s = { linesApplied s with
      ins := (inputsApplied s).ins, seq := { s.seq with freeze := freezeLevel (inputsApplied s).ins } } ∧
    (∀ n : Fin 8, (inputsApplied s).ins[n] = loadInput (storedInput s.store.blocks n) (axisApplied s).ins[n]) ∧
    (applyBlock s.store.blocks.inputs loadInputs (linesApplied s)).2 = loadResult s.store.blocks.inputs
      ((List.finRange 8).any fun n => axisHolds (axisApplied s).ins[n] && (storedInput s.store.blocks n).freeze) := by
  have hins : (linesApplied s).ins = (axisApplied s).ins := by rw [(linesApplied_spec h).1, limitsApplied_frame h]
  have hseq : (linesApplied s).seq = s.seq := by rw [(linesApplied_spec h).1, limitsApplied_frame h]
  have hspec := applyInputs_spec s.store.blocks.inputs (s := linesApplied s) (by rw [hseq, h.seq]; rfl)
    (by rw [hseq, h.seq]; rfl) (fun n => by rw [hins]; exact freshInput_axisApplied h n)
  rw [hins, hseq] at hspec
  exact hspec

theorem captureApplied_spec : ∃ partly,
    ChannelsLoaded (contentOr (Vector.replicate 4 ChannelSettings.reset) s.store.blocks.capture) (inputsApplied s) 4
      (captureApplied s, partly) ∧
      (applyBlock s.store.blocks.capture loadCapture (inputsApplied s)).2 = loadResult s.store.blocks.capture partly := by
  have hcapture : (inputsApplied s).capture = s.capture := by
    rw [(inputsApplied_spec h).1, (linesApplied_spec h).1, limitsApplied_frame h]
  exact applyCapture_spec s.store.blocks.capture fun ch => by
    rw [hcapture, h.capture]
    exact Vector.getElem_replicate ch.isLt

theorem captureApplied_frame : captureApplied s = { inputsApplied s with
    ins := (captureApplied s).ins, capture := ⟨(captureApplied s).capture.channels, []⟩ } := by
  obtain ⟨partly, hloaded, -⟩ := captureApplied_spec h
  have harrivals : (inputsApplied s).capture.arrivals = [] := by
    rw [(inputsApplied_spec h).1, (linesApplied_spec h).1, limitsApplied_frame h]
    dsimp only
    rw [h.capture]
    rfl
  have hframe := hloaded.frame
  rw [harrivals] at hframe
  exact hframe

theorem camsApplied_spec : camsApplied s = { captureApplied s with cams := ⟨(camsApplied s).cams.tracks, 0⟩ } ∧
    (∀ n : Fin 8, (camsApplied s).cams.tracks[n] =
      trackSet (loadedAxis s.store.blocks).modulus (storedTrack s.store.blocks n)) ∧
    (applyBlock s.store.blocks.cams loadCams (captureApplied s)).2 = loadResult s.store.blocks.cams
      (!((contentOr (Vector.replicate 8 ⟨.empty, 0⟩) s.store.blocks.cams).toList.all
        (trackLoads (loadedAxis s.store.blocks).modulus))) := by
  have hcams : (captureApplied s).cams = s.cams := by
    rw [captureApplied_frame h, (inputsApplied_spec h).1, (linesApplied_spec h).1, limitsApplied_frame h]
  have hcfg : (captureApplied s).axis.cfg = loadedAxis s.store.blocks := by
    rw [captureApplied_frame h, (inputsApplied_spec h).1, (linesApplied_spec h).1, limitsApplied_frame h]
    rfl
  have hspec := applyCams_spec s.store.blocks.cams (s := captureApplied s) (fun n => by
    rw [hcams, h.cams]
    exact Vector.getElem_replicate n.isLt)
  have hboundaries : s.cams.boundaries = 0 := by rw [h.cams]; rfl
  rw [hcfg, hcams, hboundaries] at hspec
  exact hspec

theorem eventsApplied_eq : applyBlock s.store.blocks.events loadEvents (camsApplied s) = ({ camsApplied s with
    events := ⟨Vector.ofFn fun n => ⟨false,
        (contentOr ⟨Vector.replicate 28 false, NoticeOrder.reset⟩ s.store.blocks.events).enables[n], 0#8, 0#8⟩,
      (contentOr ⟨Vector.replicate 28 false, NoticeOrder.reset⟩ s.store.blocks.events).order⟩ },
      loadResult s.store.blocks.events false) := by
  have hevents : (camsApplied s).events = EventUnit.reset := by
    rw [(camsApplied_spec h).1, captureApplied_frame h, (inputsApplied_spec h).1, (linesApplied_spec h).1,
      limitsApplied_frame h]
    exact h.events
  exact applyEvents_eq _ hevents

/-- The part after blocks 1 to 8. -/
theorem eventsApplied_frame : eventsApplied s = { s with
    link := { s.link with
      rate := contentOr s.link.rate s.store.blocks.link, silenceLimit := (loadedLimits s.store.blocks).silence }
    axis := { axisLoaded s.store.blocks s with
      reverseLimit := (loadedLimits s.store.blocks).reverse, speedLimit := (loadedLimits s.store.blocks).speed }
    supply := { s.supply with level := (loadedLimits s.store.blocks).supply }
    outs := ⟨(linesApplied s).outs.lines, s.outs.arrivals⟩
    ins := (captureApplied s).ins
    seq := { s.seq with freeze := freezeLevel (inputsApplied s).ins }
    capture := ⟨(captureApplied s).capture.channels, []⟩
    cams := ⟨(camsApplied s).cams.tracks, 0⟩
    events := ⟨Vector.ofFn fun n => ⟨false,
        (contentOr ⟨Vector.replicate 28 false, NoticeOrder.reset⟩ s.store.blocks.events).enables[n], 0#8, 0#8⟩,
      (contentOr ⟨Vector.replicate 28 false, NoticeOrder.reset⟩ s.store.blocks.events).order⟩ } := by
  have hlimits := limitsApplied_frame h
  have hlines := (linesApplied_spec h).1
  have hinputs := (inputsApplied_spec h).1
  have hcapture := captureApplied_frame h
  have hcams := (camsApplied_spec h).1
  rw [eventsApplied, eventsApplied_eq h]
  dsimp only
  generalize camsApplied s = u7 at *
  generalize captureApplied s = u6 at *
  generalize inputsApplied s = u5 at *
  generalize linesApplied s = u4 at *
  generalize limitsApplied s = u3 at *
  generalize axisApplied s = u2 at *
  rw [hcams, hcapture, hinputs, hlines, hlimits]

/-! ## The inputs -/

/-- What the INPUTS block leaves of an input, and what it was before (R170). -/
theorem inputsApplied_in (n : Fin 8) : (inputsApplied s).ins[n] = { s.ins[n] with
    fn := (inputsApplied s).ins[n].fn
    edgeMode := (storedInput s.store.blocks n).edgeMode, filter := (storedInput s.store.blocks n).filter } := by
  rw [(inputsApplied_spec h).2.1 n, axisApplied_in h]
  split <;> rfl

theorem inputsApplied_claimed {n : Fin 8} (hclaims : axisClaims s.store.blocks n) :
    axisHolds (axisApplied s).ins[n] = true ∧ (inputsApplied s).ins[n].fn = if n = 0 then .axisA else .axisB := by
  have hfn : (axisApplied s).ins[n].fn = if n = 0 then .axisA else .axisB := by
    rw [axisApplied_in h, if_pos (by exact hclaims)]
  have hheld : axisHolds (axisApplied s).ins[n] = true := by
    unfold axisHolds
    rw [hfn]
    split <;> rfl
  refine ⟨hheld, ?_⟩
  rw [(inputsApplied_spec h).2.1 n, ← hfn, loadInput, hheld]
  rfl

theorem inputsApplied_free {n : Fin 8} (hfree : ¬ axisClaims s.store.blocks n) :
    axisHolds (axisApplied s).ins[n] = false ∧
      (inputsApplied s).ins[n].fn = if (storedInput s.store.blocks n).freeze then .freeze else .general := by
  have hfn : (axisApplied s).ins[n].fn = .general := by
    rw [axisApplied_in h, if_neg (by exact hfree), h.input n]
    rfl
  have hheld : axisHolds (axisApplied s).ins[n] = false := by
    unfold axisHolds
    rw [hfn]
    rfl
  refine ⟨hheld, ?_⟩
  rw [(inputsApplied_spec h).2.1 n, loadInput, hheld]
  rfl

theorem inputsApplied_general (n : Fin 8) : (inputsApplied s).ins[n].fn ≠ .general ↔
    axisClaims s.store.blocks n ∨ (storedInput s.store.blocks n).freeze = true := by
  by_cases hclaims : axisClaims s.store.blocks n
  · rw [(inputsApplied_claimed h hclaims).2]
    refine ⟨fun _ => .inl hclaims, fun _ => ?_⟩
    split <;> exact InputFn.noConfusion
  · rw [(inputsApplied_free h hclaims).2]
    cases (storedInput s.store.blocks n).freeze <;> simp [hclaims]

/-- The stored FREEZE that meets an axis claim (R170). -/
theorem inputsApplied_partly : ((List.finRange 8).any fun n =>
      axisHolds (axisApplied s).ins[n] && (storedInput s.store.blocks n).freeze) = true ↔
    ∃ n, axisClaims s.store.blocks n ∧ (storedInput s.store.blocks n).freeze = true := by
  rw [List.any_eq_true]
  refine exists_congr fun n => ?_
  rw [Bool.and_eq_true]
  by_cases hclaims : axisClaims s.store.blocks n
  · rw [(inputsApplied_claimed h hclaims).1]
    simp [hclaims]
  · rw [(inputsApplied_free h hclaims).1]
    simp [hclaims]

/-! ## The channels and the tracks -/

theorem channelBlocked_kept {v t : State} (ch : Fin 4) (hv : v.capture.channels = t.capture.channels) :
    channelBlocked (contentOr (Vector.replicate 4 ChannelSettings.reset) s.store.blocks.capture) (inputsApplied s) v ch ↔
      channelKept s.store.blocks t ch := by
  have hcfg : (inputsApplied s).axis.cfg = loadedAxis s.store.blocks := by
    rw [(inputsApplied_spec h).1, (linesApplied_spec h).1, limitsApplied_frame h]
    rfl
  unfold channelBlocked channelKept
  rw [hcfg, hv]
  refine or_congr ?_ (exists_congr fun n => and_congr Iff.rfl ?_)
  · change (∃ p ∈ gatePositions (storedChannel s.store.blocks ch).gate, _) ↔ _
    cases (storedChannel s.store.blocks ch).gate with
    | always => simp [gatePositions]
    | window x y z => simp [gatePositions]
  · rw [inputsApplied_general h, or_assoc]

end

theorem trackLoads_iff (b : Blocks) (n : Fin 8) : trackLoads (loadedAxis b).modulus (storedTrack b n) = true ↔ ¬ trackKept b n := by
  unfold trackLoads trackKept
  cases (storedTrack b n).profile with
  | empty => simp [profileBounds]
  | full => simp [profileBounds]
  | windows ws =>
    simp only [profileBounds, List.all_eq_true, List.mem_flatMap, decide_eq_true_eq]
    constructor
    · rintro hall ⟨_, hws, w, hw, hor⟩
      cases hws
      rcases hor with hon | hoff
      · exact absurd (hall w.on ⟨w, hw, by simp⟩) (by omega)
      · exact absurd (hall w.off ⟨w, hw, by simp⟩) (by omega)
    · rintro hno p ⟨w, hw, hp⟩
      by_contra hge
      refine hno ⟨ws, rfl, w, hw, ?_⟩
      simp only [List.mem_cons, List.not_mem_nil, or_false] at hp
      rcases hp with rfl | rfl
      · exact .inl (by omega)
      · exact .inr (by omega)

theorem tracksPartly_iff (b : Blocks) :
    (!((contentOr (Vector.replicate 8 ⟨.empty, 0⟩) b.cams).toList.all (trackLoads (loadedAxis b).modulus))) = true ↔
      ∃ n, trackKept b n := by
  rw [Bool.not_eq_true', ← Bool.not_eq_true, List.all_eq_true, not_forall]
  constructor
  · rintro ⟨c, hc⟩
    obtain ⟨hmem, hno⟩ := Classical.not_imp.1 hc
    obtain ⟨k, hk, rfl⟩ := List.mem_iff_getElem.1 hmem
    rw [Vector.length_toList] at hk
    refine ⟨⟨k, hk⟩, ?_⟩
    by_contra hkept
    exact hno ((trackLoads_iff b ⟨k, hk⟩).2 hkept)
  · rintro ⟨n, hn⟩
    refine ⟨storedTrack b n, fun hall => ?_⟩
    exact (trackLoads_iff b n).1 (hall (Vector.mem_toList_iff.2 (Vector.getElem_mem n.isLt))) hn

end Sys2Proof.Machine
end

section
/-! The autoload of a prepared store, at START_UP and at RESTART_BEGIN (R169 to R171). -/

namespace Sys2Proof.Machine

/-! ## The end of a start-up -/

theorem Quiet.autoloaded {u : State} (h : Quiet u) (ticket : Nat) : Quiet (autoloaded u ticket) :=
  ⟨h.running, h.idle, h.axis, h.inbox, h.silent, h.sends, h.notices, h.agrees⟩

/-- What the command leaves of a part whose settings have been applied. -/
theorem settle_autoloaded {u : State} (ticket : Nat) (h : Quiet u) {t : State} (ht : t = settle (autoloaded u ticket)) :
    t.phase = .running ∧ t.stamp = autoloadEnd ticket ∧ t.pending = u.pending ∧ t.store = u.store ∧
      t.link = { u.link with silenceStamp := t.stamp } ∧ t.axis = { u.axis with nextSample := t.axis.nextSample } ∧
      t.axis.nextSample.toNat = (t.stamp.toNat / 1000 + 1) * 1000 ∧
      t.supply = { u.supply with low := lowJudged u.supply } ∧
      t.faults = { u.faults with inbox := changeReport u.supply.low (supplyReport u) } ∧
      LinesAre (fun n => u.outs.lines[n]) t ∧ t.outs.arrivals = u.outs.arrivals ∧ t.ins = u.ins ∧ t.seq = u.seq ∧
      t.cues = u.cues ∧ t.capture = u.capture ∧
      t.cams = ⟨u.cams.tracks.map (recomputeTrack t.axis), u.cams.boundaries⟩ ∧ t.events = u.events := by
  rw [settle_quiet (h.autoloaded ticket)] at ht
  have hstamp : t.stamp = autoloadEnd ticket := by rw [ht]; rfl
  have hnext : t.axis.nextSample = sampleAfter t.stamp := by rw [hstamp, ht]; rfl
  have hlines : ∀ n : Fin 16, t.outs.lines[n] =
      { u.outs.lines[n] with mismatch := judgedMismatch (autoloaded u ticket) u.outs.lines[n] } := by
    intro n
    rw [ht]
    exact map_get u.outs.lines _ n
  refine ⟨by rw [ht]; exact h.running, hstamp, by rw [ht]; rfl, by rw [ht]; rfl, by rw [hstamp, ht]; rfl, by rw [ht]; rfl, ?_,
    by rw [ht]; rfl, by rw [ht]; rfl, fun n => by rw [hlines n], by rw [ht]; rfl, by rw [ht]; rfl, by rw [ht]; rfl,
    by rw [ht]; rfl, by rw [ht]; rfl, by rw [ht]; rfl, by rw [ht]; rfl⟩
  rw [hnext]
  exact sampleAfter_toNat (by rw [hstamp]; exact autoloadEnd_le ticket)

/-! ## The part at its reset values with the protected limit -/

/-- The part at which blocks 1 to 8 are applied (R169). -/
def limitRead (rate : LinkRate) (limit : Nat) (s : State) : State :=
  (resetBlocks .running rate s.store.blocks s).onStore fun x => { x with limit := limit }

theorem limitRead_line (rate : LinkRate) (limit : Nat) (s : State) (n : Fin 16) :
    (limitRead rate limit s).outs.lines[n] = OutLine.reset s.outs.lines[n].sampled :=
  map_get s.outs.lines (fun l => OutLine.reset l.sampled) n

theorem limitRead_in (rate : LinkRate) (limit : Nat) (s : State) (n : Fin 8) :
    (limitRead rate limit s).ins[n] = InLine.reset s.ins[n].raw :=
  map_get s.ins (fun i => InLine.reset i.raw) n

theorem limitRead_atReset (rate : LinkRate) (limit : Nat) (s : State) : AtReset (limitRead rate limit s) where
  axis := rfl
  seq := rfl
  capture := rfl
  cams := rfl
  events := rfl
  level := rfl
  silence := rfl
  line n := by rw [limitRead_line]; rfl
  input n := by rw [limitRead_in]; rfl

theorem autoload_skipped {c : HeaderContent} {s : State} (hheader : s.store.blocks.header = .valid c) (hsigned : c.signed = true) :
    autoload true s = s.onStore fun x => { x with limit := c.limit } := by
  unfold autoload
  rw [hheader]
  dsimp only
  rw [hsigned]
  rfl

theorem autoload_applied {c : HeaderContent} {s : State} (hheader : s.store.blocks.header = .valid c) (hsigned : c.signed = true) :
    autoload false s = applySettings (s.onStore fun x => { x with limit := c.limit }) := by
  unfold autoload
  rw [hheader]
  dsimp only
  rw [hsigned]
  rfl

/-- The part with the settings applied has nothing to send and nothing to report. -/
theorem applySettings_quiet (rate : LinkRate) (limit : Nat) (s : State) : Quiet (applySettings (limitRead rate limit s)) := by
  have hreset := limitRead_atReset rate limit s
  have hlines := (linesApplied_spec hreset).2.1
  rw [applySettings_eq, eventsApplied_frame hreset]
  refine ⟨rfl, rfl, ⟨rfl, rfl⟩, rfl, rfl, ⟨rfl, rfl⟩, fun n => ?_, fun n => ?_⟩
  · have hrec := ofFn_get (fun n : Fin 28 => (⟨false,
      (contentOr ⟨Vector.replicate 28 false, NoticeOrder.reset⟩ s.store.blocks.events).enables[n], 0#8, 0#8⟩ : EventRec)) n
    refine (congrArg due hrec).trans ?_
    simp [due]
  · refine (congrArg OutLine.mismatch (hlines n)).trans ?_
    rw [limitRead_line]
    rfl

/-- The blocks' parts of a part whose settings have been applied. -/
theorem applySettings_fields (rate : LinkRate) (limit : Nat) (s : State) :
    (applySettings (limitRead rate limit s)).link =
        { Link.reset (contentOr rate s.store.blocks.link) 0#32 with silenceLimit := (loadedLimits s.store.blocks).silence } ∧
      (applySettings (limitRead rate limit s)).axis = { axisLoaded s.store.blocks (limitRead rate limit s) with
        reverseLimit := (loadedLimits s.store.blocks).reverse, speedLimit := (loadedLimits s.store.blocks).speed } ∧
      (applySettings (limitRead rate limit s)).supply =
        ⟨(loadedLimits s.store.blocks).supply, s.supply.millivolts, false⟩ ∧
      (applySettings (limitRead rate limit s)).faults = FaultMonitor.reset ∧
      (applySettings (limitRead rate limit s)).outs = ⟨(linesApplied (limitRead rate limit s)).outs.lines, []⟩ ∧
      (applySettings (limitRead rate limit s)).ins = (captureApplied (limitRead rate limit s)).ins ∧
      (applySettings (limitRead rate limit s)).seq =
        { Sequencer.reset with freeze := freezeLevel (inputsApplied (limitRead rate limit s)).ins } ∧
      (applySettings (limitRead rate limit s)).cues = CueTable.reset ∧
      (applySettings (limitRead rate limit s)).capture = ⟨(captureApplied (limitRead rate limit s)).capture.channels, []⟩ ∧
      (applySettings (limitRead rate limit s)).cams = ⟨(camsApplied (limitRead rate limit s)).cams.tracks, 0⟩ ∧
      (applySettings (limitRead rate limit s)).events = ⟨Vector.ofFn fun n => ⟨false,
        (contentOr ⟨Vector.replicate 28 false, NoticeOrder.reset⟩ s.store.blocks.events).enables[n], 0#8, 0#8⟩,
        (contentOr ⟨Vector.replicate 28 false, NoticeOrder.reset⟩ s.store.blocks.events).order⟩ ∧
      (applySettings (limitRead rate limit s)).pending = s.pending ∧
      (applySettings (limitRead rate limit s)).store = { (SettingStore.reset s.store.blocks) with
        limit := limit, skipped := false, results := loadResults (limitRead rate limit s) } := by
  rw [applySettings_eq, eventsApplied_frame (limitRead_atReset rate limit s)]
  exact ⟨rfl, rfl, rfl, rfl, rfl, rfl, rfl, rfl, rfl, rfl, rfl, rfl, rfl⟩

/-- The axis after the AXIS and LIMITS blocks, from the pins (R170, notes/assumptions/20). -/
theorem axisLoaded_limitRead (rate : LinkRate) (limit : Nat) (s : State) : axisLoaded s.store.blocks (limitRead rate limit s) =
    { Axis.reset with
      cfg := loadedAxis s.store.blocks
      pairA := decide ((loadedAxis s.store.blocks).source ≠ .timebase) && s.ins[0].raw
      pairB := decide ((loadedAxis s.store.blocks).source ≠ .timebase) && s.ins[1].raw } := by
  have h0 : (limitRead rate limit s).ins[0].accepted = s.ins[0].raw := congrArg InLine.accepted (limitRead_in rate limit s 0)
  have h1 : (limitRead rate limit s).ins[1].accepted = s.ins[1].raw := congrArg InLine.accepted (limitRead_in rate limit s 1)
  have hreset : (limitRead rate limit s).axis = Axis.reset := rfl
  rw [axisLoaded, h0, h1, hreset]
  by_cases hsource : (loadedAxis s.store.blocks).source = .timebase
  · simp [hsource, Axis.reset]
  · simp [hsource]

open Classical in
/-- The load results (R169 step 4, R170). -/
theorem loadResults_eq {s t : State} (h : AtReset s) (ht : t.capture.channels = (captureApplied s).capture.channels) :
    loadResults s = #v[resultOf s.store.blocks.link False, resultOf s.store.blocks.axis False,
      resultOf s.store.blocks.limits False, resultOf s.store.blocks.lines False,
      resultOf s.store.blocks.inputs (∃ n, axisClaims s.store.blocks n ∧ (storedInput s.store.blocks n).freeze = true),
      resultOf s.store.blocks.capture (∃ ch, channelKept s.store.blocks t ch),
      resultOf s.store.blocks.cams (∃ n, trackKept s.store.blocks n), resultOf s.store.blocks.events False] := by
  obtain ⟨partly, hloaded, hcapture⟩ := captureApplied_spec h
  have hkept : partly = true ↔ ∃ ch, channelKept s.store.blocks t ch := by
    refine hloaded.partly.trans (exists_congr fun ch => ?_)
    rw [and_iff_right (by exact ch.isLt)]
    exact channelBlocked_kept h ch ht.symm
  have hnone : ∀ {α : Type} (b : Block α), resultOf b False = loadResult b false := fun b =>
    resultOf_eq fun _ _ => by simp
  have haxis := applyAxis_eq s.store.blocks.axis (s := linkApplied s) (by
    rw [linkApplied, applyLink_eq, State.onLink_axis, h.axis]
    rfl)
  rw [loadResults, applyLink_eq, haxis, limitsApplied_eq h, (linesApplied_spec h).2.2, (inputsApplied_spec h).2.2,
    hcapture, (camsApplied_spec h).2.2, eventsApplied_eq h, hnone, hnone, hnone, hnone, hnone,
    resultOf_eq (fun _ _ => inputsApplied_partly h), resultOf_eq (fun _ _ => hkept),
    resultOf_eq (fun _ _ => tracksPartly_iff s.store.blocks)]

/-- The freeze level noted at the INPUTS block is that of the pins at the FREEZE inputs (R49, R170). -/
theorem freezeLevel_applied {s : State} (h : AtReset s) : freezeLevel (inputsApplied s).ins = true ↔
    ∃ n : Fin 8, (captureApplied s).ins[n].fn = .freeze ∧ s.ins[n].raw = true := by
  obtain ⟨partly, hloaded, -⟩ := captureApplied_spec h
  rw [freezeLevel_iff]
  refine exists_congr fun n => and_congr ?_ ?_
  · by_cases hbound : ∃ ch : Fin 4, (captureApplied s).capture.channels[ch].cfg.input = some n
    · obtain ⟨ch, hch⟩ := hbound
      obtain ⟨hcapture, hgeneral⟩ := hloaded.bound n ch hch
      rw [hgeneral, show (captureApplied s).ins[n].fn = .capture ch from hcapture]
      exact ⟨InputFn.noConfusion, InputFn.noConfusion⟩
    · have hfree : (captureApplied s).ins[n].fn = (inputsApplied s).ins[n].fn :=
        hloaded.free n fun ch hch => hbound ⟨ch, hch⟩
      rw [hfree]
  · have hin := congrArg InLine.accepted (inputsApplied_in h n)
    rw [h.input n] at hin
    rw [hin]
    rfl

/-- An input after the CAPTURE block (R170). -/
theorem captureApplied_in {s : State} (h : AtReset s) (n : Fin 8) : (captureApplied s).ins[n] = { InLine.reset s.ins[n].raw with
    fn := (captureApplied s).ins[n].fn, edgeMode := (storedInput s.store.blocks n).edgeMode,
    filter := (storedInput s.store.blocks n).filter } := by
  obtain ⟨partly, hloaded, -⟩ := captureApplied_spec h
  have hin := hloaded.input n
  dsimp only at hin
  rw [inputsApplied_in h n, h.input n] at hin
  exact hin

open Classical in
/-- The function of an input no channel holds (R170). -/
theorem captureApplied_fn {s : State} (h : AtReset s) {n : Fin 8}
    (hfree : ∀ ch : Fin 4, (captureApplied s).capture.channels[ch].cfg.input ≠ some n) : (captureApplied s).ins[n].fn =
      if axisClaims s.store.blocks n then if n = 0 then .axisA else .axisB
      else if (storedInput s.store.blocks n).freeze then .freeze else .general := by
  obtain ⟨partly, hloaded, -⟩ := captureApplied_spec h
  have hfn : (captureApplied s).ins[n].fn = (inputsApplied s).ins[n].fn := hloaded.free n hfree
  rw [hfn]
  split
  · rename_i hclaims
    exact (inputsApplied_claimed h hclaims).2
  · rename_i hclaims
    exact (inputsApplied_free h hclaims).2

/-- The autoload of a prepared store (R169, R170). -/
theorem autoloaded_applied (rate : LinkRate) (limit : Nat) {s t : State} (ticket : Nat)
    (ht : t = settle (autoloaded (applySettings (limitRead rate limit s)) ticket)) : Autoloaded rate limit s t := by
  have hreset := limitRead_atReset rate limit s
  obtain ⟨ulink, uaxis, usupply, ufaults, uouts, uins, useq, ucues, ucapture, ucams, uevents, upending, ustore⟩ :=
    applySettings_fields rate limit s
  obtain ⟨hphase, hstamp, hpending, hstore, hlink, haxis, hnext, hsupply, hfaults, hlines, harrivals, hins, hseq, hcues,
    hcapture, hcams, hevents⟩ := settle_autoloaded ticket (applySettings_quiet rate limit s) ht
  have hlow : (applySettings (limitRead rate limit s)).supply.low = false := by rw [usupply]
  rw [changeReport_supply _ hlow] at hfaults
  have htlow : t.supply.low = lowJudged (applySettings (limitRead rate limit s)).supply := by rw [hsupply]
  rw [← htlow] at hfaults
  rw [ustore] at hstore
  rw [ulink] at hlink
  rw [uaxis, axisLoaded_limitRead] at haxis
  rw [usupply, lowJudged_fresh] at hsupply
  rw [ufaults] at hfaults
  rw [uouts] at hlines harrivals
  rw [uins] at hins
  rw [useq] at hseq
  rw [ucues] at hcues
  rw [ucapture] at hcapture
  rw [ucams] at hcams
  rw [uevents] at hevents
  rw [upending] at hpending
  have hchannels : t.capture.channels = (captureApplied (limitRead rate limit s)).capture.channels := by rw [hcapture]
  obtain ⟨partly, hloaded, -⟩ := captureApplied_spec hreset
  have hkept : ∀ ch : Fin 4, _ ↔ channelKept s.store.blocks t ch := fun ch => channelBlocked_kept hreset ch hchannels.symm
  refine ⟨hphase, by rw [hstamp]; exact autoloadEnd_le ticket, hpending, ?_, hlink, haxis, hnext, hsupply, hfaults, ?_,
    harrivals, fun n => ?_, fun n hn => ?_, fun n ch hch => ?_, ?_, hcues, by rw [hcapture], fun ch => ?_, by rw [hcams],
    fun n => ?_, hevents⟩
  · rw [hstore, loadResults_eq hreset hchannels]
    rfl
  · have hread := (linesApplied_spec hreset).2.1
    intro n
    have hline := hlines n
    dsimp only at hline
    rw [hread n, limitRead_line] at hline
    exact hline
  · rw [hins]
    exact (captureApplied_in hreset n).trans (by rw [limitRead_in]; rfl)
  · rw [hins]
    rw [hchannels] at hn
    exact captureApplied_fn hreset hn
  · rw [hins]
    rw [hchannels] at hch
    exact (hloaded.bound n ch hch).1
  · have hlevel : freezeLevel (inputsApplied (limitRead rate limit s)).ins =
        decide (∃ n : Fin 8, t.ins[n].fn = .freeze ∧ s.ins[n].raw = true) := by
      rw [Bool.eq_iff_iff, freezeLevel_applied hreset, decide_eq_true_iff, hins]
      simp only [limitRead_in]
      rfl
    rw [hseq, hlevel]
  · rw [hchannels]
    split
    · rename_i hk
      exact hloaded.blocked ch ((hkept ch).2 hk)
    · rename_i hk
      exact hloaded.set ch ch.isLt fun hb => hk ((hkept ch).1 hb)
  · have htracks : t.cams.tracks = (camsApplied (limitRead rate limit s)).cams.tracks.map (recomputeTrack t.axis) := by
      rw [hcams]
    rw [htracks, map_get]
    refine congrArg (recomputeTrack t.axis) (((camsApplied_spec hreset).2.1 n).trans ?_)
    unfold trackSet
    split
    · rename_i hloads
      rw [if_neg (by exact (trackLoads_iff _ n).1 hloads)]
      rfl
    · rename_i hloads
      rw [if_pos (by exact not_not.1 fun hno => hloads ((trackLoads_iff _ n).2 hno))]

/-- Settles O49. -/
theorem autoloadAppliesValidBlocks : Obligations.AutoloadAppliesValidBlocks := by
  intro c s hheader hsigned
  have hskip : ∀ rate, startPart rate true s =
      autoloaded ((resetBlocks .running rate s.store.blocks s).onStore fun x => { x with limit := c.limit }) s.freeIndex :=
    fun rate => congrArg (fun u => autoloaded u s.freeIndex)
      (autoload_skipped (s := resetBlocks .running rate s.store.blocks s) hheader hsigned)
  have hload : ∀ rate, startPart rate false s = autoloaded (applySettings (limitRead rate c.limit s)) s.freeIndex :=
    fun rate => congrArg (fun u => autoloaded u s.freeIndex)
      (autoload_applied (s := resetBlocks .running rate s.store.blocks s) hheader hsigned)
  refine ⟨fun cfg0 cfg1 hheld => ⟨⟨_, exec_startUp cfg0 cfg1 true hheld, ?_⟩, ⟨_, exec_startUp cfg0 cfg1 false hheld, ?_⟩⟩,
    fun hrun hrestart hreplies htx => ⟨_, exec_restartBegin hrun hrestart hreplies htx, ?_⟩⟩
  · exact isReset_started _ _ (fun x => { x with limit := c.limit }) s s.freeIndex (congrArg settle (hskip _))
  · exact autoloaded_applied _ _ s.freeIndex (congrArg settle (hload _))
  · exact autoloaded_applied _ _ s.freeIndex (congrArg settle (hload _))

end Sys2Proof.Machine
end

section
/-! The receiver (R153, R156, R157) and the silence timer (R157, R162). -/

namespace Sys2Proof.Machine

/-! ## A good frame (R157) -/

/-- LINK_SILENT ended, where it stands (R157). -/
def silenceEnded (s : State) : State := if s.link.silent then endSilence s else s

/-- The frame offered to the inbound queue (R157). -/
def frameOffered (f : Frame) (s : State) : State :=
  if s.link.inbound.length < Config.inboundRoom then s.onLink fun l => { l with inbound := l.inbound ++ [f] }
  else countError s

theorem goodFrame_eq (f : Frame) (s : State) : goodFrame f s =
    frameOffered f (silenceEnded (s.onLink fun l => { l with silenceStamp := s.stamp, silenceExpired := false })) := rfl

theorem silenceEnded_link (s : State) : (silenceEnded s).link = { s.link with silent := false } := by
  unfold silenceEnded
  split
  · unfold endSilence
    dsimp only
    split <;> rfl
  · rename_i hsilent
    exact (link_of_silent (Bool.not_eq_true _ ▸ hsilent)).symm

theorem silenceEnded_faults (s : State) : (silenceEnded s).faults =
    if s.link.silent then
      if reportWaits s .linkSilent then { s.faults with inbox := s.faults.inbox ++ [plainReport .linkSilent false] }
      else { s.faults with present := { s.faults.present with linkSilent := false } }
    else s.faults := by
  unfold silenceEnded
  split
  · unfold endSilence
    dsimp only
    split <;> rfl
  · rfl

theorem frameOffered_link (f : Frame) (s : State) : (frameOffered f s).link = { s.link with
    inbound := if s.link.inbound.length < 4 then s.link.inbound ++ [f] else s.link.inbound
    errors := if s.link.inbound.length < 4 then s.link.errors else min (s.link.errors + 1) 65535 } := by
  by_cases hroom : s.link.inbound.length < 4
  · simp only [frameOffered, if_pos hroom]
    rfl
  · simp only [frameOffered, if_neg hroom]
    rfl

theorem frameOffered_faults (f : Frame) (s : State) : (frameOffered f s).faults = s.faults := by
  unfold frameOffered
  split <;> rfl

theorem goodFrame_link (f : Frame) (s : State) : (goodFrame f s).link = { s.link with
    silenceStamp := s.stamp, silenceExpired := false, silent := false
    inbound := if s.link.inbound.length < 4 then s.link.inbound ++ [f] else s.link.inbound
    errors := if s.link.inbound.length < 4 then s.link.errors else min (s.link.errors + 1) 65535 } := by
  rw [goodFrame_eq, frameOffered_link, silenceEnded_link]
  rfl

theorem goodFrame_faults (f : Frame) (s : State) : (goodFrame f s).faults =
    if s.link.silent then
      if reportWaits s .linkSilent then { s.faults with inbox := s.faults.inbox ++ [plainReport .linkSilent false] }
      else { s.faults with present := { s.faults.present with linkSilent := false } }
    else s.faults := by
  rw [goodFrame_eq, frameOffered_faults, silenceEnded_faults]
  rfl

/-! ## The receiver, character by character (R156) -/

/-- The gap timer restarts with the character (R156). -/
def charTaken (s : State) : State := s.onLink fun l => { l with lastChar := s.stamp }

theorem exec_receiveCharacter {s : State} (b : Byte) (stopHigh : Bool) (hrun : s.phase = .running) :
    exec (.receiveCharacter b stopHigh) s = .next (settle (receive b stopHigh s)) := event_running hrun rfl

theorem receive_high (b : Byte) (s : State) : receive b true s = receiveByte b (charTaken s) := rfl

theorem receiveByte_hunt {b : Byte} {s : State} (h : s.link.rx = .hunt) :
    receiveByte b s = if b = 0x7E#8 then setRx .length s else s := by
  rw [receiveByte, h]

theorem receiveByte_length {b : Byte} {s : State} (h : s.link.rx = .length) :
    receiveByte b s = if 2 ≤ b.toNat ∧ b.toNat ≤ 250 then setRx (.body b.toNat []) s else dropFrame s := by
  rw [receiveByte, h]

theorem receiveByte_body {b : Byte} {m : Nat} {got : List Byte} {s : State} (h : s.link.rx = .body m got) :
    receiveByte b s = setRx (if got.length + 1 < m then .body m (got ++ [b]) else .check (got ++ [b]) none) s := by
  rw [receiveByte, h]
  dsimp only
  rw [List.length_append, List.length_singleton]
  split <;> rfl

theorem receiveByte_first {b : Byte} {counted : List Byte} {s : State} (h : s.link.rx = .check counted none) :
    receiveByte b s = setRx (.check counted (some b)) s := by
  rw [receiveByte, h]

theorem receiveByte_second {b tag kind high : Byte} {body : List Byte} {s : State}
    (h : s.link.rx = .check (tag :: kind :: body) (some high)) : receiveByte b s =
      if Frame.check ⟨tag, kind, body⟩ = high ++ b then goodFrame ⟨tag, kind, body⟩ (setRx .hunt s) else dropFrame s := by
  rw [receiveByte, h]
  rfl

theorem linkIs_settled (s : State) : LinkIs s.link (settle s) := settle_kept s .link (by simp)

/-- Nothing but the link is left changed by a character (R156). -/
theorem received_kept (b : Byte) (stopHigh : Bool) (s : State) : KeptBut [.link] s (settle (receive b stopHigh s)) :=
  settled_kept (receive_kept b stopHigh s)

theorem linkIs_received {b : Byte} {l : Link} {s u : State} (hu : receiveByte b (charTaken s) = u) (hl : LinkIs l u) :
    LinkIs l (settle (receive b true s)) := by
  rw [receive_high, hu]
  have hsettled := linkIs_settled u
  unfold LinkIs at hl hsettled ⊢
  rw [hsettled, hl]

theorem linkIs_link (s : State) : LinkIs s.link s := rfl

/-! ## The silence condition at the end of a command (R162) -/

theorem settle_silence {s : State} (hrun : s.phase = .running) :
    (settle s).link.silent = (s.link.silent || (s.link.silenceExpired && outsideIdle s)) ∧
      (settle s).link.silenceStamp = s.link.silenceStamp ∧ (settle s).link.silenceExpired = s.link.silenceExpired := by
  obtain ⟨-, -, -, -, hsilent, hstamp, hexpired⟩ := settle_decides hrun
  refine ⟨?_, hstamp, hexpired⟩
  rw [hsilent, judged_eq]

theorem settle_silenceReport {s : State} (hrun : s.phase = .running)
    (h : (s.link.silenceExpired && outsideIdle s && !s.link.silent) = true) :
    plainReport .linkSilent true ∈ (settle s).faults.inbox := by
  rw [(settle_decides hrun).2.2.1, judged_eq]
  simp [h]

/-- A good frame that the receiver hands on (R156, R157). -/
theorem received_good {b tag kind high : Byte} {body : List Byte} {s : State} (hrun : s.phase = .running)
    (hrx : s.link.rx = .check (tag :: kind :: body) (some high)) (hcheck : Frame.check ⟨tag, kind, body⟩ = high ++ b) :
    receive b true s = goodFrame ⟨tag, kind, body⟩ (setRx .hunt (charTaken s)) ∧
      (settle (receive b true s)).link.silenceStamp = s.stamp ∧ (settle (receive b true s)).link.silenceExpired = false ∧
      (settle (receive b true s)).link.silent = false := by
  have heq : receive b true s = goodFrame ⟨tag, kind, body⟩ (setRx .hunt (charTaken s)) := by
    rw [receive_high, receiveByte_second (s := charTaken s) hrx, if_pos hcheck]
  have hphase : (receive b true s).phase = .running :=
    ((receive_kept b true s) .clock (by simp)).2.1.trans hrun
  obtain ⟨hsilent, hstamp, hexpired⟩ := settle_silence hphase
  have hlink := goodFrame_link ⟨tag, kind, body⟩ (setRx .hunt (charTaken s))
  rw [← heq] at hlink
  rw [hlink] at hsilent hstamp hexpired
  exact ⟨heq, hstamp, hexpired, hsilent⟩

theorem receiveByte_drops {b : Byte} {s : State} (hu : receiveByte b (charTaken s) = dropFrame (charTaken s)) :
    LinkIs { s.link with rx := .hunt, lastChar := s.stamp, errors := min (s.link.errors + 1) 65535 }
      (settle (receive b true s)) :=
  linkIs_received hu (linkIs_link _)

/-- Settles O51. -/
theorem receiverFollowsItsTable : Obligations.ReceiverFollowsItsTable := by
  intro b s hrun
  refine ⟨⟨_, exec_receiveCharacter b false hrun, received_kept b false s, linkIs_settled _⟩, fun hrx => ?_, fun hrx => ?_,
    fun m got hrx => ?_, fun counted hrx => ?_, fun tag kind high body hrx => ?_, fun hrx hdue => ?_⟩
  · refine ⟨_, exec_receiveCharacter b true hrun, received_kept b true s, ?_⟩
    refine linkIs_received (receiveByte_hunt (s := charTaken s) hrx) ?_
    split
    · exact linkIs_link _
    · rw [← hrx]
      exact linkIs_link _
  · refine ⟨_, exec_receiveCharacter b true hrun, received_kept b true s, ?_⟩
    refine linkIs_received (receiveByte_length (s := charTaken s) hrx) ?_
    split <;> exact linkIs_link _
  · exact ⟨_, exec_receiveCharacter b true hrun, received_kept b true s,
      linkIs_received (receiveByte_body (s := charTaken s) hrx) (linkIs_link _)⟩
  · exact ⟨_, exec_receiveCharacter b true hrun, received_kept b true s,
      linkIs_received (receiveByte_first (s := charTaken s) hrx) (linkIs_link _)⟩
  · refine ⟨_, exec_receiveCharacter b true hrun, received_kept b true s, ?_⟩
    split
    · rename_i hcheck
      obtain ⟨heq, hstamp, hexpired, hsilent⟩ := received_good hrun hrx hcheck
      refine ⟨?_, hstamp, hexpired, hsilent⟩
      have hlink := goodFrame_link ⟨tag, kind, body⟩ (setRx .hunt (charTaken s))
      rw [← heq] at hlink
      have hsettled := linkIs_settled (receive b true s)
      unfold LinkIs at hsettled ⊢
      rw [hsettled, hlink]
      by_cases hroom : s.link.inbound.length < 4
      · rw [if_pos hroom, if_pos (by exact hroom), if_pos (by exact hroom)]
        rfl
      · rw [if_neg hroom, if_neg (by exact hroom), if_neg (by exact hroom)]
        rfl
    · rename_i hcheck
      exact receiveByte_drops ((receiveByte_second (s := charTaken s) hrx).trans (if_neg hcheck))
  · have hgap : gapDue s = true := by
      rw [gapDue, Bool.and_eq_true, decide_eq_true_eq]
      exact ⟨hrx, hdue⟩
    exact ⟨_, event_running (effect := dropFrame) hrun hgap, settled_kept (dropFrame_kept s), linkIs_settled _⟩

/-! ## The silence timer (R157, R162) -/

/-- Only the silence condition reports LINK_SILENT at the end of a command. -/
theorem settle_reportWaits_linkSilent {s : State} (hrun : s.phase = .running) (hexpired : s.link.silenceExpired = false) :
    reportWaits (settle s) .linkSilent = reportWaits s .linkSilent := by
  have hended : ∀ r ∈ endedMismatches s, r.cond ≠ .linkSilent := by
    intro r hr
    obtain ⟨n, -, rfl⟩ := List.mem_map.1 hr
    exact nofun
  have hchange : ∀ (p : Prop) [Decidable p] (r : Report), r.cond ≠ .linkSilent →
      ((if p then [] else [r]) : List Report).any (fun x => decide (x.cond = .linkSilent)) = false := by
    intro p _ r hr
    split
    · rfl
    · simp [hr]
  have hnone : (endedMismatches s).any (fun x => decide (x.cond = .linkSilent)) = false := by
    rw [List.any_eq_false]
    intro r hr
    simpa using hended r hr
  rw [reportWaits, (settle_decides hrun).2.2.1, judged_eq]
  simp only [List.any_append, hnone, hexpired, Bool.false_and, Bool.false_eq_true, if_false, List.any_nil, Bool.or_false]
  rw [hchange _ _ (by exact nofun), hchange _ _ (by exact nofun), hchange _ _ (by exact nofun)]
  simp only [Bool.or_false]
  rfl

/-- Settles O53. -/
theorem silenceExpirySetsFlag : Obligations.SilenceExpirySetsFlag := by
  refine ⟨fun s hrun hlimit hexpired hdue => ?_, fun b high tag kind body s hrun hsilent hrx hcheck => ?_,
    fun c r s hrun hnext hbegins hidle hover hreverse hlink hexpired hsilent => ?_⟩
  · have henabled : silenceDue s = true := by
      simp only [silenceDue, Bool.and_eq_true, decide_eq_true_eq, Bool.not_eq_true']
      exact ⟨⟨hlimit, hexpired⟩, hdue⟩
    have hexec := event_running (effect := fun s => s.onLink fun l => { l with silenceExpired := true }) hrun henabled
    obtain ⟨hs, hstamp, hset⟩ := settle_silence (s := s.onLink fun l => { l with silenceExpired := true }) hrun
    refine ⟨_, hexec, hset, hstamp, fun hin => ?_, fun hout => ⟨?_, fun hquiet => ?_⟩, ?_⟩
    · have hinside : outsideIdle (s.onLink fun l => { l with silenceExpired := true }) = false := by
        simp [outsideIdle, hin]
      rw [hs, hinside, Bool.and_false, Bool.or_false]
      rfl
    · have houtside : outsideIdle (s.onLink fun l => { l with silenceExpired := true }) = true :=
        (outsideIdle_iff _).2 hout
      rw [hs, houtside, Bool.and_true]
      exact Bool.or_true _
    · have houtside : outsideIdle (s.onLink fun l => { l with silenceExpired := true }) = true :=
        (outsideIdle_iff _).2 hout
      refine settle_silenceReport (s := s.onLink fun l => { l with silenceExpired := true }) hrun ?_
      rw [houtside, State.onLink_link, hquiet]
      rfl
    · refine settled_kept ?_
      intro p _
      cases p <;> simp [keptPart, AxisIs, LinesAre, FaultsAre, LinkIs, Raised]
  · obtain ⟨heq, hstamp, hexpired, hends⟩ := received_good hrun hrx hcheck
    have hfaults := goodFrame_faults ⟨tag, kind, body⟩ (setRx .hunt (charTaken s))
    have hlink := goodFrame_link ⟨tag, kind, body⟩ (setRx .hunt (charTaken s))
    rw [← heq] at hfaults hlink
    rw [if_pos (by exact hsilent)] at hfaults
    have hphase : (receive b true s).phase = .running := ((receive_kept b true s) .clock (by simp)).2.1.trans hrun
    have hquiet : (receive b true s).link.silenceExpired = false := by rw [hlink]
    refine ⟨_, exec_receiveCharacter b true hrun, hends, hexpired, hstamp, fun hno => ?_, fun hyes => ?_,
      received_kept b true s⟩
    · rw [if_neg (by rw [Bool.not_eq_true]; exact hno)] at hfaults
      rw [settle_reportWaits_linkSilent hphase hquiet, settle_faults_eq, reportWaits, hfaults]
      exact ⟨rfl, hno⟩
    · rw [if_pos (by exact hyes)] at hfaults
      refine ⟨by rw [settle_faults_eq, hfaults]; rfl, mem_settle_inbox ?_⟩
      rw [hfaults]
      exact List.mem_append_right _ (List.mem_singleton_self _)
  · have hcond := cond_of_nextReport hnext
    have htaken : takenIn (condKind c) s.seq.state = true := (takenIn_iff c _).2 (.inr ⟨hover, hreverse, hlink⟩)
    have hexec := exec_conditionBegin hrun hnext hbegins
    have hsafe : s.seq.state ≠ .safe := by
      rw [hidle]
      exact SeqState.noConfusion
    have hout : takeFault r (begun c s) = abortBy c (faultOutsideSafe r (begun c s)) := by
      rw [takeFault_eq, hcond, if_neg (by exact hsafe)]
    rw [htaken, if_pos rfl, hout] at hexec
    have houtside := faultOutsideSafe_eq r (begun c s)
    have hseq : (abortBy c (faultOutsideSafe r (begun c s))).seq.state = .safe := by rw [abortBy_seq, houtside]
    have hulink : (abortBy c (faultOutsideSafe r (begun c s))).link = s.link := by rw [abortBy_other, houtside]; rfl
    have hphase : (abortBy c (faultOutsideSafe r (begun c s))).phase = .running := by
      rw [abortBy_other, houtside]
      exact hrun
    have houts : outsideIdle (abortBy c (faultOutsideSafe r (begun c s))) = true := by
      rw [outsideIdle_iff, hseq]
      exact SeqState.noConfusion
    obtain ⟨hs, -, -⟩ := settle_silence hphase
    refine ⟨_, hexec, by rw [settle_seq, hseq], ?_, settle_silenceReport hphase ?_⟩
    · rw [hs, hulink, houts, hexpired]
      exact Bool.or_true _
    · rw [hulink, houts, hexpired, hsilent]
      rfl

end Sys2Proof.Machine
end

section
/-! The transmitter: replies before notices, the order of the notices, and their summaries (R146 to R148, R160, R161). -/

namespace Sys2Proof.Machine

/-! ## The source whose notice goes next (R146) -/

/-- The first due source of a group. -/
def firstNotice (e : EventUnit) (g : NoticeGroup) : Option (Fin 28) :=
  (List.finRange 28).find? fun n => decide (groupOf n = g) && due e.recs[n]

theorem firstNotice_eq {e : EventUnit} {n : Fin 28} (hn : NextNoticed e n) : firstNotice e (groupOf n) = some n := by
  obtain ⟨hdue, hnext⟩ := hn
  unfold firstNotice
  cases hfound : (List.finRange 28).find? fun m => decide (groupOf m = groupOf n) && due e.recs[m] with
  | none =>
    have hno := List.find?_eq_none.1 hfound n (List.mem_finRange n)
    rw [hdue, Bool.and_true, decide_eq_true rfl] at hno
    exact absurd rfl hno
  | some k =>
    obtain ⟨hk, i, hi, hget, hbefore⟩ := List.find?_eq_some_iff_getElem.1 hfound
    rw [List.getElem_finRange] at hget
    have hik : i = k.val := congrArg Fin.val hget
    simp only [Bool.and_eq_true, decide_eq_true_eq] at hk
    by_contra hne
    have hkn : k ≠ n := fun h => hne (congrArg some h)
    rcases hnext k hk.2 hkn with hplace | ⟨-, hlt⟩
    · rw [hk.1] at hplace
      exact absurd hplace (lt_irrefl _)
    · have hno := hbefore n.val (by omega)
      rw [List.getElem_finRange] at hno
      have hself : (!(decide (groupOf n = groupOf n) && due e.recs[n])) = true := hno
      rw [hdue, Bool.and_true, decide_eq_true rfl] at hself
      exact Bool.noConfusion hself

/-- No source is due in a group that goes before that of the next notice. -/
theorem firstNotice_none {e : EventUnit} {n : Fin 28} {g : NoticeGroup} (hn : NextNoticed e n)
    (hg : orderPlace e.order g < orderPlace e.order (groupOf n)) : firstNotice e g = none := by
  rw [firstNotice, List.find?_eq_none]
  intro m _ hm
  simp only [Bool.and_eq_true, decide_eq_true_eq] at hm
  have hmn : m ≠ n := by
    rintro rfl
    rw [hm.1] at hg
    exact absurd hg (lt_irrefl _)
  rcases hn.2 m hm.2 hmn with hplace | ⟨hsame, -⟩
  · rw [hm.1] at hplace
    omega
  · rw [← hsame, hm.1] at hg
    exact absurd hg (lt_irrefl _)

/-- The place of each group of an order that names each once. -/
theorem orderPlace_eq {o : NoticeOrder} (h12 : o.first ≠ o.second) (h13 : o.first ≠ o.third) (h23 : o.second ≠ o.third) :
    orderPlace o o.first = 0 ∧ orderPlace o o.second = 1 ∧ orderPlace o o.third = 2 := by
  simp [orderPlace, Ne.symm h12, Ne.symm h13, Ne.symm h23]

theorem group_mem_order {o : NoticeOrder} (h12 : o.first ≠ o.second) (h13 : o.first ≠ o.third) (h23 : o.second ≠ o.third)
    (g : NoticeGroup) : g = o.first ∨ g = o.second ∨ g = o.third := by
  obtain ⟨x, y, z⟩ := o
  revert h12 h13 h23
  cases x <;> cases y <;> cases z <;> cases g <;> simp

theorem chooseSource_next {e : EventUnit} {n : Fin 28} (hn : NextNoticed e n) (h12 : e.order.first ≠ e.order.second)
    (h13 : e.order.first ≠ e.order.third) (h23 : e.order.second ≠ e.order.third) : chooseSource e = some n := by
  obtain ⟨hp1, hp2, hp3⟩ := orderPlace_eq h12 h13 h23
  have hlist : chooseSource e = [e.order.first, e.order.second, e.order.third].findSome? (firstNotice e) := rfl
  have hself := firstNotice_eq hn
  rw [hlist]
  rcases group_mem_order h12 h13 h23 (groupOf n) with hg | hg | hg
  · rw [← hg, List.findSome?_cons, hself]
  · have hfirst := firstNotice_none (g := e.order.first) hn (by rw [hg, hp1, hp2]; decide)
    rw [List.findSome?_cons, hfirst]
    dsimp only
    rw [← hg, List.findSome?_cons, hself]
  · have hfirst := firstNotice_none (g := e.order.first) hn (by rw [hg, hp1, hp3]; decide)
    have hsecond := firstNotice_none (g := e.order.second) hn (by rw [hg, hp2, hp3]; decide)
    rw [List.findSome?_cons, hfirst]
    dsimp only
    rw [List.findSome?_cons, hsecond]
    dsimp only
    rw [← hg, List.findSome?_cons, hself]

/-! ## The end of a frame (R160) -/

/-- The transmitter is free. -/
def txFreed (s : State) : State := s.onLink fun l => { l with tx := none }

theorem exec_frameSent {s : State} {x : Sending} (hrun : s.phase = .running) (htx : s.link.tx = some x) :
    exec .frameSent s = .next (settle (txFreed s)) :=
  event_running (effect := txFreed) hrun (by rw [htx]; rfl)

theorem txFreed_kept (s : State) : KeptBut [] s (txFreed s) := by
  intro p _
  cases p <;> simp [keptPart, AxisIs, LinesAre, FaultsAre, LinkIs, Raised, txFreed]

theorem chooseFrame_reply {s : State} {f : Frame} {rest : List Frame} (htx : s.link.tx = none) (h : s.link.replies = f :: rest) :
    chooseFrame s = beginSending f (s.onLink fun l => { l with replies := rest }) := by
  simp only [chooseFrame, htx, h]
  rfl

theorem chooseFrame_silent {s : State} (htx : s.link.tx = none) (hreplies : s.link.replies = [])
    (h : s.link.restarting = true ∨ ∀ n : Fin 28, due s.events.recs[n] = false) : chooseFrame s = s := by
  rcases h with h | h
  · simp only [chooseFrame, htx, hreplies, h]
    rfl
  · exact chooseFrame_quiet ⟨htx, hreplies⟩ h

/-- A source noticed (R147). -/
def noticed (n : Fin 28) (s : State) : State := s.onEvents fun e => { e with recs := updAt e.recs n fun r => { r with noticed := r.count } }

theorem noticed_rec (n m : Fin 28) (s : State) : (noticed n s).events.recs[m] = { s.events.recs[m] with
    noticed := if m = n then s.events.recs[n].count else s.events.recs[m].noticed } := by
  have hget : (noticed n s).events.recs[m] =
      if n = m then { s.events.recs[n] with noticed := s.events.recs[n].count } else s.events.recs[m] := updAt_get _ _ _ _
  rw [hget]
  by_cases h : n = m
  · subst h
    rw [if_pos rfl, if_pos rfl]
  · rw [if_neg h, if_neg (Ne.symm h)]

theorem chooseFrame_notice {s : State} {n : Fin 28} (htx : s.link.tx = none) (hreplies : s.link.replies = [])
    (hrestart : s.link.restarting = false) (hn : chooseSource s.events = some n) :
    chooseFrame s = beginSending (noticeFrame s n) (noticed n s) := by
  simp only [chooseFrame, htx, hreplies, hrestart, hn]
  rfl

/-- The judgements leave what the transmitter chooses from. -/
theorem judged_sends (s : State) : (judged s).link.tx = s.link.tx ∧ (judged s).link.replies = s.link.replies ∧
    (judged s).link.restarting = s.link.restarting ∧ (judged s).events = s.events ∧ (judged s).stamp = s.stamp ∧
    ∀ n, noticeFrame (judged s) n = noticeFrame s n := by
  rw [judged_eq]
  exact ⟨rfl, rfl, rfl, rfl, rfl, fun _ => rfl⟩

/-- What the transmitter's choice leaves after the end of a frame (R160). -/
theorem frameSent_settled {s j u : State} (hrun : s.phase = .running) (hj : judged (txFreed s) = j) (hu : chooseFrame j = u) :
    (settle (txFreed s)).link.tx = u.link.tx ∧ (settle (txFreed s)).link.replies = u.link.replies ∧
      (settle (txFreed s)).events = u.events ∧ KeptBut [] s (settle (txFreed s)) := by
  refine ⟨?_, ?_, ?_, settled_kept (txFreed_kept s)⟩ <;> rw [settle_running (s := txFreed s) hrun, hj, hu] <;> rfl

/-! ## The summaries (R148, section 11.6) -/

theorem layout_zeros (n : Nat) : layout [(n, 0)] = List.replicate n 0#8 := by
  have hbytes : ∀ n, bytesOf n 0 = List.replicate n 0#8 := by
    intro n
    induction n with
    | zero => rfl
    | succ n ih => rw [bytesOf, ih, Nat.zero_div, List.replicate_succ]
  rw [layout_cons, layout_nil, hbytes, List.append_nil]

theorem captureFields_length (r : CaptureRecord) : (layout (captureFields r)).length = 14 := by
  simp [captureFields, layout_cons, layout_append, layout_nil, layout_key, bytesOf_one, bytesOf_four, keyBytes, be16, be32]

/-- A summary is its used bytes, and zeros (R148). -/
def padded (used : List Byte) : List Byte := used ++ List.replicate (14 - used.length) 0#8

theorem getElem_of_val {α : Type} {m k : Nat} {v : Vector α m} {i : Fin m} (h : k = i.val) (hk : k < m) : v[k] = v[i] := by
  subst h
  rfl

theorem noticeSummary_capture {s : State} {n : Fin 28} {ch : Fin 4} (h : n.val = ch.val) :
    noticeSummary s n = padded (optBytes 14 captureBytes s.capture.channels[ch].latest) := by
  have hlt : n.val < 4 := h ▸ ch.isLt
  simp only [noticeSummary, padded, dif_pos hlt]
  rw [getElem_of_val h hlt]

theorem noticeSummary_miss {s : State} {n : Fin 28} {ch : Fin 4} (h : n.val = 4 + ch.val) :
    noticeSummary s n = padded (optBytes 5 (fun m : Miss => [missResultByte m.result, flagByte m.group.isSome] ++
      optBytes 1 (fun g : Fin 32 => [byteOf g.val]) m.group ++ be16 m.cycle.toNat) s.capture.channels[ch].lastMiss) := by
  have hlt := ch.isLt
  have hno : ¬ n.val < 4 := by omega
  have hyes : n.val - 4 < 4 := by omega
  simp only [noticeSummary, padded, dif_neg hno, dif_pos hyes]
  rw [getElem_of_val (show n.val - 4 = ch.val by omega) hyes]

/-- The summaries of the other sources. -/
theorem noticeSummary_other {s : State} {n : Fin 28} (h : 8 ≤ n.val) : noticeSummary s n = padded
    (if n.val = 26 then optBytes 1 (fun r : FaultRecord => [byteOf (faultRank r.kind)]) s.faults.primary
    else if n.val = 27 then optBytes 2 (fun o : LastOp => [byteOf o.block.val, storeResultByte o.result]) s.store.lastOp
    else []) := by
  have hno : ¬ n.val < 4 := by omega
  have hno' : ¬ n.val - 4 < 4 := by omega
  simp only [noticeSummary, padded, dif_neg hno, dif_neg hno']

theorem miss_padded (m : Miss) : padded (optBytes 5 (fun m : Miss => [missResultByte m.result, flagByte m.group.isSome] ++
      optBytes 1 (fun g : Fin 32 => [byteOf g.val]) m.group ++ be16 m.cycle.toNat) (some m)) =
    layout [(1, missCode m.result), (1, m.group.isSome.toNat), (1, (m.group.map (·.val)).getD 0), (2, m.cycle.toNat), (9, 0)] := by
  have hgroup : optBytes 1 (fun g : Fin 32 => [byteOf g.val]) m.group = [byteOf ((m.group.map (·.val)).getD 0)] := by
    cases m.group <;> rfl
  have hlayout : layout [(1, missCode m.result), (1, m.group.isSome.toNat), (1, (m.group.map (·.val)).getD 0),
      (2, m.cycle.toNat), (9, 0)] = [byteOf (missCode m.result), byteOf m.group.isSome.toNat,
      byteOf ((m.group.map (·.val)).getD 0)] ++ be16 m.cycle.toNat ++ List.replicate 9 0#8 := by
    rw [layout_cons, layout_cons, layout_cons, layout_cons, layout_zeros, bytesOf_one, bytesOf_one, bytesOf_one, bytesOf_two]
    rfl
  rw [hlayout, byteOf_missCode, byteOf_flag]
  dsimp only [optBytes] at hgroup ⊢
  rw [hgroup]
  rfl

theorem kind_padded (r : FaultRecord) : padded (optBytes 1 (fun r : FaultRecord => [byteOf (faultRank r.kind)]) (some r)) =
    layout [(1, kindCode r.kind), (13, 0)] := by
  rw [layout_cons, layout_zeros, bytesOf_one, byteOf_kindCode]
  rfl

theorem lastOp_padded (o : LastOp) :
    padded (optBytes 2 (fun o : LastOp => [byteOf o.block.val, storeResultByte o.result]) (some o)) =
      layout [(1, o.block.val), (1, resultCode o.result), (12, 0)] := by
  rw [layout_cons, layout_cons, layout_zeros, bytesOf_one, bytesOf_one, byteOf_resultCode]
  rfl

/-- The end of a frame: the oldest reply, a notice, or nothing (R146, R147, R160, R161). -/
theorem frameSent_chooses {x : Sending} {s : State} (hrun : s.phase = .running) (htx : s.link.tx = some x) :
    (∀ f rest, s.link.replies = f :: rest → ∃ t, exec .frameSent s = .next t ∧ t.link.tx = some ⟨f, s.stamp⟩ ∧
      t.link.replies = rest ∧ t.events = s.events ∧ KeptBut [] s t) ∧
    (s.link.replies = [] → (s.link.restarting = true ∨ ∀ n : Fin 28, due s.events.recs[n] = false) →
      ∃ t, exec .frameSent s = .next t ∧ t.link.tx = none ∧ t.link.replies = [] ∧ t.events = s.events ∧ KeptBut [] s t) ∧
    (∀ n : Fin 28, s.link.replies = [] → s.link.restarting = false → chooseSource s.events = some n →
      ∃ t, exec .frameSent s = .next t ∧ t.link.tx = some ⟨noticeFrame s n, s.stamp⟩ ∧ t.link.replies = [] ∧
        (∀ m : Fin 28, t.events.recs[m] = { s.events.recs[m] with
          noticed := if m = n then s.events.recs[n].count else s.events.recs[m].noticed }) ∧ KeptBut [] s t) := by
  obtain ⟨hjtx, hjreplies, hjrestart, hjevents, hjstamp, hjframe⟩ := judged_sends (txFreed s)
  have hsettled := fun u => frameSent_settled (j := judged (txFreed s)) (u := u) hrun rfl
  have hexec := exec_frameSent hrun htx
  generalize judged (txFreed s) = j at *
  generalize settle (txFreed s) = t at *
  have hfree : j.link.tx = none := hjtx
  have hreplies : j.link.replies = s.link.replies := hjreplies
  have hrestart : j.link.restarting = s.link.restarting := hjrestart
  have hevents : j.events = s.events := hjevents
  have hstamp : j.stamp = s.stamp := hjstamp
  refine ⟨fun f rest hqueue => ?_, fun hqueue hquiet => ?_, fun n hqueue hrunning hn => ?_⟩
  · obtain ⟨htx', hreplies', hevents', hkept⟩ := hsettled _ (chooseFrame_reply hfree (hreplies.trans hqueue))
    refine ⟨t, hexec, ?_, hreplies', hevents'.trans hevents, hkept⟩
    rw [htx', ← hstamp]
    rfl
  · obtain ⟨htx', hreplies', hevents', hkept⟩ := hsettled _
      (chooseFrame_silent hfree (hreplies.trans hqueue) (by rw [hrestart, hevents]; exact hquiet))
    exact ⟨t, hexec, htx'.trans hfree, hreplies'.trans (hreplies.trans hqueue), hevents'.trans hevents, hkept⟩
  · obtain ⟨htx', hreplies', hevents', hkept⟩ := hsettled _
      (chooseFrame_notice hfree (hreplies.trans hqueue) (hrestart.trans hrunning) (by rw [hevents]; exact hn))
    have hframe : noticeFrame j n = noticeFrame s n := hjframe n
    refine ⟨t, hexec, ?_, hreplies'.trans (hreplies.trans hqueue), fun m => ?_, hkept⟩
    · rw [htx', ← hframe, ← hstamp]
      rfl
    · have hrec := noticed_rec n m j
      rw [hevents] at hrec
      rw [hevents']
      exact hrec

/-- Settles O52. -/
theorem transmitterSendsRepliesThenNotices : Obligations.TransmitterSendsRepliesThenNotices := by
  refine ⟨fun x s hrun htx => ?_, fun s n => ⟨fun ch r hn hr => ?_, fun ch m hn hm => ?_, fun r hn hr => ?_, fun o hn ho => ?_,
    fun hn h26 h27 => ?_⟩⟩
  · obtain ⟨hreply, hsilent, hnotice⟩ := frameSent_chooses hrun htx
    exact ⟨hreply, hsilent, fun n hreplies hrestart hnext h12 h13 h23 =>
      hnotice n hreplies hrestart (chooseSource_next hnext h12 h13 h23)⟩
  · rw [noticeSummary_capture hn, hr]
    dsimp only [optBytes]
    rw [padded, captureBytes_layout, captureFields_length]
    exact List.append_nil _
  · rw [noticeSummary_miss hn, hm]
    exact miss_padded m
  · subst hn
    rw [noticeSummary_other (by decide), if_pos (by decide), hr]
    exact kind_padded r
  · subst hn
    rw [noticeSummary_other (by decide), if_neg (by decide), if_pos (by decide), ho]
    exact lastOp_padded o
  · rw [noticeSummary_other hn, if_neg (show ¬ n.val = 26 from fun h => h26 (Fin.ext h)),
      if_neg (show ¬ n.val = 27 from fun h => h27 (Fin.ext h)), layout_zeros]
    rfl

end Sys2Proof.Machine
end

section
/-! A request as its frame, sent byte by byte, and a request that waits (R155 to R158, R161). -/

namespace Sys2Proof.Machine

/-! ## The frame of a well-formed request (R155) -/

theorem command_of_frame {c : Instr} {f : Frame} (hw : c.wf = true) (hf : c.frame = some f) : f.command = c := by
  cases c
  case unknownKindRequest tag kind body => exact Laws.FrameRoundTrip.unknownKindRequest tag kind body hw f hf
  all_goals cases hf
  all_goals rfl

theorem body_of_frame {c : Instr} {f : Frame} (hw : c.wf = true) (hf : c.frame = some f) : f.body.length ≤ 248 := by
  cases c
  case unknownKindRequest tag kind body =>
    cases hf
    rw [Instr.wf, Bool.and_eq_true] at hw
    exact of_decide_eq_true hw.1
  all_goals cases hf
  all_goals exact of_decide_eq_true hw

theorem frame_length_toNat {f : Frame} (h : f.body.length ≤ 248) : f.length.toNat = f.body.length + 2 := by
  have hcounted : f.counted.length = f.body.length + 2 := rfl
  rw [Frame.length, hcounted, BitVec.toNat_ofNat]
  omega

theorem highByte_append_lowByte (w : BitVec 16) : highByte w ++ lowByte w = w := by
  apply BitVec.eq_of_getLsbD_eq
  intro i hi
  rw [BitVec.getLsbD_append]
  split
  · rename_i hlow
    simp [lowByte, hlow]
  · rename_i hhigh
    have hplace : 8 + (i - 8) = i := by omega
    have hbit : i - 8 < 8 := by omega
    simp [highByte, hbit, hplace]

/-! ## The receiver, over the bytes of a frame (R156) -/

/-- What `LinkIs` leaves open may change again. -/
theorem linkIs_open {l : Link} {t : State} (h : LinkIs l t) : ∃ replies tx stamp expired silent, t.link =
    { l with replies := replies, tx := tx, silenceStamp := stamp, silenceExpired := expired, silent := silent } :=
  ⟨_, _, _, _, _, h⟩

/-- Characters have brought the receiver to a state, and have changed nothing else. -/
structure Received (r : Receiver) (s t : State) : Prop where
  running : t.phase = .running
  stamp   : t.stamp = s.stamp
  link    : LinkIs { s.link with rx := r, lastChar := s.stamp } t
  kept    : KeptBut [.link] s t

theorem Received.rx {r : Receiver} {s t : State} (h : Received r s t) : t.link.rx = r := by
  obtain ⟨_, _, _, _, _, hlink⟩ := linkIs_open h.link
  rw [hlink]

/-- One more character. -/
theorem Received.next {r r' : Receiver} {s t u : State} (h : Received r s t) (hkept : KeptBut [.link] t u)
    (hlink : LinkIs { t.link with rx := r', lastChar := t.stamp } u) : Received r' s u := by
  obtain ⟨-, hphase, hstamp, -⟩ := hkept .clock (by simp)
  obtain ⟨_, _, _, _, _, hbefore⟩ := linkIs_open h.link
  refine ⟨hphase.trans h.running, hstamp.trans h.stamp, ?_, h.kept.trans hkept⟩
  rw [hbefore, h.stamp] at hlink
  exact hlink

/-- The characters of some bytes, each with a high stop bit. -/
abbrev characters (bytes : List Byte) : List Instr := bytes.map fun b => .receiveCharacter b true

/-- The receiver once it has some of the bytes it counts. -/
def bodyRx (m : Nat) (got : List Byte) : Receiver := if got.length < m then .body m got else .check got none

theorem received_start {s : State} (hrun : s.phase = .running) (hrx : s.link.rx = .hunt) :
    ∃ t, exec (.receiveCharacter 0x7E#8 true) s = .next t ∧ Received .length s t := by
  obtain ⟨t, hexec, hkept, hlink⟩ := (receiverFollowsItsTable 0x7E#8 s hrun).2.1 hrx
  obtain ⟨-, hphase, hstamp, -⟩ := hkept .clock (by simp)
  exact ⟨t, hexec, hphase.trans hrun, hstamp, hlink, hkept⟩

theorem received_length {b : Byte} {s t : State} (h : Received .length s t) (hb : 2 ≤ b.toNat ∧ b.toNat ≤ 250) :
    ∃ u, exec (.receiveCharacter b true) t = .next u ∧ Received (bodyRx b.toNat []) s u := by
  obtain ⟨u, hexec, hkept, hlink⟩ := (receiverFollowsItsTable b t h.running).2.2.1 h.rx
  rw [if_pos hb] at hlink
  have hnone : bodyRx b.toNat [] = .body b.toNat [] := if_pos (show 0 < b.toNat by omega)
  rw [hnone]
  exact ⟨u, hexec, h.next hkept hlink⟩

theorem received_body {m : Nat} {s : State} (bytes : List Byte) : ∀ {got : List Byte} {t : State}, Received (bodyRx m got) s t →
    got.length + bytes.length = m → ∃ u, Runs (characters bytes) t u ∧ Received (.check (got ++ bytes) none) s u := by
  induction bytes with
  | nil =>
    intro got t h hlen
    rw [bodyRx, if_neg (by simp at hlen; omega)] at h
    exact ⟨t, rfl, by rwa [List.append_nil]⟩
  | cons b rest ih =>
    intro got t h hlen
    rw [List.length_cons] at hlen
    rw [bodyRx, if_pos (by omega)] at h
    obtain ⟨u, hexec, hkept, hlink⟩ := (receiverFollowsItsTable b t h.running).2.2.2.1 m got h.rx
    have hnext : Received (bodyRx m (got ++ [b])) s u := by
      rw [bodyRx, List.length_append, List.length_singleton]
      exact h.next hkept hlink
    obtain ⟨v, hruns, hv⟩ := ih hnext (by rw [List.length_append, List.length_singleton]; omega)
    rw [List.append_assoc] at hv
    exact ⟨v, ⟨u, hexec, hruns⟩, hv⟩

theorem received_high {counted : List Byte} {high : Byte} {s t : State} (h : Received (.check counted none) s t) :
    ∃ u, exec (.receiveCharacter high true) t = .next u ∧ Received (.check counted (some high)) s u := by
  obtain ⟨u, hexec, hkept, hlink⟩ := (receiverFollowsItsTable high t h.running).2.2.2.2.1 counted h.rx
  exact ⟨u, hexec, h.next hkept hlink⟩

theorem runs_append {cs ds : List Instr} {s t u : State} (h : Runs cs s t) (h' : Runs ds t u) : Runs (cs ++ ds) s u := by
  induction cs generalizing s with
  | nil =>
    cases h
    exact h'
  | cons c cs ih =>
    obtain ⟨v, hexec, hrest⟩ := h
    exact ⟨v, hexec, ih hrest⟩

/-- The bytes of a frame up to the high byte of a check. -/
theorem received_frame {f : Frame} {s : State} (hbody : f.body.length ≤ 248) (hrun : s.phase = .running)
    (hrx : s.link.rx = .hunt) (high : Byte) :
    ∃ t, Runs (characters (0x7E#8 :: f.length :: (f.counted ++ [high]))) s t ∧
      Received (.check (f.tag :: f.kind :: f.body) (some high)) s t := by
  have hlen := frame_length_toNat hbody
  obtain ⟨t, hstart, ht⟩ := received_start hrun hrx
  obtain ⟨u, hlength, hu⟩ := received_length (b := f.length) ht (by omega)
  obtain ⟨v, hruns, hv⟩ := received_body (got := []) f.counted hu (by rw [hlen]; exact Nat.zero_add _)
  obtain ⟨w, hhigh, hw⟩ := received_high (high := high) hv
  have hend : Runs (characters [high]) v w := ⟨w, hhigh, rfl⟩
  have hrest := runs_append hruns hend
  rw [← List.map_append] at hrest
  exact ⟨w, ⟨t, hstart, u, hlength, hrest⟩, hw⟩

/-- The last byte of a frame hands it on, or drops it. -/
theorem received_low {f : Frame} {high : Byte} (low : Byte) {s t : State} (hrx : s.link.rx = .hunt)
    (h : Received (.check (f.tag :: f.kind :: f.body) (some high)) s t) :
    ∃ u, exec (.receiveCharacter low true) t = .next u ∧ KeptBut [.link] s u ∧
      LinkIs (if f.check = high ++ low then
          if s.link.inbound.length < 4 then { s.link with lastChar := s.stamp, inbound := s.link.inbound ++ [f] }
          else { s.link with lastChar := s.stamp, errors := min (s.link.errors + 1) 65535 }
        else { s.link with lastChar := s.stamp, errors := min (s.link.errors + 1) 65535 }) u := by
  obtain ⟨u, hexec, hkept, hlast⟩ := (receiverFollowsItsTable low t h.running).2.2.2.2.2.1 _ _ _ _ h.rx
  refine ⟨u, hexec, h.kept.trans hkept, ?_⟩
  obtain ⟨_, _, _, _, _, hlink⟩ := linkIs_open h.link
  by_cases hcheck : f.check = high ++ low
  · rw [if_pos (by exact hcheck)] at hlast
    rw [if_pos hcheck]
    have hgood := hlast.1
    rw [hlink, h.stamp] at hgood
    split
    · rename_i hroom
      rw [if_pos (by exact hroom), ← hrx] at hgood
      exact hgood
    · rename_i hroom
      rw [if_neg (by exact hroom), ← hrx] at hgood
      exact hgood
  · rw [if_neg (by exact hcheck), hlink, h.stamp, ← hrx] at hlast
    rw [if_neg hcheck]
    exact hlast

/-- A frame sent byte by byte, with the check it has or another. -/
theorem frameSpelled {f : Frame} {s : State} (hbody : f.body.length ≤ 248) (hrun : s.phase = .running)
    (hrx : s.link.rx = .hunt) (high low : Byte) :
    ∃ t, Runs (characters (0x7E#8 :: f.length :: f.counted ++ [high, low])) s t ∧ KeptBut [.link] s t ∧
      LinkIs (if f.check = high ++ low then
          if s.link.inbound.length < 4 then { s.link with lastChar := s.stamp, inbound := s.link.inbound ++ [f] }
          else { s.link with lastChar := s.stamp, errors := min (s.link.errors + 1) 65535 }
        else { s.link with lastChar := s.stamp, errors := min (s.link.errors + 1) 65535 }) t := by
  obtain ⟨t, hruns, ht⟩ := received_frame hbody hrun hrx high
  obtain ⟨u, hlow, hkept, hlink⟩ := received_low low hrx ht
  have hend : Runs (characters [low]) t u := ⟨u, hlow, rfl⟩
  have hall := runs_append hruns hend
  rw [← List.map_append] at hall
  have hbytes : 0x7E#8 :: f.length :: (f.counted ++ [high]) ++ [low] = 0x7E#8 :: f.length :: f.counted ++ [high, low] := by simp
  rw [hbytes] at hall
  exact ⟨u, hall, hkept, hlink⟩

/-! ## A request at the head of the inbound queue, and one that waits (R157, R158, R161) -/

theorem canTake_iff (s : State) : canTake s = true ↔ s.phase = .running ∧ s.link.replies.length < 4 ∧
    s.link.restarting = false ∧ ∀ r ∈ s.faults.inbox, r.cond = .linkSilent → r.begins = true := by
  simp [canTake, Config.replyRoom, and_assoc]

theorem serve_head {f : Frame} {rest : List Frame} {s : State} (rule : State → State × Reply) (htake : canTake s = true)
    (hin : s.link.inbound = f :: rest) : serve f rule s = settle (answer f rule (popInbound s)) := by
  have hrun := ((canTake_iff s).1 htake).1
  have hhead : s.link.inbound.head? = some f := by rw [hin]; rfl
  rw [serve, if_neg (by rw [hrun]; exact nofun), if_pos ⟨hhead, htake⟩]

/-- A frame that finds no room for its reply, RESTART taken, or another frame before it waits. -/
theorem serve_waits {f : Frame} {s : State} (rule : State → State × Reply) (hrun : s.phase = .running)
    (hwaits : 4 ≤ s.link.replies.length ∨ s.link.restarting = true ∨ ∃ g, s.link.inbound.head? = some g ∧ g ≠ f) :
    serve f rule s = settle (goodFrame f s) := by
  have hlink := goodFrame_link f s
  have hhead : ¬ (s.link.inbound.head? = some f ∧ canTake s = true) := by
    rintro ⟨hhead, htake⟩
    obtain ⟨-, hroom, hrestart, -⟩ := (canTake_iff s).1 htake
    rcases hwaits with h | h | ⟨g, hg, hne⟩
    · omega
    · rw [hrestart] at h
      exact Bool.noConfusion h
    · rw [hhead] at hg
      exact hne (Option.some.inj hg).symm
  have harrived : ¬ (s.link.inbound = [] ∧ canTake (goodFrame f s) = true) := by
    rintro ⟨hempty, htake⟩
    obtain ⟨-, hroom, hrestart, -⟩ := (canTake_iff _).1 htake
    rw [hlink] at hroom hrestart
    rcases hwaits with h | h | ⟨g, hg, -⟩
    · exact absurd hroom (by exact Nat.not_lt.2 h)
    · rw [h] at hrestart
      exact Bool.noConfusion hrestart
    · rw [hempty] at hg
      exact nomatch hg
  rw [serve, if_neg (by rw [hrun]; exact nofun), if_neg hhead]
  exact if_neg harrived

theorem settle_sending {s : State} (htx : s.link.tx.isSome = true) :
    (settle s).link.tx = s.link.tx ∧ (settle s).link.replies = s.link.replies := by
  obtain ⟨hjtx, hjreplies, -⟩ := judged_sends s
  cases hphase : s.phase with
  | held =>
    rw [settle_held hphase]
    exact ⟨rfl, rfl⟩
  | running =>
    have hchoice : chooseFrame (judged s) = judged s := if_pos (by rw [hjtx]; exact htx)
    rw [settle_running hphase, hchoice]
    exact ⟨hjtx, hjreplies⟩

/-- What the link keeps of a frame that waits or is discarded (R157). -/
theorem linkIs_waiting (f : Frame) (s : State) :
    LinkIs (if s.link.inbound.length < 4 then { s.link with inbound := s.link.inbound ++ [f] }
      else { s.link with errors := min (s.link.errors + 1) 65535 }) (settle (goodFrame f s)) := by
  have hsettled := linkIs_settled (goodFrame f s)
  have hlink := goodFrame_link f s
  unfold LinkIs at hsettled ⊢
  rw [hsettled, hlink]
  by_cases hroom : s.link.inbound.length < 4
  · rw [if_pos hroom, if_pos hroom, if_pos hroom]
  · rw [if_neg hroom, if_neg hroom, if_neg hroom]

/-- The reply that a taken request queues, and what it leaves of the link (R158). -/
theorem taken_request (c : Instr) (f : Frame) (s : State) :
    (settle (answer f (requestRule c) (popInbound s))).link.inbound = s.link.inbound.tail ∧
      (settle (answer f (requestRule c) (popInbound s))).link.errors = s.link.errors ∧
      ∃ r : Frame, newestReply (settle (answer f (requestRule c) (popInbound s))) = some r ∧ r.tag = f.tag ∧
        r.kind = replyKind f.kind := by
  obtain ⟨hinbound, -, herrors⟩ := (requestRule_writes c (popInbound s)).queues
  have hsettled := linkIs_settled (answer f (requestRule c) (popInbound s))
  unfold LinkIs at hsettled
  refine ⟨?_, ?_, _, answer_newestReply f _ _, rfl, rfl⟩
  · rw [hsettled]
    exact hinbound
  · rw [hsettled]
    exact herrors

/-- Settles O54. -/
theorem requestSentByBytesIsReceived : Obligations.RequestSentByBytesIsReceived := by
  refine ⟨fun c f s hw hf hrun hrx hroom => ⟨command_of_frame hw hf, ?_, fun high low hcheck => ?_⟩,
    fun c f rest s hw hf hrun hin hroom hrestart hsilence => ?_, fun c f s hw hf hrun hwaits => ?_⟩
  · obtain ⟨t, hruns, hkept, hlink⟩ :=
      frameSpelled (body_of_frame hw hf) hrun hrx (highByte f.check) (lowByte f.check)
    rw [if_pos (highByte_append_lowByte _).symm, if_pos hroom] at hlink
    exact ⟨t, hruns, hlink, hkept⟩
  · obtain ⟨t, hruns, hkept, hlink⟩ := frameSpelled (body_of_frame hw hf) hrun hrx high low
    rw [if_neg (Ne.symm hcheck)] at hlink
    exact ⟨t, hruns, hlink, hkept⟩
  · have htake := (canTake_iff s).2 ⟨hrun, hroom, hrestart, hsilence⟩
    obtain ⟨hinbound, herrors, hreply⟩ := taken_request c f s
    rw [← serve_head _ htake hin] at hinbound herrors hreply
    rw [hin] at hinbound
    exact ⟨_, exec_request_wf hw hf s, hinbound, herrors, hreply⟩
  · have hserve := serve_waits (requestRule c) hrun hwaits
    have hexec := exec_request_wf hw hf s
    rw [hserve] at hexec
    have hlink := goodFrame_link f s
    refine ⟨_, hexec, linkIs_waiting f s, fun htx => ?_, settled_kept (goodFrame_kept f s)⟩
    obtain ⟨hsent, hqueued⟩ := settle_sending (s := goodFrame f s) (by rw [hlink]; exact htx)
    rw [hlink] at hsent hqueued
    exact ⟨hsent, hqueued⟩

end Sys2Proof.Machine
end

section
/-! The operand forms, by the values they refuse (R172, sections 11.4, 11.5). -/

namespace Sys2Proof.Machine

/-! ## Codes -/

theorem axisSourceOf_eq_none {b : Byte} : axisSourceOf b = none ↔ 2 < b.toNat := by
  unfold axisSourceOf
  split <;> simp only [reduceCtorEq, false_iff, true_iff, imp_false] at * <;> omega

theorem actionOf_eq_none {b : Byte} : actionOf b = none ↔ 3 < b.toNat := by
  unfold actionOf
  split <;> simp only [reduceCtorEq, false_iff, true_iff, imp_false] at * <;> omega

theorem latePolicyOf_eq_none {b : Byte} : latePolicyOf b = none ↔ 2 < b.toNat := by
  unfold latePolicyOf
  split <;> simp only [reduceCtorEq, false_iff, true_iff, imp_false] at * <;> omega

theorem missPolicyOf_eq_none {b : Byte} : missPolicyOf b = none ↔ 1 < b.toNat := by
  unfold missPolicyOf
  split <;> simp only [reduceCtorEq, false_iff, true_iff, imp_false] at * <;> omega

theorem polarityOf_eq_none {b : Byte} : polarityOf b = none ↔ 1 < b.toNat := by
  unfold polarityOf
  split <;> simp only [reduceCtorEq, false_iff, true_iff, imp_false] at * <;> omega

theorem driverOf_eq_none {b : Byte} : driverOf b = none ↔ 2 < b.toNat := by
  unfold driverOf
  split <;> simp only [reduceCtorEq, false_iff, true_iff, imp_false] at * <;> omega

theorem safeLevelOf_eq_none {b : Byte} : safeLevelOf b = none ↔ 2 < b.toNat := by
  unfold safeLevelOf
  split <;> simp only [reduceCtorEq, false_iff, true_iff, imp_false] at * <;> omega

theorem edgeModeOf_eq_none {b : Byte} : edgeModeOf b = none ↔ 3 < b.toNat := by
  unfold edgeModeOf
  split <;> simp only [reduceCtorEq, false_iff, true_iff, imp_false] at * <;> omega

theorem flagOf_eq_none {b : Byte} : flagOf b = none ↔ 1 < b.toNat := by
  unfold flagOf
  split <;> simp only [reduceCtorEq, false_iff, true_iff, imp_false] at * <;> omega

theorem channelEdgeOf_eq_none {b : Byte} : channelEdgeOf b = none ↔ 2 < b.toNat := by
  unfold channelEdgeOf
  split <;> simp only [reduceCtorEq, false_iff, true_iff, imp_false] at * <;> omega

theorem ownerOf_eq_none {b : Byte} : ownerOf b = none ↔ 10 < b.toNat := by
  unfold ownerOf
  split
  case h_4 =>
    split <;> simp only [reduceCtorEq, false_iff, true_iff] <;> omega
  all_goals
    simp only [reduceCtorEq, false_iff]
    omega

theorem gateOf_eq_none {b : Byte} {start stop nominal : Nat} : gateOf b start stop nominal = none ↔ 1 < b.toNat := by
  unfold gateOf
  split <;> simp only [reduceCtorEq, false_iff, true_iff, imp_false] at * <;> omega

theorem channelInputOf_eq_none {b : Byte} : channelInputOf b = none ↔ 8 < b.toNat := by
  unfold channelInputOf
  split
  · simp only [reduceCtorEq, false_iff]
    omega
  · split <;> simp only [reduceCtorEq, false_iff, true_iff] <;> omega

theorem finOf_eq_none {n : Nat} {b : Byte} : finOf n b = none ↔ n ≤ b.toNat := by
  unfold finOf
  split <;> simp only [reduceCtorEq, false_iff, true_iff] <;> omega

theorem val_of_finOf {n : Nat} {b : Byte} {i : Fin n} (h : finOf n b = some i) : b.toNat = i.val := by
  unfold finOf at h
  split at h
  · rw [← Option.some.inj h]
  · cases h

theorem byte_eq_iff {b c : Byte} : b = c ↔ b.toNat = c.toNat := BitVec.toNat_inj.symm

theorem timebase_of_axisSourceOf {b : Byte} {src : AxisSource} (h : axisSourceOf b = some src) : src = .timebase ↔ b = 2#8 := by
  rw [byte_eq_iff]
  unfold axisSourceOf at h
  split at h <;> cases h <;> simp [*]

theorem pulse_of_actionOf {b : Byte} {act : Action} (h : actionOf b = some act) : act = .pulse ↔ b = 3#8 := by
  rw [byte_eq_iff]
  unfold actionOf at h
  split at h <;> cases h <;> simp [*]

theorem true_of_flagOf {b : Byte} {flag : Bool} (h : flagOf b = some flag) : flag = true ↔ b = 1#8 := by
  rw [byte_eq_iff]
  unfold flagOf at h
  split at h <;> cases h <;> simp [*]

theorem none_of_channelInputOf {b : Byte} {input : Option (Fin 8)} (h : channelInputOf b = some input) :
    input = none ↔ b = 8#8 := by
  rw [byte_eq_iff]
  unfold channelInputOf at h
  split at h
  · cases h
    simp only [reduceCtorEq, false_iff, BitVec.toNat_ofNat]
    omega
  · split at h <;> cases h
    simp [*]

theorem some_of_channelInputOf {b : Byte} {n : Fin 8} (h : channelInputOf b = some (some n)) : b.toNat = n.val := by
  unfold channelInputOf at h
  split at h
  · cases h
    rfl
  · split at h <;> cases h

/-! ## Cues (R30, R84) -/

theorem widthOf_eq_none {options : Byte} {value : Nat} : widthOf options value = none ↔ options.getLsbD 0 = true ∧ value = 0 := by
  unfold widthOf
  split
  · rename_i hbit
    rw [and_iff_right hbit]
    split <;> simp [*]
  · rename_i hbit
    exact iff_of_false nofun fun h => hbit h.1

theorem none_of_widthOf {options : Byte} {value : Nat} {w : Option Width} (h : widthOf options value = some w) :
    w = none ↔ options.getLsbD 0 = false := by
  unfold widthOf at h
  split at h
  · rename_i hbit
    split at h <;> cases h
    exact iff_of_false nofun (by rw [hbit]; exact nofun)
  · rename_i hbit
    cases h
    exact iff_of_true rfl (Bool.not_eq_true _ ▸ hbit)

theorem remainingOf_eq_none {count : Byte} : remainingOf count = none ↔ count = 0#8 := by
  rw [byte_eq_iff]
  unfold remainingOf
  split
  · simp [*]
  · split <;> simp [*]

theorem repetitionOf_eq_none {options count period : Byte} : repetitionOf options count period = none ↔
    options.getLsbD 2 = true ∧ (count = 0#8 ∨ period = 0#8) := by
  unfold repetitionOf
  by_cases hbit : options.getLsbD 2 = true
  · rw [if_pos hbit]
    cases hcount : remainingOf count with
    | none => exact iff_of_true rfl ⟨hbit, .inl (remainingOf_eq_none.1 hcount)⟩
    | some r =>
      have hne : count ≠ 0#8 := fun h => by
        rw [remainingOf_eq_none.2 h] at hcount
        cases hcount
      rw [and_iff_right hbit, or_iff_right hne, byte_eq_iff]
      dsimp only
      split <;> simp [*]
  · rw [if_neg hbit]
    exact iff_of_false nofun fun h => hbit h.1

theorem not_none {α : Type} {x : Option α} {a : α} {p : Prop} (hx : x = none ↔ p) (h : x = some a) : ¬ p := by
  rw [← hx, h]
  exact nofun

/-- The values that `cueOf` refuses are those out of range (R30, R84, section 11.5). -/
theorem cueOf_eq_none {slot : Byte} {lines : LineSet} {action options : Byte} {width : Nat} {count period : Byte}
    {offset : Option Nat} : cueOf slot lines action options width count period offset = none ↔
      CueOutOfRange lines action options width count period := by
  unfold cueOf CueOutOfRange
  cases haction : actionOf action with
  | none => exact iff_of_true rfl (.inr (.inl (actionOf_eq_none.1 haction)))
  | some act =>
    have hlow := not_none actionOf_eq_none haction
    have hpulse := pulse_of_actionOf haction
    cases hwidth : widthOf options width with
    | none =>
      have hfull := widthOf_eq_none.1 hwidth
      exact iff_of_true rfl (by tauto)
    | some w =>
      have hfull := not_none widthOf_eq_none hwidth
      have hpresent := none_of_widthOf hwidth
      cases hrep : repetitionOf options count period with
      | none =>
        have hperiod := repetitionOf_eq_none.1 hrep
        exact iff_of_true rfl (by tauto)
      | some r =>
        have hperiod := not_none repetitionOf_eq_none hrep
        dsimp only
        have hset : options.getLsbD 0 = true ↔ w ≠ none := by rw [ne_eq, hpresent, Bool.not_eq_false]
        rw [hset] at hfull ⊢
        have hother : action ≠ 3#8 ↔ act ≠ .pulse := not_congr hpulse.symm
        rw [hother, ← hpulse, ← hpresent]
        simp only [hlow, hfull, hperiod, false_or, or_false]
        split
        · rename_i hchecks
          exact iff_of_true rfl hchecks
        · rename_i hchecks
          exact iff_of_false nofun hchecks

end Sys2Proof.Machine
end

section
/-! A request of unknown kind, and one whose body has not the length its kind calls for (R158, R173). -/

namespace Sys2Proof.Machine

/-! ## Length checks (R173) -/

/-- A rule takes bodies of one length. -/
def TakesLength (rule : List Byte → State → State × Reply) (n : Nat) : Prop :=
  ∀ (body : List Byte) (s : State), body.length ≠ n → rule body s = badLength s

theorem noBody_length (rule : State → State × Reply) : TakesLength (noBody rule) 0 := by
  intro body s h
  unfold noBody
  split
  · exact absurd rfl h
  · rfl

theorem oneByte_length (rule : Byte → State → State × Reply) : TakesLength (oneByte rule) 1 := by
  intro body s h
  unfold oneByte
  split
  · exact absurd rfl h
  · rfl

theorem axisSetupRule_length : TakesLength axisSetupRule 6 := by
  intro body s h
  unfold axisSetupRule
  split
  · exact absurd rfl h
  · rfl

theorem axisHomeRule_length : TakesLength axisHomeRule 4 := by
  intro body s h
  unfold axisHomeRule
  split
  · exact absurd rfl h
  · rfl

theorem modulusStageRule_length : TakesLength modulusStageRule 4 := by
  intro body s h
  unfold modulusStageRule
  split
  · exact absurd rfl h
  · rfl

theorem cuePutRule_length : TakesLength cuePutRule 16 := by
  intro body s h
  unfold cuePutRule
  split
  · exact absurd rfl h
  · rfl

theorem marksSetRule_length : TakesLength marksSetRule 4 := by
  intro body s h
  unfold marksSetRule
  split
  · exact absurd rfl h
  · rfl

theorem captureSetupRule_length : TakesLength captureSetupRule 17 := by
  intro body s h
  unfold captureSetupRule
  split
  · exact absurd rfl h
  · rfl

theorem lineSetupRule_length : TakesLength lineSetupRule 6 := by
  intro body s h
  unfold lineSetupRule
  split
  · exact absurd rfl h
  · rfl

theorem linesEnableRule_length : TakesLength linesEnableRule 4 := by
  intro body s h
  unfold linesEnableRule
  split
  · exact absurd rfl h
  · rfl

theorem linesSetRule_length : TakesLength linesSetRule 4 := by
  intro body s h
  unfold linesSetRule
  split
  · exact absurd rfl h
  · rfl

theorem inputSetupRule_length : TakesLength inputSetupRule 4 := by
  intro body s h
  unfold inputSetupRule
  split
  · exact absurd rfl h
  · rfl

theorem limitsSetRule_length : TakesLength limitsSetRule 7 := by
  intro body s h
  unfold limitsSetRule
  split
  · exact absurd rfl h
  · rfl

theorem resumeRule_length : TakesLength resumeRule 2 := by
  intro body s h
  unfold resumeRule
  split
  · exact absurd rfl h
  · rfl

theorem eventEnableRule_length : TakesLength eventEnableRule 4 := by
  intro body s h
  unfold eventEnableRule
  split
  · exact absurd rfl h
  · rfl

theorem eventClearRule_length : TakesLength eventClearRule 2 := by
  intro body s h
  unfold eventClearRule
  split
  · exact absurd rfl h
  · rfl

theorem noticeOrderRule_length : TakesLength noticeOrderRule 3 := by
  intro body s h
  unfold noticeOrderRule
  split
  · exact absurd rfl h
  · rfl

theorem storeSaveRule_length : TakesLength storeSaveRule 2 := by
  intro body s h
  unfold storeSaveRule
  split
  · exact absurd rfl h
  · rfl

theorem groupPutRule_length {body : List Byte} (s : State)
    (h : (body[3]?).map (fun n => 4 + 13 * n.toNat) ≠ some body.length) : groupPutRule body s = badLength s := by
  unfold groupPutRule
  split
  · rename_i number channel policy n rest
    refine if_pos (.inl fun hrest => h ?_)
    have hlength : (number :: channel :: policy :: n :: rest).length = 4 + 13 * n.toNat := by
      rw [← hrest]
      simp only [List.length_cons]
      omega
    rw [hlength]
    rfl
  · rfl

theorem camLoadRule_length {body : List Byte} (s : State)
    (h : (body[5]?).map (fun c => 6 + 8 * c.toNat) ≠ some body.length) : camLoadRule body s = badLength s := by
  unfold camLoadRule
  split
  · rename_i track options t1 t0 kind c rest
    refine if_pos (.inl fun hrest => h ?_)
    have hlength : (track :: options :: t1 :: t0 :: kind :: c :: rest).length = 6 + 8 * c.toNat := by
      rw [← hrest]
      simp only [List.length_cons]
      omega
    rw [hlength]
    rfl
  · rfl

/-! ## The known kinds (section 11.3) -/

theorem known_below_128 : ∀ k ∈ knownKinds, k.toNat < 128 := by decide

/-- A frame of a known kind spells a well-formed request, which has that frame. -/
theorem command_of_known {f : Frame} (hkind : f.kind ∈ knownKinds) (hbody : f.body.length ≤ 248) :
    f.command.wf = true ∧ f.command.frame = some f := by
  obtain ⟨tag, kind, body⟩ := f
  have hfits : bodyFits body = true := decide_eq_true hbody
  simp only [knownKinds, List.mem_cons, List.not_mem_nil, or_false] at hkind
  rcases hkind with rfl | rfl | rfl | rfl | rfl | rfl | rfl | rfl | rfl | rfl | rfl | rfl | rfl | rfl | rfl | rfl |
      rfl | rfl | rfl | rfl | rfl | rfl | rfl | rfl | rfl | rfl | rfl | rfl | rfl | rfl | rfl | rfl | rfl | rfl |
      rfl | rfl | rfl | rfl | rfl | rfl
  all_goals exact ⟨hfits, rfl⟩

theorem length_ne {kind : Byte} {body : List Byte} {n : Nat} (h : lengthCalledFor kind body ≠ some body.length)
    (hn : lengthCalledFor kind body = some n) : body.length ≠ n := fun hbody => h (hn.trans (congrArg some hbody.symm))

/-- A request of a known kind with another length reaches no block (R158). -/
theorem requestRule_badLength {f : Frame} (s : State) (hkind : f.kind ∈ knownKinds)
    (hlength : lengthCalledFor f.kind f.body ≠ some f.body.length) : requestRule f.command s = badLength s := by
  obtain ⟨tag, kind, body⟩ := f
  simp only [knownKinds, List.mem_cons, List.not_mem_nil, or_false] at hkind
  rcases hkind with rfl | rfl | rfl | rfl | rfl | rfl | rfl | rfl | rfl | rfl | rfl | rfl | rfl | rfl | rfl | rfl |
      rfl | rfl | rfl | rfl | rfl | rfl | rfl | rfl | rfl | rfl | rfl | rfl | rfl | rfl | rfl | rfl | rfl | rfl |
      rfl | rfl | rfl | rfl | rfl | rfl
  · exact axisSetupRule_length body s (length_ne hlength rfl)
  · exact noBody_length _ body s (length_ne hlength rfl)
  · exact noBody_length _ body s (length_ne hlength rfl)
  · exact noBody_length _ body s (length_ne hlength rfl)
  · exact axisHomeRule_length body s (length_ne hlength rfl)
  · exact modulusStageRule_length body s (length_ne hlength rfl)
  · exact noBody_length (fun s => (s, okay (axisReadData s.axis))) body s (length_ne hlength rfl)
  · exact cuePutRule_length body s (length_ne hlength rfl)
  · exact groupPutRule_length s hlength
  · exact oneByte_length _ body s (length_ne hlength rfl)
  · exact oneByte_length _ body s (length_ne hlength rfl)
  · exact oneByte_length (fun b s => (s, okay (cueReadData s.cues b.toFin))) body s (length_ne hlength rfl)
  · exact oneByte_length (fun b s => (s, okay (listReadData s.cues b.toNat))) body s (length_ne hlength rfl)
  · exact marksSetRule_length body s (length_ne hlength rfl)
  · exact noBody_length _ body s (length_ne hlength rfl)
  · exact noBody_length _ body s (length_ne hlength rfl)
  · exact noBody_length _ body s (length_ne hlength rfl)
  · exact noBody_length _ body s (length_ne hlength rfl)
  · exact noBody_length (fun s => (s, okay (seqReadData s))) body s (length_ne hlength rfl)
  · exact oneByte_length _ body s (length_ne hlength rfl)
  · exact captureSetupRule_length body s (length_ne hlength rfl)
  · exact oneByte_length _ body s (length_ne hlength rfl)
  · exact camLoadRule_length s hlength
  · exact oneByte_length _ body s (length_ne hlength rfl)
  · exact lineSetupRule_length body s (length_ne hlength rfl)
  · exact linesEnableRule_length body s (length_ne hlength rfl)
  · exact linesSetRule_length body s (length_ne hlength rfl)
  · exact noBody_length (fun s => (s, okay (linesReadData s))) body s (length_ne hlength rfl)
  · exact inputSetupRule_length body s (length_ne hlength rfl)
  · exact limitsSetRule_length body s (length_ne hlength rfl)
  · exact noBody_length (fun s => (s, okay (faultReadData s))) body s (length_ne hlength rfl)
  · exact resumeRule_length body s (length_ne hlength rfl)
  · exact eventEnableRule_length body s (length_ne hlength rfl)
  · exact noBody_length (fun s => (s, okay (eventReadData s))) body s (length_ne hlength rfl)
  · exact eventClearRule_length body s (length_ne hlength rfl)
  · exact noticeOrderRule_length body s (length_ne hlength rfl)
  · exact storeSaveRule_length body s (length_ne hlength rfl)
  · exact oneByte_length _ body s (length_ne hlength rfl)
  · exact noBody_length _ body s (length_ne hlength rfl)
  · exact noBody_length _ body s (length_ne hlength rfl)

/-! ## What the part answers (R158) -/

/-- A ready part takes a request at once, and leaves what its rule keeps. -/
theorem refused_kept {s : State} {rule : State → State × Reply} {r : Reply} (f : Frame) (hready : Ready s)
    (hrule : rule (heard s) = (heard s, r)) :
    newestReply (serve f rule s) = some (replyFrame f r s.link.errors) ∧ KeptBut [] s (serve f rule s) := by
  rw [serve_ready _ _ hready]
  have hreply := answer_newestReply f rule (heard s)
  have hkept := answer_kept f rule (heard s)
  rw [hrule] at hreply hkept
  exact ⟨hreply, (heard_kept s).trans (hkept.trans (settle_kept _))⟩

theorem unknownKind_kept {f : Frame} {s : State} (hready : Ready s) (hkind : f.kind ∉ knownKinds) :
    ∃ t, exec (.unknownKindRequest f.tag f.kind f.body) s = .next t ∧
      newestReply t = some ⟨f.tag, if f.kind.toNat < 128 then f.kind + 0x80#8 else 0xFF#8,
        [0x01#8, 0x00#8] ++ be16 s.link.errors⟩ ∧ KeptBut [] s t := by
  have hunknown : knownKinds.contains f.kind = false := by simpa using hkind
  obtain ⟨hreply, hkept⟩ := refused_kept (rule := fun s => (s, refuse .unknownKind)) f hready rfl
  refine ⟨_, ?_, hreply, hkept⟩
  simp only [exec, execUnknownKindRequest, hunknown]
  rfl

theorem badLength_kept {f : Frame} {s : State} (hready : Ready s) (hkind : f.kind ∈ knownKinds) (hbody : f.body.length ≤ 248)
    (hlength : lengthCalledFor f.kind f.body ≠ some f.body.length) :
    ∃ t, exec f.command s = .next t ∧ Answered f.tag f.kind .badLength false [] s t ∧ KeptBut [] s t := by
  obtain ⟨hwf, hframe⟩ := command_of_known hkind hbody
  exact ⟨_, exec_request_wf hwf hframe s, request_kept f.tag f.kind f.body hready (known_below_128 _ hkind)
    (requestRule_badLength (heard s) hkind hlength)⟩

end Sys2Proof.Machine
end

section
/-! The checks of a request, in their order: AXIS_SETUP (R12), AXIS_HOME (R14), CUE_PUT (R30), CUE_CANCEL (R37), CAPTURE_SETUP
(R74), LINE_SETUP (R117) and INPUT_SETUP (R125). -/

namespace Sys2Proof.Machine

/-! ## Checks in order -/

/-- A result is the refusal of the first check that fails. -/
def RefusesFirst (checks : List (Prop × Code)) (s : State) (x : State × Reply) : Prop :=
  ∀ code, FirstFails checks code → x = (s, refuse code)

theorem RefusesFirst.none {s : State} {x : State × Reply} : RefusesFirst [] s x := fun _ h => h.elim

theorem RefusesFirst.check {p : Prop} {c : Code} {rest : List (Prop × Code)} {s : State} {x : State × Reply}
    (hp : p → x = (s, refuse c)) (hrest : ¬ p → RefusesFirst rest s x) : RefusesFirst ((p, c) :: rest) s x := by
  rintro code (⟨hfails, rfl⟩ | ⟨hpasses, hfails⟩)
  · exact hp hfails
  · exact hrest hpasses code hfails

/-- A check that the rule makes as one branch. -/
theorem RefusesFirst.branch {p q : Prop} [Decidable q] {c : Code} {rest : List (Prop × Code)} {s : State} {x : State × Reply}
    (hq : q ↔ p) (hrest : ¬ p → RefusesFirst rest s x) :
    RefusesFirst ((p, c) :: rest) s (if q then (s, refuse c) else x) := by
  refine .check (fun hp => if_pos (hq.2 hp)) fun hp => ?_
  rw [if_neg (mt hq.1 hp)]
  exact hrest hp

/-- The request whose rule refuses as its checks say is refused in their order (R158). -/
theorem refusedInOrder {c : Instr} {tag kind : Byte} {body : List Byte} {rule : State → State × Reply}
    {checks : List (Prop × Code)} {s : State} (hready : Ready s) (hkind : kind.toNat < 128)
    (hexec : exec c s = .next (serve ⟨tag, kind, body⟩ rule s)) (h : RefusesFirst checks (heard s) (rule (heard s))) :
    RefusedInOrder c tag kind checks s := fun code hfails =>
  ⟨_, hexec, request_kept tag kind body hready hkind (h code hfails)⟩

theorem exists_some {α : Type} {x : Option α} {p : Prop} (hx : x = none ↔ p) (h : ¬ p) : ∃ a, x = some a := by
  rw [← hx] at h
  exact Option.ne_none_iff_exists'.1 h

/-! ## Positions and lines -/

theorem aboveModuli_iff (a : Axis) (p : Nat) : belowModuli a p = false ↔ AboveModuli a p := by
  rw [← Bool.not_eq_true, belowModuli_iff, AboveModuli]
  simp only [Option.mem_def]
  constructor
  · intro h
    by_contra hno
    push Not at hno
    exact h hno
  · rintro (h | ⟨m, hm, hle⟩) ⟨hlow, hstaged⟩
    · omega
    · exact absurd (hstaged m hm) (not_lt.2 hle)

theorem notCueOwned_iff (lines : LineSet) (s : State) : lines &&& ~~~ cueOwned s ≠ 0#16 ↔ NotCueOwned lines s := by
  have hbit : ∀ n : Fin 16, (lines &&& ~~~ cueOwned s).getLsbD n.val = true ↔
      inSet lines n = true ∧ s.outs.lines[n].cfg.owner ≠ .cue := by
    intro n
    have howned : (cueOwned s).getLsbD n.val = decide (s.outs.lines[n].cfg.owner = .cue) := inSet_lineSetOf _ n
    rw [BitVec.getLsbD_and, BitVec.getLsbD_not, howned, decide_eq_true n.isLt]
    simp [inSet]
  constructor
  · intro hne
    by_contra hno
    refine hne (BitVec.eq_of_getLsbD_eq fun i hi => ?_)
    rw [BitVec.getLsbD_zero, Bool.eq_false_iff]
    exact fun h => hno ⟨⟨i, hi⟩, (hbit ⟨i, hi⟩).1 h⟩
  · rintro ⟨n, hn⟩ hzero
    have hset := (hbit n).2 hn
    rw [hzero, BitVec.getLsbD_zero] at hset
    cases hset

/-! ## AXIS_SETUP (R12) and AXIS_HOME (R14) -/

theorem axisInputFree_iff (i : InLine) : axisInputFree i = false ↔ i.fn ∉ [.general, .axisA, .axisB] := by
  simp [axisInputFree, and_assoc]

theorem axisSetupRule_refuses (source k m3 m2 m1 m0 : Byte) (s : State) : RefusesFirst
    [(s.seq.state ≠ .idle, .wrongState),
      (2 < source.toNat ∨ 12 < k.toNat ∨ num32 m3 m2 m1 m0 < 16 ∨ 4000000 < num32 m3 m2 m1 m0, .badValue),
      (source ≠ 2#8 ∧ (s.ins[0].fn ∉ [.general, .axisA, .axisB] ∨ s.ins[1].fn ∉ [.general, .axisA, .axisB]), .inUse),
      ((∃ b ∈ boundSet s, num32 m3 m2 m1 m0 ≤ b) ∨ queuedGroups s.cues ≠ [] ∨ num32 m3 m2 m1 m0 ≤ s.axis.current.pos ∨
        num32 m3 m2 m1 m0 ≤ s.axis.lead.pos, .conflict)] s (axisSetupRule [source, k, m3, m2, m1, m0] s) := by
  have hrange := modulusInRange_eq_false (num32 m3 m2 m1 m0)
  rw [Bool.not_eq_true'] at hrange
  unfold axisSetupRule
  dsimp only
  refine .branch Iff.rfl fun _ => ?_
  cases hsource : axisSourceOf source with
  | none =>
    exact .check (fun _ => rfl) fun h => absurd (axisSourceOf_eq_none.1 hsource) fun hlow => h (.inl hlow)
  | some src =>
    refine .branch ?_ fun _ => .branch ?_ fun _ => .branch ?_ fun _ => .none
    · rw [hrange, or_iff_right (not_none axisSourceOf_eq_none hsource)]
    · rw [ne_eq, timebase_of_axisSourceOf hsource, Bool.and_eq_false_iff, axisInputFree_iff, axisInputFree_iff]
    · rw [modulusConflicts_iff, or_assoc]

theorem axisHomeRule_refuses (p3 p2 p1 p0 : Byte) (s : State) : RefusesFirst
    [(s.seq.state ≠ .idle ∨ s.axis.cfg.source = .timebase, .wrongState),
      (AboveModuli s.axis (num32 p3 p2 p1 p0), .badValue), (s.ins[2].fn ∉ [.general, .index], .inUse)] s
    (axisHomeRule [p3, p2, p1, p0] s) := by
  unfold axisHomeRule
  dsimp only
  refine .branch Iff.rfl fun _ => .branch ?_ fun _ => .branch ?_ fun _ => .none
  · rw [Bool.not_eq_true', aboveModuli_iff]
  · simp

/-! ## CUE_PUT (R30) and CUE_CANCEL (R37) -/

theorem fields_of_cueOf {slot : Byte} {lines : LineSet} {action options count period : Byte} {width : Nat}
    {offset : Option Nat} {cue : Cue} (h : cueOf slot lines action options width count period offset = some cue) :
    cue.slot = slot.toFin ∧ cue.lines = lines := by
  unfold cueOf at h
  split at h
  · split at h
    · cases h
    · cases h
      exact ⟨rfl, rfl⟩
  · cases h

theorem cuePutRule_refuses (slot l1 l0 action c1 c0 p3 p2 p1 p0 options w1 w0 count period late : Byte) (s : State) : RefusesFirst
    [(s.seq.state = .safe, .wrongState),
      (CueOutOfRange (word16 l1 l0) action options (num16 w1 w0) count period ∨ 2 < late.toNat ∨
        AboveModuli s.axis (num32 p3 p2 p1 p0), .badValue),
      (slotFree s.cues slot.toFin = false, .slotBusy), (NotCueOwned (word16 l1 l0) s, .wrongOwner)] s
    (cuePutRule [slot, l1, l0, action, c1, c0, p3, p2, p1, p0, options, w1, w0, count, period, late] s) := by
  unfold cuePutRule
  dsimp only
  refine .branch Iff.rfl fun _ => .check (fun hbad => ?_) fun hgood => ?_
  · cases hcue : cueOf slot (word16 l1 l0) action options (num16 w1 w0) count period none with
    | none => rfl
    | some cue =>
      cases hlate : latePolicyOf late with
      | none => rfl
      | some policy =>
        have hrange := not_none cueOf_eq_none hcue
        have hpolicy := not_none latePolicyOf_eq_none hlate
        rw [or_iff_right hrange, or_iff_right hpolicy, ← aboveModuli_iff] at hbad
        exact if_neg (by rw [hbad]; exact nofun)
  · obtain ⟨hrange, hpolicy, hbelow⟩ := not_or.1 hgood |>.imp_right not_or.1
    obtain ⟨cue, hcue⟩ := exists_some (cueOf_eq_none (slot := slot) (offset := none)) hrange
    obtain ⟨policy, hlate⟩ := exists_some latePolicyOf_eq_none hpolicy
    obtain ⟨hslot, hlines⟩ := fields_of_cueOf hcue
    rw [← aboveModuli_iff, Bool.not_eq_false] at hbelow
    rw [hcue, hlate]
    dsimp only
    rw [if_pos hbelow]
    unfold putCue
    rw [hslot, hlines]
    exact .branch (by rw [Bool.not_eq_true']) fun _ => .branch (notCueOwned_iff _ _) fun _ => .none

theorem cueCancelRule_refuses (slot : Byte) (s : State) :
    RefusesFirst [(slotFree s.cues slot.toFin = true, .notFound)] s (cueCancelRule slot s) := by
  refine .check (fun hfree => ?_) fun _ => .none
  rw [slotFree, Bool.and_eq_true, Bool.not_eq_true', Bool.not_eq_true'] at hfree
  obtain ⟨hlist, hwaiting⟩ := hfree
  have hnone : s.cues.list.find? (fun x => decide (x.cue.slot = slot.toFin)) = none := by
    rw [List.find?_eq_none]
    exact List.any_eq_false.1 hlist
  have hgroup : groupOfSlot s.cues slot.toFin = none := by
    rw [groupOfSlot, List.find?_eq_none]
    intro g hg hany
    obtain ⟨x, hx, hslot⟩ := List.any_eq_true.1 hany
    exact List.any_eq_false.1 hwaiting x (List.mem_flatMap.2 ⟨g, hg, hx⟩) hslot
  simp only [cueCancelRule, hnone, hgroup]

/-! ## LINE_SETUP (R117) and INPUT_SETUP (R125) -/

theorem lineSettingsOf_eq_none {owner polarity driver safe time : Byte} : lineSettingsOf owner polarity driver safe time = none ↔
    10 < owner.toNat ∨ 1 < polarity.toNat ∨ 2 < driver.toNat ∨ 2 < safe.toNat := by
  rw [← ownerOf_eq_none, ← polarityOf_eq_none, ← driverOf_eq_none, ← safeLevelOf_eq_none, lineSettingsOf]
  cases ownerOf owner <;> cases polarityOf polarity <;> cases driverOf driver <;> cases safeLevelOf safe <;> simp

theorem lineSetupRule_refuses (line owner polarity driver safe time : Byte) (s : State) : RefusesFirst
    [(15 < line.toNat ∨ 10 < owner.toNat ∨ 1 < polarity.toNat ∨ 2 < driver.toNat ∨ 2 < safe.toNat, .badValue)] s
    (lineSetupRule [line, owner, polarity, driver, safe, time] s) := by
  rw [← lineSettingsOf_eq_none (time := time)]
  refine .check (fun hbad => ?_) fun _ => .none
  unfold lineSetupRule
  dsimp only
  cases hline : finOf 16 line with
  | none => rfl
  | some n =>
    have hlow := not_none finOf_eq_none hline
    rw [or_iff_right (by omega)] at hbad
    rw [hbad]

theorem inputClaimed_iff (i : InLine) : inputClaimed i = true ↔ i.fn ∉ [.general, .freeze] := by
  simp [inputClaimed]

theorem inputSetupRule_refuses (input fn mode filter : Byte) (s : State) : RefusesFirst
    [(7 < input.toNat ∨ 1 < fn.toNat ∨ 3 < mode.toNat, .badValue),
      (∃ n : Fin 8, input.toNat = n.val ∧ s.ins[n].fn ∉ [.general, .freeze], .inUse)] s
    (inputSetupRule [input, fn, mode, filter] s) := by
  rw [← flagOf_eq_none, ← edgeModeOf_eq_none]
  unfold inputSetupRule
  dsimp only
  cases hinput : finOf 8 input with
  | none =>
    have hhigh := finOf_eq_none.1 hinput
    exact .check (fun _ => rfl) fun h => absurd (Or.inl (by omega)) h
  | some n =>
    have hn := val_of_finOf hinput
    have hlow : ¬ 7 < input.toNat := by omega
    rw [or_iff_right hlow]
    cases hfn : flagOf fn with
    | none => exact .check (fun _ => rfl) fun h => absurd (Or.inl rfl) h
    | some freeze =>
      cases hmode : edgeModeOf mode with
      | none => exact .check (fun _ => rfl) fun h => absurd (Or.inr rfl) h
      | some m =>
        refine .check (fun h => h.elim nofun nofun) fun _ => .branch ?_ fun _ => .none
        rw [inputClaimed_iff]
        refine ⟨fun h => ⟨n, hn, h⟩, ?_⟩
        rintro ⟨k, hk, h⟩
        rwa [Fin.ext (hn.symm.trans hk)]

/-! ## CAPTURE_SETUP (R74) -/

theorem channelSettingsOf_eq_none {enable input edge gate : Byte} {start stop nominal : Nat} :
    channelSettingsOf enable input edge gate start stop nominal = none ↔
      1 < enable.toNat ∨ 8 < input.toNat ∨ 2 < edge.toNat ∨ 1 < gate.toNat ∨ (enable = 1#8 ∧ input = 8#8) := by
  rw [← flagOf_eq_none, ← channelInputOf_eq_none, ← channelEdgeOf_eq_none, ← gateOf_eq_none, channelSettingsOf]
  cases henable : flagOf enable with
  | none => simp
  | some en =>
    cases hinput : channelInputOf input with
    | none => simp
    | some inp =>
      rw [← true_of_flagOf henable, ← none_of_channelInputOf hinput]
      cases channelEdgeOf edge <;> cases gateOf gate start stop nominal <;> simp

/-- The fields of a channel's settings that name an input and a gate. -/
theorem fields_of_channelSettingsOf {enable input edge gate : Byte} {start stop nominal : Nat} {cfg : ChannelSettings}
    (h : channelSettingsOf enable input edge gate start stop nominal = some cfg) :
    channelInputOf input = some cfg.input ∧ gateOf gate start stop nominal = some cfg.gate := by
  unfold channelSettingsOf at h
  split at h
  · rename_i hinput _ hgate
    split at h
    · cases h
    · cases h
      exact ⟨hinput, hgate⟩
  · cases h

theorem gateFits_eq_false {a : Axis} {b : Byte} {start stop nominal : Nat} {g : Gate}
    (h : gateOf b start stop nominal = some g) : gateFits a g = false ↔
      b = 1#8 ∧ (start = stop ∨ ∃ p ∈ [start, stop, nominal], AboveModuli a p) := by
  rw [byte_eq_iff]
  unfold gateOf at h
  split at h
  · rename_i hcode
    cases h
    exact iff_of_false nofun fun h => absurd (hcode.symm.trans h.1) (by decide)
  · rename_i hcode
    cases h
    rw [and_iff_right (by exact hcode), gateFits, gatePositions, Bool.and_eq_false_iff, List.all_eq_false]
    simp only [decide_eq_false_iff_not, not_not, Bool.not_eq_true, aboveModuli_iff]
    exact or_comm
  · cases h

theorem inputFreeFor_eq_false {s : State} {ch : Fin 4} {input : Option (Fin 8)} : inputFreeFor s ch input = false ↔
    ∃ n, input = some n ∧ s.ins[n].fn ∉ [.general, .capture ch] := by
  cases input with
  | none => exact iff_of_false nofun fun ⟨_, h, _⟩ => nomatch h
  | some n => simp [inputFreeFor]

theorem channelInputOf_val {b : Byte} {n : Fin 8} (h : b.toNat = n.val) : channelInputOf b = some (some n) := by
  have hlt : b.toNat < 8 := by omega
  rw [channelInputOf, dif_pos hlt]
  exact congrArg (fun k => some (some k)) (Fin.ext h)

theorem setupChannel_refuses (ch : Fin 4) (cfg : ChannelSettings) (s : State) : RefusesFirst
    [(s.cues.queues[ch] ≠ [], .inUse), (∃ n, cfg.input = some n ∧ s.ins[n].fn ∉ [.general, .capture ch], .inUse)] s
    (setupChannel ch cfg s) :=
  .branch Iff.rfl fun _ => .branch (by rw [Bool.not_eq_true', inputFreeFor_eq_false]) fun _ => .none

theorem captureSetupRule_refuses (channel enable input edge gate a3 a2 a1 a0 b3 b2 b1 b0 n3 n2 n1 n0 : Byte) (s : State) :
    RefusesFirst
      [(3 < channel.toNat ∨ 1 < enable.toNat ∨ 8 < input.toNat ∨ 2 < edge.toNat ∨ 1 < gate.toNat ∨
          (enable = 1#8 ∧ input = 8#8) ∨
          (gate = 1#8 ∧ (num32 a3 a2 a1 a0 = num32 b3 b2 b1 b0 ∨
            ∃ p ∈ [num32 a3 a2 a1 a0, num32 b3 b2 b1 b0, num32 n3 n2 n1 n0], AboveModuli s.axis p)), .badValue),
        (∃ ch : Fin 4, channel.toNat = ch.val ∧ s.cues.queues[ch] ≠ [], .inUse),
        (∃ (ch : Fin 4) (n : Fin 8), channel.toNat = ch.val ∧ input.toNat = n.val ∧
          s.ins[n].fn ∉ [.general, .capture ch], .inUse)] s
      (captureSetupRule [channel, enable, input, edge, gate, a3, a2, a1, a0, b3, b2, b1, b0, n3, n2, n1, n0] s) := by
  unfold captureSetupRule
  dsimp only
  cases hchannel : finOf 4 channel with
  | none =>
    have hhigh := finOf_eq_none.1 hchannel
    exact .check (fun _ => rfl) fun h => absurd (Or.inl (by omega)) h
  | some ch =>
    have hch := val_of_finOf hchannel
    have hlow : ¬ 3 < channel.toNat := by omega
    rw [or_iff_right hlow]
    cases hcfg : channelSettingsOf enable input edge gate (num32 a3 a2 a1 a0) (num32 b3 b2 b1 b0) (num32 n3 n2 n1 n0) with
    | none =>
      have hbad := channelSettingsOf_eq_none.1 hcfg
      exact .check (fun _ => rfl) fun h => absurd (by tauto) h
    | some cfg =>
      have hgood := not_none channelSettingsOf_eq_none hcfg
      obtain ⟨hinput, hgate⟩ := fields_of_channelSettingsOf hcfg
      rw [← gateFits_eq_false hgate]
      dsimp only
      refine .check (fun hbad => if_neg ?_) fun hpasses => ?_
      · have hfails : gateFits s.axis cfg.gate = false := by tauto
        rw [hfails]
        exact nofun
      · have hfits : gateFits s.axis cfg.gate = true := by
          rw [← Bool.not_eq_false]
          tauto
        rw [if_pos hfits]
        have hqueue : (∃ c : Fin 4, channel.toNat = c.val ∧ s.cues.queues[c] ≠ []) ↔ s.cues.queues[ch] ≠ [] := by
          refine ⟨?_, fun h => ⟨ch, hch, h⟩⟩
          rintro ⟨c, hc, h⟩
          cases Fin.ext (hch.symm.trans hc)
          exact h
        have hheld : (∃ (c : Fin 4) (n : Fin 8), channel.toNat = c.val ∧ input.toNat = n.val ∧
            s.ins[n].fn ∉ [.general, .capture c]) ↔ ∃ n, cfg.input = some n ∧ s.ins[n].fn ∉ [.general, .capture ch] := by
          constructor
          · rintro ⟨c, n, hc, hn, h⟩
            rw [channelInputOf_val hn] at hinput
            cases Fin.ext (hch.symm.trans hc)
            exact ⟨n, (Option.some.inj hinput).symm, h⟩
          · rintro ⟨n, hn, h⟩
            rw [hn] at hinput
            exact ⟨ch, n, hch, some_of_channelInputOf hinput, h⟩
        rw [hqueue, hheld]
        exact setupChannel_refuses ch cfg s

end Sys2Proof.Machine
end

section
/-! The checks of GROUP_PUT (R84) and CAM_LOAD (R102) in their order. -/

namespace Sys2Proof.Machine

/-! ## The cues of a group (R84) -/

theorem allSome_eq_none {α β : Type} {f : α → Option β} {l : List α} : allSome (l.map f) = none ↔ ∃ x ∈ l, f x = none := by
  induction l with
  | nil => simp [allSome]
  | cons x l ih =>
    rw [List.map_cons, List.exists_mem_cons_iff, ← ih]
    cases hx : f x with
    | none => simp [allSome]
    | some b => cases hl : allSome (l.map f) <;> simp [allSome, hl]

/-- What every value of a list carries over from what it was read from. -/
theorem map_of_allSome {α β γ : Type} {f : α → Option β} {g : β → γ} {h : α → γ} (hf : ∀ x b, f x = some b → g b = h x)
    {l : List α} {bs : List β} (hbs : allSome (l.map f) = some bs) : bs.map g = l.map h := by
  induction l generalizing bs with
  | nil =>
    cases hbs
    rfl
  | cons x l ih =>
    rw [List.map_cons] at hbs
    cases hx : f x with
    | none =>
      rw [hx] at hbs
      cases hbs
    | some b =>
      cases hl : allSome (l.map f) with
      | none =>
        simp only [hx, allSome, hl] at hbs
        cases hbs
      | some rest =>
        simp only [hx, allSome, hl, Option.some.injEq] at hbs
        rw [← hbs, List.map_cons, List.map_cons, ih hl, hf x b hx]

theorem specificationCue_eq_none {modulus : Nat} {x : Specification} : specificationCue modulus x = none ↔
    CueOutOfRange x.lines x.action x.options x.width x.count x.period ∨ 4000000 < x.offset ∨ 32767 * modulus ≤ x.offset := by
  unfold specificationCue
  split
  · rename_i h
    exact iff_of_true rfl (.inr h)
  · rename_i h
    rw [cueOf_eq_none, or_iff_left h]

theorem fields_of_specificationCue {modulus : Nat} {x : Specification} {c : Cue} (h : specificationCue modulus x = some c) :
    c.slot = x.slot.toFin ∧ c.lines = x.lines := by
  unfold specificationCue at h
  split at h
  · cases h
  · exact fields_of_cueOf h

/-! ## GROUP_PUT (R84) -/

theorem putGroup_refuses (g : Group) (ch : Fin 4) (s : State) : RefusesFirst
    [(∃ h ∈ queuedGroups s.cues, h.number = g.number, .groupBusy), (8 ≤ s.cues.queues[ch].length, .queueFull),
      ((∃ k ∈ g.cues.map (·.slot), slotFree s.cues k = false) ∨ ¬ (g.cues.map (·.slot)).Nodup, .slotBusy),
      (∃ ls ∈ g.cues.map (·.lines), NotCueOwned ls s, .wrongOwner)] s (putGroup g ch s) := by
  refine .branch ?_ fun _ => .branch Iff.rfl fun _ => .branch ?_ fun _ => .branch ?_ fun _ => .none
  · simp
  · simp
  · simp only [List.any_eq_true, decide_eq_true_eq, notCueOwned_iff]
    simp

/-- The checks on the slots and lines of a group, by the specifications it was read from. -/
theorem cues_of_specifications {modulus : Nat} {xs : List Specification} {cues : List Cue} {s : State}
    (h : allSome (xs.map (specificationCue modulus)) = some cues) :
    ((∃ k ∈ cues.map (·.slot), slotFree s.cues k = false) ↔ ∃ x ∈ xs, slotFree s.cues x.slot.toFin = false) ∧
      ((cues.map (·.slot)).Nodup ↔ (xs.map (·.slot)).Nodup) ∧
      ((∃ ls ∈ cues.map (·.lines), NotCueOwned ls s) ↔ ∃ x ∈ xs, NotCueOwned x.lines s) := by
  have hslots := map_of_allSome (g := Cue.slot) (fun _ _ hc => (fields_of_specificationCue hc).1) h
  have hlines := map_of_allSome (g := Cue.lines) (fun _ _ hc => (fields_of_specificationCue hc).2) h
  have hinjective : Function.Injective (BitVec.toFin : Byte → Fin 256) := fun a b hab => BitVec.eq_of_toFin_eq hab
  have hmapped : xs.map (fun x => x.slot.toFin) = (xs.map (·.slot)).map BitVec.toFin := (List.map_map ..).symm
  rw [hslots, hlines]
  refine ⟨by simp only [List.mem_map, exists_exists_and_eq_and], ?_, by simp only [List.mem_map, exists_exists_and_eq_and]⟩
  rw [hmapped, List.nodup_map_iff hinjective]

theorem groupPutRule_refuses (number channel policy n : Byte) (rest : List Byte) (s : State)
    (hlength : rest.length = 13 * n.toNat) (hbody : rest.length ≤ 244) : RefusesFirst
      [(s.seq.state = .safe ∨ s.axis.staged ≠ none, .wrongState),
        (31 < number.toNat ∨ 3 < channel.toNat ∨ 1 < policy.toNat ∨ n = 0#8 ∨ 16 < n.toNat ∨
          (∀ ch : Fin 4, channel.toNat = ch.val → s.capture.channels[ch].cfg.enabled = false) ∨
          ∃ x ∈ specificationsOf rest, CueOutOfRange x.lines x.action x.options x.width x.count x.period ∨
            4000000 < x.offset ∨ 32767 * s.axis.cfg.modulus ≤ x.offset, .badValue),
        (∃ g ∈ queuedGroups s.cues, g.number.val = number.toNat, .groupBusy),
        (∃ ch : Fin 4, channel.toNat = ch.val ∧ 8 ≤ s.cues.queues[ch].length, .queueFull),
        ((∃ x ∈ specificationsOf rest, slotFree s.cues x.slot.toFin = false) ∨
          ¬ ((specificationsOf rest).map (·.slot)).Nodup, .slotBusy),
        (∃ x ∈ specificationsOf rest, NotCueOwned x.lines s, .wrongOwner)] s
      (groupPutRule (number :: channel :: policy :: n :: rest) s) := by
  have hfits : ¬ (rest.length ≠ 13 * n.toNat ∨ Config.maxBody < (number :: channel :: policy :: n :: rest).length) := by
    simp only [List.length_cons, Config.maxBody]
    omega
  have hspecs : (∃ x ∈ specificationsOf rest, CueOutOfRange x.lines x.action x.options x.width x.count x.period ∨
      4000000 < x.offset ∨ 32767 * s.axis.cfg.modulus ≤ x.offset) ↔
      allSome ((specificationsOf rest).map (specificationCue s.axis.cfg.modulus)) = none := by
    simp only [allSome_eq_none, specificationCue_eq_none]
  rw [hspecs]
  unfold groupPutRule
  dsimp only
  rw [if_neg hfits]
  refine .branch (by rw [Option.isSome_iff_ne_none]) fun _ => ?_
  cases hnumber : finOf 32 number with
  | none =>
    have hhigh := finOf_eq_none.1 hnumber
    exact .check (fun _ => rfl) fun h => absurd (Or.inl (by omega)) h
  | some g =>
    cases hchannel : finOf 4 channel with
    | none =>
      have hhigh := finOf_eq_none.1 hchannel
      exact .check (fun _ => rfl) fun h => absurd (Or.inr (Or.inl (by omega))) h
    | some ch =>
      have hg := val_of_finOf hnumber
      have hch := val_of_finOf hchannel
      have hlow : ¬ 31 < number.toNat := by omega
      have hlow' : ¬ 3 < channel.toNat := by omega
      have hchannels : ∀ p : Fin 4 → Prop, (∃ c : Fin 4, channel.toNat = c.val ∧ p c) ↔ p ch := by
        refine fun p => ⟨?_, fun h => ⟨ch, hch, h⟩⟩
        rintro ⟨c, hc, h⟩
        cases Fin.ext (hch.symm.trans hc)
        exact h
      have henabled : (∀ c : Fin 4, channel.toNat = c.val → s.capture.channels[c].cfg.enabled = false) ↔
          s.capture.channels[ch].cfg.enabled = false := by
        refine ⟨fun h => h ch hch, fun h c hc => ?_⟩
        cases Fin.ext (hch.symm.trans hc)
        exact h
      rw [or_iff_right hlow, or_iff_right hlow', ← missPolicyOf_eq_none, henabled]
      cases hpolicy : missPolicyOf policy with
      | none => exact .check (fun _ => rfl) fun h => absurd (Or.inl rfl) h
      | some pol =>
        cases hcues : allSome ((specificationsOf rest).map (specificationCue s.axis.cfg.modulus)) with
        | none => exact .check (fun _ => rfl) fun h => absurd (by simp) h
        | some cues =>
          obtain ⟨hslots, hnodup, hlines⟩ := cues_of_specifications (s := s) hcues
          have hnumbers : (∃ h ∈ queuedGroups s.cues, h.number.val = number.toNat) ↔
              ∃ h ∈ queuedGroups s.cues, h.number = g := by
            simp only [hg, Fin.ext_iff]
          rw [hnumbers, hchannels fun c => 8 ≤ s.cues.queues[c].length, ← hslots, ← hnodup, ← hlines]
          refine .branch ?_ fun _ => putGroup_refuses ⟨g, pol, cues⟩ ch s
          simp [byte_eq_iff (b := n)]

/-! ## CAM_LOAD (R102) -/

/-- EMPTY and FULL take no window. -/
theorem windowless_eq_none {kind : Byte} {ws : List Window} {p : Profile} (h : kind.toNat < 2) :
    (if ws = [] then some p else none) = none ↔
      2 < kind.toNat ∨ (kind.toNat = (2#8).toNat ∧ (ws.length = 0 ∨ 4 < ws.length)) ∨
        (¬ kind.toNat = (2#8).toNat ∧ ws.length ≠ 0) := by
  have hone : kind.toNat ≠ (2#8).toNat := ne_of_lt h
  have htwo : ¬ 2 < kind.toNat := by omega
  simp only [hone, htwo, false_and, false_or, not_false_eq_true, true_and]
  split <;> simp [*]

theorem profileOf_eq_none {kind : Byte} {ws : List Window} : profileOf kind ws = none ↔
    2 < kind.toNat ∨ (kind = 2#8 ∧ (ws.length = 0 ∨ 4 < ws.length)) ∨ (kind ≠ 2#8 ∧ ws.length ≠ 0) := by
  rw [ne_eq, byte_eq_iff]
  unfold profileOf
  split
  · rename_i h
    exact windowless_eq_none (by omega)
  · rename_i h
    exact windowless_eq_none (by omega)
  · rename_i h
    have hone : kind.toNat = (2#8).toNat := h
    split <;> simp only [reduceCtorEq, false_iff, true_iff] <;> omega
  · simp only [true_iff, BitVec.toNat_ofNat]
    simp only [imp_false] at *
    omega

/-- A profile that is read fits the moduli where its windows do (R102). -/
theorem profileFits_eq_false {a : Axis} {kind : Byte} {ws : List Window} {p : Profile} (h : profileOf kind ws = some p) :
    profileFits a p = false ↔ ∃ w ∈ ws, w.on = w.off ∨ AboveModuli a w.on ∨ AboveModuli a w.off := by
  have hnone : ∀ q : Profile, (if ws = [] then some q else none) = some p → q = p ∧ ws = [] := by
    intro q hq
    split at hq
    · rename_i hws
      exact ⟨Option.some.inj hq, hws⟩
    · cases hq
  unfold profileOf at h
  split at h
  · obtain ⟨rfl, rfl⟩ := hnone _ h
    exact iff_of_false nofun fun ⟨_, hw, _⟩ => nomatch hw
  · obtain ⟨rfl, rfl⟩ := hnone _ h
    exact iff_of_false nofun fun ⟨_, hw, _⟩ => nomatch hw
  · split at h
    · cases h
      simp only [profileFits, profileBounds, Bool.and_eq_false_iff, List.all_eq_false, List.mem_flatMap, Bool.not_eq_true,
        aboveModuli_iff, decide_eq_false_iff_not, not_not]
      constructor
      · rintro (⟨b, ⟨w, hw, hb⟩, habove⟩ | ⟨w, hw, hsame⟩)
        · rcases List.mem_cons.1 hb with rfl | hb
          · exact ⟨w, hw, .inr (.inl habove)⟩
          · cases List.mem_singleton.1 hb
            exact ⟨w, hw, .inr (.inr habove)⟩
        · exact ⟨w, hw, .inl hsame⟩
      · rintro ⟨w, hw, hsame | habove | habove⟩
        · exact .inr ⟨w, hw, hsame⟩
        · exact .inl ⟨w.on, ⟨w, hw, List.mem_cons_self⟩, habove⟩
        · exact .inl ⟨w.off, ⟨w, hw, List.mem_cons_of_mem _ (List.mem_singleton_self _)⟩, habove⟩
    · cases h
  · cases h

theorem camLoadRule_refuses (track options t1 t0 kind c : Byte) (rest : List Byte) (s : State)
    (hlength : rest.length = 8 * c.toNat) (hbody : rest.length ≤ 242) : RefusesFirst
      [(options.getLsbD 0 = true ∧ s.seq.state ≠ .idle, .wrongState),
        (7 < track.toNat ∨ 1 < options.toNat ∨ 10000 < num16 t1 t0 ∨ 2 < kind.toNat ∨
          (kind = 2#8 ∧ (c = 0#8 ∨ 4 < c.toNat)) ∨ (kind ≠ 2#8 ∧ c ≠ 0#8) ∨
          ∃ w ∈ windowsOf rest, w.on = w.off ∨ AboveModuli s.axis w.on ∨ AboveModuli s.axis w.off, .badValue)] s
      (camLoadRule (track :: options :: t1 :: t0 :: kind :: c :: rest) s) := by
  have hfits : ¬ (rest.length ≠ 8 * c.toNat ∨ Config.maxBody < (track :: options :: t1 :: t0 :: kind :: c :: rest).length) := by
    simp only [List.length_cons, Config.maxBody]
    omega
  have hwindows := windowsOf_length c.toNat rest hlength
  have hzero : c = 0#8 ↔ c.toNat = 0 := byte_eq_iff
  have hprofiles := profileOf_eq_none (kind := kind) (ws := windowsOf rest)
  rw [hwindows, ← hzero, ne_eq c.toNat, ← hzero] at hprofiles
  unfold camLoadRule
  dsimp only
  rw [if_neg hfits]
  refine .branch Iff.rfl fun _ => .check (fun hbad => ?_) fun _ => .none
  cases htrack : finOf 8 track with
  | none => rfl
  | some n =>
    have hlow := not_none finOf_eq_none htrack
    cases hprofile : profileOf kind (windowsOf rest) with
    | none => rfl
    | some p =>
      have hgood := not_none hprofiles hprofile
      refine if_pos ?_
      rw [profileFits_eq_false hprofile]
      have hseven : ¬ 7 < track.toNat := by omega
      rcases hbad with h | h | h | h | h | h | h
      · exact absurd h hseven
      · exact .inr (.inl h)
      · exact .inl h
      · exact absurd (.inl h) hgood
      · exact absurd (.inr (.inl h)) hgood
      · exact absurd (.inr (.inr h)) hgood
      · exact .inr (.inr h)

/-- Settles O50. -/
theorem unknownKindAndBadLengthChangeNothing : Obligations.UnknownKindAndBadLengthChangeNothing := by
  intro s hready
  refine ⟨fun f => ⟨unknownKind_kept hready, badLength_kept hready⟩, fun tag source k m3 m2 m1 m0 m hm => ?_,
    fun tag p3 p2 p1 p0 => ?_, fun tag slot l1 l0 action c1 c0 p3 p2 p1 p0 options w1 w0 count period late => ?_,
    fun tag slot => ?_, fun tag channel enable input edge gate a3 a2 a1 a0 b3 b2 b1 b0 n3 n2 n1 n0 => ?_,
    fun tag number channel policy n rest hlength hbody => ?_, fun tag track options t1 t0 kind c rest hlength hbody => ?_,
    fun tag line owner polarity driver safe time => ?_, fun tag input fn mode filter => ?_⟩
  · subst hm
    exact refusedInOrder hready (by decide) rfl (axisSetupRule_refuses source k m3 m2 m1 m0 (heard s))
  · exact refusedInOrder hready (by decide) rfl (axisHomeRule_refuses p3 p2 p1 p0 (heard s))
  · exact refusedInOrder hready (by decide) rfl
      (cuePutRule_refuses slot l1 l0 action c1 c0 p3 p2 p1 p0 options w1 w0 count period late (heard s))
  · exact refusedInOrder hready (by decide) rfl (cueCancelRule_refuses slot (heard s))
  · exact refusedInOrder hready (by decide) rfl
      (captureSetupRule_refuses channel enable input edge gate a3 a2 a1 a0 b3 b2 b1 b0 n3 n2 n1 n0 (heard s))
  · exact refusedInOrder hready (by decide) rfl (groupPutRule_refuses number channel policy n rest (heard s) hlength hbody)
  · exact refusedInOrder hready (by decide) rfl (camLoadRule_refuses track options t1 t0 kind c rest (heard s) hlength hbody)
  · exact refusedInOrder hready (by decide) rfl (lineSetupRule_refuses line owner polarity driver safe time (heard s))
  · exact refusedInOrder hready (by decide) rfl (inputSetupRule_refuses input fn mode filter (heard s))

end Sys2Proof.Machine
end
